-- ==== Sys2Proof/Word.lean ====
section
/-! DEFINITION. The words of the part: a byte of the trunk, an audio sample, a zone set (R190, 00_scope Units, 11.6). -/

namespace Sys2Proof

/-- One byte of a trunk cell, a message or a zone report. -/
abbrev Byte := BitVec 8

/-- One audio sample: 16 bits, two's complement (00_scope, Units). -/
abbrev Sample := BitVec 16

/-- A set of zones as its word: bit z is set when zone z is in the set (11.6). -/
abbrev ZoneSet := BitVec 32

end Sys2Proof
end

