-- ==== Sys2Proof/Config.lean ====
section
/-! DEFINITION. What the part fixes once and for all (ranges and limits the rules name), and the values the
manual leaves open: constants without a body, so that nothing can be proved of what they are. -/

namespace Sys2Proof.Config

/-- The last instant of a service day (00_scope, Station time). -/
abbrev maxTime : Nat := 107999

/-- The largest value of a 32-bit counter (R185). -/
abbrev maxCount : Nat := 4294967295

/-- Places in the announcement pool (R86). -/
abbrev poolSize : Nat := 96

/-- Messages the command queue holds (R180). -/
abbrev queueSize : Nat := 8

/-- Entries the notice FIFO holds (R184). -/
abbrev noticeSize : Nat := 32

/-- Responses the response store holds (R183). -/
abbrev responseSize : Nat := 2

/-- Sample addresses of phrase memory (R150). -/
abbrev phraseSize : Nat := 33554432

/-- FREE VALUE: what a sample address of phrase memory reads as when nothing has defined it since the reset
numbered by the first argument (R152: "The content is undefined"). Log 8. -/
opaque undefinedSample : Nat → Nat → BitVec 16

/-- FREE VALUE: the confirm_timeout of a LIVE or EMERGENCY record, of which R98 and R100 state none. Log 9. -/
opaque unstatedConfirmTimeout : Nat → Nat

/-- FREE VALUE: whether the timeout_policy of a LIVE or EMERGENCY record is PLAY_ANYWAY. Log 9. -/
opaque unstatedPlayAnyway : Nat → Bool

/-- FREE VALUE: the repeat_interval of a LIVE or EMERGENCY record. Log 9. -/
opaque unstatedRepeatInterval : Nat → Nat

end Sys2Proof.Config
end

