-- ==== Sys2Proof/Syntax.lean ====
section
/-! DEFINITION. The steps of the part: one constructor for each row of spec/opcode_table.json.

A row that is a COMMAND of the operations computer carries no operand here: the command's operands are the bytes
of the message at the head of the command queue (R182), which the machine's state holds. A row that comes from
outside (a cell, a zone report, the straps, the self-check's result) carries what comes in. A row that takes one
of several waiting events names the call, record, channel, stream or zone it is about (log 2, 5). -/

namespace Sys2Proof

/-- What self-check found (R187): it passed, or the first failing test with its minor number and parameter. -/
inductive SelfCheckResult where
  | pass
  | fail (major minor parameter : Nat)
  deriving DecidableEq, Repr

/-- What comes in with ZONE_REPORT: the four bytes of the report (R172, 11.8), and which of the two notices that it may
raise reaches the notice FIFO first, the ZONE_STATE or the SENSOR_FAULT, which R175 leaves open (log 39). -/
structure ZoneReport where
  bytes : List Byte
  zoneStateFirst : Bool
  deriving DecidableEq, Repr

/-- One step of the part, by row of spec/opcode_table.json. -/
inductive Instr where
  /-- POWER_ON_RESET (R186): Power-on puts every block into its reset values, reads the unit address from the straps and enters SELF_CHECK. -/
  | powerOnReset (straps : Byte)
  /-- SELF_CHECK_END (R187): Self-check finishes its tests and the part enters STANDBY on a pass or FAILED on a failure; the clock, mixer and zone link start and a START_REPORT is queued. -/
  | selfCheckEnd (result : SelfCheckResult)
  /-- RESET_AFTER_RESPONSE (R188): Once the last cell of the RESET_PART response has been sent, the part is reset with the chosen option and enters SELF_CHECK. -/
  | resetAfterResponse (straps : Byte)
  /-- SECOND_ELAPSES (R3): A second of the local timebase elapses: T advances or holds at saturation, the mark age grows and an ADVANCE is handed on. -/
  | secondElapses
  /-- FREEWHEEL_ENTERED (R8): The mark age reaches 60 with the freewheel flag clear, so the flag is set and a FREEWHEEL ENTERED notice is raised. -/
  | freewheelEntered
  /-- DOWNSTREAM_CELL (R177): A downstream trunk cell is taken: it is discarded in SELF_CHECK, then its header CRC and destination are checked and it is passed on by kind. -/
  | downstreamCell (cell : List Byte)
  /-- REASSEMBLY_TIMEOUT (R178): A partial message whose cell age passes 100 ms is discarded and counted. -/
  | reassemblyTimeout
  /-- UPSTREAM_SEND (R183): When the link can send a cell, the interface sends a flow cell, a monitor cell, a response cell or a notice, in that order of preference. -/
  | upstreamSend
  /-- UNKNOWN_COMMAND_CODE (R182): A queued message whose command code is none of those known is answered BAD_CODE. -/
  | unknownCommandCode
  /-- READ_STATUS (R189): Reports the part state, unit address, clock group, last start report, queues, notice FIFO and notice mask. -/
  | readStatus
  /-- READ_STATS (R185): Reports all 177 statistics counters and clears them in the same act if the clear flag is set. -/
  | readStats
  /-- SET_NOTICE_MASK (R184): Replaces the notice enable mask. -/
  | setNoticeMask
  /-- RESET_PART_FULL (R188): RESET_PART with the FULL option is answered OK and stops command execution until the reset is made. -/
  | resetPartFull
  /-- RESET_PART_KEEP_PHRASES (R188): RESET_PART with the KEEP_PHRASES option is answered OK and stops command execution until the reset is made, keeping phrase memory and the directory. -/
  | resetPartKeepPhrases
  /-- OPEN_DAY (R9): Opens a service day with a day number, origin hour and start T, and moves the part to RUNNING. -/
  | openDay
  /-- CLOSE_DAY (R10): Closes the service day, empties the call table, withdraws the call-based records and moves the part to STANDBY. -/
  | closeDay
  /-- LOAD_CALLS (R20): Loads up to 32 call entries into consecutive slots, checking each in turn and stopping at the first entry that fails. -/
  | loadCalls
  /-- UPDATE_CALL_ARRIVED (R25): Reports that the train stands at its platform and moves the call to AT_PLATFORM. -/
  | updateCallArrived
  /-- UPDATE_CALL_DEPARTING (R26): Reports that the train is about to leave and moves the call to DEPARTING. -/
  | updateCallDeparting
  /-- UPDATE_CALL_GONE (R27): Reports that the call is over, moves it to FINISHED and sets its retention. -/
  | updateCallGone
  /-- UPDATE_CALL_CANCEL (R28): Cancels the call and passes CANCELLED to the pool before STATE_ENTRY(CANCELLED) to the Trigger Unit. -/
  | updateCallCancel
  /-- UPDATE_CALL_DELAY (R29): Replaces the call's delay, recomputes E and passes a DELAY_CHANGE when the delay changes. -/
  | updateCallDelay
  /-- UPDATE_CALL_PLATFORM (R30): Sets, changes, clears or confirms the call's platform and passes the platform events R31 calls for. -/
  | updateCallPlatform
  /-- FREE_CALL (R32): Empties the slot of a FINISHED or CANCELLED call and passes CALL_REMOVED to the pool. -/
  | freeCall
  /-- READ_CALL (R37): Reports one call record, chosen by call_ref or by slot index. -/
  | readCall
  /-- LOAD_PATTERNS (R36): Loads up to 8 calling-pattern entries into consecutive pattern ids. -/
  | loadPatterns
  /-- READ_PATTERN (R38): Reports one pattern table entry. -/
  | readPattern
  /-- LOAD_PLANS (R43): Loads up to 4 plan entries into consecutive plan ids. -/
  | loadPlans
  /-- READ_PLAN (R44): Reports one plan entry with all its steps. -/
  | readPlan
  /-- LOAD_SCRIPTS (R68): Loads up to 8 script entries and sets each one's needs-call flag. -/
  | loadScripts
  /-- LOAD_NUMBERS (R69): Loads number table entries from a first index. -/
  | loadNumbers
  /-- LOAD_FRAGMENTS (R71): Loads up to 64 fragment directory entries. -/
  | loadFragments
  /-- READ_SCRIPT (R72): Reports one script table entry. -/
  | readScript
  /-- READ_NUMBERS (R72): Reports a range of number table entries. -/
  | readNumbers
  /-- READ_FRAGMENTS (R72): Reports a range of fragment directory entries. -/
  | readFragments
  /-- ANNOUNCE (R97): Creates a COMMAND record for a scripted announcement after checking its fields and call. -/
  | announce
  /-- LIVE_PAGE_BEGIN (R98): Creates a LIVE record for a live page on a stream, which enters READY at once. -/
  | livePageBegin
  /-- LIVE_PAGE_END (R99): Ends the live page on a stream, COMPLETED if playing or WITHDRAWN if not started. -/
  | livePageEnd
  /-- EMERGENCY_BEGIN (R100): Creates a class-0 EMERGENCY record, evicting a waiting record if the pool is full. -/
  | emergencyBegin
  /-- EMERGENCY_END (R102): Ends one or all EMERGENCY records, withdrawing READY ones and setting end_requested on PLAYING ones. -/
  | emergencyEnd
  /-- CONFIRM (R90): Sends a HELD record to READY. -/
  | confirm
  /-- REJECT (R90): Ends a HELD record with outcome REJECTED. -/
  | reject
  /-- WITHDRAW (R103): Ends one named record WITHDRAWN with reason COMMAND, fading it if it is playing. -/
  | withdraw
  /-- CLEAR_ANNOUNCEMENTS (R103): Withdraws every record in the pool in ascending seq with reason CLEARED. -/
  | clearAnnouncements
  /-- READ_ANNOUNCEMENT (R110): Reports every field of one record. -/
  | readAnnouncement
  /-- READ_POOL (R110): Reports a summary of every record present, in ascending seq. -/
  | readPool
  /-- LOAD_ZONES (R112): Loads zone configuration entries, resets their smoothed ambient and judges availability again where the enabled flag changes. -/
  | loadZones
  /-- LOAD_PLATFORM_MAP (R114): Loads platform map zone sets. -/
  | loadPlatformMap
  /-- LOAD_GROUPS (R115): Loads group value and mask pairs. -/
  | loadGroups
  /-- READ_ZONES (R116): Reports zone table entries with their holders and availability. -/
  | readZones
  /-- READ_MAPS (R116): Reports the platform map, the group table and the current group members. -/
  | readMaps
  /-- WRITE_PHRASE (R150): Checks a phrase memory write and makes it the pending write, which waits for the port. -/
  | writePhrase
  /-- READ_CHANNEL (R153): Reports the full state and fragment list of one playback channel. -/
  | readChannel
  /-- MONITOR (R167): Selects the monitored zone or OFF and discards any partly gathered cell. -/
  | monitor
  /-- READ_LEVELS (R168): Reports level state per zone, stream buffer state and the monitor selection. -/
  | readLevels
  /-- READ_LINK (R176): Reports link state, report age, ambient, sensor fault and the usable, enabled and available flags per zone. -/
  | readLink
  /-- CALL_REGISTER_TIME_CHANGE (R23): A change of T reaches the Call Register, which makes the due checks for PLANNED calls. -/
  | callRegisterTimeChange
  /-- RETENTION (R33): A FINISHED or CANCELLED call whose retain_until is reached is freed and CALL_REMOVED is passed. -/
  | retention (slot : Nat)
  /-- TRIGGER_EVALUATION (R48): A change of T reaches the Trigger Unit, which evaluates every call's time-anchored steps and retry entries. -/
  | triggerEvaluation
  /-- LOADED (R48): The Trigger Unit takes a LOADED event and evaluates the call. -/
  | loaded (slot : Nat)
  /-- STATE_ENTRY (R61): The Trigger Unit takes STATE_ENTRY(s), fires ON_STATE steps, sends STEP_LEFT for steps no longer valid and evaluates the call. -/
  | stateEntry (slot : Nat)
  /-- DELAY_CHANGE (R58): The Trigger Unit takes a DELAY_CHANGE, fires ON_DELAY_CHANGE steps past their threshold and evaluates the call. -/
  | delayChange (slot : Nat)
  /-- PLATFORM_SET (R57): The Trigger Unit takes PLATFORM_SET, fires ON_PLATFORM_SET steps and evaluates the call. -/
  | platformSet (slot : Nat)
  /-- PLATFORM_CHANGE (R57): The Trigger Unit takes PLATFORM_CHANGE, fires ON_PLATFORM_CHANGE steps and evaluates the call. -/
  | platformChange (slot : Nat)
  /-- PLATFORM_CLEARED (R48): The Trigger Unit takes PLATFORM_CLEARED and evaluates the call. -/
  | platformCleared (slot : Nat)
  /-- COMPLETED (R62): The Trigger Unit takes a COMPLETED event and requests a REPEAT record if the conditions hold. -/
  | completed
  /-- PLATFORM_MOVED (R104): The pool restarts holds, and supersedes or restarts playing records, of a call whose platform moved, then causes a pass. -/
  | platformMoved (slot : Nat)
  /-- CANCELLED (R106): The pool withdraws every record of a cancelled call with reason CANCELLED. -/
  | cancelled (slot : Nat)
  /-- PROVISIONAL_CLEARED (R105): The pool sends the call's HELD IF_PROVISIONAL records to READY. -/
  | provisionalCleared (slot : Nat)
  /-- CALL_REMOVED (R106): The pool withdraws every record of a removed call with reason CALL_REMOVED. -/
  | callRemoved (slot : Nat)
  /-- POOL_JUDGEMENT (R89): A change of T reaches the pool, and QUEUED records whose earliest has come enter HELD or READY. -/
  | poolJudgement
  /-- HOLD_TIMEOUT (R91): A HELD record's confirm_timeout runs out, and it enters READY under PLAY_ANYWAY or ends DISCARDED. -/
  | holdTimeout (annId : Nat)
  /-- EXPIRY (R92): A waiting record whose latest has passed ends EXPIRED. -/
  | expiry (annId : Nat)
  /-- ARBITRATION_PASS (R121): The Zone Arbiter takes the READY records in class and eligibility order, grants zones and channels, and starts records. -/
  | arbitrationPass
  /-- FETCH_GRANT (R145): With the port FREE, the arbiter grants a fetch request, urgent bank first, and issues a burst. -/
  | fetchGrant
  /-- BURST_COMPLETION (R146): A burst completes, the port becomes FREE and the samples enter the FIFO if the channel and grant value still match. -/
  | burstCompletion
  /-- PHRASE_WRITE_START (R151): With the port FREE and no fetch request set, the pending write is checked again for overlap and begun, or refused IN_USE. -/
  | phraseWriteStart
  /-- PHRASE_WRITE_COMPLETE (R151): The phrase write completes, the port becomes FREE and WRITE_PHRASE is answered OK. -/
  | phraseWriteComplete
  /-- CHANNEL_END (R143): A DRAINING channel outputs its last sample and either enters GAP or becomes IDLE and reports END, completing the record. -/
  | channelEnd (channel : Nat) (residualFirst : Bool)
  /-- GAP_END (R144): A latched emergency's gap time reaches 2000 ms and the channel enters PREFILL. -/
  | gapEnd (channel : Nat)
  /-- UNDERRUN_ABORT (R147): An underrun run reaches 1600 sample periods and the record ends ABORTED with reason UNDERRUN. -/
  | underrunAbort (channel : Nat)
  /-- SAMPLE_PERIOD (R163): Each sample period, the channels output, the stream buffers deliver, every zone's sample is mixed and sent, and the monitor tap gathers. -/
  | samplePeriod
  /-- BLOCK (R159): Each block ramps the background attenuations, ages the release ages and stream cell ages, and advances the tails. -/
  | block
  /-- STREAM_LOST (R166): A stream's cell age reaches 5000 ms, its sequence restarts, and a LIVE record naming it ends ABORTED with reason STREAM_LOST. -/
  | streamLost (stream : Nat)
  /-- ZONE_REPORT (R172): A zone report is taken, refreshing the report age and link state and passing on the ambient reading and any usable change. -/
  | zoneReport (report : ZoneReport)
  /-- AMBIENT_READING (R155): An ambient reading is applied to the smoothed ambient, ignored while the zone is frozen, or resets it to A_ref on a sensor fault. -/
  | ambientReading (zone : Nat)
  /-- LINK_LOST (R174): A zone's report age reaches 1000 ms and its link state becomes LINK_LOST. -/
  | linkLost (zone : Nat)
  /-- RESET_PART_BAD_OPTION (R188): RESET_PART carrying an option other than FULL or KEEP_PHRASES is refused with BAD_VALUE and no reset follows. -/
  | resetPartBadOption
  /-- UPDATE_CALL_BAD_UPDATE (R190): UPDATE_CALL whose update code is none of ARRIVED, DEPARTING, GONE, CANCEL, DELAY and PLATFORM is refused with BAD_VALUE and leaves the call table unchanged. -/
  | updateCallBadUpdate
  deriving DecidableEq, Repr

end Sys2Proof
end

