-- ==== Sys2Proof/WellFormed.lean ====
section
/-! DEFINITION. Which steps are well-formed: a cell has 68 bytes, a zone report 4, an index lies in its range,
and a self-check failure names a test of R187 with a parameter that test can give. -/

namespace Sys2Proof

/-- The failures the table of R187 lists: major test, minor number, parameter. The word index of test 1 is written
in 4 bytes (11.7); the address of test 2 is 0 or 2^k for k = 0..24; the march of test 3 covers 0..262,143. -/
def SelfCheckResult.wellFormed : SelfCheckResult → Bool
  | .pass => true
  | .fail 1 minor parameter => 1 ≤ minor && minor ≤ 10 && parameter < 4294967296
  | .fail 2 minor parameter => minor == 1 && (parameter == 0 || (List.range 25).any fun k => parameter == 2 ^ k)
  | .fail 3 minor parameter => 1 ≤ minor && minor ≤ 4 && parameter < 262144
  | .fail _ _ _ => false

/-- The operands of a step lie in the ranges the manual gives them (00_scope Identifiers, 11.2, 11.8). -/
def Instr.wellFormed : Instr → Bool
  | .selfCheckEnd result => result.wellFormed
  | .downstreamCell cell => cell.length == 68
  | .zoneReport report => report.bytes.length == 4
  | .retention slot | .loaded slot | .stateEntry slot | .delayChange slot | .platformSet slot
  | .platformChange slot | .platformCleared slot | .platformMoved slot | .cancelled slot
  | .provisionalCleared slot | .callRemoved slot => slot < 512
  | .holdTimeout annId | .expiry annId => 1 ≤ annId && annId ≤ 65535
  | .channelEnd channel _ | .gapEnd channel | .underrunAbort channel => channel < 6
  | .streamLost stream => stream < 6
  | .ambientReading zone | .linkLost zone => zone < 32
  | .powerOnReset _ | .resetAfterResponse _ | .secondElapses | .freewheelEntered | .reassemblyTimeout
  | .upstreamSend | .unknownCommandCode | .readStatus | .readStats | .setNoticeMask | .resetPartFull
  | .resetPartKeepPhrases | .openDay | .closeDay | .loadCalls | .updateCallArrived | .updateCallDeparting
  | .updateCallGone | .updateCallCancel | .updateCallDelay | .updateCallPlatform | .freeCall | .readCall
  | .loadPatterns | .readPattern | .loadPlans | .readPlan | .loadScripts | .loadNumbers | .loadFragments
  | .readScript | .readNumbers | .readFragments | .announce | .livePageBegin | .livePageEnd
  | .emergencyBegin | .emergencyEnd | .confirm | .reject | .withdraw | .clearAnnouncements
  | .readAnnouncement | .readPool | .loadZones | .loadPlatformMap | .loadGroups | .readZones | .readMaps
  | .writePhrase | .readChannel | .monitor | .readLevels | .readLink | .callRegisterTimeChange
  | .triggerEvaluation | .completed | .poolJudgement | .arbitrationPass | .fetchGrant | .burstCompletion
  | .phraseWriteStart | .phraseWriteComplete | .samplePeriod | .block | .resetPartBadOption
  | .updateCallBadUpdate => true

end Sys2Proof
end

