-- ==== Sys2Proof/Decode.lean ====
section
/-! DEFINITION. The words of spec/opcode_table.json. The table gives no row any bits (every row's "fields" is
empty and no row has a match or mask), so no word spells a row, and the decoder answers none on every word. The
part's own byte formats (cells, messages, reports) are read in Machine/Operands.lean and Machine/TrunkSteps.lean. -/

namespace Sys2Proof

/-- The step that a word of `nbits` bits spells by the table's bits: none, since the table gives none. Log 3. -/
def decodeTableWord (_nbits _w : Nat) : Option Instr := none

end Sys2Proof
end

