-- ==== Sys2Proof/Machine/Table.lean ====
section
/-! DEFINITION. Tables: the part's sparse or indexed stores, as lists of (index, entry) with rising indexes. An
index that is not listed is an entry that is empty or not loaded, or that holds the table's reset value. -/

namespace Sys2Proof.Machine

/-- A table: entries by index, the indexes strictly rising. -/
abbrev Tab (α : Type) := List (Nat × α)

/-- The entry at an index, if one is listed. -/
def tabGet {α : Type} : Tab α → Nat → Option α
  | [], _ => none
  | (j, v) :: rest, i => if i = j then some v else tabGet rest i

/-- The entry at an index, or the value the table holds where none is listed. -/
def tabGetD {α : Type} (t : Tab α) (i : Nat) (d : α) : α := (tabGet t i).getD d

/-- The table with one entry written: in place of the one listed at that index, or in its place among the rest. -/
def tabSet {α : Type} : Tab α → Nat → α → Tab α
  | [], i, v => [(i, v)]
  | (j, w) :: rest, i, v =>
    if i = j then (i, v) :: rest
    else if i < j then (i, v) :: (j, w) :: rest
    else (j, w) :: tabSet rest i v

/-- The table with no entry listed at an index. -/
def tabDel {α : Type} : Tab α → Nat → Tab α
  | [], _ => []
  | (j, w) :: rest, i => if i = j then rest else (j, w) :: tabDel rest i

/-- An entry that may be absent, written: present entries are listed, absent ones are not. -/
def tabPut {α : Type} (t : Tab α) (i : Nat) : Option α → Tab α
  | some v => tabSet t i v
  | none => tabDel t i

/-- Writes an entry of a table whose unlisted entries hold `d`: an entry equal to `d` is not listed. -/
def tabSetD {α : Type} [DecidableEq α] (t : Tab α) (i : Nat) (d v : α) : Tab α :=
  if v = d then tabDel t i else tabSet t i v

/-- Every listed entry changed. -/
def tabMap {α : Type} (f : Nat → α → α) (t : Tab α) : Tab α := t.map fun p => (p.1, f p.1 p.2)

/-- One listed entry changed; an unlisted one stays unlisted. -/
def tabUpd {α : Type} (t : Tab α) (i : Nat) (f : α → α) : Tab α :=
  match tabGet t i with
  | some v => tabSet t i (f v)
  | none => t

/-- A table that lists the indexes 0..n-1, each with the same entry. -/
def tabFill {α : Type} (n : Nat) (v : α) : Tab α := (List.range n).map fun i => (i, v)

/-- The indexes of a table rise strictly. -/
def tabRising {α : Type} : Tab α → Bool
  | [] => true
  | [_] => true
  | (i, _) :: (j, w) :: rest => decide (i < j) && tabRising ((j, w) :: rest)

/-- The zones of a set, in ascending order. -/
def zonesOf (z : ZoneSet) : List Nat := (List.range 32).filter fun i => z.getLsbD i

/-- The set of the zones listed. -/
def zoneSetOf : List Nat → ZoneSet
  | [] => 0#32
  | z :: rest => (BitVec.twoPow 32 z) ||| zoneSetOf rest

/-- One step of sorting by a `before` relation: `x` goes in front of the first entry that is not before it. -/
def insertBy {α : Type} (before : α → α → Bool) (x : α) : List α → List α
  | [] => [x]
  | y :: rest => if before y x then y :: insertBy before x rest else x :: y :: rest

/-- A list sorted by a `before` relation; entries of which neither is before the other keep their order. -/
def sortBy {α : Type} (before : α → α → Bool) : List α → List α
  | [] => []
  | x :: rest => insertBy before x (sortBy before rest)

end Sys2Proof.Machine
end

