-- ==== Sys2Proof/Machine/Types.lean ====
section
/-! DEFINITION. The kinds of thing the part's tables, records, queues and notices hold, chapter by chapter. -/

namespace Sys2Proof.Machine

/-! ### Management over the Trunk -/

/-- The part state (R186). -/
inductive PartState where
  | selfCheck | failed | standby | running
  deriving DecidableEq, Repr

/-- The options of RESET_PART (R188). -/
inductive ResetOption where
  | full | keepPhrases
  deriving DecidableEq, Repr

/-- The cause a START_REPORT gives (R187). -/
inductive ResetCause where
  | powerOn | resetFull | resetKeepPhrases
  deriving DecidableEq, Repr

/-- What a START_REPORT carries besides the unit address (R187). -/
structure StartReport where
  passed : Bool
  cause : ResetCause
  major : Nat
  minor : Nat
  parameter : Nat
  deriving DecidableEq, Repr

/-- The status codes of a response (00_scope; 11.3). -/
inductive Status where
  | ok | badLength | badCode | badIndex | badValue | badState | slotBusy | duplicateRef
  | notRunning | noSuchCall | noSuchAnn | poolFull | tooLate | inUse | failedPart
  deriving DecidableEq, Repr

/-- A complete management message: its L bytes, header included, and whether it came as a broadcast (R179). -/
structure Message where
  bytes : List Byte
  broadcast : Bool
  deriving DecidableEq, Repr

/-- The message in progress in the reassembly buffer (R178): the payload bytes taken so far (64 for each cell), the
sequence number expected next, whether it is a broadcast, and its cell age in ms. -/
structure Reassembly where
  data : List Byte
  nextSeq : Nat
  broadcast : Bool
  age : Nat
  deriving DecidableEq, Repr

/-- What a FLOW cell carries (R181). -/
inductive Flow where
  | pause | resume
  deriving DecidableEq, Repr

/-- A stream-6 cell: the monitor tap's sequence number and 32 samples (R167). -/
structure MonitorCell where
  seq : Nat
  samples : List Sample
  deriving DecidableEq, Repr

/-- The buffer of one trunk audio stream (R164, R165): the cells held, oldest first, how many samples of the oldest
have been delivered, the expected sequence number and the cell age in ms. -/
structure StreamBuffer where
  cells : List (List Sample)
  pos : Nat
  expected : Option Nat
  age : Nat
  deriving DecidableEq, Repr

/-! ### Station Time -/

/-- The day state (R1). -/
inductive DayState where
  | noDay | opened
  deriving DecidableEq, Repr

/-- The kinds of a change of T (R4). -/
inductive ChangeKind where
  | advance | forward | backward
  deriving DecidableEq, Repr

/-- A change of T as it is handed on (R4). -/
structure TimeChange where
  kind : ChangeKind
  prev : Nat
  new : Nat
  deriving DecidableEq, Repr

/-! ### The Call Register -/

/-- What the train does at the platform (R15). -/
inductive CallKind where
  | arrival | departure | movement
  deriving DecidableEq, Repr

/-- The states of a call record (R15); EMPTY is the absence of a record. -/
inductive CallState where
  | planned | due | atPlatform | departing | finished | cancelled
  deriving DecidableEq, Repr

/-- The status of a plan step for one call (R46). -/
inductive StepStatus where
  | armed | fired | skipped
  deriving DecidableEq, Repr

/-- One step status entry (R46). -/
structure StepEntry where
  status : StepStatus
  eAtFire : Nat
  deriving DecidableEq, Repr

/-- A call record (R15). -/
structure CallRec where
  callRef : Nat
  kind : CallKind
  plan : Nat
  platform : Nat
  provisional : Bool
  sched : Nat
  delay : Int
  expected : Nat
  place : Nat
  pattern : Option Nat
  state : CallState
  stateSince : Nat
  retainUntil : Option Nat
  steps : List StepEntry
  deriving DecidableEq, Repr

/-- An event the Call Register passes, naming its call by slot and call_ref (R34). -/
structure CallEvent (κ : Type) where
  slot : Nat
  callRef : Nat
  what : κ
  deriving DecidableEq, Repr

/-- The events passed to the Trigger Unit (R34). -/
inductive TriggerEvent where
  | loaded
  | stateEntry (s : CallState)
  | delayChange (prevE newE : Nat)
  | platformSet (platform : Nat)
  | platformChange (prev platform : Nat)
  | platformCleared (prev : Nat)
  deriving DecidableEq, Repr

/-- An event at the Trigger Unit, with the call record as the command or change of T that passed it left it (R35). -/
structure PassedEvent where
  event : TriggerEvent
  call : CallRec
  deriving DecidableEq, Repr

/-- The events passed to the Announcement Pool (R34). -/
inductive PoolEvent where
  | platformMoved (prev platform : Nat)
  | cancelled
  | provisionalCleared
  | callRemoved
  deriving DecidableEq, Repr

/-! ### Plans -/

/-- What makes a plan step fire (R42). -/
inductive Anchor where
  | expectedLead | scheduledLead
  | onState (s : CallState)
  | onPlatformSet | onPlatformChange | onDelayChange
  deriving DecidableEq, Repr

/-- A zone selector (R117). -/
inductive Selector where
  | explicit (zones : ZoneSet)
  | platform (p : Nat)
  | callPlatform
  | group (g : Nat)
  | callPlatformAndGroup (g : Nat)
  | all
  deriving DecidableEq, Repr

/-- How zones are taken: WHOLE or PARTIAL (R42). -/
inductive Policy where
  | whole | part
  deriving DecidableEq, Repr

/-- The confirm mode (R42). -/
inductive Confirm where
  | never | always | ifProvisional
  deriving DecidableEq, Repr

/-- The timeout_policy (R42). -/
inductive TimeoutPolicy where
  | playAnyway | discard
  deriving DecidableEq, Repr

/-- One step of a plan (R42). The valid states are six bits in the order of the plan step layout (11.9). -/
structure PlanStep where
  anchor : Anchor
  lead : Nat
  minDelay : Nat
  group : Nat
  valid : BitVec 6
  window : Nat
  repeats : Nat
  repeatInterval : Nat
  script : Nat
  selector : Selector
  cls : Nat
  policy : Policy
  residual : Bool
  restartable : Bool
  confirm : Confirm
  confirmTimeout : Nat
  timeoutPolicy : TimeoutPolicy
  deriving DecidableEq, Repr

/-- A loaded plan (R41). -/
structure Plan where
  dueLead : Nat
  steps : List PlanStep
  deriving DecidableEq, Repr

/-- An entry of the retry set (R46): the pending time is present for an event-anchored step. -/
structure RetryEntry where
  slot : Nat
  callRef : Nat
  step : Nat
  pendingTime : Option Nat
  deriving DecidableEq, Repr

/-! ### Scripts -/

/-- An item of a script (R67). -/
inductive Item where
  | fragment (id : Nat)
  | chime (id loops : Nat)
  | gap (ms : Nat)
  | place
  | platform
  | time (expected : Bool)
  | delay
  | calling
  deriving DecidableEq, Repr

/-- A loaded script (R66). -/
structure Script where
  items : List Item
  needsCall : Bool
  deriving DecidableEq, Repr

/-- An entry of the fragment directory (R70). -/
structure DirEntry where
  address : Nat
  length : Nat
  trim : Int
  deriving DecidableEq, Repr

/-- An element of a fragment list (R74): copies of the directory fields, or a silence in ms. -/
inductive Element where
  | fragment (id loops address length : Nat) (trim : Int)
  | silence (ms : Nat)
  deriving DecidableEq, Repr

/-- The first missing element of an expansion (R80). -/
inductive Missing where
  | fragmentId (id : Nat)
  | numberIndex (n : Nat)
  deriving DecidableEq, Repr

/-! ### The Announcement Pool -/

/-- What created a record (R86); `repeated` is REPEAT. -/
inductive Origin where
  | step | repeated | command | live | emergency | residual
  deriving DecidableEq, Repr

/-- Where a record stands (R86). -/
inductive RecState where
  | queued | held | ready | playing
  deriving DecidableEq, Repr

/-- What a creation request carries (R88): the fields of R86 that whoever asks for the announcement gives. The call
is its slot and call_ref together. -/
structure Ask where
  origin : Origin
  call : Option (Nat × Nat)
  step : Option Nat
  script : Option Nat
  stream : Option Nat
  cls : Nat
  selector : Selector
  policy : Policy
  residual : Bool
  restartable : Bool
  latched : Bool
  confirm : Confirm
  confirmTimeout : Nat
  timeoutPolicy : TimeoutPolicy
  earliest : Nat
  latest : Option Nat
  window : Option Nat
  repeats : Nat
  repeatInterval : Nat
  deriving DecidableEq, Repr

/-- An announcement record (R86): what was asked, and what the pool and the Zone Arbiter write. -/
structure AnnRec where
  annId : Nat
  seq : Nat
  ask : Ask
  state : RecState
  eligibleSince : Option Nat
  holdStart : Option Nat
  restartCount : Nat
  held : ZoneSet
  missed : ZoneSet
  lost : ZoneSet
  channel : Option Nat
  platformSpoken : Bool
  noRepeat : Bool
  endRequested : Bool
  noZonesNoted : Bool
  deriving DecidableEq, Repr

/-- The outcomes of a record (R94). -/
inductive AnnOutcome where
  | completed | expired | withdrawn | rejected | discarded | preempted | superseded | aborted
  deriving DecidableEq, Repr

/-- The reasons of an outcome (R94). -/
inductive Reason where
  | endOfList | pageEnded | emergencyEnded | latestPassed
  | command | cleared | cancelled | callRemoved | stateLeft | replaced | evicted | notStarted | dayClosed
  | holdTimeout | zonesTaken | channelTaken | platformChanged
  | emptyList | underrun | streamLost | noZonesLeft
  deriving DecidableEq, Repr

/-- A COMPLETED event (R62): the record as it completed, and the T of completion. -/
structure Completion where
  ann : AnnRec
  time : Nat
  deriving DecidableEq, Repr

/-! ### Zones -/

/-- An entry of the zone table (R111). -/
structure ZoneEntry where
  enabled : Bool
  code : BitVec 8
  level : Nat
  gMin : Nat
  emergencyLevel : Nat
  aRef : Nat
  slope : Nat
  bMax : Nat
  feed : Option Nat
  backLevel : Nat
  duck : Nat
  attack : Nat
  release : Nat
  holder : Option Nat
  available : Bool
  deriving DecidableEq, Repr

/-- An entry of the group table (R115). -/
structure GroupEntry where
  value : BitVec 8
  mask : BitVec 8
  deriving DecidableEq, Repr

/-! ### Playback Channels and Phrase Memory -/

/-- The channel states (R137). -/
inductive ChannelState where
  | idle | prefill | playing | draining | gap
  deriving DecidableEq, Repr

/-- A sample in a channel's FIFO, with its element-start mark or none (R137). -/
structure FifoSample where
  sample : Sample
  mark : Option Nat
  deriving DecidableEq, Repr

/-- A burst in flight (R137, R145): its length, the grant value at issue, the address of its first sample, and the
element whose first sample it brings, if it begins one. -/
structure Burst where
  length : Nat
  grant : Nat
  address : Nat
  mark : Option Nat
  deriving DecidableEq, Repr

/-- A playback channel (R137). -/
structure Channel where
  state : ChannelState
  owner : Option Nat
  cls : Option Nat
  latched : Bool
  list : List Element
  fetchElem : Nat
  curAddr : Nat
  curCount : Nat
  loopsLeft : Nat
  fetchFinished : Bool
  baseAddr : Nat
  baseCount : Nat
  fifo : List FifoSample
  burst : Option Burst
  fetchReq : Bool
  playElem : Nat
  curTrim : Int
  underrunRun : Nat
  gapTime : Nat
  deriving DecidableEq, Repr

/-- The transfer in progress at the DRAM port (R145). -/
inductive Transfer where
  | burst (channel : Nat)
  | write
  deriving DecidableEq, Repr

/-- The pending phrase write (R150). -/
structure PhraseWrite where
  address : Nat
  samples : List Sample
  deriving DecidableEq, Repr

/-! ### Levels -/

/-- Where a tail's samples come from (R160): a channel's samples not yet played, or a live stream with the number
of sample periods left. -/
inductive TailSource where
  | samples (rest : List Sample)
  | stream (n left : Nat)
  deriving DecidableEq, Repr

/-- A tail (R154, R161). -/
structure Tail where
  source : TailSource
  att : Nat
  blocks : Nat
  deriving DecidableEq, Repr

/-- The level state of a zone (R154). -/
structure ZoneLevel where
  ambient : Nat
  releaseAge : Nat
  att : Option Nat
  back : Nat
  tail : Option Tail
  deriving DecidableEq, Repr

/-- An ambient reading as it is handed to the Level and Mix Unit (R155). -/
inductive Ambient where
  | value (a : Nat)
  | sensorFault
  deriving DecidableEq, Repr

/-! ### The Zone Link -/

/-- The link states of a zone (R170). -/
inductive LinkState where
  | ok | opened | shorted | ampFault | linkLost
  deriving DecidableEq, Repr

/-- The link state of a zone (R170); usable is link state OK. -/
structure ZoneLink where
  link : LinkState
  lastLine : Option LinkState
  age : Nat
  lastAmbient : Option Ambient
  sensorFault : Bool
  deriving DecidableEq, Repr

/-! ### Notices and counters -/

/-- The cause a ZONE_STATE notice carries (11.7). -/
inductive ZoneCause where
  | link (s : LinkState)
  | disabled
  | enabled
  deriving DecidableEq, Repr

/-- A notice with the fields 11.7 gives it, or the OVERFLOW marker. -/
inductive Notice where
  | startReport (report : StartReport) (unit : Byte)
  | overflow (dropped : Nat)
  | clockStep (day : Option Nat) (prev new : Nat)
  | freewheel (entered : Bool) (time markAge : Nat) (day : Option Nat)
  | dayOverrun (day : Option Nat) (time : Nat)
  | poolFull (call : Option (Nat × Nat)) (step : Option Nat) (cls time : Nat)
  | missingFragment (annId script count : Nat) (first : Missing)
  | truncated (annId script item : Nat)
  | held (restarted : Bool) (annId : Nat) (callRef step : Option Nat) (cls holdStart timeout : Nat)
  | outcome (annId : Nat) (outcome : AnnOutcome) (reason : Reason) (callRef : Option Nat) (cls : Nat)
  | noZones (annId cls : Nat) (callRef : Option Nat) (zones : ZoneSet)
  | zoneState (zone : Nat) (available : Bool) (cause : ZoneCause)
  | sensorFault (zone : Nat) (fault : Bool) (line : LinkState) (time : Nat)
  | underrun (annId cls channel playElem time : Nat)
  | cmdDropped (code : Byte) (tag : Nat) (broadcast : Bool)
  deriving DecidableEq, Repr

/-- The counters of the statistics block (R185). -/
inductive Counter where
  | created (cls : Nat)
  | started (cls : Nat)
  | ended (cls : Nat) (outcome : AnnOutcome)
  | underruns (cls : Nat)
  | clips (zone : Nat)
  | reportsReceived (zone : Nat)
  | ambientIgnored (zone : Nat)
  | cells (stream : Nat)
  | outOfSequence (stream : Nat)
  | lost (stream : Nat)
  | headerErrors | invalidStream | flowCells | selfCheckDiscards | reassemblyDiscards
  | broadcastIgnored | commandsDropped | monitorCellsDropped
  | marksTaken | marksOtherDay | marksOutOfRange | clockSteps
  | noticesDropped | poolFullAttempts | droppedResidualZones | missingFragments
  | truncatedLists | emptyLists | zoneReportErrors
  deriving DecidableEq, Repr

end Sys2Proof.Machine
end

