-- ==== Sys2Proof/Machine/State.lean ====
section
/-! DEFINITION. The state of the part: one structure for each block of 00_scope's block diagram, holding what the
block's chapter gives it, the notice FIFO and the statistics block, and the model's own two fields. Plain data. -/

namespace Sys2Proof.Machine

/-- The Trunk Interface (R164, R178, R181, R183). `sentCells` is how many cells of the oldest response have been
sent, when it is part-sent. `trunkOut` is the cell last put on the upstream wire (the model's own record, log 32). -/
structure TrunkInterface where
  unitAddress : Byte
  reassembly : Option Reassembly
  streams : Tab StreamBuffer
  paused : Bool
  flowQueue : List Flow
  monitorQueue : List MonitorCell
  responses : List (List Byte)
  sentCells : Option Nat
  flowSeq : Nat
  mgmtSeq : Nat
  trunkOut : Option (List Byte)
  deriving DecidableEq, Repr

/-- The Management Interpreter (R180, R186, R187, R188). -/
structure Interpreter where
  partState : PartState
  commands : List Message
  report : Option StartReport
  cause : ResetCause
  resetWaiting : Option ResetOption
  deriving DecidableEq, Repr

/-- The notice FIFO and the notice enable mask, bit by kind as in SET_NOTICE_MASK (R184, 11.9). -/
structure NoticeFifo where
  fifo : List Notice
  mask : BitVec 13
  deriving DecidableEq, Repr

/-- The Station Clock (R1). The second phase is counted in sample periods of 1/16,000 s (log 14). entering holds T and
the day number of the second at which the mark age became 60 with the freewheel flag clear, until the clock sets the
flag and raises the ENTERED notice of that second (R8, log 13). -/
structure Clock where
  day : DayState
  time : Nat
  dayNumber : Option Nat
  originHour : Nat
  freewheel : Bool
  markAge : Nat
  markDay : Option Nat
  overrun : Bool
  phase : Nat
  entering : Option (Nat × Option Nat)
  deriving DecidableEq, Repr

/-- The Call Register (R15, R16), with the changes of T that have reached it and wait to be taken, and the slots
whose retention such a change has reached (R33, log 6). -/
structure CallRegister where
  calls : Tab CallRec
  patterns : Tab (List Nat)
  changes : List TimeChange
  retentionDue : List Nat
  deriving DecidableEq, Repr

/-- The Trigger Unit (R41, R46), with the events passed to it and not yet taken (R34, R62, R4), those of the Call
Register with the record they are to be checked against (R35). -/
structure TriggerUnit where
  plans : Tab Plan
  retry : List RetryEntry
  events : List (CallEvent PassedEvent)
  completions : List Completion
  changes : List TimeChange
  deriving DecidableEq, Repr

/-- The Script Expander's tables (R66, R69, R70). -/
structure ScriptExpander where
  scripts : Tab Script
  numbers : Tab Nat
  directory : Tab DirEntry
  deriving DecidableEq, Repr

/-- The Announcement Pool (R86, R87): the records in ascending seq, with the events passed to it and not yet taken
(R34, R4), and the records whose hold timeout or expiry a change of T has reached (R91, R92, log 6). -/
structure AnnouncementPool where
  records : List AnnRec
  lastId : Nat
  counter : Nat
  events : List (CallEvent PoolEvent)
  changes : List TimeChange
  holdDue : List Nat
  expiryDue : List Nat
  deriving DecidableEq, Repr

/-- The Zone Arbiter (R111, R114, R115, R120, R126). `passPending` is set while a cause of a pass waits (log 7). -/
structure ZoneArbiter where
  zones : Tab ZoneEntry
  platforms : Tab ZoneSet
  groups : Tab GroupEntry
  passPending : Bool
  grantCounter : Nat
  grants : Tab Nat
  deriving DecidableEq, Repr

/-- The Phrase Memory Controller (R145, R150, R152). The port is BUSY exactly when a transfer is in progress.
`memory` lists the samples written since the content was last undefined; `epoch` numbers that event (log 8). -/
structure PhraseController where
  transfer : Option Transfer
  urgentPtr : Nat
  routinePtr : Nat
  pendingWrite : Option PhraseWrite
  memory : Tab Sample
  epoch : Nat
  deriving DecidableEq, Repr

/-- The Level and Mix Unit (R154, R167), with the ambient readings handed to it and not yet taken (R155). -/
structure LevelMix where
  levels : Tab ZoneLevel
  monitorZone : Option Nat
  gathered : List Sample
  monitorSeq : Nat
  readings : List (Nat × Ambient)
  deriving DecidableEq, Repr

/-- The Zone Link Interface (R170). `sent` is what was last sent on each zone's wire (the model's own record of an
output, log 32). -/
structure LinkInterface where
  links : Tab ZoneLink
  sent : List Sample
  deriving DecidableEq, Repr

/-- The machine's state. `free` counts the free values drawn (the model's own field, log 31); `pending` is the
queue of steps waiting, first in, first out (the model's own field, log 2). -/
structure State where
  tki : TrunkInterface
  mgi : Interpreter
  notices : NoticeFifo
  stats : Tab Nat
  sck : Clock
  crg : CallRegister
  tru : TriggerUnit
  sxe : ScriptExpander
  apl : AnnouncementPool
  zar : ZoneArbiter
  pbc : Tab Channel
  pmc : PhraseController
  lmu : LevelMix
  zli : LinkInterface
  free : Nat
  pending : List Instr
  deriving DecidableEq, Repr

/-- The reasons the machine stops with a fault: none. The manual names no event that stops the part. Nothing raises
a fault, which is neither safe nor unsafe. -/
inductive Fault where
  deriving DecidableEq, Repr

/-- The reasons a step is refused. -/
inductive Refusal where
  /-- Raised by `exec` for a row of the table that has no meaning yet; no row is left so. Safe: the model stops. -/
  | notModelled (mnemonic : String)
  deriving DecidableEq, Repr

/-! ### Reset values -/

/-- A stream buffer after reset (R164). -/
def StreamBuffer.reset : StreamBuffer := ⟨[], 0, none, 5000⟩

/-- A zone table entry after reset (R111). -/
def ZoneEntry.reset : ZoneEntry :=
  { enabled := false, code := 0, level := 0, gMin := 0, emergencyLevel := 0, aRef := 0, slope := 0, bMax := 0,
    feed := none, backLevel := 121, duck := 0, attack := 16, release := 16, holder := none, available := false }

/-- A group table entry after reset (R115). -/
def GroupEntry.reset : GroupEntry := ⟨0, 255⟩

/-- A directory entry after reset (R70). -/
def DirEntry.reset : DirEntry := ⟨0, 0, 0⟩

/-- An IDLE channel (R137). -/
def Channel.reset : Channel :=
  { state := .idle, owner := none, cls := none, latched := false, list := [], fetchElem := 0, curAddr := 0,
    curCount := 0, loopsLeft := 1, fetchFinished := false, baseAddr := 0, baseCount := 0, fifo := [],
    burst := none, fetchReq := false, playElem := 0, curTrim := 0, underrunRun := 0, gapTime := 0 }

/-- The level state of a zone after reset (R154). -/
def ZoneLevel.reset : ZoneLevel := ⟨0, 500, none, 1936, none⟩

/-- The link state of a zone after reset (R170). -/
def ZoneLink.reset : ZoneLink := ⟨.linkLost, none, 1000, none, false⟩

/-- The Trunk Interface after a reset at which the straps read `straps` (R164, R177, R178, R183). -/
def TrunkInterface.reset (straps : Byte) : TrunkInterface :=
  { unitAddress := straps, reassembly := none, streams := tabFill 6 StreamBuffer.reset, paused := false,
    flowQueue := [], monitorQueue := [], responses := [], sentCells := none, flowSeq := 0, mgmtSeq := 0,
    trunkOut := none }

/-- The Management Interpreter after a reset of the given cause (R180, R186). -/
def Interpreter.reset (cause : ResetCause) : Interpreter :=
  { partState := .selfCheck, commands := [], report := none, cause := cause, resetWaiting := none }

/-- The notice FIFO and mask after reset (R184). -/
def NoticeFifo.reset : NoticeFifo := ⟨[], BitVec.allOnes 13⟩

/-- The Station Clock after reset (R11). -/
def Clock.reset : Clock :=
  { day := .noDay, time := 0, dayNumber := none, originHour := 0, freewheel := false, markAge := 0,
    markDay := none, overrun := false, phase := 0, entering := none }

/-- The Call Register after reset (R39). -/
def CallRegister.reset : CallRegister := ⟨[], [], [], []⟩

/-- The Trigger Unit after reset (R64). -/
def TriggerUnit.reset : TriggerUnit := ⟨[], [], [], [], []⟩

/-- The Script Expander's tables after power-on (R84). -/
def ScriptExpander.reset : ScriptExpander := ⟨[], [], []⟩

/-- The Announcement Pool after reset (R109). -/
def AnnouncementPool.reset : AnnouncementPool := ⟨[], 0, 0, [], [], [], []⟩

/-- The Zone Arbiter after reset (R135). -/
def ZoneArbiter.reset : ZoneArbiter :=
  { zones := tabFill 32 ZoneEntry.reset, platforms := [], groups := tabFill 16 GroupEntry.reset,
    passPending := false, grantCounter := 0, grants := tabFill 6 0 }

/-- The channels after reset (R137). -/
def channelsReset : Tab Channel := tabFill 6 Channel.reset

/-- The Phrase Memory Controller after power-on (R145, R152): the content is undefined from now on. -/
def PhraseController.reset (epoch : Nat) : PhraseController := ⟨none, 5, 5, none, [], epoch⟩

/-- The Level and Mix Unit after reset (R154, R167). -/
def LevelMix.reset : LevelMix := ⟨tabFill 32 ZoneLevel.reset, none, [], 0, []⟩

/-- The Zone Link Interface after reset (R170, R171). -/
def LinkInterface.reset : LinkInterface := ⟨tabFill 32 ZoneLink.reset, List.replicate 32 0⟩

/-- The part after power-on with its straps reading 0 (log 1), before self-check has ended. -/
def State.reset : State :=
  { tki := TrunkInterface.reset 0, mgi := Interpreter.reset .powerOn, notices := NoticeFifo.reset, stats := [],
    sck := Clock.reset, crg := CallRegister.reset, tru := TriggerUnit.reset, sxe := ScriptExpander.reset,
    apl := AnnouncementPool.reset, zar := ZoneArbiter.reset, pbc := channelsReset,
    pmc := PhraseController.reset 0, lmu := LevelMix.reset, zli := LinkInterface.reset, free := 1, pending := [] }

end Sys2Proof.Machine
end

