-- ==== Sys2Proof/Machine/Update.lean ====
section
/-! DEFINITION. The one way each block's state is changed: a function of that block alone. -/

namespace Sys2Proof.Machine

/-- Changes the Trunk Interface, and nothing else. -/
def State.onTki (f : TrunkInterface → TrunkInterface) (s : State) : State := { s with tki := f s.tki }

/-- Changes the Management Interpreter, and nothing else. -/
def State.onMgi (f : Interpreter → Interpreter) (s : State) : State := { s with mgi := f s.mgi }

/-- Changes the notice FIFO and mask, and nothing else. -/
def State.onNotices (f : NoticeFifo → NoticeFifo) (s : State) : State := { s with notices := f s.notices }

/-- Changes the statistics block, and nothing else. -/
def State.onStats (f : Tab Nat → Tab Nat) (s : State) : State := { s with stats := f s.stats }

/-- Changes the Station Clock, and nothing else. -/
def State.onSck (f : Clock → Clock) (s : State) : State := { s with sck := f s.sck }

/-- Changes the Call Register, and nothing else. -/
def State.onCrg (f : CallRegister → CallRegister) (s : State) : State := { s with crg := f s.crg }

/-- Changes the Trigger Unit, and nothing else. -/
def State.onTru (f : TriggerUnit → TriggerUnit) (s : State) : State := { s with tru := f s.tru }

/-- Changes the Script Expander, and nothing else. -/
def State.onSxe (f : ScriptExpander → ScriptExpander) (s : State) : State := { s with sxe := f s.sxe }

/-- Changes the Announcement Pool, and nothing else. -/
def State.onApl (f : AnnouncementPool → AnnouncementPool) (s : State) : State := { s with apl := f s.apl }

/-- Changes the Zone Arbiter, and nothing else. -/
def State.onZar (f : ZoneArbiter → ZoneArbiter) (s : State) : State := { s with zar := f s.zar }

/-- Changes the Playback Channels, and nothing else. -/
def State.onPbc (f : Tab Channel → Tab Channel) (s : State) : State := { s with pbc := f s.pbc }

/-- Changes the Phrase Memory Controller, and nothing else. -/
def State.onPmc (f : PhraseController → PhraseController) (s : State) : State := { s with pmc := f s.pmc }

/-- Changes the Level and Mix Unit, and nothing else. -/
def State.onLmu (f : LevelMix → LevelMix) (s : State) : State := { s with lmu := f s.lmu }

/-- Changes the Zone Link Interface, and nothing else. -/
def State.onZli (f : LinkInterface → LinkInterface) (s : State) : State := { s with zli := f s.zli }

/-- Draws a free value: the counter of values drawn moves on (log 31). -/
def State.drawFree (s : State) : State := { s with free := s.free + 1 }

end Sys2Proof.Machine
end

