-- ==== Sys2Proof/Machine/Flags.lean ====
section
/-! DEFINITION. The statistics counters and the raising of notices (R184, R185): the part's flags to the outside. -/

namespace Sys2Proof.Machine

/-! ### Counters -/

/-- The place of a counter among the 177 of READ_STATS, in the order of the table of R185. -/
def Counter.index : Counter → Nat
  | .created c => 11 * c
  | .started c => 11 * c + 1
  | .ended c .completed => 11 * c + 2
  | .ended c .expired => 11 * c + 3
  | .ended c .withdrawn => 11 * c + 4
  | .ended c .rejected => 11 * c + 5
  | .ended c .discarded => 11 * c + 6
  | .ended c .preempted => 11 * c + 7
  | .ended c .superseded => 11 * c + 8
  | .ended c .aborted => 11 * c + 9
  | .underruns c => 11 * c + 10
  | .clips z => 44 + 3 * z
  | .reportsReceived z => 44 + 3 * z + 1
  | .ambientIgnored z => 44 + 3 * z + 2
  | .cells n => 140 + 3 * n
  | .outOfSequence n => 140 + 3 * n + 1
  | .lost n => 140 + 3 * n + 2
  | .headerErrors => 158
  | .invalidStream => 159
  | .flowCells => 160
  | .selfCheckDiscards => 161
  | .reassemblyDiscards => 162
  | .broadcastIgnored => 163
  | .commandsDropped => 164
  | .monitorCellsDropped => 165
  | .marksTaken => 166
  | .marksOtherDay => 167
  | .marksOutOfRange => 168
  | .clockSteps => 169
  | .noticesDropped => 170
  | .poolFullAttempts => 171
  | .droppedResidualZones => 172
  | .missingFragments => 173
  | .truncatedLists => 174
  | .emptyLists => 175
  | .zoneReportErrors => 176

/-- The value of a counter. -/
def counter (s : State) (c : Counter) : Nat := tabGetD s.stats c.index 0

/-- A counter increases by n and holds at 4,294,967,295 (R185). -/
def countBy (c : Counter) (n : Nat) (s : State) : State :=
  s.onStats fun t => tabSetD t c.index 0 (min (tabGetD t c.index 0 + n) Config.maxCount)

/-- A counter increases by 1. -/
def count (c : Counter) (s : State) : State := countBy c 1 s

/-! ### Notices -/

/-- The bit of a notice's kind in the notice enable mask (11.9); START_REPORT and OVERFLOW have none (R184). -/
def Notice.maskBit : Notice → Option Nat
  | .startReport _ _ => none
  | .overflow _ => none
  | .clockStep _ _ _ => some 0
  | .freewheel _ _ _ _ => some 1
  | .dayOverrun _ _ => some 2
  | .poolFull _ _ _ _ => some 3
  | .missingFragment _ _ _ _ => some 4
  | .truncated _ _ _ => some 5
  | .held _ _ _ _ _ _ _ => some 6
  | .outcome _ _ _ _ _ => some 7
  | .noZones _ _ _ _ => some 8
  | .zoneState _ _ _ => some 9
  | .sensorFault _ _ _ _ => some 10
  | .underrun _ _ _ _ _ => some 11
  | .cmdDropped _ _ _ => some 12

/-- Whether a notice of this kind is queued under the mask (R184). -/
def noticeEnabled (mask : BitVec 13) (n : Notice) : Bool :=
  match n.maskBit with
  | some b => mask.getLsbD b
  | none => true

/-- The dropped count of the marker, if the FIFO ends in one (R184, log 41). -/
def markerOf : List Notice → Option Nat
  | [] => none
  | [.overflow n] => some n
  | _ :: rest => markerOf rest

/-- The FIFO's own act on a notice that is not disabled, and whether the notice was dropped (R184, the table). The
marker's dropped count has no limit: R184 gives it none (DESIGN CHOICE, log 41). -/
def offerNotice (fifo : List Notice) (n : Notice) : List Notice × Bool :=
  match markerOf fifo with
  | some dropped => (fifo.dropLast ++ [.overflow (dropped + 1)], true)
  | none => if fifo.length + 1 < Config.noticeSize then (fifo ++ [n], false) else (fifo ++ [.overflow 1], true)

/-- A block raises a notice (R184). -/
def raise (n : Notice) (s : State) : State :=
  if noticeEnabled s.notices.mask n then
    let r := offerNotice s.notices.fifo n
    let s := s.onNotices fun f => { f with fifo := r.1 }
    if r.2 then count .noticesDropped s else s
  else s

end Sys2Proof.Machine
end

