-- ==== Sys2Proof/Machine/Ops.lean ====
section
/-! DEFINITION. The shared operations of the part: finding and changing a call, a record, a zone or a channel;
phrase memory; levels and tails; stopping a source; releasing zones; ending a record; handing on a change of T. -/

namespace Sys2Proof.Machine

/-! ### Lists -/

/-- The first entry at which a condition holds, and the list without it. -/
def takeFirst {α : Type} (p : α → Bool) : List α → Option (α × List α)
  | [] => none
  | x :: rest =>
    if p x then some (x, rest)
    else match takeFirst p rest with
      | some (y, others) => some (y, x :: others)
      | none => none

/-- The oldest event of a slot, and the queue without it: each block takes its events of one call in the order
passed, and those of different calls in any order (R34, log 5). -/
def oldestOf {κ : Type} (slot : Nat) (events : List (CallEvent κ)) : Option (CallEvent κ × List (CallEvent κ)) :=
  takeFirst (fun e => e.slot == slot) events

/-- A value joins a list unless it stands there. -/
def addNew (x : Nat) (l : List Nat) : List Nat := if l.contains x then l else l ++ [x]

/-- A list of samples filled with zeros to n. -/
def padSamples (n : Nat) (l : List Sample) : List Sample := l ++ List.replicate (n - l.length) 0

/-! ### Calls (R15, R18) -/

/-- The call record in a slot, if the slot is not EMPTY. -/
def State.callAt (s : State) (slot : Nat) : Option CallRec := tabGet s.crg.calls slot

/-- The call that a slot and call_ref name together: the slot still holds the call_ref. -/
def State.callOf (s : State) : Option (Nat × Nat) → Option CallRec
  | none => none
  | some (slot, ref) =>
    match s.callAt slot with
    | some c => if c.callRef = ref then some c else none
    | none => none

/-- The slot that holds a call_ref, in any non-EMPTY state, and its record (R18). -/
def findRef : Tab CallRec → Nat → Option (Nat × CallRec)
  | [], _ => none
  | (slot, c) :: rest, ref => if c.callRef = ref then some (slot, c) else findRef rest ref

/-- Writes the record of a slot. -/
def State.setCall (slot : Nat) (c : CallRec) (s : State) : State :=
  s.onCrg fun r => { r with calls := tabSet r.calls slot c }

/-- Makes a slot EMPTY; a retention that was due for it is due no more. -/
def State.dropCall (slot : Nat) (s : State) : State :=
  s.onCrg fun r => { r with calls := tabDel r.calls slot, retentionDue := r.retentionDue.filter (· != slot) }

/-- Passes events of a call to the Trigger Unit in turn (R34), each with the record as it now stands (R35). -/
def passTrigger (slot : Nat) (c : CallRec) (es : List TriggerEvent) (s : State) : State :=
  s.onTru fun t => { t with events := t.events ++ es.map fun e => ⟨slot, c.callRef, ⟨e, c⟩⟩ }

/-- Passes an event to the Announcement Pool (R34). -/
def passPool (slot ref : Nat) (e : PoolEvent) (s : State) : State :=
  s.onApl fun p => { p with events := p.events ++ [⟨slot, ref, e⟩] }

/-! ### Records, zones, channels -/

/-- The record that holds an ann_id. -/
def State.ann (s : State) (id : Nat) : Option AnnRec := s.apl.records.find? fun r => r.annId == id

/-- Changes the record that holds an ann_id. -/
def State.updAnn (id : Nat) (f : AnnRec → AnnRec) (s : State) : State :=
  s.onApl fun p => { p with records := p.records.map fun r => if r.annId = id then f r else r }

/-- Frees the record that holds an ann_id, with the judgements that were due for it. -/
def State.dropAnn (id : Nat) (s : State) : State :=
  s.onApl fun p => { p with
    records := p.records.filter fun r => r.annId != id
    holdDue := p.holdDue.filter (· != id)
    expiryDue := p.expiryDue.filter (· != id) }

/-- The zone table entry of a zone (R111). -/
def State.zone (s : State) (z : Nat) : ZoneEntry := tabGetD s.zar.zones z ZoneEntry.reset

/-- Changes a zone table entry. -/
def State.updZone (z : Nat) (f : ZoneEntry → ZoneEntry) (s : State) : State :=
  s.onZar fun a => { a with zones := tabUpd a.zones z f }

/-- The level state of a zone (R154). -/
def State.level (s : State) (z : Nat) : ZoneLevel := tabGetD s.lmu.levels z ZoneLevel.reset

/-- Changes the level state of a zone. -/
def State.updLevel (z : Nat) (f : ZoneLevel → ZoneLevel) (s : State) : State :=
  s.onLmu fun l => { l with levels := tabUpd l.levels z f }

/-- The link state of a zone (R170). -/
def State.link (s : State) (z : Nat) : ZoneLink := tabGetD s.zli.links z ZoneLink.reset

/-- Changes the link state of a zone. -/
def State.updLink (z : Nat) (f : ZoneLink → ZoneLink) (s : State) : State :=
  s.onZli fun l => { l with links := tabUpd l.links z f }

/-- A zone is usable when its link state is OK (R170). -/
def ZoneLink.usable (l : ZoneLink) : Bool := l.link == .ok

/-- A playback channel (R137). -/
def State.channel (s : State) (c : Nat) : Channel := tabGetD s.pbc c Channel.reset

/-- Changes a playback channel. -/
def State.updChannel (c : Nat) (f : Channel → Channel) (s : State) : State := s.onPbc fun t => tabUpd t c f

/-- The grant value of a channel (R126). -/
def State.grantOf (s : State) (c : Nat) : Nat := tabGetD s.zar.grants c 0

/-- The buffer of a trunk audio stream (R164). -/
def State.stream (s : State) (n : Nat) : StreamBuffer := tabGetD s.tki.streams n StreamBuffer.reset

/-- Changes the buffer of a trunk audio stream. -/
def State.updStream (n : Nat) (f : StreamBuffer → StreamBuffer) (s : State) : State :=
  s.onTki fun t => { t with streams := tabUpd t.streams n f }

/-- A cause of an arbitration pass reaches the Zone Arbiter (R120, log 7). -/
def causePass (s : State) : State := s.onZar fun a => { a with passPending := true }

/-! ### Phrase memory (R150, R152) -/

/-- The sample at an address: the one last written there, or the free value an undefined address reads as. -/
def readPhrase (p : PhraseController) (a : Nat) : Sample :=
  (tabGet p.memory a).getD (Config.undefinedSample p.epoch a)

/-- The samples from an address on. -/
def readPhrases (p : PhraseController) : Nat → Nat → List Sample
  | _, 0 => []
  | a, n + 1 => readPhrase p a :: readPhrases p (a + 1) n

/-- Phrase memory with samples written in order from an address on (R151). -/
def writePhrases (memory : Tab Sample) : Nat → List Sample → Tab Sample
  | _, [] => memory
  | a, x :: rest => writePhrases (tabSet memory a x) (a + 1) rest

/-- The canonical form of phrase memory: addresses strictly rising, all below 33,554,432. A listed sample is a
defined one; an unlisted address is undefined (log 8). -/
def phraseWf (memory : Tab Sample) : Bool := tabRising memory && memory.all fun p => decide (p.1 < Config.phraseSize)

/-! ### Levels (R157, R158) -/

/-- The boost of a zone with a smoothed ambient (R157). -/
def boost (z : ZoneEntry) (ambient : Nat) : Nat := min z.bMax ((ambient - z.aRef) * z.slope / 8)

/-- An attenuation limited to a range from `lo` to 121 (R158). -/
def clampAtt (lo : Nat) (x : Int) : Nat := max lo (min x.toNat 121)

/-- The announcement attenuation taken for a holder of a class with a trim (R158). -/
def attFor (z : ZoneEntry) (ambient cls : Nat) (trim : Int) : Nat :=
  if cls = 0 then clampAtt z.gMin (z.emergencyLevel - trim)
  else clampAtt z.gMin (z.level - boost z ambient - trim)

/-- Takes G for a zone (R158). -/
def takeAtt (cls : Nat) (trim : Int) (z : Nat) (s : State) : State :=
  s.updLevel z fun l => { l with att := some (attFor (s.zone z) l.ambient cls trim) }

/-- The attenuation applied to a held zone's source: the larger of G and the zone's Gmin (R158). -/
def appliedAtt (s : State) (z : Nat) : Nat := max ((s.level z).att.getD 121) (s.zone z).gMin

/-! ### Tails, stops and release (R132, R148, R160) -/

/-- A stopped source becomes a tail in each zone given (R160). -/
def placeTails (source : TailSource) : List Nat → State → State
  | [], s => s
  | z :: rest, s =>
    placeTails source rest (s.updLevel z fun l => { l with tail := some ⟨source, appliedAtt s z, 0⟩ })

/-- A channel as it becomes IDLE: a burst in flight remains in flight (R137, R148). -/
def Channel.toIdle (c : Channel) : Channel := { Channel.reset with burst := c.burst }

/-- The tail a channel hands over at a stop: the first 256 samples of its FIFO, filled with zeros; zeros alone from
PREFILL or GAP, whatever the FIFO already holds (R148). -/
def Channel.tailSamples (c : Channel) : List Sample :=
  match c.state with
  | .prefill | .gap => List.replicate 256 0
  | _ => padSamples 256 ((c.fifo.take 256).map fun x => x.sample)

/-- A channel is stopped with a fade, its tail placed in the zones given (R148, steps 1 to 4). -/
def fadeChannel (c : Nat) (zones : ZoneSet) (s : State) : State :=
  (placeTails (.samples (s.channel c).tailSamples) (zonesOf zones) s).updChannel c Channel.toIdle

/-- The source of a PLAYING record is stopped with a fade (R148, R160): its channel becomes IDLE, or its stream is
no longer named by a PLAYING record; either is a cause of a pass (R120). -/
def stopSource (r : AnnRec) (s : State) : State :=
  match r.state, r.ask.stream, r.channel with
  | .playing, some n, _ => causePass (placeTails (.stream n 256) (zonesOf r.held) s)
  | .playing, none, some c => causePass (fadeChannel c r.held s)
  | _, _, _ => s

/-- The holder of each zone listed becomes none: G becomes absent and the release age 0 (R132, R156, R158). -/
def clearHolders : List Nat → State → State
  | [], s => s
  | z :: rest, s =>
    clearHolders rest ((s.updZone z fun e => { e with holder := none }).updLevel z
      fun l => { l with att := none, releaseAge := 0 })

/-- A record's zones are released, which causes a pass (R132). -/
def releaseZones (zones : ZoneSet) (s : State) : State :=
  if zones = 0#32 then s else causePass (clearHolders (zonesOf zones) s)

/-- A record lets go of what it plays with (R94, steps 1 and 2; R132): its source is stopped, unless it has already
fallen silent of itself, its zones are released, and its sets and channel are cleared at the same act. It is still
PLAYING: the pass that R94 makes now does not take it. -/
def letGo (id : Nat) (sourceEnded : Bool) (s : State) : State :=
  match s.ann id with
  | none => s
  | some r =>
    let s := if sourceEnded then s else stopSource r s
    (releaseZones r.held s).updAnn id fun r => { r with held := 0#32, missed := 0#32, lost := 0#32, channel := none }

/-- A record is closed with an outcome and a reason (R94, steps 3 and 4): the notice, the counter, the free place. -/
def closeAnn (id : Nat) (o : AnnOutcome) (why : Reason) (s : State) : State :=
  match s.ann id with
  | none => s
  | some r =>
    (count (.ended r.ask.cls o) (raise (.outcome id o why (r.ask.call.map Prod.snd) r.ask.cls) s)).dropAnn id

/-- A record ends with no pass between its release and its notice: a record that holds no zone, one that a pass itself
ends, whose cause that pass's further pass takes (R120, R121), or one of the withdrawals of CLEAR_ANNOUNCEMENTS and
CLOSE_DAY, whose passes come after the last of them (R103, R109). `endAnn` is the end with R94's pass. -/
def endRecord (id : Nat) (o : AnnOutcome) (why : Reason) (sourceEnded : Bool) (s : State) : State :=
  closeAnn id o why (letGo id sourceEnded s)

/-- The records named end one after another. -/
def endRecords (o : AnnOutcome) (why : Reason) : List Nat → State → State
  | [], s => s
  | id :: rest, s => endRecords o why rest (endRecord id o why false s)

/-! ### Handing on a change of T (R4) -/

/-- Whether a call's retention is reached at T (R33). -/
def CallRec.retained (c : CallRec) (t : Nat) : Bool :=
  match c.retainUntil with
  | some u => (c.state == .finished || c.state == .cancelled) && decide (u ≤ t)
  | none => false

/-- Whether a record's hold has timed out at T (R91). -/
def AnnRec.holdOver (r : AnnRec) (t : Nat) : Bool :=
  match r.holdStart with
  | some h => r.state == .held && decide (h + r.ask.confirmTimeout ≤ t)
  | none => false

/-- Whether a waiting record has expired at T (R92). -/
def AnnRec.expired (r : AnnRec) (t : Nat) : Bool :=
  match r.ask.latest with
  | some l => r.state != .playing && decide (l < t)
  | none => false

/-- A change of T is handed on to the Call Register, the Trigger Unit and the Announcement Pool, which take it as
events of their own (R4); the calls and records whose retention, hold timeout or expiry it reaches are noted, so
that each of those can be taken by itself (log 6). -/
def handOn (ch : TimeChange) (s : State) : State :=
  ((s.onCrg fun r => { r with
      changes := r.changes ++ [ch]
      retentionDue := r.calls.foldl (fun l p => if p.2.retained ch.new then addNew p.1 l else l) r.retentionDue }
    ).onTru fun t => { t with changes := t.changes ++ [ch] }
    ).onApl fun p => { p with
      changes := p.changes ++ [ch]
      holdDue := p.records.foldl (fun l r => if r.holdOver ch.new then addNew r.annId l else l) p.holdDue
      expiryDue := p.records.foldl (fun l r => if r.expired ch.new then addNew r.annId l else l) p.expiryDue }

/-- T is set to a value, and the change, if it is one, is handed on as FORWARD or BACKWARD (R4). -/
def setTime (t : Nat) (s : State) : State :=
  if t = s.sck.time then s
  else
    handOn ⟨if s.sck.time < t then .forward else .backward, s.sck.time, t⟩ (s.onSck fun c => { c with time := t })

/-- The clock enters freewheel, where a second has called for it: the flag is set, and the ENTERED notice carries T and
the day number as that second left them and the mark age 60 (R8, log 13). -/
def enterFreewheel (s : State) : State :=
  match s.sck.entering with
  | some (t, day) =>
    raise (.freewheel true t 60 day) (s.onSck fun c => { c with freewheel := true, entering := none })
  | none => s

/-- T held within the service day: a value above 107,999 is held as 107,999 (R86). -/
def clampTime (t : Nat) : Nat := min t Config.maxTime

end Sys2Proof.Machine
end

