-- ==== Sys2Proof/Machine/Pool.lean ====
section
/-! DEFINITION. What the Announcement Pool does with a record (chapter 5): creation, the hold, expiry, the return to
READY, the restart rule, completion and its follow-on requests. -/

namespace Sys2Proof.Machine

/-! ### Waiting (R89, R92) -/

/-- Whether a record leaving QUEUED requires confirmation (R89). -/
def needsConfirmation (s : State) (a : Ask) : Bool :=
  match a.confirm with
  | .always => true
  | .never => false
  | .ifProvisional =>
    match s.callOf a.call with
    | some c => c.provisional
    | none => false

/-- A record enters READY: eligible_since is set to T if absent, and a pass is caused (R89). -/
def enterReady (t id : Nat) (s : State) : State :=
  causePass (s.updAnn id fun r => { r with
    state := .ready, holdStart := none, eligibleSince := some (r.eligibleSince.getD t) })

/-- The HELD notice of a record (R89, R104). -/
def heldNotice (restarted : Bool) (t : Nat) (r : AnnRec) : Notice :=
  .held restarted r.annId (r.ask.call.map Prod.snd) r.ask.step r.ask.cls t r.ask.confirmTimeout

/-- A record in QUEUED leaves it if T has reached its earliest: into HELD with a notice, or into READY (R89). -/
def leaveQueued (t id : Nat) (s : State) : State :=
  match s.ann id with
  | none => s
  | some r =>
    if r.state = .queued ∧ r.ask.earliest ≤ t then
      if needsConfirmation s r.ask then
        raise (heldNotice false t r) (s.updAnn id fun r => { r with state := .held, holdStart := some t })
      else enterReady t id s
    else s

/-- A waiting record whose latest T has passed ends EXPIRED (R92). -/
def expireAnn (t id : Nat) (s : State) : State :=
  match s.ann id with
  | none => s
  | some r => if r.expired t then endRecord id .expired .latestPassed false s else s

/-! ### Creation (R87, R88) -/

/-- The ann_id after the last assigned, counting 65535 on to 1 and skipping every value in use (R87). The first
argument bounds the search: one more than the values in use. -/
def nextId (used : List Nat) : Nat → Nat → Nat
  | 0, last => last
  | k + 1, last =>
    let next := if last < 65535 then last + 1 else 1
    if used.contains next then nextId used k next else next

/-- A new record of a request (R88, step 3). -/
def newRecord (a : Ask) (id seq : Nat) : AnnRec :=
  { annId := id, seq := seq,
    ask := { a with earliest := clampTime a.earliest, latest := a.latest.map clampTime },
    state := .queued, eligibleSince := none, holdStart := none, restartCount := 0,
    held := 0#32, missed := 0#32, lost := 0#32, channel := none,
    platformSpoken := false, noRepeat := false, endRequested := false, noZonesNoted := false }

/-- The pool takes a creation request: none for want of a free record, or the new ann_id and the state with the
record written and judged at once against the present T (R88). -/
def createRecord (a : Ask) (s : State) : Option (Nat × State) :=
  let p := s.apl
  if Config.poolSize ≤ p.records.length then none
  else
    let id := nextId (p.records.map fun r => r.annId) (p.records.length + 1) p.lastId
    let s := s.onApl fun p => { p with
      records := insertBy (fun x y => decide (x.seq ≤ y.seq)) (newRecord a id p.counter) p.records
      lastId := id
      counter := (p.counter + 1) % 4294967296 }
    let s := count (.created a.cls) s
    some (id, expireAnn s.sck.time id (leaveQueued s.sck.time id s))

/-! ### Return to READY and the restart rule (R96) -/

/-- A PLAYING record returns to READY: its source stopped, its zones released, its sets and channel cleared, its
eligible_since kept (R96). -/
def returnToReady (id : Nat) (s : State) : State :=
  match s.ann id with
  | none => s
  | some r =>
    let s := releaseZones r.held (stopSource r s)
    causePass (s.updAnn id fun r => { r with
      state := .ready, held := 0#32, missed := 0#32, lost := 0#32, channel := none, platformSpoken := false })

/-- The restart rule for a restart request (R96): back to READY with one restart more, or ended PREEMPTED. -/
def restartOrPreempt (why : Reason) (id : Nat) (s : State) : State :=
  match s.ann id with
  | none => s
  | some r =>
    if r.ask.restartable ∧ r.restartCount < 2 ∧ r.ask.latest.all (fun l => decide (s.sck.time ≤ l)) then
      (returnToReady id s).updAnn id fun r => { r with restartCount := r.restartCount + 1 }
    else endRecord id .preempted why false s

/-! ### Completion (R95, R133, R134) -/

/-- The repeat of a completed COMMAND record (R95). -/
def repeatAsk (a : Ask) (t : Nat) : Ask :=
  { a with
    repeats := a.repeats - 1
    earliest := t + a.repeatInterval
    latest := some (t + a.repeatInterval + a.window.getD 0) }

/-- The pool's own repeat of a COMMAND record (R95). -/
def requestRepeat (r : AnnRec) (t : Nat) (s : State) : State :=
  if r.ask.origin = .command ∧ 0 < r.ask.repeats then
    if r.ask.call.isSome ∧ (s.callOf r.ask.call).isNone then s
    else
      match createRecord (repeatAsk r.ask t) s with
      | some (_, s) => s
      | none => raise (.poolFull r.ask.call none r.ask.cls s.sck.time) (count .poolFullAttempts s)
  else s

/-- The residual of a completed record (R133). -/
def residualAsk (r : AnnRec) (t : Nat) : Ask :=
  { r.ask with
    origin := .residual, step := none, selector := .explicit (r.missed ||| r.lost), policy := .part,
    residual := false, restartable := false, latched := false, confirm := .never,
    earliest := t, latest := some (t + 120), window := none, repeats := 0 }

/-- The Zone Arbiter's residual rule (R133, R134). -/
def requestResidual (r : AnnRec) (t : Nat) (s : State) : State :=
  if r.ask.residual ∧ (r.missed ||| r.lost) ≠ 0#32 then
    match createRecord (residualAsk r t) s with
    | some (_, s) => s
    | none => countBy .droppedResidualZones (zonesOf (r.missed ||| r.lost)).length s
  else s

/-- The COMPLETED event passed to the Trigger Unit for a STEP or REPEAT record (R62, R95). -/
def passCompleted (r : AnnRec) (t : Nat) (s : State) : State :=
  if r.ask.origin = .step ∨ r.ask.origin = .repeated then
    s.onTru fun u => { u with completions := u.completions ++ [⟨r, t⟩] }
  else s

/-! ### Records of a call (R104, R106, R107) -/

/-- Whether a record is of the call that a slot and call_ref name (5.6). -/
def AnnRec.ofCall (r : AnnRec) (slot ref : Nat) : Bool := r.ask.call == some (slot, ref)

/-- Whether a record is a STEP or REPEAT record of a call's step (R53). -/
def AnnRec.ofStep (r : AnnRec) (slot ref step : Nat) : Bool :=
  (r.ask.origin == .step || r.ask.origin == .repeated) && r.ofCall slot ref && r.ask.step == some step

/-- The ann_ids, in ascending seq, of the records at which a condition holds. -/
def State.annIds (s : State) (p : AnnRec → Bool) : List Nat := (s.apl.records.filter p).map fun r => r.annId

/-- STEP_LEFT: the step's waiting records end WITHDRAWN, and its PLAYING record is marked no_repeat (R107). -/
def stepLeft (slot ref step : Nat) (s : State) : State :=
  let waiting := s.annIds fun r => r.ofStep slot ref step && r.state != .playing
  let s := endRecords .withdrawn .stateLeft waiting s
  let mark := fun r : AnnRec =>
    if r.ofStep slot ref step && r.state == .playing then { r with noRepeat := true } else r
  s.onApl fun p => { p with records := p.records.map mark }

/-- Whether a record speaks or follows the call's platform (R104). -/
def AnnRec.followsPlatform (r : AnnRec) : Bool :=
  r.platformSpoken ||
  match r.ask.selector with
  | .callPlatform => true
  | .callPlatformAndGroup _ => true
  | _ => false

/-- The records named enter READY, one after another (R105). -/
def enterReadyAll (t : Nat) : List Nat → State → State
  | [], s => s
  | id :: rest, s => enterReadyAll t rest (enterReady t id s)

end Sys2Proof.Machine
end

