-- ==== Sys2Proof/Machine/Channels.lean ====
section
/-! DEFINITION. The playback channels and the phrase fetch arbiter (chapter 7): the fetch position, the silence
fill, the fetch request, the state changes of a channel, and its output. -/

namespace Sys2Proof.Machine

/-! ### The fetch position (R139) -/

/-- The fetch position enters an element of the list (R139). -/
def Channel.enter (i : Nat) (c : Channel) : Channel :=
  match c.list[i]? with
  | some (.fragment _ loops address length _) =>
    { c with fetchElem := i, baseAddr := address, curAddr := address, baseCount := length, curCount := length,
             loopsLeft := loops }
  | some (.silence ms) => { c with fetchElem := i, baseCount := 16 * ms, curCount := 16 * ms, loopsLeft := 1 }
  | none => c

/-- The end of a pass (R139): the next loop, the next element, or the end of the list. -/
def Channel.passEnd (c : Channel) : Channel :=
  if 1 < c.loopsLeft then
    { c with curAddr := c.baseAddr, curCount := c.baseCount, loopsLeft := c.loopsLeft - 1 }
  else if c.fetchElem + 1 < c.list.length then c.enter (c.fetchElem + 1)
  else { c with fetchFinished := true }

/-- Samples are issued for the element at the fetch position (R139). The current address advances with every sample
issued, the zeros of a SILENCE element among them: R139 says both that and that the address fields take no part there,
and the address that READ_CHANNEL then shows is the model's choice (log 38). -/
def Channel.issue (n : Nat) (c : Channel) : Channel :=
  let c := { c with curAddr := c.curAddr + n, curCount := c.curCount - n }
  if c.curCount = 0 then c.passEnd else c

/-- The loop count an element is entered with (R139). -/
def Element.loops : Element → Nat
  | .fragment _ loops _ _ _ => loops
  | .silence _ => 1

/-- The element whose first sample is issued next, if the fetch position stands at its beginning (R139). -/
def Channel.begins (c : Channel) : Option Nat :=
  match c.list[c.fetchElem]? with
  | some e => if c.curCount = c.baseCount ∧ c.loopsLeft = e.loops then some c.fetchElem else none
  | none => none

/-- Samples as they enter the FIFO: the first carries the mark, if there is one (R137). -/
def marked (mark : Option Nat) : List Sample → List FifoSample
  | [] => []
  | x :: rest => ⟨x, mark⟩ :: rest.map fun y => ⟨y, none⟩

/-- Whether a burst of the channel's present owner is in flight: one whose grant value matches (R138, R146,
log 16). -/
def Channel.bursting (grant : Nat) (c : Channel) : Bool :=
  match c.burst with
  | some b => b.grant == grant
  | none => false

/-- Whether the fetch position is in a SILENCE element. -/
def Channel.inSilence (c : Channel) : Bool :=
  match c.list[c.fetchElem]? with
  | some (.silence _) => true
  | _ => false

/-- Whether the fetch position is in a FRAGMENT element. -/
def Channel.inFragment (c : Channel) : Bool :=
  match c.list[c.fetchElem]? with
  | some (.fragment _ _ _ _ _) => true
  | _ => false

/-- One fill of zeros from a SILENCE element (R140). -/
def Channel.fillOnce (c : Channel) : Channel :=
  let n := min 128 c.curCount
  { c with fifo := c.fifo ++ marked c.begins (List.replicate n 0) }.issue n

/-- The silence fill, repeated while its conditions hold (R140). Each fill of a non-empty element adds a sample, and
none is made above 256, so 257 fills suffice. -/
def Channel.silenceFill (grant : Nat) : Nat → Channel → Channel
  | 0, c => c
  | k + 1, c =>
    if c.state ≠ .idle ∧ c.inSilence ∧ c.fetchFinished = false ∧ c.fifo.length ≤ 256 ∧ c.bursting grant = false then
      silenceFill grant k c.fillOnce
    else c

/-- The fetch request (R141). -/
def Channel.judgeRequest (grant : Nat) (c : Channel) : Channel :=
  if c.state ≠ .idle ∧ c.inFragment ∧ c.fetchFinished = false ∧ c.bursting grant = false ∧ c.fifo.length ≤ 256 then
    { c with fetchReq := true }
  else c

/-- PREFILL and PLAYING end when their conditions hold (R142). -/
def Channel.judgeState (grant : Nat) (c : Channel) : Channel :=
  match c.state with
  | .prefill =>
    if c.fetchFinished ∧ c.bursting grant = false then { c with state := .draining }
    else if 256 ≤ c.fifo.length then { c with state := .playing }
    else c
  | .playing => if c.fetchFinished ∧ c.bursting grant = false then { c with state := .draining } else c
  | _ => c

/-- The tests a channel makes whenever its FIFO, burst or fetch position has changed (R140, R141, R142). -/
def Channel.settle (grant : Nat) (c : Channel) : Channel :=
  ((c.silenceFill grant 257).judgeRequest grant).judgeState grant

/-- A channel is started for a new owner with its new grant value (R138). -/
def Channel.start (owner cls : Nat) (latched : Bool) (list : List Element) (grant : Nat) (c : Channel) : Channel :=
  ({ Channel.reset with
      burst := c.burst, state := .prefill, owner := some owner, cls := some cls, latched := latched,
      list := list }.enter 0).settle grant

/-- A latched channel enters GAP: the list is fetched again from its first element (R144). -/
def Channel.enterGap (grant : Nat) (c : Channel) : Channel :=
  ({ c with state := .gap, gapTime := 0, fetchFinished := false }.enter 0).settle grant

/-! ### The port (R145, R146) -/

/-- The first channel after a pointer, wrapping from 5 to 0, at which a condition holds (R145). -/
def nextAfter (ptr : Nat) (p : Nat → Bool) : Option Nat :=
  ((List.range 6).map fun k => (ptr + 1 + k) % 6).find? p

/-- Whether a channel has its fetch request set and stands in the urgent or the routine bank (R145). -/
def State.requests (s : State) (urgent : Bool) (c : Nat) : Bool :=
  (s.channel c).fetchReq && (match (s.channel c).cls with
    | some k => decide (k ≤ 1) == urgent
    | none => false)

/-- Whether no fetch request is set (R145). -/
def State.noRequest (s : State) : Bool := (List.range 6).all fun c => !(s.channel c).fetchReq

/-- A grant issues the burst of a channel, and the port becomes BUSY (R145). -/
def issueBurst (c : Nat) (s : State) : State :=
  let ch := s.channel c
  let n := min 128 ch.curCount
  let b : Burst := ⟨n, s.grantOf c, ch.curAddr, ch.begins⟩
  (s.updChannel c fun ch => { ch with fetchReq := false, burst := some b }.issue n).onPmc
    fun p => { p with transfer := some (.burst c) }

/-- The arbiter's choice among the fetch requests while the port is FREE (R145, steps 1 and 2). -/
def grantFetch (s : State) : State :=
  match nextAfter s.pmc.urgentPtr (s.requests true) with
  | some c => issueBurst c (s.onPmc fun p => { p with urgentPtr := c })
  | none =>
    match nextAfter s.pmc.routinePtr (s.requests false) with
    | some c => issueBurst c (s.onPmc fun p => { p with routinePtr := c })
    | none => s

/-- A burst's samples enter the channel's FIFO, if the channel still plays for the owner they were fetched for; in
every other case they are thrown away (R146). -/
def Channel.takeBurst (grant : Nat) (p : PhraseController) (c : Channel) : Channel :=
  match c.burst with
  | some b =>
    let c := { c with burst := none }
    if c.state ≠ .idle ∧ b.grant = grant then
      { c with fifo := c.fifo ++ marked b.mark (readPhrases p b.address b.length) }.settle grant
    else c
  | none => c

/-! ### Output (R142, R147) -/

/-- The trim of a FRAGMENT element of the channel's list. -/
def Channel.trimOf (c : Channel) (i : Nat) : Option Int :=
  match c.list[i]? with
  | some (.fragment _ _ _ _ trim) => some trim
  | _ => none

/-- G is taken again, with a trim, for the zones listed (R158). -/
def takeAtts (cls : Nat) (trim : Int) : List Nat → State → State
  | [], s => s
  | z :: rest, s => takeAtts cls trim rest (takeAtt cls trim z s)

/-- An element-start mark reaches the output (R142, R158): the play element, and for a FRAGMENT its trim, which is
handed to the Level and Mix Unit for every zone of the owner's held set. -/
def startElement (c : Nat) (mark : Option Nat) (s : State) : State :=
  match mark with
  | none => s
  | some i =>
    let s := s.updChannel c fun ch => { ch with playElem := i }
    match (s.channel c).trimOf i with
    | none => s
    | some trim =>
      let s := s.updChannel c fun ch => { ch with curTrim := trim }
      match (s.channel c).owner.bind s.ann with
      | some r => takeAtts r.ask.cls trim (zonesOf r.held) s
      | none => s

/-- A sample period at which a PLAYING channel has nothing to output (R147). -/
def underrun (c : Nat) (s : State) : State :=
  let ch := s.channel c
  let s := s.updChannel c fun ch => { ch with underrunRun := min (ch.underrunRun + 1) 1600 }
  if ch.underrunRun = 0 then
    count (.underruns (ch.cls.getD 0))
      (raise (.underrun (ch.owner.getD 0) (ch.cls.getD 0) c ch.playElem s.sck.time) s)
  else s

/-- The output of a channel in one sample period (R142). -/
def channelOutput (c : Nat) (s : State) : Sample × State :=
  let ch := s.channel c
  match ch.state, ch.fifo with
  | .playing, x :: rest =>
    let s := s.updChannel c fun ch => { ch with fifo := rest, underrunRun := 0 }
    (x.sample, (startElement c x.mark s).updChannel c (Channel.settle (s.grantOf c)))
  | .draining, x :: rest =>
    let s := s.updChannel c fun ch => { ch with fifo := rest, underrunRun := 0 }
    (x.sample, startElement c x.mark s)
  | .playing, [] => (0, underrun c s)
  | _, _ => (0, s)

end Sys2Proof.Machine
end

