-- ==== Sys2Proof/Machine/Expander.lean ====
section
/-! DEFINITION. The Script Expander (chapter 4): a script and a call become a fragment list. -/

namespace Sys2Proof.Machine

/-- The hour and minute at which the clock reads an instant (R12). -/
def readClock (originHour x : Nat) : Nat × Nat :=
  let c := (originHour * 3600 + x) % 86400
  (c / 3600, c % 3600 / 60)

/-- The whole delay minutes a DELAY item speaks (R78). -/
def delayMinutes (d : Int) : Nat := if 0 < d then min ((d.toNat + 59) / 60) 199 else 0

/-- An element an item would append, before it is found to be there or missing (R80). -/
inductive Wanted where
  | fragment (id loops : Nat)
  | number (n : Nat)
  | silence (ms : Nat)
  deriving DecidableEq, Repr

/-- The places of a calling pattern, with the joiner before the last of two or more (R79). -/
def callingPlaces : List Nat → List Wanted
  | [] => []
  | [p] => [.fragment p 1]
  | [p, q] => [.fragment p 1, .number 201, .fragment q 1]
  | p :: q :: rest => .fragment p 1 :: callingPlaces (q :: rest)

/-- The elements an item would append (R75 to R79). -/
def wantedOf (patterns : Tab (List Nat)) (originHour : Nat) (call : Option CallRec) : Item → List Wanted
  | .fragment id => [.fragment id 1]
  | .chime id loops => [.fragment id loops]
  | .gap ms => [.silence ms]
  | .place => match call with
    | some c => [.fragment c.place 1]
    | none => []
  | .platform => match call with
    | some c => if c.platform = 0 then [] else [.number c.platform]
    | none => []
  | .time expected => match call with
    | some c =>
      let (hh, mm) := readClock originHour (if expected then c.expected else c.sched)
      [.number hh, .number (if mm = 0 then 200 else mm)]
    | none => []
  | .delay => match call with
    | some c => [.number (delayMinutes c.delay)]
    | none => []
  | .calling => match call with
    | some c => match c.pattern with
      | some p => callingPlaces ((tabGet patterns p).getD [])
      | none => []
    | none => []

/-- The directory entry of a fragment id (R70). -/
def dirEntry (x : ScriptExpander) (id : Nat) : DirEntry := tabGetD x.directory id DirEntry.reset

/-- A fragment element with copies of the directory entry, or what is missing (R74, R80). -/
def fragmentElement (x : ScriptExpander) (id loops : Nat) : Element ⊕ Missing :=
  let d := dirEntry x id
  if d.length = 0 then .inr (.fragmentId id) else .inl (.fragment id loops d.address d.length d.trim)

/-- A wanted element as it is found in the tables (R74, R80). -/
def resolveWanted (x : ScriptExpander) : Wanted → Element ⊕ Missing
  | .fragment id loops => fragmentElement x id loops
  | .number n => match tabGet x.numbers n with
    | some id => fragmentElement x id 1
    | none => .inr (.numberIndex n)
  | .silence ms => .inl (.silence ms)

/-- What an expansion gives (R73, R80, R81). -/
structure Expansion where
  elements : List Element
  missing : Nat
  firstMissing : Option Missing
  truncatedAt : Option Nat
  deriving DecidableEq, Repr

/-- Appends the wanted elements, each with the index of its item, to a list, leaving out missing ones, and stops at
the first that finds 64 elements in the list (R80, R81). -/
def appendWanted (x : ScriptExpander) : List (Nat × Wanted) → Expansion → Expansion
  | [], e => e
  | (item, w) :: rest, e =>
    if 64 ≤ e.elements.length then { e with truncatedAt := some item }
    else match resolveWanted x w with
      | .inl el => appendWanted x rest { e with elements := e.elements ++ [el] }
      | .inr m => appendWanted x rest { e with
          missing := e.missing + 1, firstMissing := some (e.firstMissing.getD m) }

/-- The wanted elements of a script's items in order, each with the index of its item. -/
def wantedList (patterns : Tab (List Nat)) (originHour : Nat) (call : Option CallRec) :
    Nat → List Item → List (Nat × Wanted)
  | _, [] => []
  | i, item :: rest =>
    ((wantedOf patterns originHour call item).map fun w => (i, w)) ++
      wantedList patterns originHour call (i + 1) rest

/-- The expansion of a script for a call; a script that is not loaded gives an empty list (R73). -/
def expandScript (x : ScriptExpander) (patterns : Tab (List Nat)) (originHour : Nat) (call : Option CallRec)
    (script : Nat) : Expansion :=
  match tabGet x.scripts script with
  | some sc => appendWanted x (wantedList patterns originHour call 0 sc.items) ⟨[], 0, none, none⟩
  | none => ⟨[], 0, none, none⟩

/-- The expansion made at the start of a record, from the tables and the call as they stand (R73). -/
def expandFor (r : AnnRec) (s : State) : Expansion :=
  match r.ask.script with
  | some sc => expandScript s.sxe s.crg.patterns s.sck.originHour (s.callOf r.ask.call) sc
  | none => ⟨[], 0, none, none⟩

/-- The counts and notices of an expansion, made when it ends (R80, R81). -/
def noteExpansion (r : AnnRec) (e : Expansion) (s : State) : State :=
  let script := r.ask.script.getD 0
  let s := countBy .missingFragments e.missing s
  let s := match e.firstMissing with
    | some m => raise (.missingFragment r.annId script e.missing m) s
    | none => s
  match e.truncatedAt with
  | some i => raise (.truncated r.annId script i) (count .truncatedLists s)
  | none => s

/-- Whether the script that a record names holds a PLATFORM item (R93). -/
def speaksPlatform (s : State) (r : AnnRec) : Bool :=
  match r.ask.script with
  | some sc => match tabGet s.sxe.scripts sc with
    | some script => script.items.contains .platform
    | none => false
  | none => false

end Sys2Proof.Machine
end

