-- ==== Sys2Proof/Machine/Arbiter.lean ====
section
/-! DEFINITION. The Zone Arbiter (chapter 6): selectors, availability, the arbitration pass with its turns, starts,
steals and preemptions, and the loss of zones to faults. -/

namespace Sys2Proof.Machine

/-! ### Selectors (R115, R117, R118) -/

/-- The members of a group: the zones whose attribute code the group's value and mask match (R115). -/
def groupMembers (s : State) (g : Nat) : ZoneSet :=
  let e := tabGetD s.zar.groups g GroupEntry.reset
  zoneSetOf ((List.range 32).filter fun z => (s.zone z).code &&& e.mask == e.value &&& e.mask)

/-- The platform map entry of a platform (R114). -/
def platformZones (s : State) (p : Nat) : ZoneSet := tabGetD s.zar.platforms p 0#32

/-- The CALL_PLATFORM set of a record's call (R117, R118). -/
def callPlatformZones (s : State) (call : Option (Nat × Nat)) : ZoneSet :=
  match s.callOf call with
  | some c => if c.platform = 0 then 0#32 else platformZones s c.platform
  | none => 0#32

/-- The zone set a record's selector resolves to (R117). -/
def resolveZones (s : State) (a : Ask) : ZoneSet :=
  match a.selector with
  | .explicit zones => zones
  | .platform p => platformZones s p
  | .callPlatform => callPlatformZones s a.call
  | .group g => groupMembers s g
  | .callPlatformAndGroup g => callPlatformZones s a.call ||| groupMembers s g
  | .all => BitVec.allOnes 32

/-- The zones that are available (R119). -/
def availableZones (s : State) : ZoneSet := zoneSetOf ((List.range 32).filter fun z => (s.zone z).available)

/-! ### Classifying (R123) -/

/-- Whether a zone is free: no holder (R123). -/
def zoneFree (s : State) (z : Nat) : Bool := (s.zone z).holder.isNone

/-- Whether a zone is held by a record of a class less urgent than `cls` (R123). -/
def zonePreemptible (s : State) (cls z : Nat) : Bool :=
  match (s.zone z).holder.bind s.ann with
  | some h => decide (cls < h.ask.cls)
  | none => false

/-- The zones of U that a record of a class may take: free or preemptible, and not reserved in this pass (R123). -/
def takeable (s : State) (cls : Nat) (reserved u : ZoneSet) : ZoneSet :=
  zoneSetOf ((zonesOf (u &&& ~~~reserved)).filter fun z => zoneFree s z || zonePreemptible s cls z)

/-! ### The source (R126, R127) -/

/-- Where a starting record's source comes from. -/
inductive Source where
  | stream
  | idle (channel : Nat)
  | steal (channel : Nat) (victim : Nat)
  deriving DecidableEq, Repr

/-- The IDLE channel with the lowest number (R126). -/
def idleChannel (s : State) : Option Nat := (List.range 6).find? fun c => (s.channel c).state == .idle

/-- How long ago a channel was given, counted in grants (R126, log 17). -/
def grantAge (s : State) (c : Nat) : Nat := (s.zar.grantCounter + 4294967296 - s.grantOf c) % 4294967296

/-- The better of two candidates for a steal: the less urgent class, then the channel given more recently (R127). -/
def betterVictim (s : State) (x y : Nat × Nat × Nat) : Nat × Nat × Nat :=
  if x.1 < y.1 ∨ (x.1 = y.1 ∧ grantAge s y.2.1 < grantAge s x.2.1) then y else x

/-- The candidates for a steal as (class, channel, ann_id): the PLAYING records of class 1, 2 or 3 that hold a
channel (R127). -/
def stealCandidates (s : State) : List (Nat × Nat × Nat) :=
  s.apl.records.filterMap fun r =>
    if r.state = .playing ∧ 1 ≤ r.ask.cls then r.channel.map fun c => (r.ask.cls, c, r.annId) else none

/-- The channel that a class-0 record may take (R127). -/
def stealChoice (s : State) : Option Source :=
  match stealCandidates s with
  | [] => none
  | x :: rest =>
    let best := rest.foldl (betterVictim s) x
    some (.steal best.2.1 best.2.2)

/-- The source a record can have, if one is obtainable (R126). -/
def sourceFor (s : State) (r : AnnRec) : Option Source :=
  match r.ask.stream with
  | some _ => some .stream
  | none =>
    match idleChannel s with
    | some c => some (.idle c)
    | none => if r.ask.cls = 0 then stealChoice s else none

/-! ### Starting (R128, R129) -/

/-- The zones listed pass to a starting record: each leaves its holder's held set and joins its lost set, its holder
becomes the starting record, and G is taken for it (R128, R158). -/
def seizeZones (id cls : Nat) : List Nat → State → State
  | [], s => s
  | z :: rest, s =>
    let s := match (s.zone z).holder with
      | some h => s.updAnn h fun r => { r with
          held := r.held &&& ~~~(BitVec.twoPow 32 z), lost := r.lost ||| BitVec.twoPow 32 z }
      | none => s
    seizeZones id cls rest (takeAtt cls 0 z (s.updZone z fun e => { e with holder := some id }))

/-- A channel is given to a starting record with its fragment list and a new grant value (R126, R138). -/
def giveChannel (c : Nat) (r : AnnRec) (list : List Element) (s : State) : State :=
  let grant := (s.zar.grantCounter + 1) % 4294967296
  let s := s.onZar fun a => { a with grantCounter := grant, grants := tabSet a.grants c grant }
  s.updChannel c (Channel.start r.annId r.ask.cls r.ask.latched list grant)

/-- The holders of the zones listed, each once, in ascending zone order. -/
def holdersOf (s : State) : List Nat → List Nat
  | [] => []
  | z :: rest =>
    let others := holdersOf s rest
    match (s.zone z).holder with
    | some h => if others.contains h then others else h :: others
    | none => others

/-- The records listed that hold no zone any more receive a restart request with reason ZONES_TAKEN (R129). -/
def dealWithLosers : List Nat → State → State
  | [], s => s
  | id :: rest, s =>
    match s.ann id with
    | some r =>
      dealWithLosers rest (if r.state = .playing ∧ r.held = 0#32 then restartOrPreempt .zonesTaken id s else s)
    | none => dealWithLosers rest s

/-- The channel a source gives. -/
def Source.channel : Source → Option Nat
  | .stream => none
  | .idle c => some c
  | .steal c _ => some c

/-- Step 2 of a start: a stolen channel is taken from its record with a fade (R127, R128, R148). -/
def takeStolen (src : Source) (s : State) : State :=
  match src with
  | .steal c victim =>
    match s.ann victim with
    | some v => (fadeChannel c v.held s).updAnn victim fun v => { v with channel := none }
    | none => s
  | _ => s

/-- The victim of a steal receives its restart request with reason CHANNEL_TAKEN (R129). -/
def dealWithVictim (src : Source) (s : State) : State :=
  match src with
  | .steal _ victim => restartOrPreempt .channelTaken victim s
  | _ => s

/-- A record whose zones and source are obtainable starts with a list already expanded (R128, steps 2 to 7; R93). -/
def startRecord (r : AnnRec) (src : Source) (u taken : ZoneSet) (list : List Element) (s : State) : State :=
  let spoken := speaksPlatform s r
  let s := takeStolen src s
  let losers := (sortBy (fun x y => decide (x ≤ y)) (holdersOf s (zonesOf taken))).filter (· != r.annId)
  let s := if losers.isEmpty then s else causePass s
  let s := seizeZones r.annId r.ask.cls (zonesOf taken) s
  let s := match src.channel with
    | some c => giveChannel c r list s
    | none => s
  let s := s.updAnn r.annId fun r => { r with
    state := .playing, held := taken, missed := u &&& ~~~taken, lost := 0#32, channel := src.channel,
    platformSpoken := spoken }
  let s := count (.started r.ask.cls) s
  dealWithLosers losers (dealWithVictim src s)

/-- The start of a record (R128): a scripted record is expanded first, and an empty list ends it ABORTED. -/
def tryStart (r : AnnRec) (src : Source) (u taken : ZoneSet) (s : State) : State :=
  match r.ask.stream with
  | some _ => startRecord r src u taken [] s
  | none =>
    let e := expandFor r s
    let s := noteExpansion r e s
    if e.elements.isEmpty then endRecord r.annId .aborted .emptyList false (count .emptyLists s)
    else startRecord r src u taken e.elements s

/-! ### The pass (R120 to R125) -/

/-- The first NO_ZONES notice of a record (R122). -/
def noteNoZones (r : AnnRec) (resolved : ZoneSet) (s : State) : State :=
  if r.noZonesNoted then s
  else raise (.noZones r.annId r.ask.cls (r.ask.call.map Prod.snd) resolved)
    (s.updAnn r.annId fun r => { r with noZonesNoted := true })

/-- One record's turn in a pass: the zones reserved so far and the state, before and after (R122 to R126). -/
def takeTurn (id : Nat) (reserved : ZoneSet) (s : State) : ZoneSet × State :=
  match s.ann id with
  | none => (reserved, s)
  | some r =>
    if r.state ≠ .ready then (reserved, s)
    else
      let resolved := resolveZones s r.ask
      let u := resolved &&& availableZones s
      if u = 0#32 then (reserved, noteNoZones r resolved s)
      else
        let taken := takeable s r.ask.cls reserved u
        match r.ask.policy with
        | .whole =>
          if taken = u then
            match sourceFor s r with
            | some src => (reserved, tryStart r src u u s)
            | none => (reserved, s)
          else (reserved ||| u, s)
        | .part =>
          if taken = 0#32 then (reserved, s)
          else
            match sourceFor s r with
            | some src => (reserved, tryStart r src u taken s)
            | none => (reserved, s)

/-- The turns of a pass, one after another. -/
def takeTurns : List Nat → ZoneSet → State → State
  | [], _, s => s
  | id :: rest, reserved, s =>
    let q := takeTurn id reserved s
    takeTurns rest q.1 q.2

/-- The order of a pass: by class, then eligible_since, then seq (R121). -/
def passBefore (x y : AnnRec) : Bool :=
  decide (x.ask.cls < y.ask.cls) ||
  (x.ask.cls == y.ask.cls &&
    (decide (x.eligibleSince.getD 0 < y.eligibleSince.getD 0) ||
     (x.eligibleSince.getD 0 == y.eligibleSince.getD 0 && decide (x.seq ≤ y.seq))))

/-- The records a pass considers, in its order (R121). -/
def passOrder (s : State) : List Nat :=
  (sortBy passBefore (s.apl.records.filter fun r => r.state == .ready)).map fun r => r.annId

/-- One pass (R121). -/
def onePass (s : State) : State := takeTurns (passOrder s) 0#32 s

/-- A pass, and one further pass as long as a cause arose during the last (R120). The first argument bounds the
chain: a record starts at most three times in it, by R96, so 290 passes are never reached (log 7). -/
def passChain : Nat → State → State
  | 0, s => s
  | k + 1, s =>
    if s.zar.passPending then passChain k (onePass (s.onZar fun a => { a with passPending := false })) else s

/-! ### Availability (R113, R119, R130) -/

/-- A held zone that has become unavailable is taken from its holder, which ends ABORTED if it holds no zone any
more (R130). -/
def zoneFault (z : Nat) (s : State) : State :=
  match (s.zone z).holder with
  | none => s
  | some id =>
    let s := s.updAnn id fun r => { r with
      held := r.held &&& ~~~(BitVec.twoPow 32 z), lost := r.lost ||| BitVec.twoPow 32 z }
    let s := causePass (clearHolders [z] s)
    match s.ann id with
    | some r => if r.held = 0#32 then endRecord id .aborted .noZonesLeft false s else s
    | none => s

/-- A zone's availability is judged again (R119); a change is noticed with a cause, and causes a pass (R113, R173). -/
def judgeAvailability (z : Nat) (cause : ZoneCause) (s : State) : State :=
  let now := (s.zone z).enabled && (s.link z).usable
  if now = (s.zone z).available then s
  else
    let s := s.updZone z fun e => { e with available := now }
    let s := if now then s else zoneFault z s
    causePass (raise (.zoneState z now cause) s)

end Sys2Proof.Machine
end

