-- ==== Sys2Proof/Machine/Endings.lean ====
section
/-! DEFINITION. The end of a record that plays (chapter 5): R94 with the arbitration pass that its release makes,
several ends by one event, completion with its follow-on requests, a replacing request, and PLATFORM_MOVED. -/

namespace Sys2Proof.Machine

/-! ### R94 with its pass -/

/-- The zones of a record are released, and the Zone Arbiter makes its pass, before anything further becomes of the
record (R94, step 2; R120, R132). A record that holds no zone makes none. -/
def letGoAndPass (id : Nat) (sourceEnded : Bool) (s : State) : State :=
  match s.ann id with
  | none => s
  | some r => if r.held = 0#32 then letGo id sourceEnded s else passChain 290 (letGo id sourceEnded s)

/-- A record ends with an outcome and a reason, in the order of R94: source, zones and pass, notice and counter, free
place. -/
def endAnn (id : Nat) (o : AnnOutcome) (why : Reason) (sourceEnded : Bool) (s : State) : State :=
  closeAnn id o why (letGoAndPass id sourceEnded s)

/-- The sources of the records named stop and their zones are released, one after another (R94, steps 1 and 2). -/
def letGoAll : List Nat → State → State
  | [], s => s
  | id :: rest, s => letGoAll rest (letGo id false s)

/-- The records named are noticed, counted and freed, one after another (R94, steps 3 and 4). -/
def closeAnns (o : AnnOutcome) (why : Reason) : List Nat → State → State
  | [], s => s
  | id :: rest, s => closeAnns o why rest (closeAnn id o why s)

/-- Whether an ann_id is that of a record in PLAYING. -/
def State.plays (s : State) (id : Nat) : Bool := (s.ann id).any fun r => r.state == .playing

/-- Whether an ann_id is that of a record that holds a zone. -/
def State.holdsZone (s : State) (id : Nat) : Bool := (s.ann id).any fun r => r.held != 0#32

/-- The records named end at one event, each in the order of R94 and by its state when the event is taken: the waiting
ones first, then the PLAYING ones, whose releases make one pass, in which no record named starts or is taken from. That
the waiting ones come first, and that one pass serves the releases, is the model's choice (log 30, log 7). -/
def endAnns (o : AnnOutcome) (why : Reason) (ids : List Nat) (s : State) : State :=
  let playing := ids.filter s.plays
  let released := letGoAll playing (endRecords o why (ids.filter fun id => !s.plays id) s)
  closeAnns o why playing (if playing.any s.holdsZone then passChain 290 released else released)

/-! ### Completion (R95) -/

/-- A record completes: it ends COMPLETED, and its follow-on requests are made once it is freed (R94, R95), from its
fields as they stood at completion. A LIVE record's source is faded; any other has ended of itself. `residualFirst`
says which of a COMMAND record's repeat and its residual is taken first (R95 leaves it open, log 10). The Trigger
Unit's repeat of a STEP or REPEAT record is asked for by the COMPLETED row, and so always after the residual: that
order is the model's choice (log 10). -/
def completeRecord (id : Nat) (why : Reason) (residualFirst : Bool) (s : State) : State :=
  match s.ann id with
  | none => s
  | some r =>
    let t := s.sck.time
    let s := passCompleted r t (endAnn id .completed why (r.ask.origin != .live) s)
    if residualFirst then requestRepeat r t (requestResidual r t s)
    else requestResidual r t (requestRepeat r t s)

/-! ### Replacement and PLATFORM_MOVED (R104, R107) -/

/-- A replacing request ends the STEP or REPEAT records of the same slot, call_ref and step (R53, R107). -/
def replaceStep (slot ref step : Nat) (s : State) : State :=
  endAnns .withdrawn .replaced (s.annIds fun r => r.ofStep slot ref step) s

/-- What PLATFORM_MOVED does with one record of the call that it does not end (R104). -/
def platformMovedOne (id : Nat) (s : State) : State :=
  match s.ann id with
  | none => s
  | some r =>
    match r.state with
    | .held =>
      raise (heldNotice true s.sck.time r) (s.updAnn id fun r => { r with holdStart := some s.sck.time })
    | .playing => if r.followsPlatform ∧ r.ask.restartable then returnToReady id s else s
    | _ => s

/-- What PLATFORM_MOVED does with the records of the call that it does not end, one after another. -/
def platformMovedAll : List Nat → State → State
  | [], s => s
  | id :: rest, s => platformMovedAll rest (platformMovedOne id s)

/-- Whether PLATFORM_MOVED ends a record of the call SUPERSEDED (R104). -/
def AnnRec.superseded (r : AnnRec) : Bool := r.state == .playing && r.followsPlatform && !r.ask.restartable

/-- PLATFORM_MOVED reaches the pool (R104): each record of the call is dealt with by its state when the event is taken,
those that end SUPERSEDED last (log 30); then a pass is caused (R120). -/
def movePlatform (slot ref : Nat) (s : State) : State :=
  let ofCall := s.annIds fun r => r.ofCall slot ref
  let ending := s.annIds fun r => r.ofCall slot ref && r.superseded
  causePass (endAnns .superseded .platformChanged ending (platformMovedAll ofCall s))

end Sys2Proof.Machine
end

