-- ==== Sys2Proof/Machine/Operands.lean ====
section
/-! DEFINITION. The operands of the commands and what they are written as: bytes, codes, selectors, load entries,
messages and cells (chapter 11). A parser answers none where the rule that owns the field refuses it. -/

namespace Sys2Proof.Machine

/-! ### Bytes (R190) -/

/-- The byte at an offset, as a number; an offset past the end reads as 0. -/
def byteAt (b : List Byte) (i : Nat) : Nat := (b.getD i 0).toNat

/-- Two bytes, most significant first. -/
def be16 (b : List Byte) (i : Nat) : Nat := byteAt b i * 256 + byteAt b (i + 1)

/-- Three bytes, most significant first. -/
def be24 (b : List Byte) (i : Nat) : Nat := be16 b i * 256 + byteAt b (i + 2)

/-- Four bytes, most significant first. -/
def be32 (b : List Byte) (i : Nat) : Nat := be24 b i * 256 + byteAt b (i + 3)

/-- Four bytes in two's complement. -/
def signed32 (b : List Byte) (i : Nat) : Int := (BitVec.ofNat 32 (be32 b i)).toInt

/-- One byte in two's complement. -/
def signed8 (b : List Byte) (i : Nat) : Int := (BitVec.ofNat 8 (byteAt b i)).toInt

/-- A bit of a flags byte. -/
def flagAt (b : List Byte) (i k : Nat) : Bool := (byteAt b i).testBit k

/-- A number in one byte. -/
def w8 (n : Nat) : List Byte := [BitVec.ofNat 8 n]

/-- A number in two bytes. -/
def w16 (n : Nat) : List Byte := [BitVec.ofNat 8 (n / 256), BitVec.ofNat 8 n]

/-- A number in three bytes. -/
def w24 (n : Nat) : List Byte := BitVec.ofNat 8 (n / 65536) :: w16 n

/-- A number in four bytes. -/
def w32 (n : Nat) : List Byte := BitVec.ofNat 8 (n / 16777216) :: w24 n

/-- A signed number in one byte. -/
def ws8 (i : Int) : List Byte := [BitVec.ofInt 8 i]

/-- A signed number in four bytes. -/
def ws32 (i : Int) : List Byte := w32 (BitVec.ofInt 32 i).toNat

/-- A flag in one byte (R192). -/
def wFlag (b : Bool) : List Byte := w8 (if b then 1 else 0)

/-- A call_ref or its absence (R190). -/
def wRef (r : Option Nat) : List Byte := w24 (r.getD 0)

/-- A step index or a channel, or its absence (R190). -/
def wIndex (i : Option Nat) : List Byte := w8 (i.getD 255)

/-- T, E or hold_start, or its absence by the code R190 gives it. -/
def wTime (t : Option Nat) : List Byte := w32 (t.getD 4294967295)

/-- A one-byte value that may be absent, behind its presence byte (R192). -/
def wMaybe8 : Option Nat → List Byte
  | some n => 1#8 :: w8 n
  | none => [0#8, 0#8]

/-- A two-byte value that may be absent, behind its presence byte (R192). -/
def wMaybe16 : Option Nat → List Byte
  | some n => 1#8 :: w16 n
  | none => [0#8, 0#8, 0#8]

/-- A four-byte value that may be absent and has no code in R190, behind its presence byte (R192, log 20). -/
def wMaybe32 : Option Nat → List Byte
  | some n => 1#8 :: w32 n
  | none => [0#8, 0#8, 0#8, 0#8, 0#8]

/-- A zone set word (11.6). -/
def wZones (z : ZoneSet) : List Byte := w32 z.toNat

/-- The bytes of n entries, one after another, each of the size its own bytes say; none when they do not fill the
bytes exactly (11.9). -/
def splitEntries (size : List Byte → Nat) : Nat → List Byte → Option (List (List Byte))
  | 0, [] => some []
  | 0, _ :: _ => none
  | n + 1, b =>
    if b.length < size b then none
    else (splitEntries size n (b.drop (size b))).map fun rest => b.take (size b) :: rest

/-- A list of 16-bit values, n of them from an offset on. -/
def be16s (b : List Byte) : Nat → Nat → List Nat
  | _, 0 => []
  | i, n + 1 => be16 b i :: be16s b (i + 2) n

/-! ### Codes (11.3, 11.7, 11.10) -/

/-- The code of a status (11.3). -/
def Status.code : Status → Nat
  | .ok => 0 | .badLength => 1 | .badCode => 2 | .badIndex => 3 | .badValue => 4 | .badState => 5
  | .slotBusy => 6 | .duplicateRef => 7 | .notRunning => 8 | .noSuchCall => 9 | .noSuchAnn => 10
  | .poolFull => 11 | .tooLate => 12 | .inUse => 13 | .failedPart => 14

/-- The code of a part state (11.10). -/
def PartState.code : PartState → Nat
  | .selfCheck => 0 | .failed => 1 | .standby => 2 | .running => 3

/-- The code of a day state (11.10). -/
def DayState.code : DayState → Nat
  | .noDay => 0 | .opened => 1

/-- The code of a call state (11.3); 0 is EMPTY. -/
def CallState.code : CallState → Nat
  | .planned => 1 | .due => 2 | .atPlatform => 3 | .departing => 4 | .finished => 5 | .cancelled => 6

/-- The code of a call kind (11.4). -/
def CallKind.code : CallKind → Nat
  | .arrival => 0 | .departure => 1 | .movement => 2

/-- The code of a step status (11.10). -/
def StepStatus.code : StepStatus → Nat
  | .armed => 0 | .fired => 1 | .skipped => 2

/-- The code of a record origin (11.10). -/
def Origin.code : Origin → Nat
  | .step => 0 | .repeated => 1 | .command => 2 | .live => 3 | .emergency => 4 | .residual => 5

/-- The code of a record state (11.10). -/
def RecState.code : RecState → Nat
  | .queued => 0 | .held => 1 | .ready => 2 | .playing => 3

/-- The code of a channel state (11.10). -/
def ChannelState.code : ChannelState → Nat
  | .idle => 0 | .prefill => 1 | .playing => 2 | .draining => 3 | .gap => 4

/-- The code of a policy (11.5). -/
def Policy.code : Policy → Nat
  | .whole => 0 | .part => 1

/-- The code of a confirm mode (11.5). -/
def Confirm.code : Confirm → Nat
  | .never => 0 | .always => 1 | .ifProvisional => 2

/-- The code of a timeout_policy (11.5). -/
def TimeoutPolicy.code : TimeoutPolicy → Nat
  | .playAnyway => 0 | .discard => 1

/-- The code of a link state (11.7, 11.8). -/
def LinkState.code : LinkState → Nat
  | .ok => 0 | .opened => 1 | .shorted => 2 | .ampFault => 3 | .linkLost => 4

/-- The code of a ZONE_STATE cause (11.7). -/
def ZoneCause.code : ZoneCause → Nat
  | .link s => s.code
  | .disabled => 5
  | .enabled => 6

/-- The code of an outcome (11.7). -/
def AnnOutcome.code : AnnOutcome → Nat
  | .completed => 1 | .expired => 2 | .withdrawn => 3 | .rejected => 4 | .discarded => 5 | .preempted => 6
  | .superseded => 7 | .aborted => 8

/-- The code of a reason (11.7). -/
def Reason.code : Reason → Nat
  | .endOfList => 1 | .pageEnded => 2 | .emergencyEnded => 3 | .latestPassed => 4 | .command => 5 | .cleared => 6
  | .cancelled => 7 | .callRemoved => 8 | .stateLeft => 9 | .replaced => 10 | .evicted => 11 | .notStarted => 12
  | .dayClosed => 13 | .holdTimeout => 14 | .zonesTaken => 15 | .channelTaken => 16 | .platformChanged => 17
  | .emptyList => 18 | .underrun => 19 | .streamLost => 20 | .noZonesLeft => 21

/-- The code of a reset cause (11.7). -/
def ResetCause.code : ResetCause → Nat
  | .powerOn => 1 | .resetFull => 2 | .resetKeepPhrases => 3

/-- The ambient field of a report (11.8). -/
def Ambient.code : Ambient → Nat
  | .value a => a
  | .sensorFault => 255

/-- The call kind of a code (11.4). -/
def callKindOf : Nat → Option CallKind
  | 0 => some .arrival
  | 1 => some .departure
  | 2 => some .movement
  | _ => none

/-- The policy of a code (11.5). -/
def policyOf : Nat → Option Policy
  | 0 => some .whole
  | 1 => some .part
  | _ => none

/-- The confirm mode of a code (11.5). -/
def confirmOf : Nat → Option Confirm
  | 0 => some .never
  | 1 => some .always
  | 2 => some .ifProvisional
  | _ => none

/-- The timeout_policy of a code (11.5). -/
def timeoutPolicyOf : Nat → Option TimeoutPolicy
  | 0 => some .playAnyway
  | 1 => some .discard
  | _ => none

/-- The line state of a zone report's code (11.8). -/
def lineStateOf : Nat → Option LinkState
  | 0 => some .ok
  | 1 => some .opened
  | 2 => some .shorted
  | 3 => some .ampFault
  | _ => none

/-! ### Selectors (11.5) -/

/-- A selector's 6 bytes, refused as R43 says. -/
def parseSelector (b : List Byte) : Option Selector :=
  let operand := byteAt b 1
  match byteAt b 0 with
  | 0 => if be32 b 2 = 0 then none else some (.explicit (BitVec.ofNat 32 (be32 b 2)))
  | 1 => if 1 ≤ operand ∧ operand ≤ 40 then some (.platform operand) else none
  | 2 => some .callPlatform
  | 3 => if operand ≤ 15 then some (.group operand) else none
  | 4 => if operand ≤ 15 then some (.callPlatformAndGroup operand) else none
  | 5 => some .all
  | _ => none

/-- A selector as 6 bytes. -/
def selectorBytes : Selector → List Byte
  | .explicit zones => [0#8, 0#8] ++ wZones zones
  | .platform p => 1#8 :: w8 p ++ w32 0
  | .callPlatform => [2#8, 0#8] ++ w32 0
  | .group g => 3#8 :: w8 g ++ w32 0
  | .callPlatformAndGroup g => 4#8 :: w8 g ++ w32 0
  | .all => [5#8, 0#8] ++ w32 0

/-- Whether a selector is of a kind that needs a call (R97, R98, R100). -/
def Selector.needsCall : Selector → Bool
  | .callPlatform => true
  | .callPlatformAndGroup _ => true
  | _ => false

/-! ### Load entries (11.4, 11.9) -/

/-- The delay of a load entry or update, clamped (R17). -/
def clampDelay (d : Int) : Int := max (-600) (min d 21600)

/-- The expected time of a scheduled time and a delay (R17). -/
def expectedTime (sched : Nat) (d : Int) : Nat := min ((sched : Int) + d).toNat Config.maxTime

/-- A call record load entry of 20 bytes, as the record it makes at T, refused by R20 check 1 (R21). -/
def parseCallEntry (plans : Tab Plan) (t : Nat) (b : List Byte) : Option CallRec :=
  let ref := be24 b 0
  let platform := byteAt b 5
  let provisional := flagAt b 6 0
  let sched := be32 b 8
  let delay := clampDelay (signed32 b 12)
  let e := expectedTime sched delay
  match callKindOf (byteAt b 3) with
  | some kind =>
    if 1 ≤ ref ∧ (tabGet plans (byteAt b 4)).isSome ∧ platform ≤ 40 ∧ (provisional && platform == 0) = false ∧
        sched ≤ Config.maxTime ∧ be16 b 16 ≤ 4095 then
      some { callRef := ref, kind := kind, plan := byteAt b 4, platform := platform, provisional := provisional,
             sched := sched, delay := delay, expected := e, place := be16 b 16,
             pattern := if flagAt b 6 1 then some (byteAt b 7) else none, state := .planned, stateSince := t,
             retainUntil := none, steps := List.replicate 8 ⟨.armed, e⟩ }
    else none
  | none => none

/-- The size of a pattern entry (11.9). -/
def patternSize (b : List Byte) : Nat := if byteAt b 0 = 0 then 2 else 2 + 2 * byteAt b 1

/-- A pattern entry, refused as R36 says; the inner value is what the table holds afterwards. -/
def parsePattern (b : List Byte) : Option (Option (List Nat)) :=
  let places := be16s b 2 (byteAt b 1)
  match byteAt b 0 with
  | 0 => some none
  | 1 => if byteAt b 1 ≤ 24 ∧ (places.all fun p => decide (p ≤ 4095)) then some (some places) else none
  | _ => none

/-- A pattern entry as it is loaded and reported (R38). -/
def patternBytes : Option (List Nat) → List Byte
  | none => [0#8]
  | some places => 1#8 :: w8 places.length ++ places.flatMap w16

/-- The anchor of a plan step's code and state (11.9, R42). -/
def anchorOf (code state : Nat) : Option Anchor :=
  match code with
  | 0 => some .expectedLead
  | 1 => some .scheduledLead
  | 2 => match state with
    | 2 => some (.onState .due)
    | 3 => some (.onState .atPlatform)
    | 4 => some (.onState .departing)
    | 5 => some (.onState .finished)
    | 6 => some (.onState .cancelled)
    | _ => none
  | 3 => some .onPlatformSet
  | 4 => some .onPlatformChange
  | 5 => some .onDelayChange
  | _ => none

/-- The anchor and state bytes of a plan step (11.9). -/
def anchorBytes : Anchor → List Byte
  | .expectedLead => [0#8, 0#8]
  | .scheduledLead => [1#8, 0#8]
  | .onState st => 2#8 :: w8 st.code
  | .onPlatformSet => [3#8, 0#8]
  | .onPlatformChange => [4#8, 0#8]
  | .onDelayChange => [5#8, 0#8]

/-- The ranges of lead and min_delay for an anchor (R42). -/
def leadsFit (a : Anchor) (lead minDelay : Nat) : Bool :=
  match a with
  | .expectedLead => decide (lead ≤ 7200 ∧ minDelay = 0)
  | .scheduledLead => decide (lead ≤ 7200 ∧ minDelay ≤ 21600)
  | .onDelayChange => decide (60 ≤ lead ∧ lead ≤ 1800 ∧ minDelay = 0)
  | _ => decide (lead = 0 ∧ minDelay = 0)

/-- A plan step of 28 bytes, refused as R43 says. Bits 6 and 7 of its valid states byte name no call state (R42, 11.9) and
are ignored, as the unused bits of a flags byte are: R43 does not say whether such a byte is refused, and ignoring
them is the model's choice (log 37). -/
def parseStep (b : List Byte) : Option PlanStep :=
  match anchorOf (byteAt b 0) (byteAt b 1), parseSelector (b.drop 16), policyOf (byteAt b 22),
      confirmOf (byteAt b 23), timeoutPolicyOf (byteAt b 26) with
  | some anchor, some selector, some policy, some confirm, some timeoutPolicy =>
    let valid := BitVec.ofNat 6 (byteAt b 7)
    if leadsFit anchor (be16 b 2) (be16 b 4) ∧ byteAt b 6 ≤ 3 ∧ valid ≠ 0#6 ∧ 30 ≤ be16 b 8 ∧ be16 b 8 ≤ 1800 ∧
        byteAt b 10 ≤ 7 ∧ 60 ≤ be16 b 12 ∧ be16 b 12 ≤ 1800 ∧ byteAt b 15 ≤ 3 ∧
        5 ≤ be16 b 24 ∧ be16 b 24 ≤ 600 then
      some { anchor := anchor, lead := be16 b 2, minDelay := be16 b 4, group := byteAt b 6, valid := valid,
             window := be16 b 8, repeats := byteAt b 10, repeatInterval := be16 b 12, script := byteAt b 14,
             selector := selector, cls := byteAt b 15, policy := policy, residual := flagAt b 11 0,
             restartable := flagAt b 11 1, confirm := confirm, confirmTimeout := be16 b 24,
             timeoutPolicy := timeoutPolicy }
    else none
  | _, _, _, _, _ => none

/-- A plan step as 28 bytes. -/
def stepBytes (p : PlanStep) : List Byte :=
  anchorBytes p.anchor ++ w16 p.lead ++ w16 p.minDelay ++ w8 p.group ++ w8 p.valid.toNat ++ w16 p.window ++
    w8 p.repeats ++ w8 ((if p.residual then 1 else 0) + (if p.restartable then 2 else 0)) ++
    w16 p.repeatInterval ++ w8 p.script ++ w8 p.cls ++ selectorBytes p.selector ++ w8 p.policy.code ++
    w8 p.confirm.code ++ w16 p.confirmTimeout ++ w8 p.timeoutPolicy.code ++ w8 0

/-- Every entry of a list parsed, or none when one of them is refused. -/
def parseAll {α : Type} (parse : List Byte → Option α) : List (List Byte) → Option (List α)
  | [] => some []
  | b :: rest =>
    match parse b, parseAll parse rest with
    | some v, some others => some (v :: others)
    | _, _ => none

/-- The size of a plan entry (11.9). -/
def planSize (b : List Byte) : Nat := if byteAt b 0 = 0 then 4 else 4 + 28 * byteAt b 1

/-- A plan entry, refused as R43 says; the inner value is what the table holds afterwards. -/
def parsePlan (b : List Byte) : Option (Option Plan) :=
  match byteAt b 0 with
  | 0 => some none
  | 1 =>
    if be16 b 2 ≤ 3600 ∧ 1 ≤ byteAt b 1 ∧ byteAt b 1 ≤ 8 then
      ((splitEntries (fun _ => 28) (byteAt b 1) (b.drop 4)).bind (parseAll parseStep)).map
        fun steps => some ⟨be16 b 2, steps⟩
    else none
  | _ => none

/-- A plan entry as it is loaded and reported (R44). -/
def planBytes : Option Plan → List Byte
  | none => [0#8]
  | some p => 1#8 :: w8 p.steps.length ++ w16 p.dueLead ++ p.steps.flatMap stepBytes

/-- A script item of 4 bytes, refused as R68 says. -/
def parseItem (b : List Byte) : Option Item :=
  let id := be16 b 1
  match byteAt b 0 with
  | 0 => if id ≤ 4095 then some (.fragment id) else none
  | 1 => if id ≤ 4095 ∧ 1 ≤ byteAt b 3 ∧ byteAt b 3 ≤ 16 then some (.chime id (byteAt b 3)) else none
  | 2 => if 10 ≤ id ∧ id ≤ 2000 then some (.gap id) else none
  | 3 => some .place
  | 4 => some .platform
  | 5 => match byteAt b 1 with
    | 0 => some (.time false)
    | 1 => some (.time true)
    | _ => none
  | 6 => some .delay
  | 7 => some .calling
  | _ => none

/-- A script item as 4 bytes. -/
def itemBytes : Item → List Byte
  | .fragment id => 0#8 :: w16 id ++ w8 0
  | .chime id loops => 1#8 :: w16 id ++ w8 loops
  | .gap ms => 2#8 :: w16 ms ++ w8 0
  | .place => [3#8, 0#8, 0#8, 0#8]
  | .platform => [4#8, 0#8, 0#8, 0#8]
  | .time expected => 5#8 :: wFlag expected ++ [0#8, 0#8]
  | .delay => [6#8, 0#8, 0#8, 0#8]
  | .calling => [7#8, 0#8, 0#8, 0#8]

/-- Whether an item is a call item (R66, R67). -/
def Item.ofCall : Item → Bool
  | .fragment _ => false
  | .chime _ _ => false
  | .gap _ => false
  | _ => true

/-- A script of items, with its needs-call flag (R66). -/
def scriptOf (items : List Item) : Script := ⟨items, items.any Item.ofCall⟩

/-- The size of a script entry (11.9). -/
def scriptSize (b : List Byte) : Nat := if byteAt b 0 = 0 then 2 else 2 + 4 * byteAt b 1

/-- A script entry, refused as R68 says; the inner value is what the table holds afterwards. -/
def parseScript (b : List Byte) : Option (Option Script) :=
  match byteAt b 0 with
  | 0 => some none
  | 1 =>
    if 1 ≤ byteAt b 1 ∧ byteAt b 1 ≤ 24 then
      ((splitEntries (fun _ => 4) (byteAt b 1) (b.drop 2)).bind (parseAll parseItem)).map
        fun items => some (scriptOf items)
    else none
  | _ => none

/-- A script entry as it is reported (R72). The place of the needs-call flag, between the loaded byte of the load entry
and the item count, is the model's reading: no load entry holds that flag (DEDUCED, log 20). -/
def scriptBytes : Option Script → List Byte
  | none => [0#8]
  | some sc => 1#8 :: wFlag sc.needsCall ++ w8 sc.items.length ++ sc.items.flatMap itemBytes

/-- A number entry of 2 bytes, refused as R69 says; the inner value is what the table holds afterwards. -/
def parseNumber (b : List Byte) : Option (Option Nat) :=
  if be16 b 0 = 65535 then some none else if be16 b 0 ≤ 4095 then some (some (be16 b 0)) else none

/-- A number entry as 2 bytes. -/
def numberBytes (n : Option Nat) : List Byte := w16 (n.getD 65535)

/-- A directory entry of 12 bytes, refused as R71 says. -/
def parseDir (b : List Byte) : Option DirEntry :=
  let address := be32 b 0
  let length := be32 b 4
  let trim := signed8 b 8
  if address < Config.phraseSize ∧ length ≤ 1048575 ∧ -48 ≤ trim ∧ trim ≤ 24 ∧
      address + length ≤ Config.phraseSize then some ⟨address, length, trim⟩
  else none

/-- A directory entry as 12 bytes. -/
def dirBytes (d : DirEntry) : List Byte := w32 d.address ++ w32 d.length ++ ws8 d.trim ++ [0#8, 0#8, 0#8]

/-- The background feed of a zone entry's byte (11.9); the inner value is the feed or none. -/
def feedOf : Nat → Option (Option Nat)
  | 0 => some (some 0)
  | 1 => some (some 1)
  | 255 => some none
  | _ => none

/-- A zone entry of 16 bytes, refused as R112 says: the zone table entry given with its configuration fields
replaced, its holder and available flag kept, and E_l raised to Gmin. -/
def parseZone (old : ZoneEntry) (b : List Byte) : Option ZoneEntry :=
  match feedOf (byteAt b 8) with
  | some feed =>
    if byteAt b 2 ≤ 120 ∧ byteAt b 3 ≤ 120 ∧ byteAt b 4 ≤ 120 ∧ byteAt b 5 ≤ 254 ∧ byteAt b 6 ≤ 8 ∧
        byteAt b 7 ≤ 24 ∧ byteAt b 9 ≤ 121 ∧ byteAt b 10 ≤ 121 ∧ 1 ≤ be16 b 12 ∧ be16 b 12 ≤ 640 ∧
        1 ≤ be16 b 14 ∧ be16 b 14 ≤ 640 then
      some { old with
        enabled := flagAt b 0 0, code := BitVec.ofNat 8 (byteAt b 1), level := byteAt b 2, gMin := byteAt b 3,
        emergencyLevel := max (byteAt b 4) (byteAt b 3), aRef := byteAt b 5, slope := byteAt b 6,
        bMax := byteAt b 7, feed := feed, backLevel := byteAt b 9, duck := byteAt b 10, attack := be16 b 12,
        release := be16 b 14 }
    else none
  | none => none

/-- A zone's configuration as 16 bytes. -/
def zoneBytes (z : ZoneEntry) : List Byte :=
  wFlag z.enabled ++ [z.code] ++ w8 z.level ++ w8 z.gMin ++ w8 z.emergencyLevel ++ w8 z.aRef ++ w8 z.slope ++
    w8 z.bMax ++ w8 (z.feed.getD 255) ++ w8 z.backLevel ++ w8 z.duck ++ w8 0 ++ w16 z.attack ++ w16 z.release

/-! ### Requests (11.5) -/

/-- The fields an ANNOUNCE carries, with the call_ref it names, refused by R97 check 1. The call, earliest and
latest are filled in when the call is known. -/
def parseAnnounce (b : List Byte) : Option (Option Nat × Ask) :=
  match parseSelector (b.drop 5), policyOf (byteAt b 12), confirmOf (byteAt b 13), timeoutPolicyOf (byteAt b 14) with
  | some selector, some policy, some confirm, some timeoutPolicy =>
    let ref := if flagAt b 1 0 then some (be24 b 2) else none
    if byteAt b 11 ≤ 3 ∧ 5 ≤ be16 b 16 ∧ be16 b 16 ≤ 600 ∧ 30 ≤ be16 b 18 ∧ be16 b 18 ≤ 1800 ∧ byteAt b 15 ≤ 7 ∧
        60 ≤ be16 b 20 ∧ be16 b 20 ≤ 1800 ∧ ref ≠ some 0 then
      some (ref,
        { origin := .command, call := none, step := none, script := some (byteAt b 0), stream := none,
          cls := byteAt b 11, selector := selector, policy := policy, residual := flagAt b 1 1,
          restartable := flagAt b 1 2, latched := false, confirm := confirm, confirmTimeout := be16 b 16,
          timeoutPolicy := timeoutPolicy, earliest := 0, latest := none, window := some (be16 b 18),
          repeats := byteAt b 15, repeatInterval := be16 b 20 })
    else none
  | _, _, _, _ => none

/-! ### Messages (11.3, R191) -/

/-- The command code of a message. -/
def Message.code (m : Message) : Nat := byteAt m.bytes 2

/-- The tag of a message. -/
def Message.tag (m : Message) : Nat := be16 m.bytes 4

/-- The body of a message. -/
def Message.body (m : Message) : List Byte := m.bytes.drop 8

/-- A message as the part sends it: its length, code, status and tag, two bytes sent 0, and its body (11.3). -/
def messageBytes (code status tag : Nat) (body : List Byte) : List Byte :=
  w16 (8 + body.length) ++ w8 code ++ w8 status ++ w16 tag ++ [0#8, 0#8] ++ body

/-- The response to a message (R182, R191). -/
def responseTo (m : Message) (status : Status) (body : List Byte) : List Byte :=
  messageBytes m.code status.code m.tag body

/-! ### Cells (11.2) -/

/-- One bit of the CRC-8 with polynomial x^8 + x^2 + x + 1. -/
def crcBit (c : Byte) : Byte := if c.msb then (c <<< 1) ^^^ 0x07#8 else c <<< 1

/-- One byte of the CRC-8. -/
def crcByte (c b : Byte) : Byte := crcBit (crcBit (crcBit (crcBit (crcBit (crcBit (crcBit (crcBit (c ^^^ b))))))))

/-- The CRC-8 of a list of bytes, from the initial value 0 (11.2). -/
def crc8 (l : List Byte) : Byte := l.foldl crcByte 0#8

/-- A cell of a destination, a kind code, a 4-bit field, a sequence number and a payload, filled with zeros to 64
bytes (11.2). -/
def cellBytes (dest : Byte) (kind field seq : Nat) (payload : List Byte) : List Byte :=
  let head := [dest, BitVec.ofNat 8 (kind * 64 + field * 4), BitVec.ofNat 8 seq]
  head ++ [crc8 head] ++ payload ++ List.replicate (64 - payload.length) 0#8

/-- The 4-bit field of a FLOW cell (11.2). -/
def Flow.code : Flow → Nat
  | .pause => 1
  | .resume => 2

/-- The number of cells of a message (R191). -/
def cellCount (message : List Byte) : Nat := (message.length + 63) / 64

/-- The segment position of cell k of n (11.2, R183). -/
def segmentOf (k n : Nat) : Nat :=
  if n = 1 then 0 else if k = 0 then 1 else if k + 1 = n then 3 else 2

/-- The 64 bytes of a message's cell k, before they are filled with zeros. -/
def cellPayload (message : List Byte) (k : Nat) : List Byte := (message.drop (64 * k)).take 64

/-- The samples of an audio cell's payload (11.2). -/
def samplesOf (payload : List Byte) : List Sample := (be16s payload 0 32).map fun n => BitVec.ofNat 16 n

/-! ### Notices (11.7) -/

/-- The body of a notice. -/
def noticeBody : Notice → List Byte
  | .startReport r unit =>
    0x01#8 :: w8 (if r.passed then 0 else 1) ++ w8 r.cause.code ++ w8 r.major ++ w8 r.minor ++ w32 r.parameter ++
      [unit]
  | .overflow dropped => 0x02#8 :: w32 dropped
  | .clockStep day prev new => 0x10#8 :: w16 (day.getD 0) ++ w32 prev ++ w32 new
  | .freewheel entered t age day => 0x11#8 :: w8 (if entered then 1 else 2) ++ w32 t ++ w16 age ++ w16 (day.getD 0)
  | .dayOverrun day t => 0x12#8 :: w16 (day.getD 0) ++ w32 t
  | .poolFull call step cls t =>
    0x20#8 :: w16 ((call.map Prod.fst).getD 65535) ++ wRef (call.map Prod.snd) ++ wIndex step ++ w8 cls ++ w32 t
  | .missingFragment id script n (.fragmentId f) => 0x21#8 :: w16 id ++ w8 script ++ w16 n ++ w8 1 ++ w16 f
  | .missingFragment id script n (.numberIndex k) => 0x21#8 :: w16 id ++ w8 script ++ w16 n ++ w8 2 ++ w16 k
  | .truncated id script item => 0x22#8 :: w16 id ++ w8 script ++ w8 item
  | .held restarted id ref step cls start timeout =>
    0x23#8 :: w8 (if restarted then 2 else 1) ++ w16 id ++ wRef ref ++ wIndex step ++ w8 cls ++ w32 start ++
      w16 timeout
  | .outcome id o why ref cls => 0x24#8 :: w16 id ++ w8 o.code ++ w8 why.code ++ wRef ref ++ w8 cls
  | .noZones id cls ref zones => 0x30#8 :: w16 id ++ w8 cls ++ wRef ref ++ wZones zones
  | .zoneState z available cause => 0x31#8 :: w8 z ++ wFlag available ++ w8 cause.code
  | .sensorFault z fault line t => 0x32#8 :: w8 z ++ w8 (if fault then 1 else 2) ++ w8 line.code ++ w32 t
  | .underrun id cls channel elem t => 0x33#8 :: w16 id ++ w8 cls ++ w8 channel ++ w8 elem ++ w32 t
  | .cmdDropped code tag broadcast => 0x40#8 :: code :: w16 tag ++ wFlag broadcast

/-- A notice as the one-cell message it is sent as (R191). -/
def noticeBytes (n : Notice) : List Byte := messageBytes 0xF0 0 0 (noticeBody n)

end Sys2Proof.Machine
end

