-- ==== Sys2Proof/Machine/Reports.lean ====
section
/-! DEFINITION. The bodies of the read responses (R192 and the rule of each READ command). Log 20. -/

namespace Sys2Proof.Machine

/-- The numbers first .. first + count - 1. -/
def indexesFrom (first count : Nat) : List Nat := (List.range count).map fun k => first + k

/-- The body of READ_STATUS (R189, R13). The freewheel flag reads as set from the second that called for it (R8, log 13). -/
def statusBody (s : State) : List Byte :=
  w8 s.mgi.partState.code ++ [s.tki.unitAddress] ++
  w8 s.sck.day.code ++ w32 s.sck.time ++ w16 (s.sck.dayNumber.getD 0) ++ w8 s.sck.originHour ++
  wFlag (s.sck.freewheel || s.sck.entering.isSome) ++ w16 s.sck.markAge ++ w16 (s.sck.markDay.getD 0) ++ wFlag s.sck.overrun ++
  (match s.mgi.report with
   | some r => w8 (if r.passed then 0 else 1) ++ w8 r.cause.code ++ w8 r.major ++ w8 r.minor ++ w32 r.parameter
   | none => List.replicate 8 0#8) ++
  w16 s.mgi.commands.length ++ wFlag s.tki.paused ++
  (match s.tki.reassembly with
   | some r => wFlag true ++ w16 (r.data.length / 64)
   | none => wFlag false ++ w16 0) ++
  w16 s.notices.fifo.length ++
  (match markerOf s.notices.fifo with
   | some n => wFlag true ++ w32 n
   | none => wFlag false ++ w32 0) ++
  w16 s.notices.mask.toNat

/-- The body of READ_STATS: the 177 counters in the order of R185. -/
def statsBody (s : State) : List Byte := (List.range 177).flatMap fun i => w32 (tabGetD s.stats i 0)

/-- The record of a call as READ_CALL reports it (R37); retain_until has no code of absence in R190 and so a presence
byte (R192, log 20). The record is written value by value in R37's order, with provisional in a flag byte and the pattern
behind a presence byte, and not in the form of its 20-byte load entry: R192 can be read either way, and this is the
model's choice (log 20). -/
def callBytes (c : CallRec) : List Byte :=
  w24 c.callRef ++ w8 c.kind.code ++ w8 c.plan ++ w8 c.platform ++ wFlag c.provisional ++ w32 c.sched ++
  ws32 c.delay ++ w32 c.expected ++ w16 c.place ++ wMaybe8 c.pattern ++ w8 c.state.code ++ w32 c.stateSince ++
  wMaybe32 c.retainUntil ++ c.steps.flatMap fun e => w8 e.status.code ++ w32 e.eAtFire

/-- The body of UPDATE_CALL and FREE_CALL responses: the slot, the call state and E, or their absence (R18, log 21). -/
def callReply : Option (Nat × CallRec) → List Byte
  | some (slot, c) => w16 slot ++ w8 c.state.code ++ w32 c.expected
  | none => w16 65535 ++ w8 0 ++ wTime none

/-- The body of READ_ANNOUNCEMENT: the fields of R86 in their order (R110); latest and eligible_since have no code of
absence in R190 and so a presence byte (R192, log 20). -/
def annBytes (r : AnnRec) : List Byte :=
  w16 r.annId ++ w32 r.seq ++ w8 r.ask.origin.code ++ w16 ((r.ask.call.map Prod.fst).getD 65535) ++
  wRef (r.ask.call.map Prod.snd) ++ wIndex r.ask.step ++ wMaybe8 r.ask.script ++ wMaybe8 r.ask.stream ++
  w8 r.ask.cls ++ selectorBytes r.ask.selector ++ w8 r.ask.policy.code ++ wFlag r.ask.residual ++
  wFlag r.ask.restartable ++ wFlag r.ask.latched ++ w8 r.ask.confirm.code ++ w16 r.ask.confirmTimeout ++
  w8 r.ask.timeoutPolicy.code ++ w32 r.ask.earliest ++ wMaybe32 r.ask.latest ++ wMaybe16 r.ask.window ++
  w8 r.ask.repeats ++ w16 r.ask.repeatInterval ++ w8 r.state.code ++ wMaybe32 r.eligibleSince ++ wTime r.holdStart ++
  w16 r.restartCount ++ wZones r.held ++ wZones r.missed ++ wZones r.lost ++ wIndex r.channel ++
  wFlag r.platformSpoken ++ wFlag r.noRepeat ++ wFlag r.endRequested ++ wFlag r.noZonesNoted

/-- An entry of READ_POOL (R110). -/
def poolEntry (r : AnnRec) : List Byte :=
  w16 r.annId ++ w8 r.ask.origin.code ++ w8 r.state.code ++ w8 r.ask.cls ++ wRef (r.ask.call.map Prod.snd) ++
  wIndex r.ask.step ++ wIndex r.channel

/-- The body of READ_POOL: the number of records, then each in ascending seq (R110, R192). -/
def poolBody (s : State) : List Byte := w16 s.apl.records.length ++ s.apl.records.flatMap poolEntry

/-- A zone as READ_ZONES reports it (R116). -/
def zoneReport (s : State) (z : Nat) : List Byte :=
  zoneBytes (s.zone z) ++ w16 ((s.zone z).holder.getD 0) ++ wFlag (s.zone z).available

/-- The body of READ_MAPS (R116). -/
def mapsBody (s : State) : List Byte :=
  ((indexesFrom 1 40).flatMap fun p => wZones (platformZones s p)) ++
  ((List.range 16).flatMap fun g =>
    [(tabGetD s.zar.groups g GroupEntry.reset).value, (tabGetD s.zar.groups g GroupEntry.reset).mask]) ++
  (List.range 16).flatMap fun g => wZones (groupMembers s g)

/-- An element of a fragment list as READ_CHANNEL reports it: its form, 0 FRAGMENT or 1 SILENCE (R153). -/
def elementBytes : Element → List Byte
  | .fragment id loops address length trim => 0#8 :: w16 id ++ w8 loops ++ w32 address ++ w32 length ++ ws8 trim
  | .silence ms => 1#8 :: w16 ms

/-- The body of READ_CHANNEL: the number of elements, then the fields and the list of R153. The current count is
written in 4 bytes, as the element counts of the list are: its range does not fit the 2 bytes that R192 gives a count.
The loops remaining are written in 1 byte, as the loops of a CHIME item are, and not in the 2 bytes of a count: R192 can be
read either way, and this is the model's choice (log 20). -/
def channelBody (c : Channel) : List Byte :=
  w16 c.list.length ++ w8 c.state.code ++ w16 (c.owner.getD 0) ++ w8 (c.cls.getD 255) ++ wFlag c.latched ++
  w16 c.fetchElem ++ w32 c.curAddr ++ w32 c.curCount ++ w8 c.loopsLeft ++ wFlag c.fetchFinished ++
  w8 c.playElem ++ ws8 c.curTrim ++ w16 c.fifo.length ++ wFlag c.fetchReq ++ wFlag c.burst.isSome ++
  w16 (c.underrunRun / 16) ++ w16 c.gapTime ++ c.list.flatMap elementBytes

/-- Whether a zone's ambient reading is frozen: a holder, a tail, or a release age below 500 (R155). -/
def State.frozen (s : State) (z : Nat) : Bool :=
  (s.zone z).holder.isSome || (s.level z).tail.isSome || decide ((s.level z).releaseAge < 500)

/-- A zone as READ_LEVELS reports it (R168). R192 names no size for an attenuation in dB units: the widths, and a
presence byte of its own for each of G, the applied attenuation, the tail's attenuation and its blocks, are the
model's reading (log 20). -/
def levelReport (s : State) (z : Nat) : List Byte :=
  let l := s.level z
  w8 l.ambient ++ w8 (boost (s.zone z) l.ambient) ++ w16 l.releaseAge ++ wFlag (s.frozen z) ++ wMaybe8 l.att ++
  wMaybe8 (l.att.map fun g => max g (s.zone z).gMin) ++ w16 l.back ++ w8 (l.back / 16) ++
  wMaybe8 (l.tail.map fun t => t.att) ++ wMaybe16 (l.tail.map fun t => t.blocks)

/-- The body of READ_LEVELS for the zones first .. first + count - 1 (R168). -/
def levelsBody (s : State) (first count : Nat) : List Byte :=
  ((indexesFrom first count).flatMap (levelReport s)) ++
  ((List.range 6).flatMap fun n => w16 (s.stream n).cells.length ++ wMaybe8 (s.stream n).expected) ++
  w8 (s.lmu.monitorZone.getD 255)

/-- A zone as READ_LINK reports it (R176). -/
def linkReport (s : State) (z : Nat) : List Byte :=
  let l := s.link z
  w8 l.link.code ++ w8 ((l.lastLine.map LinkState.code).getD 255) ++ w16 l.age ++
  wMaybe8 (l.lastAmbient.map Ambient.code) ++ wFlag l.sensorFault ++ wFlag l.usable ++ wFlag (s.zone z).enabled ++
  wFlag (s.zone z).available

end Sys2Proof.Machine
end

