-- ==== Sys2Proof/Machine/Commands.lean ====
section
/-! DEFINITION. How the Management Interpreter executes a command (R182): when it may begin, the answers common to
all commands, the response, and the end of the execution. -/

namespace Sys2Proof.Machine

/-- What a step of this machine answers. -/
abbrev Out := Host.Outcome State Fault Refusal

/-- What the owning rule gives for a command: the status, the body of the response, and the state. -/
structure Reply where
  status : Status
  body : List Byte
  state : State
  deriving DecidableEq, Repr

/-- A command accepted or refused with a body. -/
def reply (st : Status) (body : List Byte) (s : State) : Reply := ⟨st, body, s⟩

/-- A command row: its code; whether it is executed in FAILED; which bodies of that code are this row's (log 4);
which body lengths fit; and the body of a BAD_LENGTH and of a FAILED_PART answer. -/
structure Row where
  code : Nat
  inFailed : Bool := false
  mine : List Byte → Bool := fun _ => true
  fits : List Byte → Bool
  shortBody : List Byte := []
  failedBody : List Byte := []

/-- The command codes of 10.5. -/
def knownCodes : List Nat :=
  [0x01, 0x02, 0x03, 0x04, 0x10, 0x11, 0x20, 0x21, 0x22, 0x23, 0x24, 0x25, 0x30, 0x31, 0x40, 0x41, 0x42, 0x43, 0x44,
   0x45, 0x50, 0x51, 0x52, 0x53, 0x54, 0x55, 0x56, 0x57, 0x58, 0x59, 0x5A, 0x60, 0x61, 0x62, 0x63, 0x64, 0x70, 0x71,
   0x80, 0x81, 0x90]

/-- The interpreter may begin to execute the message at the head of the queue: no cell or command is taken in
SELF_CHECK, none is executed after RESET_PART, a WRITE_PHRASE still waiting is the previous command, and the
response store has a free place (R182, R186, R188). -/
def canExecute (s : State) : Bool :=
  s.mgi.partState != .selfCheck && s.mgi.resetWaiting.isNone && s.pmc.pendingWrite.isNone &&
    decide (s.tki.responses.length < Config.responseSize)

/-- The message that leaves the queue, and the RESUME that follows when the queue falls to 2 (R181). -/
def leaveQueue (s : State) : State :=
  let s := s.onMgi fun m => { m with commands := m.commands.tail }
  if s.mgi.commands.length = 2 ∧ s.tki.paused then
    s.onTki fun t => { t with paused := false, flowQueue := t.flowQueue ++ [.resume] }
  else s

/-- A response joins the response store; a broadcast message has none (R182). -/
def answer (m : Message) (st : Status) (body : List Byte) (s : State) : State :=
  if m.broadcast then s
  else s.onTki fun t => { t with responses := t.responses ++ [responseTo m st body] }

/-- Execution ends: the response, if any, and the message leaves the queue (R182). -/
def finish (m : Message) (st : Status) (body : List Byte) (s : State) : State := leaveQueue (answer m st body s)

/-- The message a row of the table executes next, if it stands at the head of the queue and may be executed. -/
def headFor (row : Row) (s : State) : Option Message :=
  match s.mgi.commands with
  | m :: _ => if canExecute s ∧ m.code = row.code ∧ row.mine m.body then some m else none
  | [] => none

/-- A command row is executed: the common answers, then the owning rule (R182). -/
def runCommand (row : Row) (act : List Byte → State → Reply) (s : State) : State :=
  match headFor row s with
  | none => s
  | some m =>
    if s.mgi.partState = .failed ∧ row.inFailed = false then finish m .failedPart row.failedBody s
    else if row.fits m.body = false then finish m .badLength row.shortBody s
    else finish m (act m.body s).status (act m.body s).body (act m.body s).state

/-- A body of a fixed length. -/
def fixed (n : Nat) (b : List Byte) : Bool := b.length == n

/-- A loaded count (11.3). -/
def loadedCount (n : Nat) : List Byte := w16 n

/-- A LOAD command's row: its BAD_LENGTH answer carries the loaded count 0. The rules of LOAD_PLANS, LOAD_SCRIPTS and
LOAD_ZONES give FAILED_PART that count too (R43, R68, R112); the others give it no body (log 26). -/
def loadRow (code : Nat) (fits : List Byte → Bool) (failedBody : List Byte := []) : Row :=
  { code := code, fits := fits, shortBody := loadedCount 0, failedBody := failedBody }

/-- The entries of a LOAD command taken one at a time, each just before the next is checked, until one fails: the
status, the number taken and the state (R20, R36, R43, R68, R69, R71, R112, R115). -/
def loadEntries (take : Nat → List Byte → State → Status × State) :
    Nat → Nat → List (List Byte) → State → Status × Nat × State
  | _, n, [], s => (.ok, n, s)
  | i, n, e :: rest, s =>
    let r := take i e s
    if r.1 = .ok then loadEntries take (i + 1) (n + 1) rest r.2 else (r.1, n, s)

/-- The whole-command checks common to the LOAD commands, then the entries: a count of 0 is BAD_VALUE, indexes that
do not all lie in lo..hi are BAD_INDEX; `entries` are the entries of the message. -/
def loadCommand (first count lo hi : Nat) (entries : List (List Byte))
    (take : Nat → List Byte → State → Status × State) (s : State) : Reply :=
  if count = 0 then reply .badValue (loadedCount 0) s
  else if first < lo ∨ hi < first + count - 1 then reply .badIndex (loadedCount 0) s
  else
    let r := loadEntries take first 0 entries s
    reply r.1 (loadedCount r.2.1) r.2.2

/-- The checks common to the READ commands over a range (R72, R116, R168, R176). -/
def readRange (first count hi : Nat) (body : List Byte) (s : State) : Reply :=
  if count = 0 then reply .badValue [] s
  else if hi < first + count - 1 then reply .badIndex [] s
  else reply .ok body s

/-- Bodies whose first byte is an index and whose second a count of at most `most`, then that many entries. -/
def byteCounted (most : Nat) (size : List Byte → Nat) (b : List Byte) : Bool :=
  decide (2 ≤ b.length ∧ byteAt b 1 ≤ most) && (splitEntries size (byteAt b 1) (b.drop 2)).isSome

/-- Bodies whose first two bytes are an index and the next two a count of at most `most`, then that many entries. -/
def wordCounted (most : Nat) (size : Nat) (b : List Byte) : Bool :=
  decide (4 ≤ b.length ∧ be16 b 2 ≤ most) && b.length == 4 + size * be16 b 2

/-- The entries behind a one-byte index and a one-byte count. -/
def byteEntries (size : List Byte → Nat) (b : List Byte) : List (List Byte) :=
  (splitEntries size (byteAt b 1) (b.drop 2)).getD []

/-- The entries behind a two-byte index and a two-byte count. -/
def wordEntries (size : Nat) (b : List Byte) : List (List Byte) :=
  (splitEntries (fun _ => size) (be16 b 2) (b.drop 4)).getD []

/-- An entry that its parser refuses stops the load with BAD_VALUE; another is taken. -/
def takeParsed {α : Type} (parse : List Byte → Option α) (put : Nat → α → State → State) :
    Nat → List Byte → State → Status × State :=
  fun i b s => match parse b with
    | some v => (.ok, put i v s)
    | none => (.badValue, s)

end Sys2Proof.Machine
end

