-- ==== Sys2Proof/Machine/CallSteps.lean ====
section
/-! DEFINITION. The steps of the Call Register (chapter 2). -/

namespace Sys2Proof.Machine

/-! ### Becoming due (R23) -/

/-- Whether a call is PLANNED and due at T under its plan as it stands (R23). -/
def isDue (plans : Tab Plan) (t : Nat) (c : CallRec) : Bool :=
  match tabGet plans c.plan with
  | some p => c.state == .planned && decide (c.expected ≤ t + p.dueLead)
  | none => false

/-- The record of a slot is written, and events of its call are passed with it as written (R34, R35). -/
def putCall (slot : Nat) (c : CallRec) (es : List TriggerEvent) (s : State) : State :=
  passTrigger slot c es (s.setCall slot c)

/-- A call enters a state at T, and the events given and STATE_ENTRY are passed. -/
def enterState (slot : Nat) (c : CallRec) (st : CallState) (t : Nat) (es : List TriggerEvent) (s : State) : State :=
  putCall slot { c with state := st, stateSince := t } (es ++ [.stateEntry st]) s

/-- The record a command makes is written with its due check, and the command's event is passed, then STATE_ENTRY(DUE)
if the call is due: the record holds the values of both when either is acted on (R21, R29, R35). -/
def putDueChecked (slot : Nat) (c : CallRec) (e : TriggerEvent) (s : State) : State :=
  if isDue s.tru.plans s.sck.time c then enterState slot c .due s.sck.time [e] s else putCall slot c [e] s

/-- The due check of the call in a slot (R23). -/
def dueCheck (t slot : Nat) (s : State) : State :=
  match s.callAt slot with
  | some c => if isDue s.tru.plans t c then enterState slot c .due t [] s else s
  | none => s

/-- The due checks of the slots listed. -/
def dueChecks (t : Nat) : List Nat → State → State
  | [], s => s
  | slot :: rest, s => dueChecks t rest (dueCheck t slot s)

/-- CALL_REGISTER_TIME_CHANGE (R23): the oldest change of T that has reached the Call Register is taken. -/
def execCallRegisterTimeChange (s : State) : Out :=
  match s.crg.changes with
  | ch :: rest =>
    .next (dueChecks ch.new (s.crg.calls.map Prod.fst) (s.onCrg fun r => { r with changes := rest }))
  | [] => .next s

/-! ### Loading (R19 to R22) -/

/-- Whether a call state keeps its slot from being loaded (R20). -/
def CallState.busy : CallState → Bool
  | .planned => true
  | .due => true
  | .atPlatform => true
  | .departing => true
  | _ => false

/-- The record in a slot is removed: CALL_REMOVED is passed and the slot is EMPTY (R22, R32, R33). -/
def removeCall (slot : Nat) (s : State) : State :=
  match s.callAt slot with
  | some c => passPool slot c.callRef .callRemoved (s.dropCall slot)
  | none => s

/-- A load entry is checked and taken into a slot (R20, R21, R22). -/
def takeCallEntry (slot : Nat) (b : List Byte) (s : State) : Status × State :=
  match parseCallEntry s.tru.plans s.sck.time b with
  | none => (.badValue, s)
  | some c =>
    if (s.callAt slot).any fun old => old.state.busy then (.slotBusy, s)
    else if s.crg.calls.any fun p => p.1 != slot && p.2.callRef == c.callRef then (.duplicateRef, s)
    else
      (.ok, putDueChecked slot c .loaded (removeCall slot s))

/-- LOAD_CALLS (R18 to R22). -/
def execLoadCalls (s : State) : Out :=
  .next (runCommand (loadRow 0x20 (wordCounted 32 20)) (fun b s =>
    if s.mgi.partState ≠ .running then reply .notRunning [] s
    else loadCommand (be16 b 0) (be16 b 2) 0 511 (wordEntries 20 b) takeCallEntry s) s)

/-! ### Updates (R18, R25 to R31) -/

/-- The row of UPDATE_CALL with the update codes given: every refusal carries a call, or its absence (R18). -/
def updateRow (mine : Nat → Bool) : Row :=
  { code := 0x21, mine := fun b => mine (byteAt b 3), fits := fixed 8, shortBody := callReply none,
    failedBody := callReply none }

/-- The call a command names is found and the update applied to it; the response reports the call after the command
(R18). The update is applied to the slot, the record and the operand bytes. -/
def updateCall (act : Nat → CallRec → List Byte → State → Status × State) (b : List Byte) (s : State) : Reply :=
  if s.mgi.partState ≠ .running then reply .notRunning (callReply none) s
  else if be24 b 0 = 0 then reply .badValue (callReply none) s
  else match findRef s.crg.calls (be24 b 0) with
    | none => reply .noSuchCall (callReply none) s
    | some (slot, c) =>
      let r := act slot c (b.drop 4) s
      reply r.1 (callReply ((r.2.callAt slot).map fun c => (slot, c))) r.2

/-- ARRIVED (R25). -/
def arrive (slot : Nat) (c : CallRec) (_ : List Byte) (s : State) : Status × State :=
  match c.state with
  | .planned | .due =>
    if c.platform = 0 then (.badState, s)
    else
      let s := if c.provisional then passPool slot c.callRef .provisionalCleared s else s
      (.ok, enterState slot { c with provisional := false } .atPlatform s.sck.time [] s)
  | .atPlatform => (.ok, s)
  | _ => (.badState, s)

/-- DEPARTING (R26). -/
def depart (slot : Nat) (c : CallRec) (_ : List Byte) (s : State) : Status × State :=
  if c.kind = .arrival then (.badState, s)
  else match c.state with
    | .atPlatform => (.ok, enterState slot c .departing s.sck.time [] s)
    | .departing => (.ok, s)
    | _ => (.badState, s)

/-- The retain_until of a call that ends at T (R27, R28). -/
def retention (t : Nat) : Nat := min (t + 600) Config.maxTime

/-- GONE (R27). -/
def gone (slot : Nat) (c : CallRec) (_ : List Byte) (s : State) : Status × State :=
  match c.state with
  | .atPlatform | .departing =>
    (.ok, enterState slot { c with retainUntil := some (retention s.sck.time) } .finished s.sck.time [] s)
  | .finished => (.ok, s)
  | _ => (.badState, s)

/-- CANCEL (R28): the pool is passed CANCELLED before the Trigger Unit is passed the state entry. -/
def cancel (slot : Nat) (c : CallRec) (_ : List Byte) (s : State) : Status × State :=
  match c.state with
  | .finished => (.badState, s)
  | .cancelled => (.ok, s)
  | _ =>
    (.ok, enterState slot { c with retainUntil := some (retention s.sck.time) } .cancelled s.sck.time []
      (passPool slot c.callRef .cancelled s))

/-- DELAY (R29). -/
def changeDelay (slot : Nat) (c : CallRec) (operand : List Byte) (s : State) : Status × State :=
  let d := clampDelay (signed32 operand 0)
  match c.state with
  | .finished | .cancelled => (.badState, s)
  | _ =>
    if d = c.delay then (.ok, s)
    else
      let e := expectedTime c.sched d
      (.ok, putDueChecked slot { c with delay := d, expected := e } (.delayChange c.expected e) s)

/-- The platform event that the Trigger Unit is passed for a change from q to p (R31). -/
def platformEvent (q p : Nat) : TriggerEvent :=
  if q = 0 then .platformSet p else if p = 0 then .platformCleared q else .platformChange q p

/-- The record that a taken PLATFORM update writes, and the events it passes (R31). -/
def putPlatformOf (slot : Nat) (c : CallRec) (p : Nat) (provisional : Bool) (s : State) : State :=
  let s := putCall slot { c with platform := p, provisional := provisional }
    (if p = c.platform then [] else [platformEvent c.platform p]) s
  let s := if p = c.platform then s else passPool slot c.callRef (.platformMoved c.platform p) s
  if c.provisional ∧ provisional = false then passPool slot c.callRef .provisionalCleared s else s

/-- PLATFORM (R30, R31). -/
def changePlatform (slot : Nat) (c : CallRec) (operand : List Byte) (s : State) : Status × State :=
  let p := byteAt operand 0
  let provisional := flagAt operand 1 0
  if 40 < p ∨ (provisional && p == 0) then (.badValue, s)
  else match c.state with
    | .planned | .due =>
      (.ok, putPlatformOf slot c p provisional s)
    | _ => (.badState, s)

/-- UPDATE_CALL ARRIVED (R25). -/
def execUpdateCallArrived (s : State) : Out := .next (runCommand (updateRow (· == 0)) (updateCall arrive) s)

/-- UPDATE_CALL DEPARTING (R26). -/
def execUpdateCallDeparting (s : State) : Out := .next (runCommand (updateRow (· == 1)) (updateCall depart) s)

/-- UPDATE_CALL GONE (R27). -/
def execUpdateCallGone (s : State) : Out := .next (runCommand (updateRow (· == 2)) (updateCall gone) s)

/-- UPDATE_CALL CANCEL (R28). -/
def execUpdateCallCancel (s : State) : Out := .next (runCommand (updateRow (· == 3)) (updateCall cancel) s)

/-- UPDATE_CALL DELAY (R29). -/
def execUpdateCallDelay (s : State) : Out := .next (runCommand (updateRow (· == 4)) (updateCall changeDelay) s)

/-- UPDATE_CALL PLATFORM (R30, R31). -/
def execUpdateCallPlatform (s : State) : Out :=
  .next (runCommand (updateRow (· == 5)) (updateCall changePlatform) s)

/-- UPDATE_CALL with an update code its table does not list is refused with BAD_VALUE (R190, log 22). -/
def execUpdateCallBadUpdate (s : State) : Out :=
  .next (runCommand (updateRow fun u => decide (5 < u)) (updateCall fun _ _ _ s => (.badValue, s)) s)

/-! ### Freeing and retention (R32, R33) -/

/-- FREE_CALL (R18, R32). -/
def execFreeCall (s : State) : Out :=
  .next (runCommand
    { code := 0x22, fits := fixed 3, shortBody := callReply none, failedBody := callReply none } (fun b s =>
    if s.mgi.partState ≠ .running then reply .notRunning (callReply none) s
    else if be24 b 0 = 0 then reply .badValue (callReply none) s
    else match findRef s.crg.calls (be24 b 0) with
      | none => reply .noSuchCall (callReply none) s
      | some (slot, c) =>
        if c.state.busy then reply .badState (callReply (some (slot, c))) s
        else reply .ok (w16 slot ++ w8 0 ++ wTime none) (removeCall slot s)) s)

/-- RETENTION (R33): a slot whose retain_until a change of T has reached is freed, if T still has reached it. -/
def execRetention (slot : Nat) (s : State) : Out :=
  if s.crg.retentionDue.contains slot then
    if (s.callAt slot).any fun c => c.retained s.sck.time then .next (removeCall slot s)
    else .next (s.onCrg fun r => { r with retentionDue := r.retentionDue.filter (· != slot) })
  else .next s

/-! ### Reading and patterns (R36, R37, R38) -/

/-- READ_CALL (R37, log 23). -/
def execReadCall (s : State) : Out :=
  .next (runCommand { code := 0x23, fits := fixed 4 } (fun b s =>
    match byteAt b 0 with
    | 0 =>
      if be24 b 1 = 0 then reply .badValue [] s
      else match findRef s.crg.calls (be24 b 1) with
        | some (_, c) => reply .ok (callBytes c) s
        | none => reply .noSuchCall (w16 65535) s
    | 1 =>
      if 511 < be16 b 2 then reply .badIndex [] s
      else match s.callAt (be16 b 2) with
        | some c => reply .ok (callBytes c) s
        | none => reply .ok (w8 0) s
    | _ => reply .badValue [] s) s)

/-- An entry of the pattern table is written. -/
def putPattern (id : Nat) (p : Option (List Nat)) (s : State) : State :=
  s.onCrg fun r => { r with patterns := tabPut r.patterns id p }

/-- LOAD_PATTERNS (R36). -/
def execLoadPatterns (s : State) : Out :=
  .next (runCommand (loadRow 0x24 (byteCounted 8 patternSize)) (fun b s =>
    loadCommand (byteAt b 0) (byteAt b 1) 0 255 (byteEntries patternSize b)
      (takeParsed parsePattern putPattern) s) s)

/-- READ_PATTERN (R38). -/
def execReadPattern (s : State) : Out :=
  .next (runCommand { code := 0x25, fits := fixed 1 } (fun b s =>
    reply .ok (patternBytes (tabGet s.crg.patterns (byteAt b 0))) s) s)

end Sys2Proof.Machine
end

