-- ==== Sys2Proof/Machine/ChannelSteps.lean ====
section
/-! DEFINITION. The steps of Playback Channels and Phrase Memory (chapter 7). -/

namespace Sys2Proof.Machine

/-! ### Writing phrase memory (R150, R151) -/

/-- Whether a range of phrase memory overlaps an element of a list (R150). -/
def Element.overlaps (address count : Nat) : Element → Bool
  | .fragment _ _ a l _ => decide (a < address + count ∧ address < a + l)
  | .silence _ => false

/-- Whether a write overlaps the list of a channel that is not IDLE (R150). -/
def writeOverlaps (s : State) (w : PhraseWrite) : Bool :=
  (List.range 6).any fun c =>
    (s.channel c).state != .idle && (s.channel c).list.any (Element.overlaps w.address w.samples.length)

/-- The row of WRITE_PHRASE: its length must agree with its count. -/
def writeRow : Row := { code := 0x70, fits := fun b => decide (6 ≤ b.length) && b.length == 6 + 2 * be16 b 4 }

/-- The write a WRITE_PHRASE body carries (11.9). -/
def parseWrite (b : List Byte) : PhraseWrite :=
  ⟨be32 b 0, (be16s b 6 (be16 b 4)).map fun n => BitVec.ofNat 16 n⟩

/-- A WRITE_PHRASE is checked, and is refused or becomes the pending write: its message stays at the head of the
queue until the write has been performed or refused (R150, R182). -/
def beginWrite (m : Message) (s : State) : State :=
  let w := parseWrite m.body
  let n := be16 m.body 4
  if n = 0 ∨ 496 < n then finish m .badValue [] s
  else if Config.phraseSize ≤ w.address ∨ Config.phraseSize < w.address + n then finish m .badValue [] s
  else if writeOverlaps s w then finish m .inUse [] s
  else s.onPmc fun p => { p with pendingWrite := some w }

/-- WRITE_PHRASE (R150). -/
def execWritePhrase (s : State) : Out :=
  match headFor writeRow s with
  | none => .next s
  | some m =>
    if s.mgi.partState = .failed then .next (finish m .failedPart [] s)
    else if writeRow.fits m.body = false then .next (finish m .badLength [] s)
    else .next (beginWrite m s)

/-- The execution of the waiting WRITE_PHRASE ends. -/
def finishHead (st : Status) (s : State) : State :=
  match s.mgi.commands with
  | m :: _ => finish m st [] s
  | [] => s

/-- PHRASE_WRITE_START (R145 step 3, R151): the pending write is judged again, and refused or begun. -/
def execPhraseWriteStart (s : State) : Out :=
  match s.pmc.pendingWrite with
  | some w =>
    if s.pmc.transfer = none ∧ s.noRequest then
      if writeOverlaps s w then .next (finishHead .inUse (s.onPmc fun p => { p with pendingWrite := none }))
      else .next (s.onPmc fun p => { p with transfer := some .write })
    else .next s
  | none => .next s

/-- PHRASE_WRITE_COMPLETE (R151): the samples stand in phrase memory, the port is FREE, the answer is OK. -/
def execPhraseWriteComplete (s : State) : Out :=
  match s.pmc.pendingWrite with
  | some w =>
    if s.pmc.transfer = some .write then
      .next (finishHead .ok (s.onPmc fun p => { p with
        transfer := none, pendingWrite := none, memory := writePhrases p.memory w.address w.samples }))
    else .next s
  | none => .next s

/-! ### Fetching (R145, R146) -/

/-- FETCH_GRANT (R145): with the port FREE, the arbiter grants a request, if one is set. -/
def execFetchGrant (s : State) : Out :=
  if s.pmc.transfer = none then .next (grantFetch s) else .next s

/-- BURST_COMPLETION (R146). -/
def execBurstCompletion (s : State) : Out :=
  match s.pmc.transfer with
  | some (.burst c) =>
    let s := s.onPmc fun p => { p with transfer := none }
    .next (s.updChannel c (Channel.takeBurst (s.grantOf c) s.pmc))
  | _ => .next s

/-! ### The end of a list, the gap, the abort (R143, R144, R147) -/

/-- Whether the record a channel plays has its end requested (R143). -/
def ownerEnding (s : State) (c : Channel) : Bool :=
  match c.owner.bind s.ann with
  | some r => r.endRequested
  | none => false

/-- The end of a list that is not played again: the channel becomes IDLE and the record completes (R143). -/
def endChannel (c : Nat) (residualFirst : Bool) (s : State) : State :=
  let ch := s.channel c
  let s := causePass (s.updChannel c Channel.toIdle)
  match ch.owner with
  | some id => completeRecord id (if ch.latched then .emergencyEnded else .endOfList) residualFirst s
  | none => s

/-- CHANNEL_END (R143, R144): a DRAINING channel has output the last sample of its FIFO. -/
def execChannelEnd (channel : Nat) (residualFirst : Bool) (s : State) : Out :=
  let ch := s.channel channel
  if ch.state = .draining ∧ ch.fifo = [] then
    if ch.latched ∧ ownerEnding s ch = false then
      .next (s.updChannel channel (Channel.enterGap (s.grantOf channel)))
    else .next (endChannel channel residualFirst s)
  else .next s

/-- GAP_END (R144): the gap time has reached 2000 ms, and the PREFILL condition is judged at once. The gap time keeps its
2000 until the next gap or IDLE sets it to 0, and READ_CHANNEL shows it: no rule says what it reads outside GAP after a
gap, and keeping it is the model's choice (log 43). -/
def execGapEnd (channel : Nat) (s : State) : Out :=
  let ch := s.channel channel
  if ch.state = .gap ∧ 2000 ≤ ch.gapTime then
    .next (s.updChannel channel fun c => { c with state := .prefill }.settle (s.grantOf channel))
  else .next s

/-- UNDERRUN_ABORT (R147, log 28). -/
def execUnderrunAbort (channel : Nat) (s : State) : Out :=
  let ch := s.channel channel
  if ch.state = .playing ∧ 1600 ≤ ch.underrunRun ∧ ch.fifo = [] then
    match ch.owner with
    | some id => .next (endAnn id .aborted .underrun false s)
    | none => .next s
  else .next s

/-- READ_CHANNEL (R153). -/
def execReadChannel (s : State) : Out :=
  .next (runCommand { code := 0x71, fits := fixed 1 } (fun b s =>
    if 5 < byteAt b 0 then reply .badIndex [] s else reply .ok (channelBody (s.channel (byteAt b 0))) s) s)

end Sys2Proof.Machine
end

