-- ==== Sys2Proof/Machine/ClockSteps.lean ====
section
/-! DEFINITION. The steps of Station Time and the Service Day (chapter 1). -/

namespace Sys2Proof.Machine

/-- The freewheel rule R8 at an elapsed second: a mark age that becomes 60 with the flag clear fixes T and the day
number that the flag's notice carries (log 13). -/
def Clock.noteFreewheel (c : Clock) : Clock :=
  if c.markAge = 60 ∧ c.freewheel = false then { c with entering := some (c.time, c.dayNumber) } else c

/-- A second of the local timebase elapses (R2, R3, R8). -/
def elapseSecond (s : State) : State :=
  let t := s.sck.time
  let s := s.onSck fun c => { c with phase := 0, markAge := min (c.markAge + 1) 65535 }
  if t < Config.maxTime then
    handOn ⟨.advance, t, t + 1⟩ (s.onSck fun c => ({ c with time := t + 1 } : Clock).noteFreewheel)
  else
    let s := if s.sck.day = .opened ∧ s.sck.overrun = false then
        raise (.dayOverrun s.sck.dayNumber t) (s.onSck fun c => { c with overrun := true })
      else s
    handOn ⟨.advance, t, t⟩ (s.onSck Clock.noteFreewheel)

/-- SECOND_ELAPSES (R3): no second elapses in SELF_CHECK (R2). -/
def execSecondElapses (s : State) : Out :=
  if s.mgi.partState = .selfCheck then .next s else .next (elapseSecond s)

/-- FREEWHEEL_ENTERED (R8, log 13). -/
def execFreewheelEntered (s : State) : Out :=
  if s.mgi.partState = .selfCheck then .next s else .next (enterFreewheel s)

/-- A service day opens (R9). -/
def openDay (day hour t : Nat) (s : State) : State :=
  let s := s.onSck fun c => { c with day := .opened, dayNumber := some day, originHour := hour, overrun := false }
  (setTime t s).onMgi fun m => { m with partState := .running }

/-- OPEN_DAY (R9). -/
def execOpenDay (s : State) : Out :=
  .next (runCommand { code := 0x10, fits := fixed 7 } (fun b s =>
    if s.mgi.partState = .running then reply .badState [] s
    else if be16 b 0 = 0 ∨ 23 < byteAt b 2 ∨ Config.maxTime < be32 b 3 then reply .badValue [] s
    else reply .ok [] (openDay (be16 b 0) (byteAt b 2) (be32 b 3) s)) s)

/-- The service day closes: the clock (R10), the call table (R40) and the retry set (R64) with the events passed and
not yet taken (log 24), and the records that have a call, in ascending seq (R109). -/
def closeDay (s : State) : State :=
  let s := s.onSck fun c => { c with day := .noDay, dayNumber := none }
  let s := s.onMgi fun m => { m with partState := .standby }
  let s := s.onCrg fun r => { r with calls := [], retentionDue := [] }
  let s := s.onTru fun u => { u with retry := [], events := [], completions := [] }
  let s := s.onApl fun p => { p with events := [] }
  endRecords .withdrawn .dayClosed (s.annIds fun r => r.ask.call.isSome) s

/-- CLOSE_DAY (R10, R40, R64, R109). -/
def execCloseDay (s : State) : Out :=
  .next (runCommand { code := 0x11, fits := fixed 0 } (fun _ s =>
    if s.mgi.partState = .running then reply .ok [] (closeDay s) else reply .notRunning [] s) s)

end Sys2Proof.Machine
end

