-- ==== Sys2Proof/Machine/LevelSteps.lean ====
section
/-! DEFINITION. The steps of Levels and Mixing (chapter 8) and of the Zone Link (chapter 9). -/

namespace Sys2Proof.Machine

/-! ### Gain (R162) -/

/-- The gains of the attenuations 0..120 (R162); each of 1..120 is 32768 x 10^(-a/40) rounded to the nearest
integer, as Obligations.GainsAreRoundedToNearest states in integers. -/
def gainTable : List Nat :=
  [32767, 30935, 29205, 27571, 26029, 24573, 23198, 21900, 20675, 19519, 18427, 17396, 16423, 15504, 14637,
     13818, 13045, 12315, 11627, 10976, 10362, 9783, 9235, 8719] ++
    [8231, 7771, 7336, 6925, 6538, 6172, 5827, 5501, 5193, 4903, 4629, 4370, 4125, 3894, 3677, 3471, 3277, 3093,
     2920, 2757, 2603, 2457, 2320, 2190] ++
    [2068, 1952, 1843, 1740, 1642, 1550, 1464, 1382, 1305, 1232, 1163, 1098, 1036, 978, 924, 872, 823, 777, 734,
     693, 654, 617, 583, 550] ++
    [519, 490, 463, 437, 413, 389, 368, 347, 328, 309, 292, 276, 260, 246, 232, 219, 207, 195, 184, 174, 164,
     155, 146, 138] ++
    [130, 123, 116, 110, 104, 98, 92, 87, 82, 78, 73, 69, 65, 62, 58, 55, 52, 49, 46, 44, 41, 39, 37, 35] ++
    [33]

/-- The gain of an attenuation; 0 from 121 on (R162). -/
def gain (a : Nat) : Nat := gainTable.getD a 0

/-! ### Stream buffers (R164, R165) -/

/-- The sample a stream buffer delivers in a sample period (R165). -/
def StreamBuffer.out (b : StreamBuffer) : Sample :=
  match b.cells with
  | cell :: _ => cell.getD b.pos 0
  | [] => 0

/-- A stream buffer after it has delivered a sample; a cell leaves with its 32nd (R165). -/
def StreamBuffer.advance (b : StreamBuffer) : StreamBuffer :=
  match b.cells with
  | _ :: rest => if b.pos + 1 < 32 then { b with pos := b.pos + 1 } else { b with cells := rest, pos := 0 }
  | [] => b

/-! ### The sample period (R163, R167, R171) -/

/-- The outputs of the channels listed, in order, and the state after them (R142). That the UNDERRUN notices of one
sample period stand in ascending channel number is the model's choice (R147 gives no order, log 30). -/
def channelOutputs : List Nat → State → List Sample × State
  | [], s => ([], s)
  | c :: rest, s =>
    let r := channelOutput c s
    let q := channelOutputs rest r.2
    (r.1 :: q.1, q.2)

/-- The sample of a zone's holder: its stream's for a live page, its channel's otherwise (R163). -/
def holderSample (s : State) (streams channels : List Sample) (z : Nat) : Sample :=
  match (s.zone z).holder.bind s.ann with
  | some r =>
    match r.ask.stream, r.channel with
    | some n, _ => streams.getD n 0
    | none, some c => channels.getD c 0
    | none, none => 0
  | none => 0

/-- The next sample of a tail (R160). -/
def Tail.out (streams : List Sample) (t : Tail) : Sample :=
  match t.source with
  | .samples (x :: _) => x
  | .samples [] => 0
  | .stream _ 0 => 0
  | .stream n (_ + 1) => streams.getD n 0

/-- A tail after one sample period (R160, R161). -/
def Tail.consume (t : Tail) : Tail :=
  match t.source with
  | .samples (_ :: rest) => { t with source := .samples rest }
  | .samples [] => t
  | .stream _ 0 => t
  | .stream n (k + 1) => { t with source := .stream n k }

/-- The exact sum of R163, rounded with a half toward plus infinity, before the limit. -/
def mixSum (ann tail bg : Int) (gAnn gTail gBg : Nat) : Int :=
  (ann * gAnn + tail * gTail + bg * gBg + 16384) / 32768

/-- The limit of R163. -/
def limit (y : Int) : Int := max (-32768) (min y 32767)

/-- The tail's sample in a zone; 0 with no tail (R163). -/
def tailSample (s : State) (streams : List Sample) (z : Nat) : Sample :=
  match (s.level z).tail with
  | some t => t.out streams
  | none => 0

/-- The gain of a zone's tail: of the larger of its own attenuation and the zone's Gmin (R161). -/
def tailGain (s : State) (z : Nat) : Nat :=
  match (s.level z).tail with
  | some t => gain (max t.att (s.zone z).gMin)
  | none => 0

/-- The background sample of a zone: feed 0 is stream 4 and feed 1 is stream 5; 0 with feed none (R163, R165). -/
def backSample (s : State) (streams : List Sample) (z : Nat) : Sample :=
  match (s.zone z).feed with
  | some f => streams.getD (4 + f) 0
  | none => 0

/-- A zone's sum before the limit, from the samples of the period (R163). -/
def zoneSum (s : State) (streams channels : List Sample) (z : Nat) : Int :=
  mixSum (holderSample s streams channels z).toInt (tailSample s streams z).toInt (backSample s streams z).toInt
    (gain (appliedAtt s z)) (tailGain s z) (gain ((s.level z).back / 16))

/-- A zone's output in a sample period, and the state after it: the clip counted, the tail's sample taken (R163). -/
def mixZone (streams channels : List Sample) (z : Nat) (s : State) : Sample × State :=
  let y := zoneSum s streams channels z
  let s := s.updLevel z fun l => { l with tail := l.tail.map Tail.consume }
  (BitVec.ofInt 16 (limit y), if limit y = y then s else count (.clips z) s)

/-- The outputs of the zones listed, in order, and the state after them. -/
def mixZones (streams channels : List Sample) : List Nat → State → List Sample × State
  | [], s => ([], s)
  | z :: rest, s =>
    let r := mixZone streams channels z s
    let q := mixZones streams channels rest r.2
    (r.1 :: q.1, q.2)

/-- What the zone link sends to a zone: its output, when it is enabled and available, and zero otherwise (R171). -/
def sentSample (s : State) (outputs : List Sample) (z : Nat) : Sample :=
  if (s.zone z).enabled && (s.zone z).available then outputs.getD z 0 else 0

/-- A monitor cell is handed to the Trunk Interface: in a full queue it replaces the older of two (R167, R183). -/
def handMonitor (cell : MonitorCell) (s : State) : State :=
  if s.tki.monitorQueue.length < 2 then
    s.onTki fun t => { t with monitorQueue := t.monitorQueue ++ [cell] }
  else count .monitorCellsDropped (s.onTki fun t => { t with monitorQueue := t.monitorQueue.tail ++ [cell] })

/-- The monitor tap gathers the monitored zone's output (R167). -/
def gatherMonitor (outputs : List Sample) (s : State) : State :=
  match s.lmu.monitorZone with
  | none => s
  | some z =>
    let gathered := s.lmu.gathered ++ [outputs.getD z 0]
    if gathered.length < 32 then s.onLmu fun l => { l with gathered := gathered }
    else
      handMonitor ⟨s.lmu.monitorSeq, gathered⟩ (s.onLmu fun l => { l with
        gathered := [], monitorSeq := (l.monitorSeq + 1) % 256 })

/-- The second phase moves on and the stream buffers deliver (R2, R165, log 14). -/
def deliverStreams (s : State) : State :=
  (s.onSck fun c => { c with phase := min (c.phase + 1) 15999 }).onTki
    fun t => { t with streams := tabMap (fun _ b => b.advance) t.streams }

/-- The zones' outputs are sent on the zone link and gathered by the monitor tap (R167, R171). -/
def sendOutputs (outputs : List Sample) (s : State) : State :=
  gatherMonitor outputs
    (s.onZli fun l => { l with sent := (List.range 32).map fun z => sentSample s outputs z })

/-- One sample period outside SELF_CHECK: the channels output, the buffers deliver, the zones are mixed and sent,
and the monitor tap gathers. -/
def runSample (s : State) : State :=
  let streams := (List.range 6).map fun n => (s.stream n).out
  let channels := channelOutputs (List.range 6) (deliverStreams s)
  let outputs := mixZones streams channels.1 (List.range 32) channels.2
  sendOutputs outputs.1 outputs.2

/-- SAMPLE_PERIOD (R142, R163, R165, R167, R171): in SELF_CHECK every zone is sent zero. -/
def execSamplePeriod (s : State) : Out :=
  if s.mgi.partState = .selfCheck then .next (s.onZli fun l => { l with sent := List.replicate 32 0 })
  else .next (runSample s)

/-! ### The block (R156, R159, R161, R165, R174) -/

/-- One step of the background ramp toward its target (R159). -/
def rampBack (e : ZoneEntry) (back : Nat) : Nat :=
  let target := if e.holder.isSome then min (e.backLevel + e.duck) 121 else e.backLevel
  if back < 16 * target then min (16 * target) (back + e.attack)
  else if 16 * target < back then max (16 * target) (back - e.release)
  else back

/-- A tail at the beginning of the next block (R161). -/
def Tail.nextBlock (t : Tail) : Option Tail :=
  if 121 ≤ t.att + 5 ∨ 15 ≤ t.blocks then none else some { t with att := t.att + 5, blocks := t.blocks + 1 }

/-- A zone's level state at a block (R156, R159, R161). -/
def blockLevel (e : ZoneEntry) (l : ZoneLevel) : ZoneLevel :=
  { l with
    back := rampBack e l.back
    releaseAge := min (l.releaseAge + 1) 500
    tail := l.tail.bind Tail.nextBlock }

/-- A channel's gap time counts in GAP (R144). -/
def Channel.countGap (c : Channel) : Channel :=
  if c.state = .gap then { c with gapTime := min (c.gapTime + 1) 2000 } else c

/-- One block of 1 ms outside SELF_CHECK: the ramps, the tails and every age counted in ms (log 15). -/
def runBlock (s : State) : State :=
  let zones := s.zar.zones
  let s := s.onLmu fun l => { l with
    levels := tabMap (fun z v => blockLevel (tabGetD zones z ZoneEntry.reset) v) l.levels }
  let s := s.onTki fun t => { t with
    streams := tabMap (fun _ b => { b with age := min (b.age + 1) 5000 }) t.streams
    reassembly := t.reassembly.map fun r => { r with age := min (r.age + 1) 101 } }
  let s := s.onZli fun l => { l with links := tabMap (fun _ k => { k with age := min (k.age + 1) 1000 }) l.links }
  s.onPbc fun t => tabMap (fun _ c => c.countGap) t

/-- BLOCK (R156, R159, R161, R165, R174): the local timebase's ages stand still in SELF_CHECK. -/
def execBlock (s : State) : Out :=
  if s.mgi.partState = .selfCheck then .next s else .next (runBlock s)

/-! ### Streams lost (R164, R166) -/

/-- STREAM_LOST (R164, R166, log 27). -/
def execStreamLost (stream : Nat) (s : State) : Out :=
  let page := s.apl.records.find? fun r => r.ask.origin == .live && r.ask.stream == some stream
  if 5000 ≤ (s.stream stream).age ∧ ((s.stream stream).expected.isSome ∨ page.isSome) then
    let s := s.updStream stream fun b => { b with expected := none }
    match page with
    | some r => .next (endAnn r.annId .aborted .streamLost false s)
    | none => .next s
  else .next s

/-! ### Ambient readings (R155) -/

/-- An ambient reading is applied to a zone (R155). -/
def applyAmbient (z : Nat) (a : Ambient) (s : State) : State :=
  match a with
  | .sensorFault => s.updLevel z fun l => { l with ambient := (s.zone z).aRef }
  | .value v =>
    if s.frozen z then count (.ambientIgnored z) s
    else s.updLevel z fun l => { l with ambient := (l.ambient + ((v : Int) - l.ambient).tdiv 4).toNat }

/-- AMBIENT_READING (R155): the oldest reading handed on for a zone is applied. Where several readings of one zone wait,
R155 gives no order: taking the oldest first is the model's choice (log 44). -/
def execAmbientReading (zone : Nat) (s : State) : Out :=
  match takeFirst (fun p => p.1 == zone) s.lmu.readings with
  | some (p, rest) => .next (applyAmbient zone p.2 (s.onLmu fun l => { l with readings := rest }))
  | none => .next s

/-! ### Zone reports and lost links (R172 to R175) -/

/-- The zone's link state becomes another, and a change of the usable judgement is passed to the Zone Arbiter
(R172, R173). -/
def setLink (z : Nat) (st : LinkState) (s : State) : State :=
  let before := (s.link z).usable
  let s := s.updLink z fun l => { l with link := st }
  if (s.link z).usable = before then s else judgeAvailability z (.link st) s

/-- The sensor fault flag follows a report's ambient field (R175). -/
def followSensor (z : Nat) (a : Ambient) (line : LinkState) (s : State) : State :=
  let fault := a == .sensorFault
  if (s.link z).sensorFault = fault then s
  else raise (.sensorFault z fault line s.sck.time) (s.updLink z fun l => { l with sensorFault := fault })

/-- A zone report is taken for its zone (R172). `zoneStateFirst` says which of a SENSOR_FAULT and a ZONE_STATE that come
from this one report reaches the notice FIFO first (R175 leaves it open, log 39). Where the zone's loss also ends its
holder (R130), the OUTCOME notice stands with the ZONE_STATE: SENSOR_FAULT comes before both or after both, never between
them, which R175 does not say and is the model's choice (log 39). -/
def takeReport (z : Nat) (line : LinkState) (a : Ambient) (zoneStateFirst : Bool) (s : State) : State :=
  let s := count (.reportsReceived z) s
  let s := s.updLink z fun l => { l with age := 0, lastLine := some line, lastAmbient := some a }
  let s := s.onLmu fun l => { l with readings := l.readings ++ [(z, a)] }
  if zoneStateFirst then followSensor z a line (setLink z line s) else setLink z line (followSensor z a line s)

/-- The ambient field of a report (11.8). -/
def ambientOf (n : Nat) : Ambient := if n = 255 then .sensorFault else .value n

/-- ZONE_REPORT (R172). -/
def execZoneReport (report : ZoneReport) (s : State) : Out :=
  if s.mgi.partState = .selfCheck then .next s
  else match lineStateOf (byteAt report.bytes 1) with
    | some line =>
      if byteAt report.bytes 0 < 32 then
        .next (takeReport (byteAt report.bytes 0) line (ambientOf (byteAt report.bytes 2)) report.zoneStateFirst s)
      else .next (count .zoneReportErrors s)
    | none => .next (count .zoneReportErrors s)

/-- LINK_LOST (R174): a zone's report age has reached 1000 ms and its link state is not LINK_LOST. -/
def execLinkLost (zone : Nat) (s : State) : Out :=
  if 1000 ≤ (s.link zone).age ∧ (s.link zone).link ≠ .linkLost then .next (setLink zone .linkLost s) else .next s

/-! ### Commands (R167, R168, R176) -/

/-- MONITOR (R167): 255 is OFF (11.9). -/
def execMonitor (s : State) : Out :=
  .next (runCommand { code := 0x80, fits := fixed 1 } (fun b s =>
    if byteAt b 0 = 255 then reply .ok [] (s.onLmu fun l => { l with monitorZone := none, gathered := [] })
    else if 31 < byteAt b 0 then reply .badIndex [] s
    else reply .ok [] (s.onLmu fun l => { l with monitorZone := some (byteAt b 0), gathered := [] })) s)

/-- READ_LEVELS (R168). -/
def execReadLevels (s : State) : Out :=
  .next (runCommand { code := 0x81, fits := fixed 2 } (fun b s =>
    readRange (byteAt b 0) (byteAt b 1) 31 (levelsBody s (byteAt b 0) (byteAt b 1)) s) s)

/-- READ_LINK (R176). -/
def execReadLink (s : State) : Out :=
  .next (runCommand { code := 0x90, fits := fixed 2 } (fun b s =>
    readRange (byteAt b 0) (byteAt b 1) 31
      ((indexesFrom (byteAt b 0) (byteAt b 1)).flatMap (linkReport s)) s) s)

end Sys2Proof.Machine
end

