-- ==== Sys2Proof/Machine/Trigger.lean ====
section
/-! DEFINITION. What the Trigger Unit does for a call (chapter 3): fire times, staleness, collapse, firing, the
retry set, event-anchored steps, STEP_LEFT and repeats. -/

namespace Sys2Proof.Machine

/-! ### The conditions of a step (R47, R49, R50) -/

/-- The bit of a call state in a step's valid states (11.9). -/
def CallState.bit : CallState → Nat
  | .planned => 0 | .due => 1 | .atPlatform => 2 | .departing => 3 | .finished => 4 | .cancelled => 5

/-- Whether a call state is among a step's valid states. -/
def PlanStep.validIn (p : PlanStep) (st : CallState) : Bool := p.valid.getLsbD st.bit

/-- A call record as the Trigger Unit reads it: at an event, the record as the command that passed the event left it
(R35), with the plan and the step status, which only the Trigger Unit and a load write, as they now stand; otherwise
the record as it stands (R60). An event of a call loaded again into its slot under the same call_ref is read so too
(DEDUCED, log 35). -/
def CallRec.asSeen (seen : Option CallRec) (c : CallRec) : CallRec :=
  match seen with
  | some r => { r with plan := c.plan, steps := c.steps }
  | none => c

/-- The fire time of a time-anchored step (R47); none for an event-anchored one. -/
def PlanStep.fireTime (p : PlanStep) (c : CallRec) : Option Nat :=
  match p.anchor with
  | .expectedLead => some (c.expected - p.lead)
  | .scheduledLead => some (c.sched - p.lead)
  | _ => none

/-- The delay condition of a SCHEDULED_LEAD step (R47). -/
def PlanStep.delayMet (p : PlanStep) (c : CallRec) : Bool :=
  match p.anchor with
  | .scheduledLead => decide ((p.minDelay : Int) ≤ c.delay)
  | _ => true

/-- The status entry of a step (R46). -/
def CallRec.entry (c : CallRec) (i : Nat) : StepEntry := c.steps.getD i ⟨.skipped, 0⟩

/-- The fire time of a step that is due at T (R49). -/
def dueTime (c : CallRec) (t i : Nat) (p : PlanStep) : Option Nat :=
  match p.fireTime c with
  | some f =>
    if (c.entry i).status = .armed ∧ f ≤ t ∧ p.validIn c.state ∧ p.delayMet c then some f else none
  | none => none

/-! ### Writing the step status and the retry set -/

/-- Writes a step status entry of the call in a slot. -/
def setEntry (slot i : Nat) (e : StepEntry) (s : State) : State :=
  match s.callAt slot with
  | some c => s.setCall slot { c with steps := c.steps.set i e }
  | none => s

/-- Whether an entry of the retry set is for a slot and step. -/
def RetryEntry.isFor (e : RetryEntry) (slot i : Nat) : Bool := e.slot == slot && e.step == i

/-- The entry for a slot and step leaves the retry set. -/
def dropRetry (slot i : Nat) (s : State) : State :=
  s.onTru fun u => { u with retry := u.retry.filter fun e => !e.isFor slot i }

/-- A step becomes SKIPPED, and its entry leaves the retry set (R46, R50, R51). -/
def skipStep (slot i : Nat) (s : State) : State :=
  match s.callAt slot with
  | some c => dropRetry slot i (setEntry slot i { c.entry i with status := .skipped } s)
  | none => s

/-- Retry entries whose slot is EMPTY or holds a different call_ref leave the set (R46). -/
def cleanRetry (p : RetryEntry → Bool) (s : State) : State :=
  s.onTru fun u => { u with
    retry := u.retry.filter fun e => !(p e) || (s.callOf (some (e.slot, e.callRef))).isSome }

/-- A creation that failed for want of a free record: it is counted, and the step enters the retry set with a
POOL_FULL notice, or, when it is in it already, takes the pending time given (R54). The notice carries the clock's T, also
where the evaluation is one for a change of T after which the clock has moved on: which of the two it carries is the
model's choice (log 42). -/
def retryLater (slot ref i : Nat) (p : PlanStep) (pending : Option Nat) (s : State) : State :=
  let s := count .poolFullAttempts s
  if s.tru.retry.any fun e => e.isFor slot i then
    s.onTru fun u => { u with
      retry := u.retry.map fun e => if e.isFor slot i then { e with pendingTime := pending } else e }
  else
    raise (.poolFull (some (slot, ref)) (some i) p.cls s.sck.time)
      (s.onTru fun u => { u with retry := u.retry ++ [⟨slot, ref, i, pending⟩] })

/-! ### Firing (R52, R53) -/

/-- The creation request of a firing step (R52). -/
def stepAsk (slot ref i : Nat) (p : PlanStep) (t latest : Nat) : Ask :=
  { origin := .step, call := some (slot, ref), step := some i, script := some p.script, stream := none,
    cls := p.cls, selector := p.selector, policy := p.policy, residual := p.residual,
    restartable := p.restartable, latched := false, confirm := p.confirm, confirmTimeout := p.confirmTimeout,
    timeoutPolicy := p.timeoutPolicy, earliest := t, latest := some latest, window := none,
    repeats := p.repeats, repeatInterval := p.repeatInterval }

/-- The status entry after a firing (R52, R57, R58): FIRED at the call's E, but an ON_DELAY_CHANGE step keeps its
status and takes the E it was announced at. -/
def firedEntry (p : PlanStep) (old : StepEntry) (e : Nat) : StepEntry :=
  match p.anchor with
  | .onDelayChange => { old with eAtFire := e }
  | _ => ⟨.fired, e⟩

/-- A step fires at T: its request replaces, and creates a record with the given latest start; the status entry is
written with the E given, or the step is put off (R52, R53, R54). -/
def fireStep (slot i : Nat) (p : PlanStep) (t latest e : Nat) (pending : Option Nat) (s : State) : State :=
  match s.callAt slot with
  | none => s
  | some c =>
    let s := replaceStep slot c.callRef i s
    match createRecord (stepAsk slot c.callRef i p t latest) s with
    | some (_, s) => dropRetry slot i (setEntry slot i (firedEntry p (c.entry i) e) s)
    | none => retryLater slot c.callRef i p pending s

/-! ### The evaluation (R48 to R51, R54) -/

/-- A live due step of an evaluation: its index, its plan step and its fire time. -/
structure LiveStep where
  index : Nat
  step : PlanStep
  fire : Nat
  deriving DecidableEq, Repr

/-- The due steps at T, in ascending step index. -/
def dueSteps (c : CallRec) (pl : Plan) (t : Nat) : List LiveStep :=
  pl.steps.zipIdx.filterMap fun q => (dueTime c t q.2 q.1).map fun f => ⟨q.2, q.1, f⟩

/-- A due step is stale when T has passed its window (R50). -/
def LiveStep.stale (l : LiveStep) (t : Nat) : Bool := decide (l.fire + l.step.window < t)

/-- The step of a group that fires: the latest fire time, and of those the higher step index (R51). -/
def groupWinner : List LiveStep → Option LiveStep
  | [] => none
  | l :: rest =>
    match groupWinner rest with
    | some w => if w.fire < l.fire then some l else some w
    | none => some l

/-- The steps listed become SKIPPED. -/
def skipSteps (slot : Nat) : List LiveStep → State → State
  | [], s => s
  | l :: rest, s => skipSteps slot rest (skipStep slot l.index s)

/-- One collapse group of an evaluation: its winner fires and the others become SKIPPED (R51). -/
def collapseGroup (slot t e : Nat) (live : List LiveStep) (s : State) : State :=
  match groupWinner live with
  | some w =>
    let s := skipSteps slot (live.filter fun l => l.index != w.index) s
    fireStep slot w.index w.step t (w.fire + w.step.window) e none s
  | none => s

/-- The four groups, in ascending order (log 11). -/
def collapseGroups (slot t e : Nat) (live : List LiveStep) : List Nat → State → State
  | [], s => s
  | g :: rest, s =>
    collapseGroups slot t e live rest (collapseGroup slot t e (live.filter fun l => l.step.group == g) s)

/-- Whether a step is event-anchored (R42). -/
def PlanStep.eventAnchored (p : PlanStep) : Bool :=
  match p.anchor with
  | .expectedLead => false
  | .scheduledLead => false
  | _ => true

/-- A retry entry with a pending time is tried again at T, for the call as it is read (R54, R35). -/
def retryOne (slot t : Nat) (seen : Option CallRec) (pl : Plan) (e : RetryEntry) (s : State) : State :=
  match (s.callAt slot).map (CallRec.asSeen seen), pl.steps[e.step]?, e.pendingTime with
  | some c, some p, some pending =>
    if p.eventAnchored then
      if pending + p.window < t then
        match p.anchor with
        | .onState _ => skipStep slot e.step s
        | _ => dropRetry slot e.step s
      else if p.validIn c.state then
        fireStep slot e.step p t (pending + p.window) c.expected (some pending) s
      else s
    else s
  | _, _, _ => s

/-- The retry entries listed are tried one after another. -/
def retryAll (slot t : Nat) (seen : Option CallRec) (pl : Plan) : List RetryEntry → State → State
  | [], s => s
  | e :: rest, s => retryAll slot t seen pl rest (retryOne slot t seen pl e s)

/-- One evaluation of the call in a slot at T, the call read as an event saw it or as it stands (R48, R35, R60): its time-anchored steps, then its retry entries, but for the
event-anchored steps just attempted at the same event (log 12). An entry made under a time anchor has no pending time;
where a reload has made its step event-anchored (R45) it is not tried, and stays in the set until the step fires, the
state is left or the call is gone: the spec gives it no pending time, and this is the model's choice (log 36). -/
def evaluateCall (slot t : Nat) (seen : Option CallRec) (attempted : List Nat) (s : State) : State :=
  let s := cleanRetry (fun e => e.slot == slot) s
  match (s.callAt slot).map (CallRec.asSeen seen) with
  | none => s
  | some c =>
    match tabGet s.tru.plans c.plan with
    | none => s
    | some pl =>
      let due := dueSteps c pl t
      let s := skipSteps slot (due.filter fun l => l.stale t) s
      let s := collapseGroups slot t c.expected (due.filter fun l => !l.stale t) [0, 1, 2, 3] s
      let again := s.tru.retry.filter fun e =>
        e.slot == slot && e.pendingTime.isSome && !attempted.contains e.step
      retryAll slot t seen pl (sortBy (fun x y => decide (x.step ≤ y.step)) again) s

/-- The evaluations of a change of T, slot by slot in ascending order (R48, log 11). -/
def evaluateAll (t : Nat) : List Nat → State → State
  | [], s => s
  | slot :: rest, s => evaluateAll t rest (evaluateCall slot t none [] s)

/-! ### Event-anchored steps (R55 to R58) -/

/-- Whether a step fires on an event, for the call as the event saw it (R55 to R58, R35). -/
def firesOn (c : CallRec) (i : Nat) (p : PlanStep) : TriggerEvent → Bool
  | .loaded => false
  | .stateEntry st =>
    p.anchor == .onState st && (c.entry i).status == .armed && p.validIn st && p.validIn c.state
  | .delayChange _ newE =>
    p.anchor == .onDelayChange && (c.entry i).status == .armed && p.validIn c.state &&
      decide (p.lead ≤ ((newE : Int) - (c.entry i).eAtFire).natAbs)
  | .platformSet _ => p.anchor == .onPlatformSet && (c.entry i).status != .skipped && p.validIn c.state
  | .platformChange _ _ => p.anchor == .onPlatformChange && (c.entry i).status != .skipped && p.validIn c.state
  | .platformCleared _ => false

/-- The E a firing writes: the new E a delay change carries (R58), otherwise the E of the record the event saw (R52, R35). -/
def firingE (c : CallRec) : TriggerEvent → Nat
  | .delayChange _ newE => newE
  | _ => c.expected

/-- The steps an event fires, in ascending step index (R55). -/
def firingSteps (c : CallRec) (pl : Plan) (e : TriggerEvent) : List (PlanStep × Nat) :=
  pl.steps.zipIdx.filter fun q => firesOn c q.2 q.1 e

/-- The steps an event fires, fired one after another (R55). -/
def fireAll (slot t e : Nat) : List (PlanStep × Nat) → State → State
  | [], s => s
  | (p, i) :: rest, s => fireAll slot t e rest (fireStep slot i p t (t + p.window) e (some t) s)

/-- STEP_LEFT for every step of the plan whose valid states do not include the state entered; their retry entries
leave the set (R61). The requests are passed in ascending step index: R61 gives no order, and that of the OUTCOME
notices they lead to is the model's choice (log 30). -/
def leaveSteps (slot ref : Nat) (st : CallState) : List (PlanStep × Nat) → State → State
  | [], s => s
  | (p, i) :: rest, s =>
    leaveSteps slot ref st rest (if p.validIn st then s else dropRetry slot i (stepLeft slot ref i s))

/-- The retry entries that an event finds stale leave the set: at LOADED every entry of the slot (R48), otherwise
those whose slot holds another call or none (R46). -/
def dropStaleRetry (e : CallEvent PassedEvent) (s : State) : State :=
  match e.what.event with
  | .loaded => s.onTru fun u => { u with retry := u.retry.filter fun x => x.slot != e.slot }
  | _ => cleanRetry (fun x => x.slot == e.slot) s

/-- STEP_LEFT for the steps a state entry has left behind; nothing for another event (R61). -/
def leaveBehind (e : CallEvent PassedEvent) (pl : Plan) (s : State) : State :=
  match e.what.event with
  | .stateEntry st => leaveSteps e.slot e.callRef st pl.steps.zipIdx s
  | _ => s

/-- An event acts on a call, as it is read at the event, and its plan (R48, R55, R61): event-anchored steps first,
STEP_LEFT next, the evaluation last. -/
def actOnEvent (e : CallEvent PassedEvent) (c : CallRec) (pl : Plan) (s : State) : State :=
  let firing := firingSteps c pl e.what.event
  evaluateCall e.slot s.sck.time (some e.what.call) (firing.map Prod.snd)
    (leaveBehind e pl (fireAll e.slot s.sck.time (firingE c e.what.event) firing s))

/-- The Trigger Unit takes an event for a call (R48, R55, R61), reading the record as the command that passed the event
left it (R35, log 35). An event whose call is gone finds nothing but stale retry entries. -/
def takeTriggerEvent (e : CallEvent PassedEvent) (s : State) : State :=
  let s := dropStaleRetry e s
  match s.callOf (some (e.slot, e.callRef)) with
  | none => s
  | some c =>
    match tabGet s.tru.plans c.plan with
    | none => s
    | some pl => actOnEvent e (c.asSeen (some e.what.call)) pl s

/-! ### Repeats (R62, R63) -/

/-- The follow-on record of a completed STEP or REPEAT record (R62). -/
def followOnAsk (a : Ask) (t window : Nat) : Ask :=
  { a with
    origin := .repeated
    repeats := a.repeats - 1
    earliest := t + a.repeatInterval
    latest := some (t + a.repeatInterval + window) }

/-- The Trigger Unit takes a COMPLETED event (R62, R63). A POOL_FULL notice carries the clock's T as it stands, which may
have moved on since the completion: which of the two it carries is the model's choice (log 42). -/
def takeCompletion (c : Completion) (s : State) : State :=
  let a := c.ann.ask
  match a.call, a.step, s.callOf a.call with
  | some (slot, ref), some i, some cl =>
    match (tabGet s.tru.plans cl.plan).bind fun pl => pl.steps[i]? with
    | some p =>
      if 0 < a.repeats ∧ c.ann.noRepeat = false ∧ p.validIn cl.state then
        if s.apl.records.any fun r => r.ofStep slot ref i then s
        else match createRecord (followOnAsk a c.time p.window) s with
          | some (_, s) => s
          | none => raise (.poolFull (some (slot, ref)) (some i) a.cls s.sck.time) (count .poolFullAttempts s)
      else s
    | none => s
  | _, _, _ => s

end Sys2Proof.Machine
end

