-- ==== Sys2Proof/Machine/PlanSteps.lean ====
section
/-! DEFINITION. The steps of the Trigger Unit (chapter 3). -/

namespace Sys2Proof.Machine

/-! ### Plans (R43, R44) -/

/-- An entry of the plan table is written. -/
def putPlan (id : Nat) (p : Option Plan) (s : State) : State :=
  s.onTru fun u => { u with plans := tabPut u.plans id p }

/-- LOAD_PLANS (R43). -/
def execLoadPlans (s : State) : Out :=
  .next (runCommand (loadRow 0x30 (byteCounted 4 planSize) (loadedCount 0)) (fun b s =>
    loadCommand (byteAt b 0) (byteAt b 1) 0 63 (byteEntries planSize b) (takeParsed parsePlan putPlan) s) s)

/-- READ_PLAN (R44). -/
def execReadPlan (s : State) : Out :=
  .next (runCommand { code := 0x31, fits := fixed 1 } (fun b s =>
    if 63 < byteAt b 0 then reply .badIndex [] s
    else reply .ok (planBytes (tabGet s.tru.plans (byteAt b 0))) s) s)

/-! ### Events (R48, R55 to R58, R61) -/

/-- Whether CANCELLED for the call of an event still waits at the pool: STATE_ENTRY(CANCELLED) is taken after it
(R28, R106). -/
def cancelWaits (s : State) (e : CallEvent PassedEvent) : Bool :=
  match e.what.event with
  | .stateEntry .cancelled =>
    s.apl.events.any fun p => p.slot == e.slot && p.callRef == e.callRef && p.what == .cancelled
  | _ => false

/-- The Trigger Unit takes the oldest event of a slot, if it is of the kind wanted. -/
def takeEventOf (kind : TriggerEvent → Bool) (slot : Nat) (s : State) : State :=
  match oldestOf slot s.tru.events with
  | some (e, rest) =>
    if kind e.what.event ∧ cancelWaits s e = false then
      takeTriggerEvent e (s.onTru fun u => { u with events := rest })
    else s
  | none => s

/-- LOADED (R48). -/
def execLoaded (slot : Nat) (s : State) : Out :=
  .next (takeEventOf (fun e => match e with | .loaded => true | _ => false) slot s)

/-- STATE_ENTRY (R56, R61). -/
def execStateEntry (slot : Nat) (s : State) : Out :=
  .next (takeEventOf (fun e => match e with | .stateEntry _ => true | _ => false) slot s)

/-- DELAY_CHANGE (R58). -/
def execDelayChange (slot : Nat) (s : State) : Out :=
  .next (takeEventOf (fun e => match e with | .delayChange _ _ => true | _ => false) slot s)

/-- PLATFORM_SET (R57). -/
def execPlatformSet (slot : Nat) (s : State) : Out :=
  .next (takeEventOf (fun e => match e with | .platformSet _ => true | _ => false) slot s)

/-- PLATFORM_CHANGE (R57). -/
def execPlatformChange (slot : Nat) (s : State) : Out :=
  .next (takeEventOf (fun e => match e with | .platformChange _ _ => true | _ => false) slot s)

/-- PLATFORM_CLEARED (R48, R57). -/
def execPlatformCleared (slot : Nat) (s : State) : Out :=
  .next (takeEventOf (fun e => match e with | .platformCleared _ => true | _ => false) slot s)

/-- COMPLETED (R62, R63): the oldest COMPLETED event is taken. R34 orders only the Call Register's events, so that the
COMPLETED events of different records are taken in the order passed is the model's choice (log 40). -/
def execCompleted (s : State) : Out :=
  match s.tru.completions with
  | c :: rest => .next (takeCompletion c (s.onTru fun u => { u with completions := rest }))
  | [] => .next s

/-- TRIGGER_EVALUATION (R48): the oldest change of T that has reached the Trigger Unit is taken, and every call of a
loaded plan is evaluated at it, the slots in ascending order (log 11); stale retry entries leave first (R46). -/
def execTriggerEvaluation (s : State) : Out :=
  match s.tru.changes with
  | ch :: rest =>
    .next (evaluateAll ch.new (s.crg.calls.map Prod.fst)
      (cleanRetry (fun _ => true) (s.onTru fun u => { u with changes := rest })))
  | [] => .next s

end Sys2Proof.Machine
end

