-- ==== Sys2Proof/Machine/PoolSteps.lean ====
section
/-! DEFINITION. The steps of the Announcement Pool (chapter 5). -/

namespace Sys2Proof.Machine

/-! ### Creating commands (R97, R98, R100, R101) -/

/-- A command's creation: the new ann_id, or POOL_FULL (R88, R97, R98). -/
def createFor (a : Ask) (s : State) : Reply :=
  match createRecord a s with
  | some (id, s') => reply .ok (w16 id) s'
  | none => reply .poolFull [] s

/-- An ANNOUNCE request as it is created at T for a call (R97). -/
def announceAsk (a : Ask) (call : Option (Nat × Nat)) (t : Nat) : Ask :=
  { a with call := call, earliest := t, latest := some (t + a.window.getD 0) }

/-- Whether the script a request names needs a call, as the script table stands (R66, R97). -/
def scriptNeedsCall (s : State) (a : Ask) : Bool :=
  match a.script.bind (tabGet s.sxe.scripts) with
  | some sc => sc.needsCall
  | none => false

/-- ANNOUNCE (R97). -/
def execAnnounce (s : State) : Out :=
  .next (runCommand { code := 0x50, fits := fixed 22 } (fun b s =>
    match parseAnnounce b with
    | none => reply .badValue [] s
    | some (some ref, a) => match findRef s.crg.calls ref with
      | none => reply .noSuchCall [] s
      | some (slot, _) => createFor (announceAsk a (some (slot, ref)) s.sck.time) s
    | some (none, a) =>
      if scriptNeedsCall s a || a.selector.needsCall then reply .badValue [] s
      else createFor (announceAsk a none s.sck.time) s) s)

/-- A LIVE or EMERGENCY request, with a free value in each of the three fields that R98 and R100 state no value of
(log 9): the number of the free value is the first argument. -/
def urgentAsk (n : Nat) (origin : Origin) (script stream : Option Nat) (cls : Nat) (selector : Selector)
    (restartable latched : Bool) (t : Nat) : Ask :=
  { origin := origin, call := none, step := none, script := script, stream := stream, cls := cls,
    selector := selector, policy := .part, residual := false, restartable := restartable, latched := latched,
    confirm := .never, confirmTimeout := 5 + Config.unstatedConfirmTimeout n % 596,
    timeoutPolicy := if Config.unstatedPlayAnyway n then .playAnyway else .discard,
    earliest := t, latest := none, window := none, repeats := 0,
    repeatInterval := 60 + Config.unstatedRepeatInterval n % 1741 }

/-- The LIVE record that names a stream, in any state (R98, R99). -/
def liveOn (s : State) (stream : Nat) : Option AnnRec :=
  s.apl.records.find? fun r => r.ask.origin == .live && r.ask.stream == some stream

/-- LIVE_PAGE_BEGIN (R98): the stream's cell age is set to 0 when the record is created (R166). -/
def execLivePageBegin (s : State) : Out :=
  .next (runCommand { code := 0x51, fits := fixed 8 } (fun b s =>
    match parseSelector (b.drop 2) with
    | none => reply .badValue [] s
    | some selector =>
      if 3 < byteAt b 0 ∨ 3 < byteAt b 1 ∨ selector.needsCall then reply .badValue [] s
      else if (liveOn s (byteAt b 0)).isSome then reply .inUse [] s
      else
        let a := urgentAsk s.free .live none (some (byteAt b 0)) (byteAt b 1) selector false false s.sck.time
        match createRecord a s.drawFree with
        | some (id, s') => reply .ok (w16 id) (s'.updStream (byteAt b 0) fun x => { x with age := 0 })
        | none => reply .poolFull [] s) s)

/-- LIVE_PAGE_END (R99). -/
def execLivePageEnd (s : State) : Out :=
  .next (runCommand { code := 0x52, fits := fixed 1 } (fun b s =>
    if 3 < byteAt b 0 then reply .badValue [] s
    else match liveOn s (byteAt b 0) with
      | none => reply .badState [] s
      | some r =>
        reply .ok (w16 r.annId)
          (if r.state = .playing then completeRecord r.annId .pageEnded false s
           else endRecord r.annId .withdrawn .notStarted false s)) s)

/-- Whether a record may be evicted: it waits in QUEUED or READY (R101). -/
def AnnRec.evictable (r : AnnRec) : Bool := r.state == .queued || r.state == .ready

/-- Whether y is to be evicted rather than x: a less urgent class; then QUEUED before READY; then, of two READY, the
later eligible_since; then the higher seq (R101). -/
def evictsBefore (x y : AnnRec) : Bool :=
  if x.ask.cls ≠ y.ask.cls then decide (x.ask.cls < y.ask.cls)
  else if x.state ≠ y.state then y.state == .queued
  else if x.state = .ready ∧ x.eligibleSince.getD 0 ≠ y.eligibleSince.getD 0 then
    decide (x.eligibleSince.getD 0 < y.eligibleSince.getD 0)
  else decide (x.seq < y.seq)

/-- The record EMERGENCY_BEGIN evicts, if there is a candidate (R101). -/
def evictChoice : List AnnRec → Option AnnRec
  | [] => none
  | r :: rest =>
    match evictChoice rest with
    | some best => if r.evictable ∧ evictsBefore best r then some r else some best
    | none => if r.evictable then some r else none

/-- Room is made for an emergency in a full pool, if a record can be evicted (R101). -/
def makeRoom (s : State) : State :=
  if Config.poolSize ≤ s.apl.records.length then
    match evictChoice s.apl.records with
    | some r => endRecord r.annId .withdrawn .evicted false s
    | none => s
  else s

/-- EMERGENCY_BEGIN (R100, R101). -/
def execEmergencyBegin (s : State) : Out :=
  .next (runCommand { code := 0x53, fits := fixed 8 } (fun b s =>
    match parseSelector (b.drop 2) with
    | none => reply .badValue [] s
    | some selector =>
      if selector.needsCall then reply .badValue [] s
      else
        let a := urgentAsk s.free .emergency (some (byteAt b 0)) none 0 selector true (flagAt b 1 0) s.sck.time
        match createRecord a (makeRoom s).drawFree with
        | some (id, s') => reply .ok (w16 id) s'
        | none => reply .poolFull [] (count .poolFullAttempts s)) s)

/-! ### Ending and answering commands (R90, R102, R103) -/

/-- EMERGENCY_END reaches one EMERGENCY record: a READY one ends, a PLAYING one has its end requested, and a latched
one in the gap between passes ends at once (R102, R144). -/
def endEmergency (r : AnnRec) (s : State) : State :=
  match r.state with
  | .ready => endRecord r.annId .withdrawn .command false s
  | .playing =>
    if r.endRequested then s
    else
      let s := s.updAnn r.annId fun r => { r with endRequested := true }
      match r.channel with
      | some c =>
        if r.ask.latched ∧ (s.channel c).state = .gap then
          completeRecord r.annId .emergencyEnded false (causePass (s.updChannel c Channel.toIdle))
        else s
      | none => s
  | _ => s

/-- The EMERGENCY records in the order in which EMERGENCY_END for all reaches them: those that wait, then those that
play, each in ascending seq, so that a READY one ends before a completion makes its pass (R102, log 30). -/
def emergencyIds (s : State) : List Nat :=
  (s.annIds fun r => r.ask.origin == .emergency && r.state != .playing) ++
    s.annIds fun r => r.ask.origin == .emergency && r.state == .playing

/-- The EMERGENCY records named end or have their end requested, one after another. -/
def endEmergencies : List Nat → State → State
  | [], s => s
  | id :: rest, s =>
    match s.ann id with
    | some r => endEmergencies rest (endEmergency r s)
    | none => endEmergencies rest s

/-- EMERGENCY_END (R102): ann_id 0 names every EMERGENCY record (log 30). -/
def execEmergencyEnd (s : State) : Out :=
  .next (runCommand { code := 0x54, fits := fixed 2 } (fun b s =>
    if be16 b 0 = 0 then
      reply .ok (w16 (emergencyIds s).length) (endEmergencies (emergencyIds s) s)
    else match s.ann (be16 b 0) with
      | none => reply .noSuchAnn [] s
      | some r =>
        if r.ask.origin = .emergency then reply .ok (w16 1) (endEmergencies [be16 b 0] s)
        else reply .badValue [] s) s)

/-- The record a command names by ann_id; 0 names none (R90, R103, R110). -/
def State.named (s : State) (id : Nat) : Option AnnRec := if id = 0 then none else s.ann id

/-- CONFIRM and REJECT: a HELD record is acted on, and any other is answered by its state (R90). -/
def answerHeld (act : Nat → State → State) (b : List Byte) (s : State) : Reply :=
  match s.named (be16 b 0) with
  | none => reply .noSuchAnn [] s
  | some r => match r.state with
    | .held => reply .ok [] (act (be16 b 0) s)
    | .queued => reply .badState [] s
    | _ => reply .tooLate [] s

/-- CONFIRM (R90). -/
def execConfirm (s : State) : Out :=
  .next (runCommand { code := 0x55, fits := fixed 2 }
    (answerHeld fun id s => enterReady s.sck.time id s) s)

/-- REJECT (R90). -/
def execReject (s : State) : Out :=
  .next (runCommand { code := 0x56, fits := fixed 2 }
    (answerHeld fun id s => endRecord id .rejected .command false s) s)

/-- WITHDRAW (R103). -/
def execWithdraw (s : State) : Out :=
  .next (runCommand { code := 0x57, fits := fixed 2 } (fun b s =>
    match s.named (be16 b 0) with
    | none => reply .noSuchAnn [] s
    | some r => reply .ok [] (endAnn r.annId .withdrawn .command false s)) s)

/-- CLEAR_ANNOUNCEMENTS (R103): every record ends, in ascending seq, and the passes come after the last of them. -/
def execClearAnnouncements (s : State) : Out :=
  .next (runCommand { code := 0x58, fits := fixed 0 } (fun _ s =>
    reply .ok (w16 s.apl.records.length) (endRecords .withdrawn .cleared (s.annIds fun _ => true) s)) s)

/-- READ_ANNOUNCEMENT (R110). -/
def execReadAnnouncement (s : State) : Out :=
  .next (runCommand { code := 0x59, fits := fixed 2 } (fun b s =>
    match s.named (be16 b 0) with
    | none => reply .noSuchAnn [] s
    | some r => reply .ok (annBytes r) s) s)

/-- READ_POOL (R110). -/
def execReadPool (s : State) : Out :=
  .next (runCommand { code := 0x5A, fits := fixed 0 } (fun _ s => reply .ok (poolBody s) s) s)

/-! ### Events of the Call Register (R104, R105, R106) -/

/-- The pool takes the oldest event of a slot, if it is of the kind wanted (log 5). -/
def takePoolEvent (kind : PoolEvent → Bool) (act : CallEvent PoolEvent → State → State) (slot : Nat) (s : State) :
    State :=
  match oldestOf slot s.apl.events with
  | some (e, rest) => if kind e.what then act e (s.onApl fun p => { p with events := rest }) else s
  | none => s

/-- PLATFORM_MOVED (R104). -/
def execPlatformMoved (slot : Nat) (s : State) : Out :=
  .next (takePoolEvent (fun e => match e with | .platformMoved _ _ => true | _ => false) (fun e s =>
    movePlatform e.slot e.callRef s) slot s)

/-- CANCELLED (R106). -/
def execCancelled (slot : Nat) (s : State) : Out :=
  .next (takePoolEvent (fun e => match e with | .cancelled => true | _ => false) (fun e s =>
    endAnns .withdrawn .cancelled (s.annIds fun r => r.ofCall e.slot e.callRef) s) slot s)

/-- PROVISIONAL_CLEARED (R105). -/
def execProvisionalCleared (slot : Nat) (s : State) : Out :=
  .next (takePoolEvent (fun e => match e with | .provisionalCleared => true | _ => false) (fun e s =>
    enterReadyAll s.sck.time (s.annIds fun r =>
      r.ofCall e.slot e.callRef && r.state == .held && r.ask.confirm == .ifProvisional) s) slot s)

/-- CALL_REMOVED (R106). -/
def execCallRemoved (slot : Nat) (s : State) : Out :=
  .next (takePoolEvent (fun e => match e with | .callRemoved => true | _ => false) (fun e s =>
    endAnns .withdrawn .callRemoved (s.annIds fun r => r.ofCall e.slot e.callRef) s) slot s)

/-! ### Changes of T (R89, R91, R92) -/

/-- The records listed are judged for leaving QUEUED at T (R89). -/
def leaveQueuedAll (t : Nat) : List Nat → State → State
  | [], s => s
  | id :: rest, s => leaveQueuedAll t rest (leaveQueued t id s)

/-- POOL_JUDGEMENT (R89): the oldest change of T that has reached the pool is taken. -/
def execPoolJudgement (s : State) : Out :=
  match s.apl.changes with
  | ch :: rest =>
    .next (leaveQueuedAll ch.new (s.annIds fun _ => true) (s.onApl fun p => { p with changes := rest }))
  | [] => .next s

/-- A HELD record's confirm_timeout runs out at T (R91). -/
def timeOutHold (t id : Nat) (s : State) : State :=
  match s.ann id with
  | none => s
  | some r =>
    if r.holdOver t then
      match r.ask.timeoutPolicy with
      | .playAnyway => enterReady t id s
      | .discard => endRecord id .discarded .holdTimeout false s
    else s

/-- HOLD_TIMEOUT (R91): for a record whose timeout a change of T has reached (log 6). -/
def execHoldTimeout (annId : Nat) (s : State) : Out :=
  if s.apl.holdDue.contains annId then
    .next (timeOutHold s.sck.time annId
      (s.onApl fun p => { p with holdDue := p.holdDue.filter (· != annId) }))
  else .next s

/-- EXPIRY (R92): for a record whose latest a change of T has passed (log 6). -/
def execExpiry (annId : Nat) (s : State) : Out :=
  if s.apl.expiryDue.contains annId then
    .next (expireAnn s.sck.time annId
      (s.onApl fun p => { p with expiryDue := p.expiryDue.filter (· != annId) }))
  else .next s

end Sys2Proof.Machine
end

