-- ==== Sys2Proof/Machine/ScriptSteps.lean ====
section
/-! DEFINITION. The steps of the Script Expander (chapter 4). -/

namespace Sys2Proof.Machine

/-- An entry of the script table is written. -/
def putScript (id : Nat) (sc : Option Script) (s : State) : State :=
  s.onSxe fun x => { x with scripts := tabPut x.scripts id sc }

/-- An entry of the number table is written. -/
def putNumber (i : Nat) (n : Option Nat) (s : State) : State :=
  s.onSxe fun x => { x with numbers := tabPut x.numbers i n }

/-- An entry of the fragment directory is written. -/
def putDir (id : Nat) (d : DirEntry) (s : State) : State :=
  s.onSxe fun x => { x with directory := tabSetD x.directory id DirEntry.reset d }

/-- LOAD_SCRIPTS (R68). -/
def execLoadScripts (s : State) : Out :=
  .next (runCommand (loadRow 0x40 (byteCounted 8 scriptSize) (loadedCount 0)) (fun b s =>
    loadCommand (byteAt b 0) (byteAt b 1) 0 255 (byteEntries scriptSize b) (takeParsed parseScript putScript) s) s)

/-- LOAD_NUMBERS (R69). -/
def execLoadNumbers (s : State) : Out :=
  .next (runCommand (loadRow 0x41 (wordCounted 65535 2)) (fun b s =>
    loadCommand (be16 b 0) (be16 b 2) 0 201 (wordEntries 2 b) (takeParsed parseNumber putNumber) s) s)

/-- LOAD_FRAGMENTS (R71). -/
def execLoadFragments (s : State) : Out :=
  .next (runCommand (loadRow 0x42 (wordCounted 64 12)) (fun b s =>
    loadCommand (be16 b 0) (be16 b 2) 0 4095 (wordEntries 12 b) (takeParsed parseDir putDir) s) s)

/-- READ_SCRIPT (R72). -/
def execReadScript (s : State) : Out :=
  .next (runCommand { code := 0x43, fits := fixed 1 } (fun b s =>
    reply .ok (scriptBytes (tabGet s.sxe.scripts (byteAt b 0))) s) s)

/-- READ_NUMBERS (R72). -/
def execReadNumbers (s : State) : Out :=
  .next (runCommand { code := 0x44, fits := fixed 4 } (fun b s =>
    readRange (be16 b 0) (be16 b 2) 201
      ((indexesFrom (be16 b 0) (be16 b 2)).flatMap fun i => numberBytes (tabGet s.sxe.numbers i)) s) s)

/-- READ_FRAGMENTS (R72). -/
def execReadFragments (s : State) : Out :=
  .next (runCommand { code := 0x45, fits := fun b => fixed 4 b && decide (be16 b 2 ≤ 64) } (fun b s =>
    readRange (be16 b 0) (be16 b 2) 4095
      ((indexesFrom (be16 b 0) (be16 b 2)).flatMap fun i => dirBytes (dirEntry s.sxe i)) s) s)

end Sys2Proof.Machine
end

