-- ==== Sys2Proof/Machine/TrunkSteps.lean ====
section
/-! DEFINITION. The steps of Management over the Trunk (chapter 10): reset and self-check, the cells taken and
sent, and the commands of the Management Interpreter itself. -/

namespace Sys2Proof.Machine

/-! ### Reset and self-check (R186, R187, R188) -/

/-- Every block takes its reset values (R11, R39, R64, R84, R109, R135, R137, R145, R152, R154, R164, R167, R170,
R180, R183, R184, R185). KEEP_PHRASES keeps the fragment directory and phrase memory; any other reset leaves phrase
memory undefined, which draws a free value (log 8). The queue of steps is the model's own and stays (log 2). -/
def resetBlocks (straps : Byte) (cause : ResetCause) (keep : Bool) (s : State) : State :=
  { tki := TrunkInterface.reset straps, mgi := Interpreter.reset cause, notices := NoticeFifo.reset, stats := [],
    sck := Clock.reset, crg := CallRegister.reset, tru := TriggerUnit.reset,
    sxe := { ScriptExpander.reset with directory := if keep then s.sxe.directory else [] },
    apl := AnnouncementPool.reset, zar := ZoneArbiter.reset, pbc := channelsReset,
    pmc := if keep then { PhraseController.reset s.pmc.epoch with memory := s.pmc.memory }
           else PhraseController.reset s.free,
    lmu := LevelMix.reset, zli := LinkInterface.reset, free := if keep then s.free else s.free + 1,
    pending := s.pending }

/-- POWER_ON_RESET (R186). -/
def execPowerOnReset (straps : Byte) (s : State) : Out := .next (resetBlocks straps .powerOn false s)

/-- Whether a self-check result can follow the reset in progress: after KEEP_PHRASES tests 2 and 3 are not made and
test 1 leaves out the fragment directory (R187, log 29). -/
def resultFits (cause : ResetCause) (result : SelfCheckResult) : Bool :=
  match cause, result with
  | .resetKeepPhrases, .fail major minor _ => major == 1 && minor != 5
  | _, _ => true

/-- Every store that test 1 wrote is set again to its reset value (R187). -/
def restoreStores (s : State) : State :=
  let keep := s.mgi.cause == .resetKeepPhrases
  { s with
    tki := { s.tki with
      reassembly := none, streams := tabFill 6 StreamBuffer.reset, flowQueue := [], monitorQueue := [],
      responses := [], sentCells := none },
    mgi := { s.mgi with commands := [] },
    notices := { s.notices with fifo := [] },
    crg := CallRegister.reset, tru := TriggerUnit.reset,
    sxe := { ScriptExpander.reset with directory := if keep then s.sxe.directory else [] },
    apl := AnnouncementPool.reset, zar := ZoneArbiter.reset, pbc := channelsReset }

/-- The report of a self-check (R187): major, minor and parameter are 0 on a pass. -/
def reportOf (cause : ResetCause) : SelfCheckResult → StartReport
  | .pass => ⟨true, cause, 0, 0, 0⟩
  | .fail major minor parameter => ⟨false, cause, major, minor, parameter⟩

/-- Self-check ends with a result (R187): STANDBY on a pass and FAILED on a failure; the second phase begins at
zero (R2); a START_REPORT is queued as the first entry of the empty FIFO. -/
def endSelfCheck (result : SelfCheckResult) (s : State) : State :=
  let report := reportOf s.mgi.cause result
  let s := restoreStores s
  let s := s.onMgi fun m => { m with
    partState := if report.passed then .standby else .failed, report := some report }
  let s := s.onSck fun c => { c with phase := 0 }
  raise (.startReport report s.tki.unitAddress) s

/-- SELF_CHECK_END (R187). -/
def execSelfCheckEnd (result : SelfCheckResult) (s : State) : Out :=
  if s.mgi.partState = .selfCheck ∧ resultFits s.mgi.cause result then .next (endSelfCheck result s) else .next s

/-- The reset that RESET_PART chose (R188). -/
def partReset (straps : Byte) : ResetOption → State → State
  | .full => resetBlocks straps .resetFull false
  | .keepPhrases => resetBlocks straps .resetKeepPhrases true

/-- RESET_AFTER_RESPONSE (R188): the reset is made when the last cell of the response has been sent. It is the last
response of the store, as no command is executed after RESET_PART (log 34). -/
def execResetAfterResponse (straps : Byte) (s : State) : Out :=
  match s.mgi.resetWaiting with
  | some option => if s.tki.responses = [] then .next (partReset straps option s) else .next s
  | none => .next s

/-! ### Audio cells (R164) -/

/-- A cell that is in sequence, or that has skipped ahead, is appended if the buffer has room. -/
def appendCell (n seq : Nat) (samples : List Sample) (s : State) : State :=
  if (s.stream n).cells.length < 8 then
    s.updStream n fun b => { b with cells := b.cells ++ [samples], expected := some ((seq + 1) % 256) }
  else count (.lost n) (s.updStream n fun b => { b with expected := some ((seq + 1) % 256) })

/-- The zero cells that stand in for k missing ones: as many as the buffer can hold and keep one place. -/
def fillMissing (n k : Nat) (s : State) : State :=
  s.updStream n fun b => { b with
    cells := b.cells ++ List.replicate (min k (7 - b.cells.length)) (List.replicate 32 0) }

/-- An audio cell is taken for a stream (R164). -/
def takeAudio (n seq : Nat) (samples : List Sample) (s : State) : State :=
  let s := count (.cells n) (s.updStream n fun b => { b with age := 0 })
  match (s.stream n).expected with
  | none => appendCell n seq samples s
  | some e =>
    let k := (seq + 256 - e) % 256
    if k = 0 then appendCell n seq samples s
    else if k ≤ 127 then
      appendCell n seq samples (fillMissing n k (countBy (.lost n) k (count (.outOfSequence n) s)))
    else count (.outOfSequence n) s

/-! ### Time marks (R5, R6, R8) -/

/-- The clock takes a mark of a day and an instant (R6, R8). -/
def applyMark (day m : Nat) (s : State) : State :=
  let s := enterFreewheel s
  let old := s.sck
  let s := setTime m s
  let s := if old.time + 3 ≤ m ∨ m + 3 ≤ old.time then
      count .clockSteps (raise (.clockStep old.dayNumber old.time m) s)
    else s
  let s := if old.freewheel then
      raise (.freewheel false m old.markAge old.dayNumber) (s.onSck fun c => { c with freewheel := false })
    else s
  count .marksTaken (s.onSck fun c => { c with phase := 0, markAge := 0, markDay := some day })

/-- A mark reaches the clock (R5). -/
def takeMark (day m : Nat) (s : State) : State :=
  if day = 0 ∨ Config.maxTime < m then count .marksOutOfRange s
  else if s.sck.day = .opened ∧ s.sck.dayNumber ≠ some day then count .marksOtherDay s
  else applyMark day m s

/-! ### Reassembly and the command queue (R178 to R181) -/

/-- A message is offered to the command queue (R180, R181). -/
def offerMessage (m : Message) (s : State) : State :=
  if s.mgi.commands.length < Config.queueSize then
    let s := s.onMgi fun g => { g with commands := g.commands ++ [m] }
    if s.mgi.commands.length = 6 ∧ s.tki.paused = false then
      s.onTki fun t => { t with paused := true, flowQueue := t.flowQueue ++ [.pause] }
    else s
  else
    raise (.cmdDropped (BitVec.ofNat 8 m.code) m.tag m.broadcast) (count .commandsDropped s)

/-- A complete message, as the bytes of its cells, is kept, ignored or discarded (R179). -/
def completeMessage (broadcast : Bool) (data : List Byte) (s : State) : State :=
  let l := be16 data 0
  if 8 ≤ l ∧ data.length < l + 64 ∧ l ≤ data.length then
    let m : Message := ⟨data.take l, broadcast⟩
    if broadcast = false ∨ m.code = 0x53 ∨ m.code = 0x54 ∨ m.code = 0x58 then offerMessage m s
    else count .broadcastIgnored s
  else count .reassemblyDiscards s

/-- A partial message, if there is one, is discarded and counted. -/
def discardPartial (s : State) : State :=
  if s.tki.reassembly.isSome then
    count .reassemblyDiscards (s.onTki fun t => { t with reassembly := none })
  else s

/-- An MGMT cell reaches reassembly with its segment position (11.2), sequence number and payload (R178). -/
def takeManagement (segment seq : Nat) (broadcast : Bool) (payload : List Byte) (s : State) : State :=
  match segment with
  | 0 => completeMessage broadcast payload (discardPartial s)
  | 1 => (discardPartial s).onTki fun t => { t with
      reassembly := some ⟨payload, (seq + 1) % 256, broadcast, 0⟩ }
  | _ =>
    match s.tki.reassembly with
    | none => count .reassemblyDiscards s
    | some r =>
      if r.nextSeq = seq ∧ r.broadcast = broadcast ∧ r.data.length < 1024 then
        if segment = 3 then
          completeMessage broadcast (r.data ++ payload) (s.onTki fun t => { t with reassembly := none })
        else s.onTki fun t => { t with
          reassembly := some ⟨r.data ++ payload, (seq + 1) % 256, broadcast, 0⟩ }
      else discardPartial s

/-! ### Taking cells (R177) -/

/-- A downstream cell is taken (R177). -/
def takeCell (cell : List Byte) (s : State) : State :=
  if s.mgi.partState = .selfCheck then count .selfCheckDiscards s
  else if (crc8 (cell.take 3)).toNat ≠ byteAt cell 3 then count .headerErrors s
  else if byteAt cell 0 ≠ s.tki.unitAddress.toNat ∧ byteAt cell 0 ≠ 255 then s
  else
    let field := byteAt cell 1 / 4 % 16
    let seq := byteAt cell 2
    let payload := cell.drop 4
    match byteAt cell 1 / 64 with
    | 0 => if field < 6 then takeAudio field seq (samplesOf payload) s else count .invalidStream s
    | 1 =>
      if field < 4 then takeManagement field seq (byteAt cell 0 == 255) payload s else count .headerErrors s
    | 2 => takeMark (be16 payload 0) (be32 payload 2) s
    | _ => count .flowCells s

/-- DOWNSTREAM_CELL (R177). -/
def execDownstreamCell (cell : List Byte) (s : State) : Out := .next (takeCell cell s)

/-- REASSEMBLY_TIMEOUT (R178): a message whose cell age has passed 100 ms is discarded and counted. -/
def execReassemblyTimeout (s : State) : Out :=
  match s.tki.reassembly with
  | some r => if 100 < r.age then .next (discardPartial s) else .next s
  | none => .next s

/-! ### Sending upstream (R183) -/

/-- A cell goes onto the upstream wire. -/
def putOut (cell : List Byte) (s : State) : State := s.onTki fun t => { t with trunkOut := some cell }

/-- A cell of a management message, its segment position found from its place k (R183). -/
def sendManagement (message : List Byte) (k : Nat) (s : State) : State :=
  putOut (cellBytes s.tki.unitAddress 1 (segmentOf k (cellCount message)) s.tki.mgmtSeq (cellPayload message k))
    (s.onTki fun t => { t with mgmtSeq := (t.mgmtSeq + 1) % 256 })

/-- The next cell of the oldest response; the response leaves the store with its last cell (R183). -/
def sendResponse (message : List Byte) (s : State) : State :=
  let k := s.tki.sentCells.getD 0
  let s := sendManagement message k s
  if k + 1 < cellCount message then s.onTki fun t => { t with sentCells := some (k + 1) }
  else s.onTki fun t => { t with responses := t.responses.tail, sentCells := none }

/-- The interface chooses and sends a cell (R183). -/
def sendUpstream (s : State) : State :=
  match s.tki.flowQueue with
  | f :: rest =>
    putOut (cellBytes s.tki.unitAddress 3 f.code s.tki.flowSeq [])
      (s.onTki fun t => { t with flowQueue := rest, flowSeq := (t.flowSeq + 1) % 256 })
  | [] => match s.tki.monitorQueue with
    | m :: rest =>
      putOut (cellBytes s.tki.unitAddress 0 6 m.seq (m.samples.flatMap fun x => w16 x.toNat))
        (s.onTki fun t => { t with monitorQueue := rest })
    | [] => match s.tki.responses with
      | r :: _ => sendResponse r s
      | [] => match s.notices.fifo with
        | n :: rest => sendManagement (noticeBytes n) 0 (s.onNotices fun f => { f with fifo := rest })
        | [] => s

/-- UPSTREAM_SEND (R183). -/
def execUpstreamSend (s : State) : Out := .next (sendUpstream s)

/-! ### Commands of the Management Interpreter (R182, R184, R185, R188, R189) -/

/-- UNKNOWN_COMMAND_CODE (R182): a queued message whose code is none of the command table's is answered BAD_CODE. -/
def execUnknownCommandCode (s : State) : Out :=
  match s.mgi.commands with
  | m :: _ => if canExecute s ∧ knownCodes.contains m.code = false then .next (finish m .badCode [] s) else .next s
  | [] => .next s

/-- READ_STATUS (R189). -/
def execReadStatus (s : State) : Out :=
  .next (runCommand { code := 0x01, inFailed := true, fits := fixed 0 } (fun _ s => reply .ok (statusBody s) s) s)

/-- READ_STATS (R185): the clear flag sets every counter to 0 in the same act. -/
def execReadStats (s : State) : Out :=
  .next (runCommand { code := 0x02, fits := fixed 1 }
    (fun b s => reply .ok (statsBody s) (if flagAt b 0 0 then s.onStats fun _ => [] else s)) s)

/-- SET_NOTICE_MASK (R184). -/
def execSetNoticeMask (s : State) : Out :=
  .next (runCommand { code := 0x03, fits := fixed 2 }
    (fun b s => reply .ok [] (s.onNotices fun f => { f with mask := BitVec.ofNat 13 (be16 b 0) })) s)

/-- RESET_PART is taken: the reset waits for its response's last cell (R188). -/
def awaitReset (option : ResetOption) (s : State) : Reply :=
  reply .ok [] (s.onMgi fun m => { m with resetWaiting := some option })

/-- RESET_PART with the FULL option (R188). -/
def execResetPartFull (s : State) : Out :=
  .next (runCommand { code := 0x04, inFailed := true, mine := fun b => byteAt b 0 == 1, fits := fixed 1 }
    (fun _ s => awaitReset .full s) s)

/-- RESET_PART with the KEEP_PHRASES option (R188). -/
def execResetPartKeepPhrases (s : State) : Out :=
  .next (runCommand { code := 0x04, inFailed := true, mine := fun b => byteAt b 0 == 2, fits := fixed 1 }
    (fun _ s => awaitReset .keepPhrases s) s)

/-- RESET_PART with any other option is refused with BAD_VALUE (R188). -/
def execResetPartBadOption (s : State) : Out :=
  .next (runCommand
    { code := 0x04, inFailed := true, mine := fun b => byteAt b 0 != 1 && byteAt b 0 != 2, fits := fixed 1 }
    (fun _ s => reply .badValue [] s) s)

end Sys2Proof.Machine
end

