-- ==== Sys2Proof/Machine/ZoneSteps.lean ====
section
/-! DEFINITION. The steps of Zone Arbitration (chapter 6). -/

namespace Sys2Proof.Machine

/-- A zone entry is taken: the configuration is replaced, and the smoothed ambient starts at the new A_ref (R112,
R155). -/
def takeZoneEntry (z : Nat) (b : List Byte) (s : State) : Status × State :=
  match parseZone (s.zone z) b with
  | some e => (.ok, (s.updZone z fun _ => e).updLevel z fun l => { l with ambient := e.aRef })
  | none => (.badValue, s)

/-- The availability of the zones listed is judged again for a change of their enabled flag (R113). -/
def judgeEnabled : List Nat → State → State
  | [], s => s
  | z :: rest, s =>
    judgeEnabled rest (judgeAvailability z (if (s.zone z).enabled then .enabled else .disabled) s)

/-- The zones whose enabled flag differs between two states, in ascending order (R113). -/
def enabledChanged (before after : State) : List Nat :=
  (List.range 32).filter fun z => (before.zone z).enabled != (after.zone z).enabled

/-- A load that has taken at least one entry causes a pass (R113, R114, R115). -/
def passAfterLoad (r : Reply) : Reply :=
  if be16 r.body 0 = 0 then r else { r with state := causePass r.state }

/-- LOAD_ZONES (R112, R113). -/
def execLoadZones (s : State) : Out :=
  .next (runCommand (loadRow 0x60 (byteCounted 255 fun _ => 16) (loadedCount 0)) (fun b s =>
    let r := loadCommand (byteAt b 0) (byteAt b 1) 0 31 (byteEntries (fun _ => 16) b) takeZoneEntry s
    passAfterLoad { r with state := judgeEnabled (enabledChanged s r.state) r.state }) s)

/-- A platform map entry is written (R114). -/
def putPlatform (p : Nat) (zones : ZoneSet) (s : State) : State :=
  s.onZar fun a => { a with platforms := tabSetD a.platforms p 0#32 zones }

/-- LOAD_PLATFORM_MAP (R114): any zone set is a valid entry. -/
def execLoadPlatformMap (s : State) : Out :=
  .next (runCommand (loadRow 0x61 (byteCounted 255 fun _ => 4)) (fun b s =>
    passAfterLoad (loadCommand (byteAt b 0) (byteAt b 1) 1 40 (byteEntries (fun _ => 4) b)
      (takeParsed (fun e => some (BitVec.ofNat 32 (be32 e 0))) putPlatform) s)) s)

/-- A group table entry is written (R115). -/
def putGroup (g : Nat) (e : GroupEntry) (s : State) : State :=
  s.onZar fun a => { a with groups := tabSet a.groups g e }

/-- LOAD_GROUPS (R115): a value and a mask are bytes, so every pair is valid. -/
def execLoadGroups (s : State) : Out :=
  .next (runCommand (loadRow 0x62 (byteCounted 255 fun _ => 2)) (fun b s =>
    passAfterLoad (loadCommand (byteAt b 0) (byteAt b 1) 0 15 (byteEntries (fun _ => 2) b)
      (takeParsed (fun e => some ⟨e.getD 0 0, e.getD 1 0⟩) putGroup) s)) s)

/-- READ_ZONES (R116). -/
def execReadZones (s : State) : Out :=
  .next (runCommand { code := 0x63, fits := fixed 2 } (fun b s =>
    readRange (byteAt b 0) (byteAt b 1) 31
      ((indexesFrom (byteAt b 0) (byteAt b 1)).flatMap (zoneReport s)) s) s)

/-- READ_MAPS (R116). -/
def execReadMaps (s : State) : Out :=
  .next (runCommand { code := 0x64, fits := fixed 0 } (fun _ s => reply .ok (mapsBody s) s) s)

/-- ARBITRATION_PASS (R120, R121): made when a cause waits; the bound on the chain is never reached (log 7). -/
def execArbitrationPass (s : State) : Out := .next (passChain 290 s)

end Sys2Proof.Machine
end

