-- ==== Sys2Proof/Machine/Dispatch.lean ====
section
/-! DEFINITION. The meaning of every step, one arm for each constructor of Instr. -/

namespace Sys2Proof.Machine

def exec (i : Instr) (s : State) : Host.Outcome State Fault Refusal :=
  match i with
  | .powerOnReset straps => Sys2Proof.Machine.execPowerOnReset straps s
  | .selfCheckEnd result => Sys2Proof.Machine.execSelfCheckEnd result s
  | .resetAfterResponse straps => Sys2Proof.Machine.execResetAfterResponse straps s
  | .secondElapses => Sys2Proof.Machine.execSecondElapses s
  | .freewheelEntered => Sys2Proof.Machine.execFreewheelEntered s
  | .downstreamCell cell => Sys2Proof.Machine.execDownstreamCell cell s
  | .reassemblyTimeout => Sys2Proof.Machine.execReassemblyTimeout s
  | .upstreamSend => Sys2Proof.Machine.execUpstreamSend s
  | .unknownCommandCode => Sys2Proof.Machine.execUnknownCommandCode s
  | .readStatus => Sys2Proof.Machine.execReadStatus s
  | .readStats => Sys2Proof.Machine.execReadStats s
  | .setNoticeMask => Sys2Proof.Machine.execSetNoticeMask s
  | .resetPartFull => Sys2Proof.Machine.execResetPartFull s
  | .resetPartKeepPhrases => Sys2Proof.Machine.execResetPartKeepPhrases s
  | .openDay => Sys2Proof.Machine.execOpenDay s
  | .closeDay => Sys2Proof.Machine.execCloseDay s
  | .loadCalls => Sys2Proof.Machine.execLoadCalls s
  | .updateCallArrived => Sys2Proof.Machine.execUpdateCallArrived s
  | .updateCallDeparting => Sys2Proof.Machine.execUpdateCallDeparting s
  | .updateCallGone => Sys2Proof.Machine.execUpdateCallGone s
  | .updateCallCancel => Sys2Proof.Machine.execUpdateCallCancel s
  | .updateCallDelay => Sys2Proof.Machine.execUpdateCallDelay s
  | .updateCallPlatform => Sys2Proof.Machine.execUpdateCallPlatform s
  | .freeCall => Sys2Proof.Machine.execFreeCall s
  | .readCall => Sys2Proof.Machine.execReadCall s
  | .loadPatterns => Sys2Proof.Machine.execLoadPatterns s
  | .readPattern => Sys2Proof.Machine.execReadPattern s
  | .loadPlans => Sys2Proof.Machine.execLoadPlans s
  | .readPlan => Sys2Proof.Machine.execReadPlan s
  | .loadScripts => Sys2Proof.Machine.execLoadScripts s
  | .loadNumbers => Sys2Proof.Machine.execLoadNumbers s
  | .loadFragments => Sys2Proof.Machine.execLoadFragments s
  | .readScript => Sys2Proof.Machine.execReadScript s
  | .readNumbers => Sys2Proof.Machine.execReadNumbers s
  | .readFragments => Sys2Proof.Machine.execReadFragments s
  | .announce => Sys2Proof.Machine.execAnnounce s
  | .livePageBegin => Sys2Proof.Machine.execLivePageBegin s
  | .livePageEnd => Sys2Proof.Machine.execLivePageEnd s
  | .emergencyBegin => Sys2Proof.Machine.execEmergencyBegin s
  | .emergencyEnd => Sys2Proof.Machine.execEmergencyEnd s
  | .confirm => Sys2Proof.Machine.execConfirm s
  | .reject => Sys2Proof.Machine.execReject s
  | .withdraw => Sys2Proof.Machine.execWithdraw s
  | .clearAnnouncements => Sys2Proof.Machine.execClearAnnouncements s
  | .readAnnouncement => Sys2Proof.Machine.execReadAnnouncement s
  | .readPool => Sys2Proof.Machine.execReadPool s
  | .loadZones => Sys2Proof.Machine.execLoadZones s
  | .loadPlatformMap => Sys2Proof.Machine.execLoadPlatformMap s
  | .loadGroups => Sys2Proof.Machine.execLoadGroups s
  | .readZones => Sys2Proof.Machine.execReadZones s
  | .readMaps => Sys2Proof.Machine.execReadMaps s
  | .writePhrase => Sys2Proof.Machine.execWritePhrase s
  | .readChannel => Sys2Proof.Machine.execReadChannel s
  | .monitor => Sys2Proof.Machine.execMonitor s
  | .readLevels => Sys2Proof.Machine.execReadLevels s
  | .readLink => Sys2Proof.Machine.execReadLink s
  | .callRegisterTimeChange => Sys2Proof.Machine.execCallRegisterTimeChange s
  | .retention slot => Sys2Proof.Machine.execRetention slot s
  | .triggerEvaluation => Sys2Proof.Machine.execTriggerEvaluation s
  | .loaded slot => Sys2Proof.Machine.execLoaded slot s
  | .stateEntry slot => Sys2Proof.Machine.execStateEntry slot s
  | .delayChange slot => Sys2Proof.Machine.execDelayChange slot s
  | .platformSet slot => Sys2Proof.Machine.execPlatformSet slot s
  | .platformChange slot => Sys2Proof.Machine.execPlatformChange slot s
  | .platformCleared slot => Sys2Proof.Machine.execPlatformCleared slot s
  | .completed => Sys2Proof.Machine.execCompleted s
  | .platformMoved slot => Sys2Proof.Machine.execPlatformMoved slot s
  | .cancelled slot => Sys2Proof.Machine.execCancelled slot s
  | .provisionalCleared slot => Sys2Proof.Machine.execProvisionalCleared slot s
  | .callRemoved slot => Sys2Proof.Machine.execCallRemoved slot s
  | .poolJudgement => Sys2Proof.Machine.execPoolJudgement s
  | .holdTimeout annId => Sys2Proof.Machine.execHoldTimeout annId s
  | .expiry annId => Sys2Proof.Machine.execExpiry annId s
  | .arbitrationPass => Sys2Proof.Machine.execArbitrationPass s
  | .fetchGrant => Sys2Proof.Machine.execFetchGrant s
  | .burstCompletion => Sys2Proof.Machine.execBurstCompletion s
  | .phraseWriteStart => Sys2Proof.Machine.execPhraseWriteStart s
  | .phraseWriteComplete => Sys2Proof.Machine.execPhraseWriteComplete s
  | .channelEnd channel residualFirst => Sys2Proof.Machine.execChannelEnd channel residualFirst s
  | .gapEnd channel => Sys2Proof.Machine.execGapEnd channel s
  | .underrunAbort channel => Sys2Proof.Machine.execUnderrunAbort channel s
  | .samplePeriod => Sys2Proof.Machine.execSamplePeriod s
  | .block => Sys2Proof.Machine.execBlock s
  | .streamLost stream => Sys2Proof.Machine.execStreamLost stream s
  | .zoneReport report => Sys2Proof.Machine.execZoneReport report s
  | .ambientReading zone => Sys2Proof.Machine.execAmbientReading zone s
  | .linkLost zone => Sys2Proof.Machine.execLinkLost zone s
  | .resetPartBadOption => Sys2Proof.Machine.execResetPartBadOption s
  | .updateCallBadUpdate => Sys2Proof.Machine.execUpdateCallBadUpdate s

end Sys2Proof.Machine
end

