-- ==== Sys2Proof/Machine/Step.lean ====
section
/-! DEFINITION. One step of the machine: the step at the front of the queue is run on the state with the rest of the
queue (log 2). -/

namespace Sys2Proof.Machine

/-- The state with another queue of waiting steps. -/
def State.withPending (s : State) (q : List Instr) : State := { s with pending := q }

/-- The front of the queue is taken and run; on an empty queue the part idles (DESIGN CHOICE, log 2). -/
def step (s : State) : Host.Outcome State Fault Refusal :=
  match s.pending with
  | [] => .next s
  | i :: rest => exec i (s.withPending rest)

/-- The state with the step that a word spells put at the front of its queue; unchanged where it spells none, which
is every word, as the table gives no row any bits (log 3). -/
def State.withFetchWord (s : State) (nbits w : Nat) : State :=
  match decodeTableWord nbits w with
  | some i => s.withPending (i :: s.pending)
  | none => s

end Sys2Proof.Machine
end

