-- ==== Sys2Proof/Safety.lean ====
section
/-! DEFINITION. What a sound state of the part is: the ranges and bounds that the rules give its queues, its pool, its
clock, its counters and phrase memory; and the words in which claims speak of a command at the head of the queue. -/

namespace Sys2Proof.Machine

/-! ### Sound states -/

/-- Whether an entry of the notice FIFO is an OVERFLOW marker. -/
def Notice.isMarker : Notice → Bool
  | .overflow _ => true
  | _ => false

/-- The notice FIFO of R184: at most 32 entries; a marker only as the last; without a marker at most 31. -/
def FifoSound (fifo : List Notice) : Prop :=
  fifo.length ≤ Config.noticeSize ∧ (∀ n ∈ fifo.dropLast, n.isMarker = false) ∧
    (markerOf fifo = none → fifo.length < Config.noticeSize)

/-- The counters of R185: none above 4,294,967,295, in a table with rising indexes. -/
def StatsSound (stats : Tab Nat) : Prop :=
  tabRising stats = true ∧ ∀ p ∈ stats, p.2 ≤ Config.maxCount

/-- The pool of R86 and R87: at most 96 records, each with an ann_id in 1..65535, no two with the same one. -/
def PoolSound (p : AnnouncementPool) : Prop :=
  p.records.length ≤ Config.poolSize ∧ (p.records.map fun r => r.annId).Nodup ∧
    (∀ r ∈ p.records, 1 ≤ r.annId ∧ r.annId ≤ 65535) ∧ p.lastId ≤ 65535

/-- The clock of R1: every field in its range, a day number present exactly in OPEN, and the day OPEN exactly while
the part state is RUNNING. -/
def ClockSound (s : State) : Prop :=
  s.sck.time ≤ Config.maxTime ∧ s.sck.markAge ≤ 65535 ∧ s.sck.phase ≤ 15999 ∧ s.sck.originHour ≤ 23 ∧
    (∀ d, s.sck.dayNumber = some d → 1 ≤ d ∧ d ≤ 65535) ∧ (∀ d, s.sck.markDay = some d → 1 ≤ d ∧ d ≤ 65535) ∧
    (∀ e, s.sck.entering = some e → e.1 ≤ Config.maxTime ∧ ∀ d, e.2 = some d → 1 ≤ d ∧ d ≤ 65535) ∧
    (s.sck.dayNumber.isSome = true ↔ s.sck.day = .opened) ∧
    (s.sck.day = .opened ↔ s.mgi.partState = .running)

/-- Phrase memory of R150: its canonical form, and a pending write within the address range. -/
def PhraseSound (s : State) : Prop :=
  phraseWf s.pmc.memory = true ∧
    ∀ w, s.pmc.pendingWrite = some w → w.address + w.samples.length ≤ Config.phraseSize

/-- The queues of R180 and R183: at most 8 messages, 2 responses and 2 monitor cells; and while a WRITE_PHRASE waits
the response store has a free place for its answer. -/
def QueuesSound (s : State) : Prop :=
  s.mgi.commands.length ≤ Config.queueSize ∧ s.tki.responses.length ≤ Config.responseSize ∧
    s.tki.monitorQueue.length ≤ 2 ∧
    (s.pmc.pendingWrite.isSome = true → s.tki.responses.length < Config.responseSize)

/-- A call record as R15 and R17 bound it: E is S + d clamped, the delay lies in its range, a provisional flag needs
a platform, and a retain_until is present exactly in FINISHED and CANCELLED. -/
def CallRec.Sound (c : CallRec) : Prop :=
  1 ≤ c.callRef ∧ c.callRef ≤ 16777215 ∧ c.platform ≤ 40 ∧ (c.provisional = true → c.platform ≠ 0) ∧
    c.sched ≤ Config.maxTime ∧ -600 ≤ c.delay ∧ c.delay ≤ 21600 ∧ c.expected = expectedTime c.sched c.delay ∧
    c.place ≤ 4095 ∧ c.steps.length = 8 ∧
    (c.retainUntil.isSome = true ↔ c.state = .finished ∨ c.state = .cancelled)

/-- The call table of R15: slots 0..511 in rising order, no call_ref in two of them, every record sound. -/
def CallsSound (calls : Tab CallRec) : Prop :=
  tabRising calls = true ∧ (calls.map fun p => p.2.callRef).Nodup ∧ ∀ p ∈ calls, p.1 ≤ 511 ∧ p.2.Sound

/-! ### The command rows -/

/-- The code of the command that a row executes; none for a row that is no command, and for UNKNOWN_COMMAND_CODE. -/
def commandCode : Instr → Option Nat
  | .readStatus => some 0x01
  | .readStats => some 0x02
  | .setNoticeMask => some 0x03
  | .resetPartFull | .resetPartKeepPhrases | .resetPartBadOption => some 0x04
  | .openDay => some 0x10
  | .closeDay => some 0x11
  | .loadCalls => some 0x20
  | .updateCallArrived | .updateCallDeparting | .updateCallGone | .updateCallCancel | .updateCallDelay
  | .updateCallPlatform | .updateCallBadUpdate => some 0x21
  | .freeCall => some 0x22
  | .readCall => some 0x23
  | .loadPatterns => some 0x24
  | .readPattern => some 0x25
  | .loadPlans => some 0x30
  | .readPlan => some 0x31
  | .loadScripts => some 0x40
  | .loadNumbers => some 0x41
  | .loadFragments => some 0x42
  | .readScript => some 0x43
  | .readNumbers => some 0x44
  | .readFragments => some 0x45
  | .announce => some 0x50
  | .livePageBegin => some 0x51
  | .livePageEnd => some 0x52
  | .emergencyBegin => some 0x53
  | .emergencyEnd => some 0x54
  | .confirm => some 0x55
  | .reject => some 0x56
  | .withdraw => some 0x57
  | .clearAnnouncements => some 0x58
  | .readAnnouncement => some 0x59
  | .readPool => some 0x5A
  | .loadZones => some 0x60
  | .loadPlatformMap => some 0x61
  | .loadGroups => some 0x62
  | .readZones => some 0x63
  | .readMaps => some 0x64
  | .writePhrase => some 0x70
  | .readChannel => some 0x71
  | .monitor => some 0x80
  | .readLevels => some 0x81
  | .readLink => some 0x90
  | _ => none

/-- Whether a row executes a command. -/
def isCommand (i : Instr) : Bool := (commandCode i).isSome || i == .unknownCommandCode

/-- Whether a row is the one that executes a message: by its command code, and for RESET_PART and UPDATE_CALL by the
option or update code it carries (R182, log 4). -/
def rowTakes (i : Instr) (m : Message) : Bool :=
  match i with
  | .unknownCommandCode => knownCodes.contains m.code == false
  | .resetPartFull => m.code == 0x04 && byteAt m.body 0 == 1
  | .resetPartKeepPhrases => m.code == 0x04 && byteAt m.body 0 == 2
  | .resetPartBadOption => m.code == 0x04 && byteAt m.body 0 != 1 && byteAt m.body 0 != 2
  | .updateCallArrived => m.code == 0x21 && byteAt m.body 3 == 0
  | .updateCallDeparting => m.code == 0x21 && byteAt m.body 3 == 1
  | .updateCallGone => m.code == 0x21 && byteAt m.body 3 == 2
  | .updateCallCancel => m.code == 0x21 && byteAt m.body 3 == 3
  | .updateCallDelay => m.code == 0x21 && byteAt m.body 3 == 4
  | .updateCallPlatform => m.code == 0x21 && byteAt m.body 3 == 5
  | .updateCallBadUpdate => m.code == 0x21 && decide (5 < byteAt m.body 3)
  | i => commandCode i == some m.code

/-- Whether a row is executed in FAILED too (R182): READ_STATUS and RESET_PART; an unknown code is refused before. -/
def inFailedToo (i : Instr) : Bool :=
  i == .readStatus || commandCode i == some 0x04 || i == .unknownCommandCode

/-- The length of a command's body, for a command with a fixed body (R182, 11.4). -/
def fixedBody : Instr → Option Nat
  | .readStatus | .closeDay | .clearAnnouncements | .readPool | .readMaps => some 0
  | .readStats | .resetPartFull | .resetPartKeepPhrases | .resetPartBadOption | .readPattern | .readPlan
  | .readScript | .livePageEnd | .readChannel | .monitor => some 1
  | .setNoticeMask | .emergencyEnd | .confirm | .reject | .withdraw | .readAnnouncement | .readZones | .readLevels
  | .readLink => some 2
  | .freeCall => some 3
  | .readCall | .readNumbers => some 4
  | .openDay => some 7
  | .updateCallArrived | .updateCallDeparting | .updateCallGone | .updateCallCancel | .updateCallDelay
  | .updateCallPlatform | .updateCallBadUpdate | .livePageBegin | .emergencyBegin => some 8
  | .announce => some 22
  | _ => none

/-- The body of FAILED_PART, and of BAD_LENGTH where the body is of a fixed length: UPDATE_CALL and FREE_CALL report
the absence of a call (R18, log 21), and LOAD_PLANS, LOAD_SCRIPTS and LOAD_ZONES the loaded count 0 (R43, R68, R112). -/
def commonBody (i : Instr) : List Byte :=
  match i with
  | .updateCallArrived | .updateCallDeparting | .updateCallGone | .updateCallCancel | .updateCallDelay
  | .updateCallPlatform | .updateCallBadUpdate | .freeCall => callReply none
  | .loadPlans | .loadScripts | .loadZones => loadedCount 0
  | _ => []

/-! ### A command at the head of the queue -/

/-- A message of a command code stands at the head of the queue and may be executed, in a part that is not FAILED
(R182). -/
abbrev Ready (s : State) (m : Message) (code : Nat) : Prop :=
  s.mgi.commands.head? = some m ∧ canExecute s = true ∧ s.mgi.partState ≠ .failed ∧ m.code = code

/-- The same, with a body of n bytes. -/
abbrev AtHead (s : State) (m : Message) (code n : Nat) : Prop := Ready s m code ∧ m.body.length = n

/-- A step answers a next state in which a message has been answered and has left the queue, the owning rule having
made the state `t` (R182). -/
abbrev Answers (i : Instr) (s : State) (m : Message) (st : Status) (body : List Byte) (t : State) : Prop :=
  exec i s = .next (finish m st body t)

/-- The state after the first entries of a load have been taken, whatever each was answered (R20). -/
def afterEntries (take : Nat → List Byte → State → Status × State) : Nat → List (List Byte) → State → State
  | _, [], s => s
  | i, e :: rest, s => afterEntries take (i + 1) rest (take i e s).2

/-- A LOAD command's answer, once its length fits: the whole-command checks, then its entries (R19, R20). -/
def loadAnswer (first count lo hi : Nat) (entries : List (List Byte))
    (take : Nat → List Byte → State → Status × State) (s : State) : Status × Nat × State :=
  if count = 0 then (.badValue, 0, s)
  else if first < lo ∨ hi < first + count - 1 then (.badIndex, 0, s)
  else loadEntries take first 0 entries s

/-! ### Calls and their events -/

/-- The state in which a call record has been written into a slot and events have been passed for it (R34), those to
the Trigger Unit with that record (R35). -/
def withCall (slot : Nat) (c : CallRec) (trigger : List TriggerEvent) (pool : List PoolEvent) (s : State) : State :=
  { s with
    crg := { s.crg with calls := tabSet s.crg.calls slot c }
    tru := { s.tru with events := s.tru.events ++ trigger.map fun e => ⟨slot, c.callRef, ⟨e, c⟩⟩ }
    apl := { s.apl with events := s.apl.events ++ pool.map fun e => ⟨slot, c.callRef, e⟩ } }

/-- The state in which a slot has been made EMPTY and CALL_REMOVED has been passed for its call (R22, R32, R33). -/
def withoutCall (slot : Nat) (c : CallRec) (s : State) : State :=
  { s with
    crg := { s.crg with
      calls := tabDel s.crg.calls slot, retentionDue := s.crg.retentionDue.filter (· != slot) }
    apl := { s.apl with events := s.apl.events ++ [⟨slot, c.callRef, .callRemoved⟩] } }

/-- An UPDATE_CALL of an update code stands at the head of the queue of a RUNNING part, and names the call in a slot
(R18). -/
abbrev Names (s : State) (m : Message) (update slot : Nat) (c : CallRec) : Prop :=
  AtHead s m 0x21 8 ∧ byteAt m.body 3 = update ∧ s.mgi.partState = .running ∧ be24 m.body 0 ≠ 0 ∧
    findRef s.crg.calls (be24 m.body 0) = some (slot, c)

/-- The row that takes an event passed to the Trigger Unit for a slot. -/
def eventRow (slot : Nat) : TriggerEvent → Instr
  | .loaded => .loaded slot
  | .stateEntry _ => .stateEntry slot
  | .delayChange _ _ => .delayChange slot
  | .platformSet _ => .platformSet slot
  | .platformChange _ _ => .platformChange slot
  | .platformCleared _ => .platformCleared slot

/-- The row that takes an event passed to the Announcement Pool for a slot. -/
def poolRow (slot : Nat) : PoolEvent → Instr
  | .platformMoved _ _ => .platformMoved slot
  | .cancelled => .cancelled slot
  | .provisionalCleared => .provisionalCleared slot
  | .callRemoved => .callRemoved slot

/-- The next ann_id value: 65535 counts on to 1 (R87). -/
def nextValue (n : Nat) : Nat := if n < 65535 then n + 1 else 1

end Sys2Proof.Machine
end

