-- ==== Sys2Proof/Certificates/Slice0/Obligations.lean ====
section
/-! DEFINITION. The statements for the provers. Each docstring says which rules of spec/ it formalises; OBLIGATIONS.json
gives its number, tier, basis and cites. -/

open Sys2Proof Sys2Proof.Machine

/-! ### The machine -/

/-- The step at the front of the queue is run on the state with the queue's rest. The second clause, that the part
idles on an empty queue, is the model's choice (log 2). -/
def Obligations.StepRunsFront : Prop :=
  (∀ (c : Instr) (rest : List Instr) (s : State), step (s.withPending (c :: rest)) = exec c (s.withPending rest)) ∧
  ∀ s : State, s.pending = [] → step s = .next s

/-- No step ends in a fault or a refusal, and none touches the queue of steps that wait (log 2). -/
def Obligations.EveryStepCompletes : Prop :=
  ∀ (i : Instr) (s : State), ∃ t, exec i s = .next t ∧ t.pending = s.pending

/-- The state after reset meets every invariant that the statements below carry through a step. -/
def Obligations.ResetStateIsSound : Prop :=
  ClockSound State.reset ∧ PhraseSound State.reset ∧ FifoSound State.reset.notices.fifo ∧
    StatsSound State.reset.stats ∧ PoolSound State.reset.apl ∧ QueuesSound State.reset ∧
    CallsSound State.reset.crg.calls

/-- Every step keeps the clock's fields in their ranges, the day number present exactly in OPEN, and the day OPEN
exactly while the part is RUNNING (R1). -/
def Obligations.StepKeepsClock : Prop :=
  ∀ s t : State, ClockSound s → step s = .next t → ClockSound t

/-- Every step keeps phrase memory in its canonical form, all its addresses below 33,554,432, and the pending write
within them (R150, R151). -/
def Obligations.StepKeepsPhraseMemory : Prop :=
  ∀ s t : State, PhraseSound s → step s = .next t → PhraseSound t

/-- Every step keeps the notice FIFO at 32 entries at most, with at most one OVERFLOW marker, the last entry, and at
most 31 entries without one (R184); and keeps each counter at 4,294,967,295 at most (R185). -/
def Obligations.StepKeepsNoticesAndCounters : Prop :=
  (∀ s t : State, FifoSound s.notices.fifo → step s = .next t → FifoSound t.notices.fifo) ∧
  (∀ s t : State, StatsSound s.stats → step s = .next t → StatsSound t.stats)

/-- Every step keeps the queues within their sizes: 8 messages, 2 responses, 2 monitor cells; and the response store
keeps a place for the answer of a WRITE_PHRASE that waits (R180, R182, R183). -/
def Obligations.StepKeepsQueues : Prop :=
  ∀ s t : State, QueuesSound s → step s = .next t → QueuesSound t

/-- Every step keeps the pool at 96 records at most, their ann_ids in 1..65535 and no two the same (R86, R87). -/
def Obligations.StepKeepsPool : Prop :=
  ∀ s t : State, PoolSound s.apl → step s = .next t → PoolSound t.apl

/-- Every step keeps the call table sound: no call_ref in two slots, E equal to S + d clamped and d in −600..21,600 in
every record, and a retain_until exactly in FINISHED and CANCELLED (R15, R17). -/
def Obligations.StepKeepsCalls : Prop :=
  ∀ s t : State, CallsSound s.crg.calls → step s = .next t → CallsSound t.crg.calls

/-- The part state changes by the causes of R186's table, and by no other step. -/
def Obligations.PartStateTransitions : Prop :=
  ∀ (i : Instr) (s t : State), exec i s = .next t →
    t.mgi.partState = s.mgi.partState ∨
    ((∃ straps, i = .powerOnReset straps ∨ i = .resetAfterResponse straps) ∧ t.mgi.partState = .selfCheck) ∨
    (∃ r, i = .selfCheckEnd r ∧ s.mgi.partState = .selfCheck ∧
      t.mgi.partState = if r = .pass then .standby else .failed) ∨
    (i = .openDay ∧ s.mgi.partState = .standby ∧ t.mgi.partState = .running) ∨
    (i = .closeDay ∧ s.mgi.partState = .running ∧ t.mgi.partState = .standby)

/-- T changes only at a second, a mark or OPEN_DAY, or at a reset; and each change but a reset's is handed on to the
Call Register, the Trigger Unit and the Announcement Pool with its kind and both values of T (R4). -/
def Obligations.ChangesOfTimeAreHandedOn : Prop :=
  ∀ (i : Instr) (s t : State), exec i s = .next t → t.sck.time ≠ s.sck.time →
    (∃ straps, i = .powerOnReset straps ∨ i = .resetAfterResponse straps) ∨
    ∃ ch : TimeChange, ch.prev = s.sck.time ∧ ch.new = t.sck.time ∧
      t.crg.changes = s.crg.changes ++ [ch] ∧ t.tru.changes = s.tru.changes ++ [ch] ∧
      t.apl.changes = s.apl.changes ++ [ch] ∧
      ((i = .secondElapses ∧ ch.kind = .advance ∧ ch.new = ch.prev + 1) ∨
       ((i = .openDay ∨ ∃ cell, i = .downstreamCell cell) ∧
        ((ch.kind = .forward ∧ ch.prev < ch.new) ∨ (ch.kind = .backward ∧ ch.new < ch.prev))))

/-- Phrase memory is written by a completed phrase write alone, and the fragment directory by LOAD_FRAGMENTS alone, but
for resets and the end of self-check; RESET_PART KEEP_PHRASES keeps both (R70, R152, R187). -/
def Obligations.RecordingsChangeOnlyBy : Prop :=
  (∀ (i : Instr) (s t : State), exec i s = .next t →
    (∀ straps, i ≠ .powerOnReset straps ∧ i ≠ .resetAfterResponse straps) →
    (i ≠ .phraseWriteComplete → t.pmc.memory = s.pmc.memory) ∧
    (i ≠ .loadFragments → (∀ r, i ≠ .selfCheckEnd r) → t.sxe.directory = s.sxe.directory)) ∧
  ∀ (straps : Byte) (s t : State), s.mgi.resetWaiting = some .keepPhrases →
    exec (.resetAfterResponse straps) s = .next t →
    (∀ a, readPhrase t.pmc a = readPhrase s.pmc a) ∧ t.sxe.directory = s.sxe.directory

/-! ### Executing commands -/

/-- Every message that can stand at the head of the queue is executed by exactly one row. That rows of one command code are
told apart by a byte of the body, and that a body too short to hold that byte reads it as 0, is the model's inference
(log 4). A command row changes nothing while the interpreter may not begin to execute, or while the message at the
head is another row's (R182, R186, R188). -/
def Obligations.EveryMessageHasOneRow : Prop :=
  (∀ m : Message, ∃ i, rowTakes i m = true ∧ ∀ j, rowTakes j m = true → j = i) ∧
  (∀ (i : Instr) (s : State), isCommand i = true →
     (canExecute s = false ∨ ∀ m, s.mgi.commands.head? = some m → rowTakes i m = false) → exec i s = .next s)

/-- The answers common to all commands (R182): BAD_CODE for an unknown code; FAILED_PART in FAILED for every command but
READ_STATUS and RESET_PART, with the loaded count 0 for LOAD_PLANS, LOAD_SCRIPTS and LOAD_ZONES (R43, R68, R112) and an
empty body for the other LOAD commands, which is the model's inference (log 26), and an absent call for UPDATE_CALL and
FREE_CALL (log 21); BAD_LENGTH for a fixed body of another length. UPDATE_CALL refused (R18, log 21, log
22): NOT_RUNNING outside RUNNING, BAD_VALUE for a call_ref out of range, NO_SUCH_CALL where no slot holds it, and
BAD_VALUE, with the call as it stands, for an update code that the table does not list; the call table stays as it
was. -/
def Obligations.CommonAnswersComeFirst : Prop :=
  (∀ (i : Instr) (s : State) (m : Message), s.mgi.commands.head? = some m → canExecute s = true →
     rowTakes i m = true →
     (i = .unknownCommandCode → Answers i s m .badCode [] s) ∧
     (s.mgi.partState = .failed → inFailedToo i = false → Answers i s m .failedPart (commonBody i) s) ∧
     (∀ n, fixedBody i = some n → (s.mgi.partState = .failed → inFailedToo i = true) → m.body.length ≠ n →
       Answers i s m .badLength (commonBody i) s)) ∧
  (∀ (i : Instr) (s : State) (m : Message), commandCode i = some 0x21 → rowTakes i m = true → AtHead s m 0x21 8 →
     (s.mgi.partState ≠ .running → Answers i s m .notRunning (w16 65535 ++ w8 0 ++ w32 4294967295) s) ∧
     (s.mgi.partState = .running → be24 m.body 0 = 0 →
       Answers i s m .badValue (w16 65535 ++ w8 0 ++ w32 4294967295) s) ∧
     (s.mgi.partState = .running → be24 m.body 0 ≠ 0 → findRef s.crg.calls (be24 m.body 0) = none →
       Answers i s m .noSuchCall (w16 65535 ++ w8 0 ++ w32 4294967295) s) ∧
     ∀ slot c, i = .updateCallBadUpdate → s.mgi.partState = .running → be24 m.body 0 ≠ 0 →
       tabRising s.crg.calls = true → findRef s.crg.calls (be24 m.body 0) = some (slot, c) →
       Answers i s m .badValue (w16 slot ++ w8 c.state.code ++ w32 c.expected) s)

/-- How messages join and leave the command queue, and the flow control that follows (R180 to R183): a message joins a
queue of fewer than 8, and a queue that comes to hold 6 sends PAUSE; a message offered to a full queue is dropped and
noticed; at the end of its execution the head is answered and leaves, and a queue that comes to hold 2 sends RESUME; a
reset empties the queue and clears the flag without RESUME. That a PAUSE or RESUME joins a flow queue of any length,
where R183 gives up to 2 cells, is the model's inference (log 25). -/
def Obligations.MessagesJoinAndLeaveTheQueue : Prop :=
  (∀ (m : Message) (s : State), offerMessage m s =
    if s.mgi.commands.length < 8 then
      { s with
        mgi := { s.mgi with commands := s.mgi.commands ++ [m] }
        tki := if s.mgi.commands.length = 5 ∧ s.tki.paused = false then
            { s.tki with paused := true, flowQueue := s.tki.flowQueue ++ [.pause] }
          else s.tki }
    else raise (.cmdDropped (BitVec.ofNat 8 m.code) m.tag m.broadcast) (count .commandsDropped s)) ∧
  (∀ (m : Message) (st : Status) (body : List Byte) (s : State) (head : Message) (rest : List Message),
    s.mgi.commands = head :: rest → finish m st body s =
      { s with
        mgi := { s.mgi with commands := rest }
        tki := { s.tki with
          responses := if m.broadcast then s.tki.responses else s.tki.responses ++ [responseTo m st body]
          paused := s.tki.paused && rest.length != 2
          flowQueue := if rest.length = 2 ∧ s.tki.paused = true then s.tki.flowQueue ++ [.resume]
            else s.tki.flowQueue } }) ∧
  ∀ (straps : Byte) (cause : ResetCause) (keep : Bool) (s : State),
    (resetBlocks straps cause keep s).mgi.commands = [] ∧ (resetBlocks straps cause keep s).tki.paused = false ∧
    (resetBlocks straps cause keep s).tki.flowQueue = []

/-- What the notice FIFO does with a notice that a block raises, by the table of R184, for a FIFO of the form that
Obligations.StepKeepsNoticesAndCounters keeps; START_REPORT and OVERFLOW have no flag; a reset enables every kind and empties the FIFO; and what SET_NOTICE_MASK does. A counter increases by the
amount given and holds at 4,294,967,295; every other counter stays (R185). That the marker's own count has no limit is
the model's choice (log 41). -/
def Obligations.NoticesAndCountersHoldTheirLimits : Prop :=
  ((∀ (n : Notice) (s : State), FifoSound s.notices.fifo →
     (noticeEnabled s.notices.mask n = false → raise n s = s) ∧
     (noticeEnabled s.notices.mask n = true →
       (markerOf s.notices.fifo = none → s.notices.fifo.length ≤ 30 →
         raise n s = { s with notices := { s.notices with fifo := s.notices.fifo ++ [n] } }) ∧
       (markerOf s.notices.fifo = none → s.notices.fifo.length = 31 →
         raise n s = count .noticesDropped
           { s with notices := { s.notices with fifo := s.notices.fifo ++ [.overflow 1] } }) ∧
       ∀ k, markerOf s.notices.fifo = some k →
         raise n s = count .noticesDropped
           { s with notices := { s.notices with fifo := s.notices.fifo.dropLast ++ [.overflow (k + 1)] } })) ∧
   (∀ (mask : BitVec 13) (report : StartReport) (unit : Byte) (k : Nat),
     noticeEnabled mask (.startReport report unit) = true ∧ noticeEnabled mask (.overflow k) = true) ∧
   (∀ (straps : Byte) (cause : ResetCause) (keep : Bool) (s : State),
     (resetBlocks straps cause keep s).notices = ⟨[], BitVec.allOnes 13⟩) ∧
   ∀ (s : State) (m : Message), AtHead s m 0x03 2 →
     Answers .setNoticeMask s m .ok [] { s with
       notices := { s.notices with mask := BitVec.ofNat 13 (be16 m.body 0) } }) ∧
  (∀ (c : Counter) (n : Nat) (s : State), StatsSound s.stats →
     counter (countBy c n s) c = min (counter s c + n) 4294967295 ∧
     (∀ c' : Counter, c'.index ≠ c.index → counter (countBy c n s) c' = counter s c') ∧
     { countBy c n s with stats := s.stats } = s)

/-! ### Reset and self-check -/

/-- Power-on puts every block into its reset values and enters SELF_CHECK (R186; R11, R39, R64, R84, R109, R111, R137,
R145, R154, R164, R170). The report's absence, the sequence counters' neighbours `trunkOut` and `sent`, the epoch and
the free-value counter are the model's own (log 8, 31, 32, 33). -/
def Obligations.PowerOnResetsEveryBlock : Prop :=
  ∀ (straps : Byte) (s : State), exec (.powerOnReset straps) s = .next
    { tki := ⟨straps, none, tabFill 6 ⟨[], 0, none, 5000⟩, false, [], [], [], none, 0, 0, none⟩
      mgi := ⟨.selfCheck, [], none, .powerOn, none⟩
      notices := ⟨[], BitVec.allOnes 13⟩
      stats := []
      sck := ⟨.noDay, 0, none, 0, false, 0, none, false, 0, none⟩
      crg := ⟨[], [], [], []⟩
      tru := ⟨[], [], [], [], []⟩
      sxe := ⟨[], [], []⟩
      apl := ⟨[], 0, 0, [], [], [], []⟩
      zar := ⟨tabFill 32 ⟨false, 0, 0, 0, 0, 0, 0, 0, none, 121, 0, 16, 16, none, false⟩, [], tabFill 16 ⟨0, 255⟩, false,
        0, tabFill 6 0⟩
      pbc := tabFill 6 ⟨.idle, none, none, false, [], 0, 0, 0, 1, false, 0, 0, [], none, false, 0, 0, 0, 0⟩
      pmc := ⟨none, 5, 5, none, [], s.free⟩
      lmu := ⟨tabFill 32 ⟨0, 500, none, 1936, none⟩, none, [], 0, []⟩
      zli := ⟨tabFill 32 ⟨.linkLost, none, 1000, none, false⟩, List.replicate 32 0⟩
      free := s.free + 1
      pending := s.pending }

/-- RESET_PART (R188): either option is answered OK and the reset then waits; any other is refused with BAD_VALUE. It is
taken in FAILED as well. RESET_AFTER_RESPONSE (R188): the reset that RESET_PART chose is made once the response
store is empty. FULL leaves what power-on leaves, but for the cause; KEEP_PHRASES keeps phrase memory and the
fragment directory besides. Until then, and with no RESET_PART taken, nothing happens (log 34). -/
def Obligations.ResetPartIsAnsweredThenResets : Prop :=
  (∀ (s : State) (m : Message), s.mgi.commands.head? = some m → canExecute s = true → m.code = 0x04 →
     m.body.length = 1 →
     (byteAt m.body 0 = 1 → Answers .resetPartFull s m .ok [] { s with mgi := { s.mgi with resetWaiting := some .full } }) ∧
     (byteAt m.body 0 = 2 →
       Answers .resetPartKeepPhrases s m .ok [] { s with mgi := { s.mgi with resetWaiting := some .keepPhrases } }) ∧
     (byteAt m.body 0 ≠ 1 → byteAt m.body 0 ≠ 2 → Answers .resetPartBadOption s m .badValue [] s)) ∧
  (∀ (straps : Byte) (s : State),
     (s.mgi.resetWaiting = none → exec (.resetAfterResponse straps) s = .next s) ∧
     (s.tki.responses ≠ [] → exec (.resetAfterResponse straps) s = .next s) ∧
     (s.tki.responses = [] → s.mgi.resetWaiting = some .full → ∃ t, exec (.powerOnReset straps) s = .next t ∧
       exec (.resetAfterResponse straps) s = .next { t with mgi := ⟨.selfCheck, [], none, .resetFull, none⟩ }) ∧
     (s.tki.responses = [] → s.mgi.resetWaiting = some .keepPhrases → ∃ t, exec (.powerOnReset straps) s = .next t ∧
       exec (.resetAfterResponse straps) s = .next { t with
         mgi := ⟨.selfCheck, [], none, .resetKeepPhrases, none⟩
         sxe := { t.sxe with directory := s.sxe.directory }
         pmc := { t.pmc with memory := s.pmc.memory, epoch := s.pmc.epoch }
         free := s.free }))

/-- SELF_CHECK_END (R187): the part enters STANDBY on a pass and FAILED on a failure; the tables and stores hold their
reset values; the START_REPORT is the first entry of the empty FIFO; the clock, the level states, the links, the
counters and the mask stay, and the second phase begins at zero (R2). A result that cannot follow the reset changes
nothing (log 29). -/
def Obligations.SelfCheckEndsInStandbyOrFailed : Prop :=
  ∀ (r : SelfCheckResult) (s : State),
    ((s.mgi.partState ≠ .selfCheck ∨ resultFits s.mgi.cause r = false) → exec (.selfCheckEnd r) s = .next s) ∧
    (s.mgi.partState = .selfCheck → resultFits s.mgi.cause r = true →
      let report : StartReport := match r with
        | .pass => ⟨true, s.mgi.cause, 0, 0, 0⟩
        | .fail major minor parameter => ⟨false, s.mgi.cause, major, minor, parameter⟩
      exec (.selfCheckEnd r) s = .next { s with
        tki := { s.tki with
          reassembly := none, streams := tabFill 6 StreamBuffer.reset, flowQueue := [], monitorQueue := []
          responses := [], sentCells := none }
        mgi := { s.mgi with
          partState := if r = .pass then .standby else .failed, commands := [], report := some report }
        notices := { s.notices with fifo := [.startReport report s.tki.unitAddress] }
        sck := { s.sck with phase := 0 }
        crg := CallRegister.reset
        tru := TriggerUnit.reset
        sxe := { ScriptExpander.reset with
          directory := if s.mgi.cause = .resetKeepPhrases then s.sxe.directory else [] }
        apl := AnnouncementPool.reset
        zar := ZoneArbiter.reset
        pbc := channelsReset })

/-! ### Cells -/

/-- A downstream cell is dealt with in the order of R177: self-check, header check, destination, kind. -/
def Obligations.CellsAreCheckedAndPassedOn : Prop :=
  ∀ (cell : List Byte) (s : State), exec (.downstreamCell cell) s = .next (
    if s.mgi.partState = .selfCheck then count .selfCheckDiscards s
    else if (crc8 (cell.take 3)).toNat ≠ byteAt cell 3 then count .headerErrors s
    else if byteAt cell 0 ≠ s.tki.unitAddress.toNat ∧ byteAt cell 0 ≠ 255 then s
    else if byteAt cell 1 / 64 = 0 then
      if byteAt cell 1 / 4 % 16 < 6 then
        takeAudio (byteAt cell 1 / 4 % 16) (byteAt cell 2) (samplesOf (cell.drop 4)) s
      else count .invalidStream s
    else if byteAt cell 1 / 64 = 1 then
      if byteAt cell 1 / 4 % 16 < 4 then
        takeManagement (byteAt cell 1 / 4 % 16) (byteAt cell 2) (byteAt cell 0 == 255) (cell.drop 4) s
      else count .headerErrors s
    else if byteAt cell 1 / 64 = 2 then takeMark (be16 cell 4) (be32 cell 6) s
    else count .flowCells s)

/-- An audio cell joins its stream's buffer by its sequence number (R164): in sequence, skipped ahead by 1..127, or
late; a full buffer loses it. -/
def Obligations.AudioCellsJoinTheirStream : Prop :=
  ∀ (n seq : Nat) (samples : List Sample) (s : State) (b : StreamBuffer), tabGet s.tki.streams n = some b →
    (b.expected = none ∨ b.expected = some seq → b.cells.length < 8 → seq < 256 →
      takeAudio n seq samples s = count (.cells n) (s.updStream n fun _ =>
        { b with cells := b.cells ++ [samples], expected := some ((seq + 1) % 256), age := 0 })) ∧
    (b.expected = none ∨ b.expected = some seq → 8 ≤ b.cells.length → seq < 256 →
      takeAudio n seq samples s = count (.lost n) (count (.cells n) (s.updStream n fun _ =>
        { b with expected := some ((seq + 1) % 256), age := 0 }))) ∧
    (∀ e k, b.expected = some e → k = (seq + 256 - e) % 256 → 1 ≤ k → k ≤ 127 → b.cells.length < 8 →
      takeAudio n seq samples s = countBy (.lost n) k (count (.outOfSequence n) (count (.cells n)
        (s.updStream n fun _ => { b with
          cells := b.cells ++ List.replicate (min k (7 - b.cells.length)) (List.replicate 32 0) ++ [samples]
          expected := some ((seq + 1) % 256), age := 0 })))) ∧
    (∀ e k, b.expected = some e → k = (seq + 256 - e) % 256 → 1 ≤ k → k ≤ 127 → 8 ≤ b.cells.length →
      takeAudio n seq samples s = count (.lost n) (countBy (.lost n) k (count (.outOfSequence n) (count (.cells n)
        (s.updStream n fun _ => { b with expected := some ((seq + 1) % 256), age := 0 }))))) ∧
    ∀ e k, b.expected = some e → k = (seq + 256 - e) % 256 → 128 ≤ k →
      takeAudio n seq samples s = count (.outOfSequence n) (count (.cells n)
        (s.updStream n fun _ => { b with age := 0 }))

/-- What a time mark does to the clock (R5, R6, R8): out of range or for another day it is counted and ignored;
otherwise T, the phase, the mark age, the mark day and the freewheel flag follow it, a step of 3 s or more is noticed
and counted, the end of freewheel is noticed after it, and a change of T is handed on as FORWARD or BACKWARD. A mark
taken between the second at which the mark age became 60 and FREEWHEEL_ENTERED finds the flag set and the ENTERED notice
raised (log 13). -/
def Obligations.MarksSetTheClock : Prop :=
  ∀ (day m : Nat) (s : State),
    (day = 0 ∨ 107999 < m → takeMark day m s = count .marksOutOfRange s) ∧
    (day ≠ 0 → m ≤ 107999 → s.sck.day = .opened → s.sck.dayNumber ≠ some day →
      takeMark day m s = count .marksOtherDay s) ∧
    (∀ t d, day ≠ 0 → m ≤ 107999 → (s.sck.day = .opened → s.sck.dayNumber = some day) →
      s.sck.entering = some (t, d) → takeMark day m s = takeMark day m (raise (.freewheel true t 60 d)
        { s with sck := { s.sck with freewheel := true, entering := none } })) ∧
    (day ≠ 0 → m ≤ 107999 → (s.sck.day = .opened → s.sck.dayNumber = some day) → s.sck.entering = none →
      let stepped := s.sck.time + 3 ≤ m ∨ m + 3 ≤ s.sck.time
      let moved := if m = s.sck.time then s
        else handOn ⟨if s.sck.time < m then .forward else .backward, s.sck.time, m⟩ s
      let noted := if stepped then count .clockSteps (raise (.clockStep s.sck.dayNumber s.sck.time m) moved) else moved
      let left := if s.sck.freewheel then raise (.freewheel false m s.sck.markAge s.sck.dayNumber) noted else noted
      takeMark day m s = count .marksTaken { left with
        sck := { s.sck with time := m, phase := 0, markAge := 0, markDay := some day, freewheel := false } })

/-- Reassembly by segment position (R178), with 0 ONLY, 1 FIRST, 2 MIDDLE and 3 LAST (11.2); the check of a complete
message (R179); and the discard of a partial message whose cell age has passed 100 ms. -/
def Obligations.MessagesAreReassembled : Prop :=
  (∀ (seg seq : Nat) (broadcast : Bool) (payload : List Byte) (s : State), seg ≤ 3 →
    let emptied := { s with tki := { s.tki with reassembly := none } }
    let begun := fun u : State => { u with tki := { u.tki with
      reassembly := some ⟨payload, (seq + 1) % 256, broadcast, 0⟩ } }
    (s.tki.reassembly = none →
      takeManagement seg seq broadcast payload s =
        if seg = 0 then completeMessage broadcast payload s
        else if seg = 1 then begun s
        else count .reassemblyDiscards s) ∧
    ∀ r, s.tki.reassembly = some r →
      takeManagement seg seq broadcast payload s =
        if seg = 0 then completeMessage broadcast payload (count .reassemblyDiscards emptied)
        else if seg = 1 then begun (count .reassemblyDiscards emptied)
        else if r.nextSeq = seq ∧ r.broadcast = broadcast ∧ r.data.length < 1024 then
          if seg = 3 then completeMessage broadcast (r.data ++ payload) emptied
          else { s with tki := { s.tki with
            reassembly := some ⟨r.data ++ payload, (seq + 1) % 256, broadcast, 0⟩ } }
        else count .reassemblyDiscards emptied) ∧
  (∀ (broadcast : Bool) (data : List Byte) (s : State),
    completeMessage broadcast data s =
      if be16 data 0 < 8 ∨ be16 data 0 + 64 ≤ data.length ∨ data.length < be16 data 0 then
        count .reassemblyDiscards s
      else if broadcast = true ∧ byteAt (data.take (be16 data 0)) 2 ∉ [0x53, 0x54, 0x58] then count .broadcastIgnored s
      else offerMessage ⟨data.take (be16 data 0), broadcast⟩ s) ∧
  ∀ s : State,
    (s.tki.reassembly = none → exec .reassemblyTimeout s = .next s) ∧
    ∀ r, s.tki.reassembly = some r → exec .reassemblyTimeout s = .next (
      if 100 < r.age then count .reassemblyDiscards { s with tki := { s.tki with reassembly := none } } else s)

/-- What the link sends next, in the order of R183: a flow cell, a monitor cell, the next cell of the oldest response,
the notice at the head of the FIFO; and what leaves with it. -/
def Obligations.UpstreamSendsInOrder : Prop :=
  ∀ s : State,
    (∀ f rest, s.tki.flowQueue = f :: rest → exec .upstreamSend s = .next { s with tki := { s.tki with
      flowQueue := rest, flowSeq := (s.tki.flowSeq + 1) % 256
      trunkOut := some (cellBytes s.tki.unitAddress 3 f.code s.tki.flowSeq []) } }) ∧
    (s.tki.flowQueue = [] →
      (∀ c rest, s.tki.monitorQueue = c :: rest → exec .upstreamSend s = .next { s with tki := { s.tki with
        monitorQueue := rest
        trunkOut := some (cellBytes s.tki.unitAddress 0 6 c.seq (c.samples.flatMap fun x => w16 x.toNat)) } }) ∧
      (s.tki.monitorQueue = [] →
        (∀ r rest, s.tki.responses = r :: rest →
          let k := s.tki.sentCells.getD 0
          exec .upstreamSend s = .next { s with tki := { s.tki with
            responses := if k + 1 < cellCount r then r :: rest else rest
            sentCells := if k + 1 < cellCount r then some (k + 1) else none
            mgmtSeq := (s.tki.mgmtSeq + 1) % 256
            trunkOut := some (cellBytes s.tki.unitAddress 1 (segmentOf k (cellCount r)) s.tki.mgmtSeq
              (cellPayload r k)) } }) ∧
        (s.tki.responses = [] →
          (∀ n rest, s.notices.fifo = n :: rest → exec .upstreamSend s = .next { s with
            notices := { s.notices with fifo := rest }
            tki := { s.tki with
              mgmtSeq := (s.tki.mgmtSeq + 1) % 256
              trunkOut := some (cellBytes s.tki.unitAddress 1 (segmentOf 0 (cellCount (noticeBytes n)))
                s.tki.mgmtSeq (cellPayload (noticeBytes n) 0)) } }) ∧
          (s.notices.fifo = [] → exec .upstreamSend s = .next s))))

/-! ### Station time -/

/-- SECOND_ELAPSES and FREEWHEEL_ENTERED (R2, R3, R8): T advances below 107,999 and holds there; the first second held
in an open day is noticed; each second grows the mark age up to 65,535 and is handed on as an ADVANCE. The second at
which the mark age becomes 60 with the flag clear fixes T and the day number of the ENTERED notice, and FREEWHEEL_ENTERED
sets the flag and raises it; that this is a step of its own is the model's choice (log 13). What handing on a change of T leaves (R4, log 6): the
change waits at the three blocks, the calls whose retention and the records whose hold timeout or expiry the new T
has reached are noted, and nothing else changes. -/
def Obligations.SecondsAdvanceTheClock : Prop :=
  (∀ s : State,
     (s.mgi.partState = .selfCheck →
       exec .secondElapses s = .next s ∧ exec .freewheelEntered s = .next s) ∧
     (s.mgi.partState ≠ .selfCheck →
       let now := if s.sck.time < 107999 then s.sck.time + 1 else s.sck.time
       let ticked := { s.sck with
         phase := 0, markAge := min (s.sck.markAge + 1) 65535, time := now
         entering := if s.sck.markAge = 59 ∧ s.sck.freewheel = false then some (now, s.sck.dayNumber)
           else s.sck.entering }
       (s.sck.time < 107999 → exec .secondElapses s = .next
         (handOn ⟨.advance, s.sck.time, now⟩ { s with sck := ticked })) ∧
       (107999 ≤ s.sck.time → exec .secondElapses s = .next
         (handOn ⟨.advance, s.sck.time, now⟩
           (if s.sck.day = .opened ∧ s.sck.overrun = false then
             raise (.dayOverrun s.sck.dayNumber s.sck.time) { s with sck := { ticked with overrun := true } }
           else { s with sck := ticked }))) ∧
       (∀ t day, s.sck.entering = some (t, day) → exec .freewheelEntered s = .next
         (raise (.freewheel true t 60 day)
           { s with sck := { s.sck with freewheel := true, entering := none } })) ∧
       (s.sck.entering = none → exec .freewheelEntered s = .next s))) ∧
  (∀ (ch : TimeChange) (s : State), ∃ slots holds expiries,
     handOn ch s = { s with
       crg := { s.crg with changes := s.crg.changes ++ [ch], retentionDue := slots }
       tru := { s.tru with changes := s.tru.changes ++ [ch] }
       apl := { s.apl with changes := s.apl.changes ++ [ch], holdDue := holds, expiryDue := expiries } } ∧
     (∀ slot, slot ∈ slots ↔
       slot ∈ s.crg.retentionDue ∨ ∃ c, (slot, c) ∈ s.crg.calls ∧ c.retained ch.new = true) ∧
     (∀ id, id ∈ holds ↔ id ∈ s.apl.holdDue ∨ ∃ r ∈ s.apl.records, r.annId = id ∧ r.holdOver ch.new = true) ∧
     ∀ id, id ∈ expiries ↔ id ∈ s.apl.expiryDue ∨ ∃ r ∈ s.apl.records, r.annId = id ∧ r.expired ch.new = true)

/-- OPEN_DAY (R9): BAD_STATE in RUNNING, BAD_VALUE for a field out of range, otherwise the day opens; the mark age, the
mark day, the freewheel flag and the second phase stay. CLOSE_DAY (R10, R40, R64, R109): NOT_RUNNING in STANDBY; in
RUNNING the clock keeps all but the day state and the day number, the call table and the retry set are empty, the
pattern, plan and script tables stay, and the records of the pool that have a call are gone while those without one
stay as they are. -/
def Obligations.TheDayOpensAndCloses : Prop :=
  (∀ (s : State) (m : Message), AtHead s m 0x10 7 →
     let day := be16 m.body 0
     let hour := byteAt m.body 2
     let start := be32 m.body 3
     (s.mgi.partState = .running → Answers .openDay s m .badState [] s) ∧
     (s.mgi.partState ≠ .running → day = 0 ∨ 23 < hour ∨ 107999 < start → Answers .openDay s m .badValue [] s) ∧
     (s.mgi.partState ≠ .running → day ≠ 0 → hour ≤ 23 → start ≤ 107999 →
       let opened := { s with
         sck := { s.sck with
           day := .opened, dayNumber := some day, originHour := hour, overrun := false, time := start }
         mgi := { s.mgi with partState := .running } }
       Answers .openDay s m .ok [] (if start = s.sck.time then opened
         else handOn ⟨if s.sck.time < start then .forward else .backward, s.sck.time, start⟩ opened))) ∧
  (∀ (s : State) (m : Message), AtHead s m 0x11 0 →
     (s.mgi.partState ≠ .running → Answers .closeDay s m .notRunning [] s) ∧
     (s.mgi.partState = .running → PoolSound s.apl → ∃ t, Answers .closeDay s m .ok [] t ∧
       t.sck = { s.sck with day := .noDay, dayNumber := none } ∧
       t.mgi = { s.mgi with partState := .standby } ∧ t.tki = s.tki ∧
       t.crg.calls = [] ∧ t.crg.patterns = s.crg.patterns ∧ t.tru.retry = [] ∧ t.tru.plans = s.tru.plans ∧
       t.sxe = s.sxe ∧ t.pmc = s.pmc ∧ t.zli = s.zli ∧
       t.apl.records = s.apl.records.filter (fun r => r.ask.call.isNone) ∧
       t.apl.lastId = s.apl.lastId ∧ t.apl.counter = s.apl.counter))

/-! ### Loading and reporting tables -/

/-- The entries of a load are taken one at a time, each against the state the earlier ones left, and the first that
fails stops the load: the count is the number taken, and the state is the one those entries left (R20, R36, R43,
R68, R69, R71, R112). An entry taken into a table replaces what the table held at its index, a marker makes the
entry not loaded, every other entry and every other block stays, and reading it back gives the entry (R36, R43, R66,
R69, R71, R114, R115). -/
def Obligations.TakenEntriesReadBack : Prop :=
  (∀ (take : Nat → List Byte → State → Status × State) (i n : Nat) (entries : List (List Byte)) (s : State),
     ∃ k, k ≤ entries.length ∧
       (loadEntries take i n entries s).2 = (n + k, afterEntries take i (entries.take k) s) ∧
       (∀ j, j < k → (take (i + j) (entries.getD j []) (afterEntries take i (entries.take j) s)).1 = .ok) ∧
       (k = entries.length → (loadEntries take i n entries s).1 = .ok) ∧
       (k < entries.length → (loadEntries take i n entries s).1 ≠ .ok ∧
         (take (i + k) (entries.getD k []) (afterEntries take i (entries.take k) s)).1 =
           (loadEntries take i n entries s).1)) ∧
  (∀ (s : State) (i j : Nat),
     (∀ v, tabRising s.crg.patterns = true →
       tabGet (putPattern i v s).crg.patterns j = (if j = i then v else tabGet s.crg.patterns j) ∧
       { putPattern i v s with crg := { (putPattern i v s).crg with patterns := s.crg.patterns } } = s) ∧
     (∀ v, tabRising s.tru.plans = true →
       tabGet (putPlan i v s).tru.plans j = (if j = i then v else tabGet s.tru.plans j) ∧
       { putPlan i v s with tru := { (putPlan i v s).tru with plans := s.tru.plans } } = s) ∧
     (∀ v, tabRising s.sxe.scripts = true →
       tabGet (putScript i v s).sxe.scripts j = (if j = i then v else tabGet s.sxe.scripts j) ∧
       { putScript i v s with sxe := { (putScript i v s).sxe with scripts := s.sxe.scripts } } = s) ∧
     (∀ v, tabRising s.sxe.numbers = true →
       tabGet (putNumber i v s).sxe.numbers j = (if j = i then v else tabGet s.sxe.numbers j) ∧
       { putNumber i v s with sxe := { (putNumber i v s).sxe with numbers := s.sxe.numbers } } = s) ∧
     (∀ d, tabRising s.sxe.directory = true →
       dirEntry (putDir i d s).sxe j = (if j = i then d else dirEntry s.sxe j) ∧
       { putDir i d s with sxe := { (putDir i d s).sxe with directory := s.sxe.directory } } = s) ∧
     (∀ zones, tabRising s.zar.platforms = true →
       platformZones (putPlatform i zones s) j = (if j = i then zones else platformZones s j) ∧
       { putPlatform i zones s with
         zar := { (putPlatform i zones s).zar with platforms := s.zar.platforms } } = s) ∧
     ∀ e, tabGet (putGroup i e s).zar.groups j = (if j = i then some e else tabGet s.zar.groups j) ∧
       { putGroup i e s with zar := { (putGroup i e s).zar with groups := s.zar.groups } } = s)

/-- LOAD_PATTERNS, LOAD_PLANS, LOAD_SCRIPTS, LOAD_NUMBERS, LOAD_FRAGMENTS, LOAD_PLATFORM_MAP and LOAD_GROUPS: a length
that does not fit is BAD_LENGTH; a count of 0 is BAD_VALUE, indexes out of range are BAD_INDEX, each with the loaded
count 0; otherwise the entries are taken; a load of the zone maps that takes an entry causes a pass (R36, R43, R68,
R69, R71, R114, R115). Then, for each kind of entry, which bytes are refused, and so stop the load with BAD_VALUE, and what
the others make, field by field: a selector, a pattern entry (R36), a plan step and a plan entry (R42, R43), an item and
a script entry with its needs-call flag (R66, R67, R68), a number entry (R69) and a directory entry (R71). That bits 6 and
7 of a step's valid states are ignored is the model's inference (log 37). -/
def Obligations.TableLoadsAreAnswered : Prop :=
  (∀ (s : State) (m : Message),
    let b := m.body
    let answers := fun (i : Instr) (r : Status × Nat × State) => Answers i s m r.1 (w16 r.2.1) r.2.2
    let bad := fun (i : Instr) => Answers i s m .badLength (w16 0) s
    let mapped := fun (i : Instr) (r : Status × Nat × State) =>
      Answers i s m r.1 (w16 r.2.1) (if r.2.1 = 0 then r.2.2 else causePass r.2.2)
    (Ready s m 0x24 → if byteCounted 8 patternSize b then
      answers .loadPatterns (loadAnswer (byteAt b 0) (byteAt b 1) 0 255 (byteEntries patternSize b)
        (takeParsed parsePattern putPattern) s) else bad .loadPatterns) ∧
    (Ready s m 0x30 → if byteCounted 4 planSize b then
      answers .loadPlans (loadAnswer (byteAt b 0) (byteAt b 1) 0 63 (byteEntries planSize b)
        (takeParsed parsePlan putPlan) s) else bad .loadPlans) ∧
    (Ready s m 0x40 → if byteCounted 8 scriptSize b then
      answers .loadScripts (loadAnswer (byteAt b 0) (byteAt b 1) 0 255 (byteEntries scriptSize b)
        (takeParsed parseScript putScript) s) else bad .loadScripts) ∧
    (Ready s m 0x41 → if wordCounted 65535 2 b then
      answers .loadNumbers (loadAnswer (be16 b 0) (be16 b 2) 0 201 (wordEntries 2 b)
        (takeParsed parseNumber putNumber) s) else bad .loadNumbers) ∧
    (Ready s m 0x42 → if wordCounted 64 12 b then
      answers .loadFragments (loadAnswer (be16 b 0) (be16 b 2) 0 4095 (wordEntries 12 b)
        (takeParsed parseDir putDir) s) else bad .loadFragments) ∧
    (Ready s m 0x61 → if byteCounted 255 (fun _ => 4) b then
      mapped .loadPlatformMap (loadAnswer (byteAt b 0) (byteAt b 1) 1 40 (byteEntries (fun _ => 4) b)
        (takeParsed (fun e => some (BitVec.ofNat 32 (be32 e 0))) putPlatform) s) else bad .loadPlatformMap) ∧
    (Ready s m 0x62 → if byteCounted 255 (fun _ => 2) b then
      mapped .loadGroups (loadAnswer (byteAt b 0) (byteAt b 1) 0 15 (byteEntries (fun _ => 2) b)
        (takeParsed (fun e => some ⟨e.getD 0 0, e.getD 1 0⟩) putGroup) s) else bad .loadGroups)) ∧
  (∀ e : List Byte,
    let operand := byteAt e 1
    (byteAt e 0 = 0 → (be32 e 2 = 0 → parseSelector e = none) ∧
      (be32 e 2 ≠ 0 → parseSelector e = some (.explicit (BitVec.ofNat 32 (be32 e 2))))) ∧
    (byteAt e 0 = 1 → parseSelector e = if 1 ≤ operand ∧ operand ≤ 40 then some (.platform operand) else none) ∧
    (byteAt e 0 = 2 → parseSelector e = some .callPlatform) ∧
    (byteAt e 0 = 3 → parseSelector e = if operand ≤ 15 then some (.group operand) else none) ∧
    (byteAt e 0 = 4 → parseSelector e = if operand ≤ 15 then some (.callPlatformAndGroup operand) else none) ∧
    (byteAt e 0 = 5 → parseSelector e = some .all) ∧
    (5 < byteAt e 0 → parseSelector e = none)) ∧
  (∀ e : List Byte,
    let places := (List.range (byteAt e 1)).map fun k => be16 e (2 + 2 * k)
    (byteAt e 0 = 0 → parsePattern e = some none) ∧
    (byteAt e 0 = 1 → byteAt e 1 ≤ 24 → (∀ p ∈ places, p ≤ 4095) → parsePattern e = some (some places)) ∧
    (1 < byteAt e 0 ∨ (byteAt e 0 = 1 ∧ (24 < byteAt e 1 ∨ ∃ p ∈ places, 4095 < p)) → parsePattern e = none)) ∧
  (∀ e : List Byte,
    let lead := be16 e 2
    let minDelay := be16 e 4
    let unled := lead = 0 ∧ minDelay = 0
    let fits :=
      ((byteAt e 0 = 0 ∧ lead ≤ 7200 ∧ minDelay = 0) ∨ (byteAt e 0 = 1 ∧ lead ≤ 7200 ∧ minDelay ≤ 21600) ∨
        (byteAt e 0 = 2 ∧ 2 ≤ byteAt e 1 ∧ byteAt e 1 ≤ 6 ∧ unled) ∨
        ((byteAt e 0 = 3 ∨ byteAt e 0 = 4) ∧ unled) ∨
        (byteAt e 0 = 5 ∧ 60 ≤ lead ∧ lead ≤ 1800 ∧ minDelay = 0)) ∧
      byteAt e 6 ≤ 3 ∧ (∃ k, k < 6 ∧ flagAt e 7 k = true) ∧ 30 ≤ be16 e 8 ∧ be16 e 8 ≤ 1800 ∧ byteAt e 10 ≤ 7 ∧
      60 ≤ be16 e 12 ∧ be16 e 12 ≤ 1800 ∧ byteAt e 15 ≤ 3 ∧ (parseSelector (e.drop 16)).isSome = true ∧
      byteAt e 22 ≤ 1 ∧ byteAt e 23 ≤ 2 ∧ 5 ≤ be16 e 24 ∧ be16 e 24 ≤ 600 ∧ byteAt e 26 ≤ 1
    (¬fits → parseStep e = none) ∧
    (fits → ∃ p, parseStep e = some p ∧
      (byteAt e 0 = 0 → p.anchor = .expectedLead) ∧ (byteAt e 0 = 1 → p.anchor = .scheduledLead) ∧
      (∀ st : CallState, byteAt e 0 = 2 → st.code = byteAt e 1 → p.anchor = .onState st) ∧
      (byteAt e 0 = 3 → p.anchor = .onPlatformSet) ∧ (byteAt e 0 = 4 → p.anchor = .onPlatformChange) ∧
      (byteAt e 0 = 5 → p.anchor = .onDelayChange) ∧
      p.lead = lead ∧ p.minDelay = minDelay ∧ p.group = byteAt e 6 ∧
      (∀ k, k < 6 → p.valid.getLsbD k = flagAt e 7 k) ∧ p.window = be16 e 8 ∧ p.repeats = byteAt e 10 ∧
      p.residual = flagAt e 11 0 ∧ p.restartable = flagAt e 11 1 ∧ p.repeatInterval = be16 e 12 ∧
      p.script = byteAt e 14 ∧ p.cls = byteAt e 15 ∧ parseSelector (e.drop 16) = some p.selector ∧
      p.policy.code = byteAt e 22 ∧ p.confirm.code = byteAt e 23 ∧ p.confirmTimeout = be16 e 24 ∧
      p.timeoutPolicy.code = byteAt e 26)) ∧
  (∀ e : List Byte,
    let n := byteAt e 1
    let parts := (List.range n).map fun k => (e.drop (4 + 28 * k)).take 28
    (byteAt e 0 = 0 → parsePlan e = some none) ∧
    (1 < byteAt e 0 ∨ (byteAt e 0 = 1 ∧ (n = 0 ∨ 8 < n ∨ 3600 < be16 e 2)) → parsePlan e = none) ∧
    (byteAt e 0 = 1 → 1 ≤ n → n ≤ 8 → be16 e 2 ≤ 3600 → e.length = 4 + 28 * n →
      ((∃ x ∈ parts, parseStep x = none) → parsePlan e = none) ∧
      ∀ steps, parts.map parseStep = steps.map some → parsePlan e = some (some ⟨be16 e 2, steps⟩))) ∧
  (∀ e : List Byte,
    let id := be16 e 1
    (byteAt e 0 = 0 → parseItem e = if id ≤ 4095 then some (.fragment id) else none) ∧
    (byteAt e 0 = 1 → parseItem e =
      if id ≤ 4095 ∧ 1 ≤ byteAt e 3 ∧ byteAt e 3 ≤ 16 then some (.chime id (byteAt e 3)) else none) ∧
    (byteAt e 0 = 2 → parseItem e = if 10 ≤ id ∧ id ≤ 2000 then some (.gap id) else none) ∧
    (byteAt e 0 = 3 → parseItem e = some .place) ∧ (byteAt e 0 = 4 → parseItem e = some .platform) ∧
    (byteAt e 0 = 5 → parseItem e = if byteAt e 1 ≤ 1 then some (.time (byteAt e 1 == 1)) else none) ∧
    (byteAt e 0 = 6 → parseItem e = some .delay) ∧ (byteAt e 0 = 7 → parseItem e = some .calling) ∧
    (7 < byteAt e 0 → parseItem e = none)) ∧
  (∀ e : List Byte,
    let n := byteAt e 1
    let parts := (List.range n).map fun k => (e.drop (2 + 4 * k)).take 4
    (byteAt e 0 = 0 → parseScript e = some none) ∧
    (1 < byteAt e 0 ∨ (byteAt e 0 = 1 ∧ (n = 0 ∨ 24 < n)) → parseScript e = none) ∧
    (byteAt e 0 = 1 → 1 ≤ n → n ≤ 24 → e.length = 2 + 4 * n →
      ((∃ x ∈ parts, parseItem x = none) → parseScript e = none) ∧
      ∀ items, parts.map parseItem = items.map some → ∃ sc, parseScript e = some (some sc) ∧ sc.items = items ∧
        (sc.needsCall = true ↔ ∃ x ∈ items,
          x = .place ∨ x = .platform ∨ (∃ k, x = .time k) ∨ x = .delay ∨ x = .calling))) ∧
  (∀ e : List Byte,
    let id := be16 e 0
    (id ≤ 4095 → parseNumber e = some (some id)) ∧ (id = 65535 → parseNumber e = some none) ∧
    (4095 < id → id ≠ 65535 → parseNumber e = none)) ∧
  ∀ e : List Byte,
    let address := be32 e 0
    let length := be32 e 4
    let trim := signed8 e 8
    (address < 33554432 → length ≤ 1048575 → address + length ≤ 33554432 → -48 ≤ trim → trim ≤ 24 →
      parseDir e = some ⟨address, length, trim⟩) ∧
    (33554432 ≤ address ∨ 1048575 < length ∨ 33554432 < address + length ∨ trim < -48 ∨ 24 < trim →
      parseDir e = none)

/-- The commands that read answer with what they report and change nothing but the queue: READ_STATUS in any part
state, the others outside FAILED; READ_STATS sets every counter to 0 in the same act when its clear flag is set (R13,
R37, R38, R44, R72, R110, R116, R153, R168, R176, R185, R189). The layout of the bodies where R192 leaves more than
one reading is the model's (log 20), and so are the two READ_CALL bodies that report no call (log 23). -/
def Obligations.ReadsReportAndChangeNothing : Prop :=
  ∀ (s : State) (m : Message),
    let b := m.body
    let range := fun (i : Instr) (first count hi : Nat) (body : List Byte) =>
      if count = 0 then Answers i s m .badValue [] s
      else if hi < first + count - 1 then Answers i s m .badIndex [] s
      else Answers i s m .ok body s
    (s.mgi.commands.head? = some m → canExecute s = true → m.code = 0x01 → b.length = 0 →
      Answers .readStatus s m .ok (statusBody s) s) ∧
    (AtHead s m 0x02 1 →
      Answers .readStats s m .ok (statsBody s) (if flagAt b 0 0 then { s with stats := [] } else s)) ∧
    (AtHead s m 0x23 4 →
      (byteAt b 0 = 0 → if be24 b 1 = 0 then Answers .readCall s m .badValue [] s
        else match findRef s.crg.calls (be24 b 1) with
          | some (_, c) => Answers .readCall s m .ok (callBytes c) s
          | none => Answers .readCall s m .noSuchCall (w16 65535) s) ∧
      (byteAt b 0 = 1 → if 511 < be16 b 2 then Answers .readCall s m .badIndex [] s
        else match s.callAt (be16 b 2) with
          | some c => Answers .readCall s m .ok (callBytes c) s
          | none => Answers .readCall s m .ok [0#8] s) ∧
      (1 < byteAt b 0 → Answers .readCall s m .badValue [] s)) ∧
    (AtHead s m 0x25 1 → Answers .readPattern s m .ok (patternBytes (tabGet s.crg.patterns (byteAt b 0))) s) ∧
    (AtHead s m 0x31 1 → if 63 < byteAt b 0 then Answers .readPlan s m .badIndex [] s
      else Answers .readPlan s m .ok (planBytes (tabGet s.tru.plans (byteAt b 0))) s) ∧
    (AtHead s m 0x43 1 → Answers .readScript s m .ok (scriptBytes (tabGet s.sxe.scripts (byteAt b 0))) s) ∧
    (AtHead s m 0x44 4 → range .readNumbers (be16 b 0) (be16 b 2) 201
      ((indexesFrom (be16 b 0) (be16 b 2)).flatMap fun i => numberBytes (tabGet s.sxe.numbers i))) ∧
    (AtHead s m 0x45 4 → if be16 b 2 ≤ 64 then range .readFragments (be16 b 0) (be16 b 2) 4095
        ((indexesFrom (be16 b 0) (be16 b 2)).flatMap fun i => dirBytes (dirEntry s.sxe i))
      else Answers .readFragments s m .badLength [] s) ∧
    (AtHead s m 0x59 2 → match s.named (be16 b 0) with
      | some r => Answers .readAnnouncement s m .ok (annBytes r) s
      | none => Answers .readAnnouncement s m .noSuchAnn [] s) ∧
    (AtHead s m 0x5A 0 → Answers .readPool s m .ok (poolBody s) s) ∧
    (AtHead s m 0x63 2 → range .readZones (byteAt b 0) (byteAt b 1) 31
      ((indexesFrom (byteAt b 0) (byteAt b 1)).flatMap (zoneReport s))) ∧
    (AtHead s m 0x64 0 → Answers .readMaps s m .ok (mapsBody s) s) ∧
    (AtHead s m 0x71 1 → if 5 < byteAt b 0 then Answers .readChannel s m .badIndex [] s
      else Answers .readChannel s m .ok (channelBody (s.channel (byteAt b 0))) s) ∧
    (AtHead s m 0x81 2 → range .readLevels (byteAt b 0) (byteAt b 1) 31 (levelsBody s (byteAt b 0) (byteAt b 1))) ∧
    (AtHead s m 0x90 2 → range .readLink (byteAt b 0) (byteAt b 1) 31
      ((indexesFrom (byteAt b 0) (byteAt b 1)).flatMap (linkReport s)))

/-! ### The Call Register -/

/-- LOAD_CALLS (R18 to R23): NOT_RUNNING outside RUNNING, the whole-command checks, then the entries. That a count of 33
or more is BAD_LENGTH ahead of NOT_RUNNING, and that NOT_RUNNING carries no loaded count, is the model's inference (log
26). An entry refused
for its values, a busy slot or a call_ref another slot holds is answered so and changes nothing; an entry taken stands
in its slot in PLANNED with every step ARMED at its E, or in DUE at once when it is due, LOADED and then any state entry
are passed, CALL_REMOVED for a call loaded over, and no other slot changes. Which entries check 1 of R20 refuses, and the
fields that the bytes of the others make (R20, R21). -/
def Obligations.LoadedCallsTakeTheirSlots : Prop :=
  (∀ (s : State) (m : Message), Ready s m 0x20 →
    if wordCounted 32 20 m.body then
      if s.mgi.partState = .running then
        let r := loadAnswer (be16 m.body 0) (be16 m.body 2) 0 511 (wordEntries 20 m.body) takeCallEntry s
        Answers .loadCalls s m r.1 (w16 r.2.1) r.2.2
      else Answers .loadCalls s m .notRunning [] s
    else Answers .loadCalls s m .badLength (w16 0) s) ∧
  (∀ (plans : Tab Plan) (t : Nat) (b : List Byte),
    let fits := 1 ≤ be24 b 0 ∧ byteAt b 3 ≤ 2 ∧ (tabGet plans (byteAt b 4)).isSome = true ∧ byteAt b 5 ≤ 40 ∧
      (byteAt b 5 = 0 → flagAt b 6 0 = false) ∧ be32 b 8 ≤ 107999 ∧ be16 b 16 ≤ 4095
    (¬fits → parseCallEntry plans t b = none) ∧
    (fits → ∃ c, parseCallEntry plans t b = some c ∧ c.callRef = be24 b 0 ∧ c.kind.code = byteAt b 3 ∧
      c.plan = byteAt b 4 ∧ c.platform = byteAt b 5 ∧ c.provisional = flagAt b 6 0 ∧ c.sched = be32 b 8 ∧
      c.place = be16 b 16 ∧ c.pattern = if flagAt b 6 1 then some (byteAt b 7) else none)) ∧
  ∀ (slot : Nat) (b : List Byte) (s : State), tabRising s.crg.calls = true →
    (parseCallEntry s.tru.plans s.sck.time b = none → takeCallEntry slot b s = (.badValue, s)) ∧
    ∀ c, parseCallEntry s.tru.plans s.sck.time b = some c →
      (c.state = .planned ∧ c.stateSince = s.sck.time ∧ c.retainUntil = none ∧ c.callRef = be24 b 0 ∧
        c.delay = clampDelay (signed32 b 12) ∧ c.expected = expectedTime c.sched c.delay ∧
        c.steps = List.replicate 8 ⟨.armed, c.expected⟩) ∧
      ((∃ old, s.callAt slot = some old ∧ old.state ≠ .finished ∧ old.state ≠ .cancelled) →
        takeCallEntry slot b s = (.slotBusy, s)) ∧
      ((∀ old, s.callAt slot = some old → old.state = .finished ∨ old.state = .cancelled) →
        ((∃ p ∈ s.crg.calls, p.1 ≠ slot ∧ p.2.callRef = c.callRef) → takeCallEntry slot b s = (.duplicateRef, s)) ∧
        ((∀ p ∈ s.crg.calls, p.1 ≠ slot → p.2.callRef ≠ c.callRef) → ∃ t, takeCallEntry slot b s = (.ok, t) ∧
          let due := isDue s.tru.plans s.sck.time c
          let c' := if due then { c with state := .due } else c
          t.callAt slot = some c' ∧
          (∀ other, other ≠ slot → t.callAt other = s.callAt other) ∧
          t.tru = { s.tru with events := s.tru.events ++ [⟨slot, c.callRef, ⟨.loaded, c'⟩⟩] ++
            if due then [⟨slot, c.callRef, ⟨.stateEntry .due, c'⟩⟩] else [] } ∧
          t.apl = { s.apl with events := s.apl.events ++
            (match s.callAt slot with
              | some old => [⟨slot, old.callRef, .callRemoved⟩]
              | none => []) } ∧
          t.crg.patterns = s.crg.patterns ∧ { t with crg := s.crg, tru := s.tru, apl := s.apl } = s))

/-- UPDATE_CALL ARRIVED, DEPARTING, GONE and CANCEL in each call state (R25 to R28 and the table of 2.4): what is
written, what is passed to the Trigger Unit and to the pool, and what is answered. -/
def Obligations.CallsFollowTheirReports : Prop :=
  ∀ (s : State) (m : Message) (slot : Nat) (c : CallRec), tabRising s.crg.calls = true →
    let body := fun c : CallRec => w16 slot ++ w8 c.state.code ++ w32 c.expected
    let until_ := min (s.sck.time + 600) 107999
    let same := fun (i : Instr) (st : Status) => Answers i s m st (body c) s
    let moved := fun (i : Instr) (c' : CallRec) (pool : List PoolEvent) =>
      Answers i s m .ok (body c') (withCall slot c' [.stateEntry c'.state] pool s)
    (Names s m 0 slot c →
      (c.state = .planned ∨ c.state = .due →
        (c.platform = 0 → same .updateCallArrived .badState) ∧
        (c.platform ≠ 0 → moved .updateCallArrived
          { c with provisional := false, state := .atPlatform, stateSince := s.sck.time }
          (if c.provisional then [.provisionalCleared] else []))) ∧
      (c.state = .atPlatform → same .updateCallArrived .ok) ∧
      (c.state = .departing ∨ c.state = .finished ∨ c.state = .cancelled → same .updateCallArrived .badState)) ∧
    (Names s m 1 slot c →
      (c.kind ≠ .arrival → c.state = .atPlatform → moved .updateCallDeparting
        { c with state := .departing, stateSince := s.sck.time } []) ∧
      (c.kind ≠ .arrival → c.state = .departing → same .updateCallDeparting .ok) ∧
      (c.kind = .arrival ∨ (c.state ≠ .atPlatform ∧ c.state ≠ .departing) → same .updateCallDeparting .badState)) ∧
    (Names s m 2 slot c →
      (c.state = .atPlatform ∨ c.state = .departing → moved .updateCallGone
        { c with state := .finished, stateSince := s.sck.time, retainUntil := some until_ } []) ∧
      (c.state = .finished → same .updateCallGone .ok) ∧
      (c.state = .planned ∨ c.state = .due ∨ c.state = .cancelled → same .updateCallGone .badState)) ∧
    (Names s m 3 slot c →
      (c.state ≠ .finished → c.state ≠ .cancelled → moved .updateCallCancel
        { c with state := .cancelled, stateSince := s.sck.time, retainUntil := some until_ } [.cancelled]) ∧
      (c.state = .cancelled → same .updateCallCancel .ok) ∧
      (c.state = .finished → same .updateCallCancel .badState))

/-- UPDATE_CALL DELAY and PLATFORM (R17, R29, R30, R31): the delay is clamped and E recomputed, a change is passed with
both values of E and may make a PLANNED call due; a platform is taken in PLANNED and DUE only, and the events passed are
those of R31's table. -/
def Obligations.DelaysAndPlatformsAreTaken : Prop :=
  ∀ (s : State) (m : Message) (slot : Nat) (c : CallRec), tabRising s.crg.calls = true →
    let body := fun c : CallRec => w16 slot ++ w8 c.state.code ++ w32 c.expected
    (Names s m 4 slot c →
      let d := clampDelay (signed32 m.body 4)
      let e := expectedTime c.sched d
      let c' := { c with delay := d, expected := e }
      (c.state = .finished ∨ c.state = .cancelled → Answers .updateCallDelay s m .badState (body c) s) ∧
      (c.state ≠ .finished → c.state ≠ .cancelled → d = c.delay → Answers .updateCallDelay s m .ok (body c) s) ∧
      (c.state ≠ .finished → c.state ≠ .cancelled → d ≠ c.delay →
        if isDue s.tru.plans s.sck.time c' then
          let c'' := { c' with state := .due, stateSince := s.sck.time }
          Answers .updateCallDelay s m .ok (body c'')
            (withCall slot c'' [.delayChange c.expected e, .stateEntry .due] [] s)
        else Answers .updateCallDelay s m .ok (body c') (withCall slot c' [.delayChange c.expected e] [] s))) ∧
    (Names s m 5 slot c →
      let p := byteAt m.body 4
      let flag := flagAt m.body 5 0
      let c' := { c with platform := p, provisional := flag }
      (40 < p ∨ (p = 0 ∧ flag = true) → Answers .updateCallPlatform s m .badValue (body c) s) ∧
      (p ≤ 40 → (p = 0 → flag = false) → c.state ≠ .planned → c.state ≠ .due →
        Answers .updateCallPlatform s m .badState (body c) s) ∧
      (p ≤ 40 → (p = 0 → flag = false) → c.state = .planned ∨ c.state = .due →
        Answers .updateCallPlatform s m .ok (body c') (withCall slot c'
          (if p = c.platform then [] else if c.platform = 0 then [.platformSet p]
            else if p = 0 then [.platformCleared c.platform] else [.platformChange c.platform p])
          ((if p = c.platform then [] else [.platformMoved c.platform p]) ++
            if c.provisional = true ∧ flag = false then [.provisionalCleared] else []) s)))

/-- FREE_CALL and RETENTION (R32, R33): a FINISHED or CANCELLED call's slot becomes EMPTY and CALL_REMOVED is passed to
the pool and nothing to the Trigger Unit; a live call is refused with BAD_STATE; and a retention that falls together
with a FREE_CALL finds nothing more to free. -/
def Obligations.EndedCallsAreFreed : Prop :=
  (∀ (s : State) (m : Message), AtHead s m 0x22 3 →
    let none_ := w16 65535 ++ w8 0 ++ w32 4294967295
    (s.mgi.partState ≠ .running → Answers .freeCall s m .notRunning none_ s) ∧
    (s.mgi.partState = .running → be24 m.body 0 = 0 → Answers .freeCall s m .badValue none_ s) ∧
    (s.mgi.partState = .running → be24 m.body 0 ≠ 0 →
      (findRef s.crg.calls (be24 m.body 0) = none → Answers .freeCall s m .noSuchCall none_ s) ∧
      ∀ slot c, findRef s.crg.calls (be24 m.body 0) = some (slot, c) → tabRising s.crg.calls = true →
        (c.state ≠ .finished → c.state ≠ .cancelled →
          Answers .freeCall s m .badState (w16 slot ++ w8 c.state.code ++ w32 c.expected) s) ∧
        (c.state = .finished ∨ c.state = .cancelled →
          Answers .freeCall s m .ok (w16 slot ++ w8 0 ++ w32 4294967295) (withoutCall slot c s) ∧
          (withoutCall slot c s).callAt slot = none ∧
          exec (.retention slot) (withoutCall slot c s) = .next (withoutCall slot c s)))) ∧
  ∀ (s : State) (slot : Nat),
    (slot ∉ s.crg.retentionDue → exec (.retention slot) s = .next s) ∧
    ∀ c, slot ∈ s.crg.retentionDue → s.callAt slot = some c →
      (c.retained s.sck.time = true → exec (.retention slot) s = .next (withoutCall slot c s)) ∧
      (c.retained s.sck.time = false → exec (.retention slot) s = .next { s with
        crg := { s.crg with retentionDue := s.crg.retentionDue.filter (· != slot) } })

/-- CALL_REGISTER_TIME_CHANGE (R23, R24): at a change of T every PLANNED call that its plan's due_lead makes due enters
DUE at the new T, every other call stays as it is, and one STATE_ENTRY(DUE) is passed for each, in slot order. -/
def Obligations.PlannedCallsBecomeDue : Prop :=
  ∀ s : State,
    (s.crg.changes = [] → exec .callRegisterTimeChange s = .next s) ∧
    ∀ ch rest, s.crg.changes = ch :: rest → tabRising s.crg.calls = true →
      ∃ t, exec .callRegisterTimeChange s = .next t ∧
        (∀ slot, t.callAt slot = (s.callAt slot).map fun c =>
          if isDue s.tru.plans ch.new c then { c with state := .due, stateSince := ch.new } else c) ∧
        t.tru = { s.tru with events := s.tru.events ++
          (s.crg.calls.filter fun p => isDue s.tru.plans ch.new p.2).map fun p =>
            ⟨p.1, p.2.callRef, ⟨.stateEntry .due, { p.2 with state := .due, stateSince := ch.new }⟩⟩ } ∧
        t.crg.changes = rest ∧ t.crg.patterns = s.crg.patterns ∧ { t with crg := s.crg, tru := s.tru } = s

/-! ### The Trigger Unit -/

/-- How the Trigger Unit takes what has been passed to it (R34, R48, R61, R62): the oldest event of a slot by the row of
its kind, but STATE_ENTRY(CANCELLED) not before the pool has taken CANCELLED (R28, R106); the oldest COMPLETED (that
order is the model's, log 40); the oldest change of T. Any other row changes nothing. What an event does (R35, R48, R55,
R61): it reads the record as the command that passed it left it, with the plan and step status as they stand (log 35);
the event-anchored steps it fires come first, in ascending index, then STEP_LEFT for the steps a state entry leaves
behind, then the evaluation. That the steps left behind are taken in ascending index (log 30), and that the evaluation
does not retry the steps that the event itself has just attempted (log 12), are the model's choices. What a COMPLETED event asks for
(R62, R63): where all of R62's conditions hold and the pool holds no STEP or REPEAT record of the step, a REPEAT record
of one repeat less, its start the repeat interval after the completion and its latest the step's present window after
that; where the pool is full, a counted attempt and a POOL_FULL notice with the clock's T (log 42); in every other case nothing. -/
def Obligations.TriggerEventsAreTakenInOrder : Prop :=
  (∀ s : State,
    (∀ slot e rest, oldestOf slot s.tru.events = some (e, rest) →
      exec (eventRow slot e.what.event) s = .next (if cancelWaits s e then s
        else takeTriggerEvent e { s with tru := { s.tru with events := rest } }) ∧
      ∀ other : TriggerEvent, eventRow slot other ≠ eventRow slot e.what.event → exec (eventRow slot other) s = .next s) ∧
    (∀ slot other, oldestOf slot s.tru.events = none → exec (eventRow slot other) s = .next s) ∧
    (s.tru.completions = [] → exec .completed s = .next s) ∧
    (∀ c rest, s.tru.completions = c :: rest → exec .completed s = .next
      (takeCompletion c { s with tru := { s.tru with completions := rest } })) ∧
    (s.tru.changes = [] → exec .triggerEvaluation s = .next s) ∧
    ∀ ch rest, s.tru.changes = ch :: rest → exec .triggerEvaluation s = .next
      (evaluateAll ch.new (s.crg.calls.map Prod.fst) { s with tru := { s.tru with
        changes := rest
        retry := s.tru.retry.filter fun e => (s.callOf (some (e.slot, e.callRef))).isSome } })) ∧
  (∀ (e : CallEvent PassedEvent) (s : State),
    let u := { s with tru := { s.tru with
      retry := if e.what.event = .loaded then s.tru.retry.filter fun x => x.slot != e.slot
        else s.tru.retry.filter fun x => x.slot != e.slot || (s.callOf (some (x.slot, x.callRef))).isSome } }
    (s.callOf (some (e.slot, e.callRef)) = none → takeTriggerEvent e s = u) ∧
    ∀ c, s.callOf (some (e.slot, e.callRef)) = some c →
      (tabGet s.tru.plans c.plan = none → takeTriggerEvent e s = u) ∧
      ∀ pl, tabGet s.tru.plans c.plan = some pl →
        let v := { e.what.call with plan := c.plan, steps := c.steps }
        let firing := pl.steps.zipIdx.filter fun q => firesOn v q.2 q.1 e.what.event
        let fired := fireAll e.slot s.sck.time (firingE v e.what.event) firing u
        let left := match e.what.event with
          | .stateEntry st => leaveSteps e.slot e.callRef st pl.steps.zipIdx fired
          | _ => fired
        takeTriggerEvent e s =
          evaluateCall e.slot s.sck.time (some e.what.call) (firing.map fun q => q.2) left) ∧
  ∀ (x : Completion) (s : State),
    let a := x.ann.ask
    (a.call = none ∨ a.step = none ∨ s.callOf a.call = none ∨
      (∀ c pl i, s.callOf a.call = some c → tabGet s.tru.plans c.plan = some pl → a.step = some i →
        pl.steps[i]? = none) → takeCompletion x s = s) ∧
    ∀ slot ref i c pl p, a.call = some (slot, ref) → a.step = some i → s.callAt slot = some c → c.callRef = ref →
      tabGet s.tru.plans c.plan = some pl → pl.steps[i]? = some p →
      (a.repeats = 0 ∨ x.ann.noRepeat = true ∨ p.validIn c.state = false ∨
        (∃ r ∈ s.apl.records, r.ofStep slot ref i = true) → takeCompletion x s = s) ∧
      (0 < a.repeats → x.ann.noRepeat = false → p.validIn c.state = true →
        (∀ r ∈ s.apl.records, r.ofStep slot ref i = false) →
        takeCompletion x s =
          match createRecord { a with
            origin := .repeated, repeats := a.repeats - 1, earliest := x.time + a.repeatInterval
            latest := some (x.time + a.repeatInterval + p.window) } s with
          | some (_, t) => t
          | none => raise (.poolFull (some (slot, ref)) (some i) a.cls s.sck.time) (count .poolFullAttempts s))

/-- Which event-anchored steps an event fires (R55 to R58), for a call in a state the step is valid in. A time-anchored
step is due exactly when R49 says so: ARMED, its fire time at most T, the call in a valid state, and for
SCHEDULED_LEAD the delay condition; the fire time is E or S less the lead, and never below 0 (R47, R49). An evaluation
reads the record as it stands, or as an event saw it (R35, R60, log 35). The step of a collapse group that fires: of the live due steps, the one with the latest fire time, and of those the one with the
highest step index (R51). One evaluation of a call that has no event-anchored step waiting (R48, R50, R51): a stale due
step and a due step that another of its group comes before become SKIPPED, the group's step fires or enters the retry
set, and every other entry stays. A retry entry of an event-anchored step at an evaluation (R54): past its window it
leaves the set, and an ON_STATE step is SKIPPED; inside it, in a valid state, the step fires again; an entry with no
pending time is not tried (for a step that a reload has made event-anchored that is the model's choice, log 36). -/
def Obligations.StepsFireByTheirAnchors : Prop :=
  (∀ (c : CallRec) (i : Nat) (p : PlanStep),
     (∀ st, firesOn c i p (.stateEntry st) = true ↔
       p.anchor = .onState st ∧ (c.entry i).status = .armed ∧ p.validIn st = true ∧ p.validIn c.state = true) ∧
     (∀ new, firesOn c i p (.platformSet new) = true ↔
       p.anchor = .onPlatformSet ∧ (c.entry i).status ≠ .skipped ∧ p.validIn c.state = true) ∧
     (∀ old new, firesOn c i p (.platformChange old new) = true ↔
       p.anchor = .onPlatformChange ∧ (c.entry i).status ≠ .skipped ∧ p.validIn c.state = true) ∧
     (∀ old new : Nat, firesOn c i p (.delayChange old new) = true ↔
       p.anchor = .onDelayChange ∧ (c.entry i).status = .armed ∧ p.validIn c.state = true ∧
         ((c.entry i).eAtFire + p.lead ≤ new ∨ new + p.lead ≤ (c.entry i).eAtFire)) ∧
     firesOn c i p .loaded = false ∧ ∀ old, firesOn c i p (.platformCleared old) = false) ∧
  (∀ (c : CallRec) (t i : Nat) (p : PlanStep) (f : Nat), dueTime c t i p = some f ↔
     (c.entry i).status = .armed ∧ f ≤ t ∧ p.validIn c.state = true ∧
       ((p.anchor = .expectedLead ∧ f = c.expected - p.lead) ∨
        (p.anchor = .scheduledLead ∧ f = c.sched - p.lead ∧ (p.minDelay : Int) ≤ c.delay))) ∧
  (∀ live : List LiveStep, live.Pairwise (fun x y => x.index < y.index) →
     (groupWinner live = none ↔ live = []) ∧
     ∀ w, groupWinner live = some w → w ∈ live ∧
       ∀ l ∈ live, l.fire < w.fire ∨ (l.fire = w.fire ∧ l.index ≤ w.index)) ∧
  (∀ (slot now : Nat) (seen : Option CallRec) (s : State) (c : CallRec) (pl : Plan), PoolSound s.apl →
     s.callAt slot = some c → tabGet s.tru.plans c.plan = some pl → c.steps.length = 8 → pl.steps.length ≤ 8 →
     (∀ p ∈ pl.steps, p.group ≤ 3) → (∀ x ∈ s.tru.retry, x.slot = slot → x.pendingTime = none) →
     let t := evaluateCall slot now seen [] s
     let v := match seen with
       | some r => { r with plan := c.plan, steps := c.steps }
       | none => c
     let live := fun (i : Nat) (p : PlanStep) (f : Nat) =>
       pl.steps[i]? = some p ∧ dueTime v now i p = some f ∧ now ≤ f + p.window
     ∃ c', t.callAt slot = some c' ∧ { c' with steps := c.steps } = c ∧
       (∀ other, other ≠ slot → t.callAt other = s.callAt other) ∧
       (∀ i, (∀ p, pl.steps[i]? = some p → dueTime v now i p = none) → c'.entry i = c.entry i) ∧
       (∀ i p f, pl.steps[i]? = some p → dueTime v now i p = some f → f + p.window < now →
         c'.entry i = { c.entry i with status := .skipped } ∧ ∀ x ∈ t.tru.retry, x.isFor slot i = false) ∧
       (∀ i p f j q g, live i p f → live j q g → q.group = p.group → f < g ∨ (f = g ∧ i < j) →
         c'.entry i = { c.entry i with status := .skipped } ∧ ∀ x ∈ t.tru.retry, x.isFor slot i = false) ∧
       ∀ i p f, live i p f →
         (∀ j q g, live j q g → q.group = p.group → g < f ∨ (g = f ∧ j ≤ i)) →
         (c'.entry i = ⟨.fired, v.expected⟩ ∧ ∀ x ∈ t.tru.retry, x.isFor slot i = false) ∨
         (c'.entry i = c.entry i ∧ ∃ x ∈ t.tru.retry, x.isFor slot i = true)) ∧
  ∀ (slot now : Nat) (seen : Option CallRec) (pl : Plan) (x : RetryEntry) (s : State) (c : CallRec) (p : PlanStep),
     s.callAt slot = some c → pl.steps[x.step]? = some p →
     let v := match seen with
       | some r => { r with plan := c.plan, steps := c.steps }
       | none => c
     let skipped := { s with
       crg := { s.crg with calls := tabSet s.crg.calls slot { c with
         steps := c.steps.set x.step { c.entry x.step with status := .skipped } } }
       tru := { s.tru with retry := s.tru.retry.filter fun y => !y.isFor slot x.step } }
     (x.pendingTime = none ∨ p.eventAnchored = false → retryOne slot now seen pl x s = s) ∧
     ∀ pending, x.pendingTime = some pending → p.eventAnchored = true →
       (pending + p.window < now →
         ((∃ st, p.anchor = .onState st) → retryOne slot now seen pl x s = skipped) ∧
         ((∀ st, p.anchor ≠ .onState st) → retryOne slot now seen pl x s = { skipped with crg := s.crg })) ∧
       (now ≤ pending + p.window → p.validIn v.state = false → retryOne slot now seen pl x s = s) ∧
       (now ≤ pending + p.window → p.validIn v.state = true → retryOne slot now seen pl x s =
         fireStep slot x.step p now (pending + p.window) v.expected (some pending) s)

/-- A firing step's request replaces (R52 to R54, R107): the STEP and REPEAT records of the call's step end REPLACED, and
afterwards the pool holds at most one; no other record asks for anything new, those in QUEUED and HELD stay, and all
stay as they are where the replaced ones held no zone and so made no pass. With a free place, or one that a replaced
record gave up, the record that R52 describes is created, the step's entry is written and its retry entry gone;
otherwise only the attempt is counted and the step stands in the retry set, with a POOL_FULL notice if it did not
before; that the notice carries the clock's T and not the T of the change evaluated is the model's choice (log 42). STEP_LEFT (R61, R107): the step's waiting records end WITHDRAWN, STATE_LEFT, its PLAYING record is marked
no_repeat, and nothing else changes. -/
def Obligations.FiringReplacesItsOldRecord : Prop :=
  (∀ (slot i : Nat) (p : PlanStep) (now latest e : Nat) (pending : Option Nat) (s : State) (c : CallRec),
    PoolSound s.apl → s.callAt slot = some c →
    let t := fireStep slot i p now latest e pending s
    let old := fun r : AnnRec => r.ofStep slot c.callRef i
    let freed := endAnns .withdrawn .replaced ((s.apl.records.filter old).map fun r => r.annId) s
    let fired : StepEntry := if p.anchor = .onDelayChange then { c.entry i with eAtFire := e } else ⟨.fired, e⟩
    (t.apl.records.filter old).length ≤ 1 ∧
    (∀ r ∈ t.apl.records, old r = false → ∃ x ∈ s.apl.records, x.annId = r.annId ∧ x.ask = r.ask) ∧
    (∀ r ∈ s.apl.records, old r = false → r.state = .queued ∨ r.state = .held →
      ∃ x ∈ t.apl.records, x.annId = r.annId ∧ x.state = r.state ∧ x.ask = r.ask) ∧
    ((∀ r ∈ s.apl.records, old r = true → r.held = 0#32) →
      (t.apl.records.filter fun r => !old r) = s.apl.records.filter fun r => !old r) ∧
    ((s.apl.records.length < 96 ∨ ∃ r ∈ s.apl.records, old r = true) →
      ∃ id u, createRecord
          { origin := .step, call := some (slot, c.callRef), step := some i, script := some p.script, stream := none
            cls := p.cls, selector := p.selector, policy := p.policy, residual := p.residual
            restartable := p.restartable, latched := false, confirm := p.confirm
            confirmTimeout := p.confirmTimeout, timeoutPolicy := p.timeoutPolicy, earliest := now
            latest := some latest, window := none, repeats := p.repeats, repeatInterval := p.repeatInterval }
          freed = some (id, u) ∧
        { t with crg := u.crg, tru := u.tru } = u ∧ t.apl.counter = (s.apl.counter + 1) % 4294967296 ∧
        t.callAt slot = some { c with steps := c.steps.set i fired } ∧
        ∀ x ∈ t.tru.retry, x.isFor slot i = false) ∧
    (96 ≤ s.apl.records.length → (∀ r ∈ s.apl.records, old r = false) →
      let counted := count .poolFullAttempts s
      let renewed := fun x : RetryEntry => if x.isFor slot i then { x with pendingTime := pending } else x
      t = if s.tru.retry.any (fun x => x.isFor slot i) then
          { counted with tru := { s.tru with retry := s.tru.retry.map renewed } }
        else raise (.poolFull (some (slot, c.callRef)) (some i) p.cls s.sck.time)
          { counted with tru := { s.tru with retry := s.tru.retry ++ [⟨slot, c.callRef, i, pending⟩] } })) ∧
  ∀ (slot ref i : Nat) (s : State), PoolSound s.apl →
    let t := stepLeft slot ref i s
    let left := fun r : AnnRec => r.ofStep slot ref i && r.state != .playing
    let ended := endRecords .withdrawn .stateLeft ((s.apl.records.filter left).map fun r => r.annId) s
    t.apl.records = (s.apl.records.filter fun r => !left r).map (fun r =>
      if r.ofStep slot ref i then { r with noRepeat := true } else r) ∧
    { t with apl := ended.apl } = ended ∧ t.apl.lastId = s.apl.lastId ∧ t.apl.counter = s.apl.counter ∧
    t.crg = s.crg ∧ t.tru = s.tru

/-! ### The Script Expander -/

/-- What the items of a script append (R12, R75 to R79): FRAGMENT and CHIME their fragment with its loops, GAP a silence,
PLACE the call's place, PLATFORM the number of a platform that is not 0; a TIME item reads its instant on the clock day, the
minutes and seconds truncated, and speaks the on-the-hour word for a zero minute; a DELAY item speaks the delay in whole
minutes rounded up, 199 at most and 0 for an early or punctual train; a CALLING item speaks the pattern's places with
the joiner before the last of two or more. Without a call the call items append nothing (R73). -/
def Obligations.CallItemsExpandByTheirRules : Prop :=
  (∀ hour x : Nat,
    readClock hour x = (((hour * 3600 + x) % 86400) / 3600, ((hour * 3600 + x) % 86400) % 3600 / 60) ∧
    (readClock hour x).1 ≤ 23 ∧ (readClock hour x).2 ≤ 59 ∧ readClock hour (x + 86400) = readClock hour x) ∧
  (∀ (patterns : Tab (List Nat)) (hour : Nat) (call : Option CallRec),
    (∀ id, wantedOf patterns hour call (.fragment id) = [.fragment id 1]) ∧
    (∀ id loops, wantedOf patterns hour call (.chime id loops) = [.fragment id loops]) ∧
    (∀ ms, wantedOf patterns hour call (.gap ms) = [.silence ms]) ∧
    (∀ c, call = some c → wantedOf patterns hour call .place = [.fragment c.place 1] ∧
      (c.platform = 0 → wantedOf patterns hour call .platform = []) ∧
      (c.platform ≠ 0 → wantedOf patterns hour call .platform = [.number c.platform])) ∧
    (call = none → ∀ item : Item,
      item = .place ∨ item = .platform ∨ (∃ e, item = .time e) ∨ item = .delay ∨ item = .calling →
      wantedOf patterns hour call item = [])) ∧
  ∀ (patterns : Tab (List Nat)) (hour : Nat) (c : CallRec),
    (∀ expected : Bool,
      let r := readClock hour (if expected then c.expected else c.sched)
      wantedOf patterns hour (some c) (.time expected) =
        [.number r.1, .number (if r.2 = 0 then 200 else r.2)]) ∧
    (∃ minutes : Nat, wantedOf patterns hour (some c) .delay = [.number minutes] ∧ minutes ≤ 199 ∧
      (c.delay ≤ 0 → minutes = 0) ∧ (0 < c.delay → (minutes : Int) = min ((c.delay + 59) / 60) 199)) ∧
    (∀ p places, c.pattern = some p → tabGet patterns p = some places →
      (places = [] → wantedOf patterns hour (some c) .calling = []) ∧
      (∀ x, places = [x] → wantedOf patterns hour (some c) .calling = [.fragment x 1]) ∧
      ∀ init last, places = init ++ [last] → init ≠ [] →
        wantedOf patterns hour (some c) .calling =
          (init.map fun x => .fragment x 1) ++ [.number 201, .fragment last 1]) ∧
    ((c.pattern = none ∨ ∃ p, c.pattern = some p ∧ tabGet patterns p = none) →
      wantedOf patterns hour (some c) .calling = [])

/-- What an expansion gives (R73, R74, R80, R81): the elements wanted by the items in order, each fragment with copies of
its directory entry, without those that are missing (a directory length of 0, or a number not loaded), and at most 64;
an element wanted when 64 are there cuts the expansion short at its item, and nothing from it on is examined or
counted; the first missing element is reported; nothing for a script that is not loaded. -/
def Obligations.ExpansionsStopAtSixtyFour : Prop :=
  ∀ (x : ScriptExpander) (patterns : Tab (List Nat)) (hour : Nat) (call : Option CallRec) (script : Nat),
    let e := expandScript x patterns hour call script
    let part := fun id loops : Nat =>
      let d := dirEntry x id
      if d.length = 0 then none else some (Element.fragment id loops d.address d.length d.trim)
    let find := fun w : Wanted => match w with
      | .fragment id loops => part id loops
      | .number n => (tabGet x.numbers n).bind fun id => part id 1
      | .silence ms => some (.silence ms)
    let lack := fun w : Wanted => match w with
      | .fragment id _ => Missing.fragmentId id
      | .number n => match tabGet x.numbers n with
        | some id => .fragmentId id
        | none => .numberIndex n
      | .silence _ => .fragmentId 0
    e.elements.length ≤ 64 ∧ (e.truncatedAt.isSome = true → e.elements.length = 64) ∧
    (e.firstMissing.isSome = true ↔ 0 < e.missing) ∧
    (∀ id loops address length trim, .fragment id loops address length trim ∈ e.elements →
      length ≠ 0 ∧ dirEntry x id = ⟨address, length, trim⟩) ∧
    (tabGet x.scripts script = none → e.elements = [] ∧ e.missing = 0 ∧ e.truncatedAt = none) ∧
    ∀ sc, tabGet x.scripts script = some sc →
      let wanted := sc.items.zipIdx.flatMap fun q => (wantedOf patterns hour call q.1).map fun w => (q.2, w)
      let found := fun l : List (Nat × Wanted) => l.filterMap fun q => find q.2
      let reports := fun l : List (Nat × Wanted) =>
        e.missing = l.length - e.elements.length ∧
        e.firstMissing = (l.find? fun q => (find q.2).isNone).map fun q => lack q.2
      e.elements = (found wanted).take 64 ∧
      ((∀ k, k < wanted.length → (found (wanted.take k)).length < 64) → e.truncatedAt = none ∧ reports wanted) ∧
      ∀ k item w, wanted[k]? = some (item, w) → (found (wanted.take k)).length = 64 →
        (∀ j, j < k → (found (wanted.take j)).length < 64) → e.truncatedAt = some item ∧ reports (wanted.take k)

/-! ### The Announcement Pool -/

/-- The ann_id and seq of a new record (R87): the first value after the last assigned, 65535 counting on to 1, that no
record holds, found within 97 values; it becomes the last assigned; seq is the creation counter, which counts on. Both
are 0 after a reset. -/
def Obligations.NewRecordsTakeTheNextFreeId : Prop :=
  (∀ (a : Ask) (s t : State) (id : Nat), PoolSound s.apl → createRecord a s = some (id, t) →
    (∃ k, k ≤ 96 ∧ id = nextValue^[k + 1] s.apl.lastId ∧ (∀ r ∈ s.apl.records, r.annId ≠ id) ∧
      ∀ j, j < k → ∃ r ∈ s.apl.records, r.annId = nextValue^[j + 1] s.apl.lastId) ∧
    1 ≤ id ∧ id ≤ 65535 ∧ t.apl.lastId = id ∧ t.apl.counter = (s.apl.counter + 1) % 4294967296 ∧
    ∀ r, t.ann id = some r → r.seq = s.apl.counter) ∧
  ∀ (straps : Byte) (cause : ResetCause) (keep : Bool) (s : State),
    (resetBlocks straps cause keep s).apl.lastId = 0 ∧ (resetBlocks straps cause keep s).apl.counter = 0

/-- A creation (R88, R89, R92): refused exactly when all 96 places are in use; otherwise the record is written as asked
and judged at once: gone if its latest has passed, in QUEUED before its earliest, in HELD where confirmation is
required, with a HELD notice that says FIRST, otherwise in READY, which causes a pass; every other record stays as it is.
Confirmation is required with ALWAYS, and with IF_PROVISIONAL while the record's call is there and provisional. The
counter of created records of its class goes up by 1 whatever becomes of the record. -/
def Obligations.CreatedRecordsAreJudgedAtOnce : Prop :=
  ∀ (a : Ask) (s : State), PoolSound s.apl →
    (createRecord a s = none ↔ 96 ≤ s.apl.records.length) ∧
    ∀ id t, createRecord a s = some (id, t) →
      let fresh := newRecord a id s.apl.counter
      (∀ other, other ≠ id → t.ann other = s.ann other) ∧
      t.crg = s.crg ∧ t.tru = s.tru ∧ t.sck = s.sck ∧
      (StatsSound s.stats → a.cls ≤ 3 →
        counter t (.created a.cls) = min (counter s (.created a.cls) + 1) 4294967295) ∧
      (needsConfirmation s a = true ↔
        a.confirm = .always ∨ (a.confirm = .ifProvisional ∧ ∃ c, s.callOf a.call = some c ∧ c.provisional = true)) ∧
      ((∃ l, a.latest = some l ∧ min l 107999 < s.sck.time) → t.ann id = none) ∧
      ((∀ l, a.latest = some l → s.sck.time ≤ min l 107999) →
        (s.sck.time < min a.earliest 107999 → t.ann id = some fresh ∧ t.notices = s.notices) ∧
        (min a.earliest 107999 ≤ s.sck.time → needsConfirmation s a = true →
          t.ann id = some { fresh with state := .held, holdStart := some s.sck.time } ∧
          t.notices = (raise (.held false id (a.call.map Prod.snd) a.step a.cls s.sck.time a.confirmTimeout) s).notices) ∧
        (min a.earliest 107999 ≤ s.sck.time → needsConfirmation s a = false →
          t.ann id = some { fresh with state := .ready, eligibleSince := some s.sck.time } ∧
          t.notices = s.notices ∧ t.zar.passPending = true))

/-- A record that ends (R94, R132, R148, R156, R158, R160): it leaves the pool and every other record stays; each zone of
its held set has no holder and no G any more and its release age is 0, while every other zone keeps its holder; its
OUTCOME notice is raised and its outcome is counted; a record that held zones causes a pass. A record PLAYING has its
source stopped, unless that has ended: its channel becomes IDLE, a burst in flight staying in flight, and each zone of
its held set takes a tail at the attenuation it was heard at: the first 256 samples of the FIFO filled with zeros, zeros
alone from PREFILL or GAP, or 256 samples still to come of a live stream. Where the record holds zones, R94 puts the
pass (that of ARBITRATION_PASS) between the release and the notice: `endAnn` is that end, and `endRecord` the one whose
pass comes later (R103, R109, R121). -/
def Obligations.EndedRecordsReleaseTheirZones : Prop :=
  (∀ (id : Nat) (o : AnnOutcome) (why : Reason) (sourceEnded : Bool) (s : State) (r : AnnRec),
    s.ann id = some r → StatsSound s.stats →
    let t := endRecord id o why sourceEnded s
    let notice := Notice.outcome id o why (r.ask.call.map Prod.snd) r.ask.cls
    t.apl.records = s.apl.records.filter (fun x => x.annId != id) ∧
    (∀ z, z < 32 → r.held.getLsbD z = true →
      (t.zone z).holder = none ∧
      ((tabGet s.lmu.levels z).isSome = true → (t.level z).att = none ∧ (t.level z).releaseAge = 0)) ∧
    (∀ z, r.held.getLsbD z = false → t.zone z = s.zone z) ∧
    (r.held ≠ 0#32 → t.zar.passPending = true) ∧
    t.notices = (raise notice s).notices ∧
    (s.notices.fifo = [] → s.notices.mask = BitVec.allOnes 13 → t.notices.fifo = [notice] ∧
      counter t (.ended r.ask.cls o) = min (counter s (.ended r.ask.cls o) + 1) 4294967295) ∧
    (r.ask.cls ≤ 3 → counter t (.ended r.ask.cls o) = min (counter s (.ended r.ask.cls o) + 1) 4294967295) ∧
    t.sck = s.sck ∧ t.crg = s.crg ∧ t.tru = s.tru) ∧
  (∀ (id : Nat) (o : AnnOutcome) (why : Reason) (s : State) (r : AnnRec), s.ann id = some r →
    let stopped := endRecord id o why false s
    let silent := endRecord id o why true s
    let faded := fun source : TailSource => ∀ z, z < 32 → (tabGet s.lmu.levels z).isSome = true →
      (stopped.level z).tail = if r.held.getLsbD z then
          some ⟨source, max ((s.level z).att.getD 121) (s.zone z).gMin, 0⟩
        else (s.level z).tail
    silent.pbc = s.pbc ∧
    (∀ z, (tabGet s.lmu.levels z).isSome = true → (silent.level z).tail = (s.level z).tail) ∧
    (r.state ≠ .playing → stopped = silent) ∧
    (∀ n, r.state = .playing → r.ask.stream = some n →
      stopped.pbc = s.pbc ∧ faded (.stream n 256) ∧ stopped.zar.passPending = true) ∧
    ∀ c ch, r.state = .playing → r.ask.stream = none → r.channel = some c → tabGet s.pbc c = some ch →
      stopped.channel c = { Channel.reset with burst := ch.burst } ∧
      (∀ d, d ≠ c → stopped.channel d = s.channel d) ∧ stopped.zar.passPending = true ∧
      faded (.samples (if ch.state = .prefill ∨ ch.state = .gap then List.replicate 256 0
        else ((ch.fifo.take 256).map fun x => x.sample) ++ List.replicate (256 - ch.fifo.length) 0))) ∧
  ∀ (id : Nat) (o : AnnOutcome) (why : Reason) (sourceEnded : Bool) (s : State) (r : AnnRec), s.ann id = some r →
    let released := letGo id sourceEnded s
    let closed := fun u : State => State.dropAnn id (count (.ended r.ask.cls o)
      (raise (.outcome id o why (r.ask.call.map Prod.snd) r.ask.cls) u))
    released.ann id = some { r with held := 0#32, missed := 0#32, lost := 0#32, channel := none } ∧
    (∀ other, other ≠ id → released.ann other = s.ann other) ∧
    { released with apl := s.apl, lmu := s.lmu, pbc := s.pbc, zar := s.zar } = s ∧
    { released.zar with zones := s.zar.zones, passPending := s.zar.passPending } = s.zar ∧
    endRecord id o why sourceEnded s = closed released ∧
    (r.held = 0#32 → endAnn id o why sourceEnded s = closed released) ∧
    (r.held ≠ 0#32 → released.zar.passPending = true ∧ ∃ u, exec .arbitrationPass released = .next u ∧
      endAnn id o why sourceEnded s = closeAnn id o why u ∧ (endAnn id o why sourceEnded s).ann id = none ∧
      (PoolSound s.apl → r.state = .playing → (∀ z, (s.zone z).holder = some id → r.held.getLsbD z = true) →
        u.ann id = some { r with held := 0#32, missed := 0#32, lost := 0#32, channel := none } ∧
        endAnn id o why sourceEnded s = closed u))

/-- ANNOUNCE, LIVE_PAGE_BEGIN and EMERGENCY_BEGIN (R97, R98, R100, R101, R166): the checks in their order, the record
asked for, and the answer with its ann_id: which bytes of ANNOUNCE are refused by its check 1, and what the others ask
for, field by field; what a live page and an emergency ask for, where the three values that R98 and R100 do not state
are free values, each within its field's range (log 9).
EMERGENCY_END (R102): ann_id 0 names every EMERGENCY record, those that wait before those that play, each in ascending seq
(the order is the model's, log 30), so that every READY one has ended before a completion makes its pass; any other
names one. EMERGENCY_END on one EMERGENCY record, by its state (R102, R144): READY ends WITHDRAWN; PLAYING
has its end requested, and a latched one in the gap between passes completes at once with its channel IDLE; an end
already requested changes nothing. The record that EMERGENCY_BEGIN evicts from a full pool (R101): of those in QUEUED
and READY, one of the least urgent class, and of those the most recently eligible. -/
def Obligations.CreatingCommandsAreAnswered : Prop :=
  (∀ b : List Byte,
     let named := flagAt b 1 0
     let fits := (parseSelector (b.drop 5)).isSome = true ∧ byteAt b 11 ≤ 3 ∧ byteAt b 12 ≤ 1 ∧ byteAt b 13 ≤ 2 ∧
       byteAt b 14 ≤ 1 ∧ byteAt b 15 ≤ 7 ∧ 5 ≤ be16 b 16 ∧ be16 b 16 ≤ 600 ∧ 30 ≤ be16 b 18 ∧ be16 b 18 ≤ 1800 ∧
       60 ≤ be16 b 20 ∧ be16 b 20 ≤ 1800 ∧ (named = true → be24 b 2 ≠ 0)
     (¬fits → parseAnnounce b = none) ∧
     (fits → ∃ a, parseAnnounce b = some (if named then some (be24 b 2) else none, a) ∧
       a.origin = .command ∧ a.step = none ∧ a.script = some (byteAt b 0) ∧ a.stream = none ∧ a.latched = false ∧
       parseSelector (b.drop 5) = some a.selector ∧ a.cls = byteAt b 11 ∧ a.policy.code = byteAt b 12 ∧
       a.residual = flagAt b 1 1 ∧ a.restartable = flagAt b 1 2 ∧ a.confirm.code = byteAt b 13 ∧
       a.timeoutPolicy.code = byteAt b 14 ∧ a.repeats = byteAt b 15 ∧ a.confirmTimeout = be16 b 16 ∧
       a.window = some (be16 b 18) ∧ a.repeatInterval = be16 b 20)) ∧
  (∀ (n : Nat) (origin : Origin) (script stream : Option Nat) (cls : Nat) (sel : Selector)
     (restartable latched : Bool) (t : Nat),
     let a := urgentAsk n origin script stream cls sel restartable latched t
     5 ≤ a.confirmTimeout ∧ a.confirmTimeout ≤ 600 ∧ 60 ≤ a.repeatInterval ∧ a.repeatInterval ≤ 1800 ∧
     a.origin = origin ∧ a.call = none ∧ a.step = none ∧ a.script = script ∧ a.stream = stream ∧ a.cls = cls ∧
     a.selector = sel ∧ a.policy = .part ∧ a.residual = false ∧ a.restartable = restartable ∧ a.latched = latched ∧
     a.confirm = .never ∧ a.earliest = t ∧ a.latest = none ∧ a.window = none ∧ a.repeats = 0) ∧
  (∀ (s : State) (m : Message),
     let b := m.body
     let created := fun (i : Instr) (a : Ask) =>
       match createRecord a s with
       | some (id, t) => Answers i s m .ok (w16 id) t
       | none => Answers i s m .poolFull [] s
     (AtHead s m 0x50 22 →
       (parseAnnounce b = none → Answers .announce s m .badValue [] s) ∧
       (∀ ref a, parseAnnounce b = some (some ref, a) →
         (findRef s.crg.calls ref = none → Answers .announce s m .noSuchCall [] s) ∧
         ∀ slot c, findRef s.crg.calls ref = some (slot, c) → created .announce { a with
           call := some (slot, ref), earliest := s.sck.time, latest := some (s.sck.time + a.window.getD 0) }) ∧
       ∀ a, parseAnnounce b = some (none, a) →
         if scriptNeedsCall s a = true ∨ a.selector.needsCall = true then
           Answers .announce s m .badValue [] s
         else created .announce { a with
           call := none, earliest := s.sck.time, latest := some (s.sck.time + a.window.getD 0) }) ∧
     (AtHead s m 0x51 8 →
       (parseSelector (b.drop 2) = none ∨ 3 < byteAt b 0 ∨ 3 < byteAt b 1 → Answers .livePageBegin s m .badValue [] s) ∧
       ∀ sel, parseSelector (b.drop 2) = some sel → byteAt b 0 ≤ 3 → byteAt b 1 ≤ 3 →
         (sel.needsCall = true → Answers .livePageBegin s m .badValue [] s) ∧
         (sel.needsCall = false →
           ((∃ r ∈ s.apl.records, r.ask.origin = .live ∧ r.ask.stream = some (byteAt b 0)) →
             Answers .livePageBegin s m .inUse [] s) ∧
           ((∀ r ∈ s.apl.records, r.ask.origin = .live → r.ask.stream ≠ some (byteAt b 0)) →
             let a := urgentAsk s.free .live none (some (byteAt b 0)) (byteAt b 1) sel false false s.sck.time
             match createRecord a { s with free := s.free + 1 } with
             | some (id, t) => Answers .livePageBegin s m .ok (w16 id)
                 (t.updStream (byteAt b 0) fun x => { x with age := 0 })
             | none => Answers .livePageBegin s m .poolFull [] s))) ∧
     (AtHead s m 0x53 8 →
       (parseSelector (b.drop 2) = none → Answers .emergencyBegin s m .badValue [] s) ∧
       ∀ sel, parseSelector (b.drop 2) = some sel →
         (sel.needsCall = true → Answers .emergencyBegin s m .badValue [] s) ∧
         (sel.needsCall = false →
           let a := urgentAsk s.free .emergency (some (byteAt b 0)) none 0 sel true (flagAt b 1 0) s.sck.time
           match createRecord a { makeRoom s with free := s.free + 1 } with
           | some (id, t) => Answers .emergencyBegin s m .ok (w16 id) t
           | none => Answers .emergencyBegin s m .poolFull [] (count .poolFullAttempts s)))) ∧
  (∀ (s : State) (m : Message),
     let b := m.body
     (AtHead s m 0x54 2 →
       (be16 b 0 = 0 →
         let emergencies := fun p : AnnRec → Bool =>
           (s.apl.records.filter fun r => r.ask.origin == .emergency && p r).map fun r => r.annId
         let ids := emergencies (fun r => r.state != .playing) ++ emergencies fun r => r.state == .playing
         Answers .emergencyEnd s m .ok (w16 ids.length) (endEmergencies ids s) ∧
         (PoolSound s.apl → endEmergencies ids s = endEmergencies (emergencies fun r => r.state == .playing)
           (endRecords .withdrawn .command (emergencies fun r => r.state == .ready) s))) ∧
       (be16 b 0 ≠ 0 → s.ann (be16 b 0) = none → Answers .emergencyEnd s m .noSuchAnn [] s) ∧
       ∀ r, be16 b 0 ≠ 0 → s.ann (be16 b 0) = some r →
         (r.ask.origin ≠ .emergency → Answers .emergencyEnd s m .badValue [] s) ∧
         (r.ask.origin = .emergency → Answers .emergencyEnd s m .ok (w16 1) (endEmergency r s)))) ∧
  (∀ (r : AnnRec) (s : State),
     let marked := s.updAnn r.annId fun x => { x with endRequested := true }
     (r.state = .ready → endEmergency r s = endRecord r.annId .withdrawn .command false s) ∧
     (r.state = .playing → r.endRequested = true → endEmergency r s = s) ∧
     (r.state = .playing → r.endRequested = false →
       (∀ c, r.channel = some c → r.ask.latched = true → (s.channel c).state = .gap →
         endEmergency r s = completeRecord r.annId .emergencyEnded false
           (causePass (marked.updChannel c Channel.toIdle))) ∧
       ((r.ask.latched = false ∨ ∀ c, r.channel = some c → (s.channel c).state ≠ .gap) →
         endEmergency r s = marked))) ∧
  (∀ s : State,
     let waiting := fun x : AnnRec => x.state = .queued ∨ x.state = .ready
     (s.apl.records.length < 96 ∨ (∀ x ∈ s.apl.records, ¬waiting x) → makeRoom s = s) ∧
     ∀ r ∈ s.apl.records, 96 ≤ s.apl.records.length → waiting r →
       (∀ x ∈ s.apl.records, waiting x → x ≠ r → x.ask.cls < r.ask.cls ∨ (x.ask.cls = r.ask.cls ∧
         ((x.state = .ready ∧ r.state = .queued) ∨ (x.state = r.state ∧
           ((r.state = .ready ∧ x.eligibleSince.getD 0 < r.eligibleSince.getD 0) ∨
            ((r.state = .queued ∨ x.eligibleSince.getD 0 = r.eligibleSince.getD 0) ∧ x.seq < r.seq)))))) →
       makeRoom s = endRecord r.annId .withdrawn .evicted false s)

/-- CONFIRM and REJECT (R90): a HELD record enters READY or ends REJECTED; READY and PLAYING are answered TOO_LATE,
QUEUED BAD_STATE, an ann_id of 0 or of no record NO_SUCH_ANN, with no change. A record that enters READY keeps its
eligible_since, or takes T. -/
def Obligations.HeldRecordsAreAnswered : Prop :=
  (∀ (s : State) (m : Message) (i : Instr),
    (i = .confirm ∧ AtHead s m 0x55 2) ∨ (i = .reject ∧ AtHead s m 0x56 2) →
    (be16 m.body 0 = 0 ∨ s.ann (be16 m.body 0) = none → Answers i s m .noSuchAnn [] s) ∧
    ∀ r, be16 m.body 0 ≠ 0 → s.ann (be16 m.body 0) = some r →
      (r.state = .ready ∨ r.state = .playing → Answers i s m .tooLate [] s) ∧
      (r.state = .queued → Answers i s m .badState [] s) ∧
      (r.state = .held → i = .confirm → Answers i s m .ok [] (enterReady s.sck.time (be16 m.body 0) s)) ∧
      (r.state = .held → i = .reject →
        Answers i s m .ok [] (endRecord (be16 m.body 0) .rejected .command false s))) ∧
  ∀ (now id : Nat) (s : State) (r : AnnRec), s.ann id = some r →
    (enterReady now id s).ann id = some { r with
      state := .ready, holdStart := none, eligibleSince := some (r.eligibleSince.getD now) } ∧
    (enterReady now id s).zar.passPending = true ∧
    (∀ other, other ≠ id → (enterReady now id s).ann other = s.ann other) ∧
    { enterReady now id s with apl := s.apl, zar := s.zar } = s

/-- LIVE_PAGE_END, WITHDRAW and CLEAR_ANNOUNCEMENTS (R99, R103): what each ends, with which outcome and reason, and
what each answers; CLEAR_ANNOUNCEMENTS ends every record WITHDRAWN, CLEARED, in ascending seq, after which the pool is
empty, and the passes that its releases cause are still to come. -/
def Obligations.EndingCommandsAreAnswered : Prop :=
  ∀ (s : State) (m : Message),
    let b := m.body
    (AtHead s m 0x52 1 →
      (3 < byteAt b 0 → Answers .livePageEnd s m .badValue [] s) ∧
      (byteAt b 0 ≤ 3 → liveOn s (byteAt b 0) = none → Answers .livePageEnd s m .badState [] s) ∧
      ∀ r, byteAt b 0 ≤ 3 → liveOn s (byteAt b 0) = some r →
        (r.state = .playing → Answers .livePageEnd s m .ok (w16 r.annId) (completeRecord r.annId .pageEnded false s)) ∧
        (r.state ≠ .playing →
          Answers .livePageEnd s m .ok (w16 r.annId) (endRecord r.annId .withdrawn .notStarted false s))) ∧
    (AtHead s m 0x57 2 →
      (be16 b 0 = 0 ∨ s.ann (be16 b 0) = none → Answers .withdraw s m .noSuchAnn [] s) ∧
      ∀ r, be16 b 0 ≠ 0 → s.ann (be16 b 0) = some r →
        Answers .withdraw s m .ok [] (endAnn (be16 b 0) .withdrawn .command false s)) ∧
    (AtHead s m 0x58 0 →
      let t := endRecords .withdrawn .cleared (s.apl.records.map fun r => r.annId) s
      Answers .clearAnnouncements s m .ok (w16 s.apl.records.length) t ∧
      (PoolSound s.apl → (∃ r ∈ s.apl.records, r.held ≠ 0#32) → t.zar.passPending = true) ∧
      t.apl.records = [] ∧ t.apl.lastId = s.apl.lastId ∧ t.apl.counter = s.apl.counter ∧
      t.crg = s.crg ∧ t.tru = s.tru ∧ t.sck = s.sck ∧ t.sxe = s.sxe ∧ t.pmc = s.pmc)

/-- How the pool takes the events of the Call Register and the changes of T (R34, R89, R91, R92, R104 to R106): the
oldest event of a slot by the row of its kind; a record whose hold timeout or expiry a change of T has reached by its
own row, judged against T as it stands (log 6). Any other row changes nothing. What a change of T does to a record in
QUEUED whose earliest it has reached (R89): into HELD from the new T with a HELD notice that says FIRST, where
confirmation is required, and into READY otherwise; each record named is judged, in ascending seq (log 30). -/
def Obligations.PoolEventsAreTakenInOrder : Prop :=
  (∀ (now id : Nat) (s : State) (r : AnnRec), s.ann id = some r →
    (r.state ≠ .queued ∨ now < r.ask.earliest → leaveQueued now id s = s) ∧
    (r.state = .queued → r.ask.earliest ≤ now →
      (needsConfirmation s r.ask = true → leaveQueued now id s =
        raise (.held false id (r.ask.call.map Prod.snd) r.ask.step r.ask.cls now r.ask.confirmTimeout)
          (s.updAnn id fun x => { x with state := .held, holdStart := some now })) ∧
      (needsConfirmation s r.ask = false → leaveQueued now id s = enterReady now id s)) ∧
    ∀ ids : List Nat, ids.Nodup →
      (leaveQueuedAll now ids s).ann id = if id ∈ ids then (leaveQueued now id s).ann id else some r) ∧
  ∀ s : State,
    (∀ slot e rest, oldestOf slot s.apl.events = some (e, rest) →
      let taken := { s with apl := { s.apl with events := rest } }
      let ofCall := (s.apl.records.filter fun r => r.ask.call == some (e.slot, e.callRef)).map fun r => r.annId
      (∀ q p, e.what = .platformMoved q p →
        let ending := (s.apl.records.filter fun r => r.ask.call == some (e.slot, e.callRef) && r.superseded).map
          fun r => r.annId
        exec (.platformMoved slot) s = .next
          (causePass (endAnns .superseded .platformChanged ending (platformMovedAll ofCall taken)))) ∧
      (e.what = .cancelled → exec (.cancelled slot) s = .next (endAnns .withdrawn .cancelled ofCall taken)) ∧
      (e.what = .provisionalCleared → exec (.provisionalCleared slot) s = .next
        (enterReadyAll s.sck.time ((s.apl.records.filter fun r =>
          r.ask.call == some (e.slot, e.callRef) && r.state == .held && r.ask.confirm == .ifProvisional).map
            fun r => r.annId) taken)) ∧
      (e.what = .callRemoved → exec (.callRemoved slot) s = .next (endAnns .withdrawn .callRemoved ofCall taken)) ∧
      ∀ other : PoolEvent, poolRow slot other ≠ poolRow slot e.what → exec (poolRow slot other) s = .next s) ∧
    (∀ slot other, oldestOf slot s.apl.events = none → exec (poolRow slot other) s = .next s) ∧
    (s.apl.changes = [] → exec .poolJudgement s = .next s) ∧
    (∀ ch rest, s.apl.changes = ch :: rest → exec .poolJudgement s = .next
      (leaveQueuedAll ch.new (s.apl.records.map fun r => r.annId)
        { s with apl := { s.apl with changes := rest } })) ∧
    (∀ id, id ∉ s.apl.holdDue → exec (.holdTimeout id) s = .next s) ∧
    (∀ id, id ∉ s.apl.expiryDue → exec (.expiry id) s = .next s) ∧
    ∀ id r, s.ann id = some r →
      let unheld := { s with apl := { s.apl with holdDue := s.apl.holdDue.filter (· != id) } }
      let unexpired := { s with apl := { s.apl with expiryDue := s.apl.expiryDue.filter (· != id) } }
      (id ∈ s.apl.holdDue → exec (.holdTimeout id) s = .next (
        if r.holdOver s.sck.time = true then
          if r.ask.timeoutPolicy = .playAnyway then enterReady s.sck.time id unheld
          else endRecord id .discarded .holdTimeout false unheld
        else unheld)) ∧
      (id ∈ s.apl.expiryDue → exec (.expiry id) s = .next (
        if r.expired s.sck.time = true then endRecord id .expired .latestPassed false unexpired else unexpired))

/-- After CANCELLED or CALL_REMOVED no record of the call is left in the pool (R106); no other record asks for anything
new, those in QUEUED and HELD stay, and all are as they were where the records of the call held no zone and so made no
pass (R94). PLATFORM_MOVED acts on each record of the call by its state (R104), the one it has when the event is taken: a
hold restarts at T with a notice, a PLAYING record that spoke or follows the platform returns to READY or ends SUPERSEDED,
and any other is left alone. Where one event ends several records (R94, log 30), the waiting ones end first, and those
PLAYING stop and release their zones before the one pass (that of ARBITRATION_PASS) in which they neither start nor are
taken from, and after which each is noticed, counted and freed. -/
def Obligations.CallEventsReachTheirRecords : Prop :=
  (∀ (s t : State) (slot : Nat) (e : CallEvent PoolEvent) (rest : List (CallEvent PoolEvent)),
     oldestOf slot s.apl.events = some (e, rest) → PoolSound s.apl →
     (e.what = .cancelled ∧ exec (.cancelled slot) s = .next t) ∨
       (e.what = .callRemoved ∧ exec (.callRemoved slot) s = .next t) →
     (∀ r ∈ t.apl.records, r.ask.call ≠ some (e.slot, e.callRef) ∧
       ∃ x ∈ s.apl.records, x.annId = r.annId ∧ x.ask = r.ask) ∧
     (∀ r ∈ s.apl.records, r.ask.call ≠ some (e.slot, e.callRef) → r.state = .queued ∨ r.state = .held →
       ∃ x ∈ t.apl.records, x.annId = r.annId ∧ x.state = r.state ∧ x.ask = r.ask) ∧
     ((∀ r ∈ s.apl.records, r.ask.call = some (e.slot, e.callRef) → r.held = 0#32) →
       t.apl.records = s.apl.records.filter (fun r => r.ask.call != some (e.slot, e.callRef))) ∧
     t.apl.events = rest ∧ t.crg = s.crg ∧ t.tru = s.tru ∧ t.sck = s.sck) ∧
  (∀ (id : Nat) (s : State) (r : AnnRec), s.ann id = some r →
     (r.state = .held → platformMovedOne id s = raise
       (.held true id (r.ask.call.map Prod.snd) r.ask.step r.ask.cls s.sck.time r.ask.confirmTimeout)
       (s.updAnn id fun x => { x with holdStart := some s.sck.time })) ∧
     (r.state = .playing → (r.platformSpoken = true ∨ r.ask.selector = .callPlatform ∨
         ∃ g, r.ask.selector = .callPlatformAndGroup g) →
       (r.ask.restartable = true → r.superseded = false ∧ platformMovedOne id s = returnToReady id s ∧
         (∀ x, (returnToReady id s).ann id = some x → x = { r with
           state := .ready, held := 0#32, missed := 0#32, lost := 0#32, channel := none, platformSpoken := false })) ∧
       (r.ask.restartable = false → r.superseded = true ∧ platformMovedOne id s = s)) ∧
     (r.state = .playing → r.platformSpoken = false → r.ask.selector.needsCall = false →
       r.superseded = false ∧ platformMovedOne id s = s) ∧
     (r.state ≠ .playing → r.superseded = false) ∧
     (r.state = .queued ∨ r.state = .ready → platformMovedOne id s = s) ∧
     ∀ ids : List Nat, ids.Nodup →
       (platformMovedAll ids s).ann id = if id ∈ ids then (platformMovedOne id s).ann id else some r) ∧
  (∀ (o : AnnOutcome) (why : Reason) (ids : List Nat) (s : State),
     let playing := ids.filter fun id => (s.ann id).any fun r => r.state == .playing
     let waiting := ids.filter fun id => !(s.ann id).any fun r => r.state == .playing
     let released := letGoAll playing (endRecords o why waiting s)
     ((∀ id ∈ playing, ∀ r, s.ann id = some r → r.held = 0#32) → endAnns o why ids s = closeAnns o why playing released) ∧
     ((∃ id ∈ playing, ∃ r, s.ann id = some r ∧ r.held ≠ 0#32) → ∃ u, exec .arbitrationPass released = .next u ∧
       endAnns o why ids s = closeAnns o why playing u ∧
       (PoolSound s.apl → ids.Nodup → ∀ id ∈ playing, ∀ r, s.ann id = some r →
         (∀ z, (s.zone z).holder = some id → r.held.getLsbD z = true) →
         u.ann id = some { r with held := 0#32, missed := 0#32, lost := 0#32, channel := none })))

/-! ### The Zone Arbiter -/

/-- LOAD_ZONES (R112, R113): the load is answered like the others; the zones whose enabled flag changed are judged
again, in ascending order, and a load that takes an entry causes a pass. An entry replaces the configuration of its zone
and keeps the holder and the available flag, E_l is raised to Gmin, and the smoothed ambient starts at the new A_ref
(R155). Which bytes of an entry are refused, and the fields that the others make (R111, R112). A zone judged again for its
flag is judged with the cause ENABLED where the flag is now set and DISABLED where it is clear, one zone after another
(R113). -/
def Obligations.ZoneLoadsAreJudged : Prop :=
  (∀ (s : State) (m : Message), Ready s m 0x60 →
    if byteCounted 255 (fun _ => 16) m.body then
      let r := loadAnswer (byteAt m.body 0) (byteAt m.body 1) 0 31 (byteEntries (fun _ => 16) m.body) takeZoneEntry s
      let changed := (List.range 32).filter fun z => (s.zone z).enabled != (r.2.2.zone z).enabled
      let judged := judgeEnabled changed r.2.2
      Answers .loadZones s m r.1 (w16 r.2.1) (if r.2.1 = 0 then judged else causePass judged)
    else Answers .loadZones s m .badLength (w16 0) s) ∧
  (∀ (old : ZoneEntry) (b : List Byte),
    let feed := byteAt b 8
    let fits := byteAt b 2 ≤ 120 ∧ byteAt b 3 ≤ 120 ∧ byteAt b 4 ≤ 120 ∧ byteAt b 5 ≤ 254 ∧ byteAt b 6 ≤ 8 ∧
      byteAt b 7 ≤ 24 ∧ (feed = 0 ∨ feed = 1 ∨ feed = 255) ∧ byteAt b 9 ≤ 121 ∧ byteAt b 10 ≤ 121 ∧
      1 ≤ be16 b 12 ∧ be16 b 12 ≤ 640 ∧ 1 ≤ be16 b 14 ∧ be16 b 14 ≤ 640
    (¬fits → parseZone old b = none) ∧
    (fits → parseZone old b = some
      { enabled := flagAt b 0 0, code := b.getD 1 0, level := byteAt b 2, gMin := byteAt b 3
        emergencyLevel := max (byteAt b 3) (byteAt b 4), aRef := byteAt b 5, slope := byteAt b 6, bMax := byteAt b 7
        feed := if feed = 255 then none else some feed, backLevel := byteAt b 9, duck := byteAt b 10
        attack := be16 b 12, release := be16 b 14, holder := old.holder, available := old.available })) ∧
  (∀ (zones : List Nat) (s : State),
    judgeEnabled zones s = zones.foldl (fun u z =>
      judgeAvailability z (if (s.zone z).enabled then .enabled else .disabled) u) s) ∧
  ∀ (z : Nat) (b : List Byte) (s : State),
    (parseZone (s.zone z) b = none → takeZoneEntry z b s = (.badValue, s)) ∧
    ∀ e, parseZone (s.zone z) b = some e → ∃ t, takeZoneEntry z b s = (.ok, t) ∧
      e.holder = (s.zone z).holder ∧ e.available = (s.zone z).available ∧ e.gMin ≤ e.emergencyLevel ∧
      ((tabGet s.zar.zones z).isSome = true → t.zone z = e) ∧
      ((tabGet s.lmu.levels z).isSome = true → t.level z = { s.level z with ambient := e.aRef }) ∧
      (∀ other, other ≠ z → t.zone other = s.zone other ∧ t.level other = s.level other) ∧
      { t with zar := s.zar, lmu := s.lmu } = s

/-- What a selector resolves to, zone by zone (R115, R117): the set carried, the platform map entry, the members of the
group as their codes match its value under its mask, the union, or every zone. A zone's availability is its enabled
flag and its link's usable value (R113, R119, R130, R173): a judgement that changes nothing does nothing; one that
changes it is noticed with its cause and causes a pass, and a zone that becomes unavailable has no holder any more. A
held one is taken from its holder before it is noticed (R130, R173): it leaves the holder's held set and joins its lost set, and
has no G any more; a holder that still holds a zone plays on, its other sets and its source as they were, and one
that holds none ends ABORTED, NO_ZONES_LEFT. -/
def Obligations.ZonesResolveByMapAndLink : Prop :=
  (∀ (s : State) (a : Ask) (z : Nat), z < 32 →
     let member := fun g : Nat =>
       let e := tabGetD s.zar.groups g GroupEntry.reset
       decide ((s.zone z).code &&& e.mask = e.value &&& e.mask)
     let ofCall := match s.callOf a.call with
       | some c => c.platform != 0 && (platformZones s c.platform).getLsbD z
       | none => false
     (resolveZones s a).getLsbD z = match a.selector with
       | .explicit zones => zones.getLsbD z
       | .platform p => (platformZones s p).getLsbD z
       | .callPlatform => ofCall
       | .group g => member g
       | .callPlatformAndGroup g => ofCall || member g
       | .all => true) ∧
  (∀ (z : Nat) (cause : ZoneCause) (s : State), (tabGet s.zar.zones z).isSome = true →
     let now := (s.zone z).enabled && (s.link z).usable
     let t := judgeAvailability z cause s
     (t.zone z).available = now ∧ (t.zone z).enabled = (s.zone z).enabled ∧
     (now = (s.zone z).available → t = s) ∧
     (now ≠ (s.zone z).available →
       t.zar.passPending = true ∧
       ((s.zone z).holder = none → t = causePass (raise (.zoneState z now cause)
         (s.updZone z fun e => { e with available := now }))) ∧
       (now = false → (t.zone z).holder = none) ∧
       ∀ id r, now = false → (s.zone z).holder = some id → s.ann id = some r →
         let held := r.held &&& ~~~(BitVec.twoPow 32 z)
         let lost := r.lost ||| BitVec.twoPow 32 z
         let taken := causePass (State.updLevel z (fun l => { l with att := none, releaseAge := 0 })
           (State.updZone z (fun e => { e with available := false, holder := none }) (s.updAnn id fun x => { x with
             held := x.held &&& ~~~(BitVec.twoPow 32 z), lost := x.lost ||| BitVec.twoPow 32 z })))
         (∀ x, x < 32 → held.getLsbD x = (r.held.getLsbD x && x != z) ∧
           lost.getLsbD x = (r.lost.getLsbD x || x == z)) ∧
         taken.ann id = some { r with held := held, lost := lost } ∧
         (∀ other, other ≠ id → taken.ann other = s.ann other) ∧ taken.pbc = s.pbc ∧
         (held ≠ 0#32 → t = causePass (raise (.zoneState z false cause) taken)) ∧
         (held = 0#32 → t = causePass (raise (.zoneState z false cause)
           (endRecord id .aborted .noZonesLeft false taken)))))

/-- The records that a pass considers and their order (R121): exactly the READY ones, by class, then by ascending
eligible_since, then by ascending seq. A READY record's turn (R122 to R126): with no usable zone it waits and is
noticed once; a WHOLE record that finds a zone blocked reserves all of its usable zones; a record without a source
waits and reserves nothing; otherwise it tries to start. A usable zone may be taken when it is not reserved and is
free or held by a less urgent class. The source (R126, R127): a live page's own stream; the IDLE channel with the lowest
number; without one, and for class 0 alone, the channel of the PLAYING record of the least urgent class that was
given its channel most recently (counted in grants, log 17). -/
def Obligations.PassesTakeTurnsInOrder : Prop :=
  (∀ s : State, ∃ order : List AnnRec,
     passOrder s = order.map (fun r => r.annId) ∧
     order.Perm (s.apl.records.filter fun r => r.state == .ready) ∧
     order.Pairwise fun x y => x.ask.cls < y.ask.cls ∨ (x.ask.cls = y.ask.cls ∧
       (x.eligibleSince.getD 0 < y.eligibleSince.getD 0 ∨
         (x.eligibleSince.getD 0 = y.eligibleSince.getD 0 ∧ x.seq ≤ y.seq)))) ∧
  ((∀ (s : State) (cls : Nat) (reserved u : ZoneSet) (z : Nat), z < 32 →
     ((takeable s cls reserved u).getLsbD z = true ↔
       u.getLsbD z = true ∧ reserved.getLsbD z = false ∧
         ((s.zone z).holder = none ∨
           ∃ h x, (s.zone z).holder = some h ∧ s.ann h = some x ∧ cls < x.ask.cls))) ∧
   ∀ (id : Nat) (reserved : ZoneSet) (s : State) (r : AnnRec), s.ann id = some r →
     (r.state ≠ .ready → takeTurn id reserved s = (reserved, s)) ∧
     (r.state = .ready →
       let resolved := resolveZones s r.ask
       let u := resolved &&& availableZones s
       let taken := takeable s r.ask.cls reserved u
       (u = 0#32 → takeTurn id reserved s = (reserved,
         if r.noZonesNoted then s
         else raise (.noZones id r.ask.cls (r.ask.call.map Prod.snd) resolved)
           (s.updAnn id fun x => { x with noZonesNoted := true }))) ∧
       (u ≠ 0#32 → r.ask.policy = .whole → taken ≠ u → takeTurn id reserved s = (reserved ||| u, s)) ∧
       (u ≠ 0#32 → r.ask.policy = .part → taken = 0#32 → takeTurn id reserved s = (reserved, s)) ∧
       (u ≠ 0#32 → (r.ask.policy = .whole ∧ taken = u) ∨ (r.ask.policy = .part ∧ taken ≠ 0#32) →
         (sourceFor s r = none → takeTurn id reserved s = (reserved, s)) ∧
         ∀ src, sourceFor s r = some src → takeTurn id reserved s = (reserved, tryStart r src u taken s)))) ∧
  (∀ (s : State) (r : AnnRec),
     let candidate := fun (v : AnnRec) (c : Nat) =>
       v ∈ s.apl.records ∧ v.state = .playing ∧ 1 ≤ v.ask.cls ∧ v.channel = some c
     (∀ n, r.ask.stream = some n → sourceFor s r = some .stream) ∧
     (r.ask.stream = none →
       (∀ c, c < 6 → (s.channel c).state = .idle → (∀ d, d < c → (s.channel d).state ≠ .idle) →
         sourceFor s r = some (.idle c)) ∧
       ((∀ c, c < 6 → (s.channel c).state ≠ .idle) →
         (r.ask.cls ≠ 0 ∨ (∀ v c, ¬candidate v c) → sourceFor s r = none) ∧
         ∀ v c, r.ask.cls = 0 → candidate v c →
           (∀ x d, candidate x d → x ≠ v →
             x.ask.cls < v.ask.cls ∨ (x.ask.cls = v.ask.cls ∧ grantAge s c < grantAge s d)) →
           sourceFor s r = some (.steal c v.annId))))

/-- ARBITRATION_PASS (R120, R126, R128, R138, R158): with no cause waiting nothing happens; a lone READY record that
finds its usable zones free starts, a live page from its stream and a scripted record on the IDLE channel with the
lowest number, and then holds those zones, each with a G taken for its class. What any start does to the records (R128,
R129, R96): the starter holds what it took and misses the rest of its usable zones; a record whose channel was stolen,
or whose last zone was taken, returns to READY with its sets cleared and one restart more if it may, and is gone
otherwise; a record that kept a zone plays on, the zones taken in its lost set; every other stays as it is. An end by
the restart rule is PREEMPTED with the reason of the request. A scripted record is expanded first (R80 to R82, R128): the
missing elements are counted and the first is noticed, then a truncation is counted and noticed; an empty list ends the
record ABORTED, EMPTY_LIST, and is counted, and no zone, channel or level changes. -/
def Obligations.ALoneRecordStarts : Prop :=
  (∀ s : State,
    (s.zar.passPending = false → exec .arbitrationPass s = .next s) ∧
    ∀ r, s.zar.passPending = true → s.apl.records = [r] → r.state = .ready → StatsSound s.stats →
      let u := resolveZones s r.ask &&& availableZones s
      u ≠ 0#32 → (∀ z, z < 32 → (tabGet s.zar.zones z).isSome = true ∧ (tabGet s.lmu.levels z).isSome = true) →
      (∀ z, z < 32 → u.getLsbD z = true → (s.zone z).holder = none) →
      let started := fun (t : State) (channel : Option Nat) =>
        t.apl.records = [{ r with
          state := .playing, held := u, missed := 0#32, lost := 0#32, channel := channel
          platformSpoken := speaksPlatform s r }] ∧
        (∀ z, z < 32 → (t.zone z).holder = if u.getLsbD z then some r.annId else (s.zone z).holder) ∧
        (∀ z, z < 32 → u.getLsbD z = true →
          (t.level z).att = some (attFor (s.zone z) (s.level z).ambient r.ask.cls 0)) ∧
        t.zar.passPending = false
      (∀ n, r.ask.stream = some n →
        ∃ t, exec .arbitrationPass s = .next t ∧ started t none ∧ t.pbc = s.pbc ∧
          counter t (.started r.ask.cls) = min (counter s (.started r.ask.cls) + 1) 4294967295) ∧
      ∀ c, r.ask.stream = none → c < 6 → (tabGet s.pbc c).isSome = true → (s.channel c).state = .idle →
        (∀ d, d < c → (s.channel d).state ≠ .idle) → (expandFor r s).elements ≠ [] →
        ∃ t, exec .arbitrationPass s = .next t ∧ started t (some c) ∧
          t.channel c = (s.channel c).start r.annId r.ask.cls r.ask.latched (expandFor r s).elements
            ((s.zar.grantCounter + 1) % 4294967296) ∧
          t.grantOf c = (s.zar.grantCounter + 1) % 4294967296 ∧
          t.zar.grantCounter = (s.zar.grantCounter + 1) % 4294967296) ∧
  (∀ (s : State) (r : AnnRec) (e : Expansion),
     let script := r.ask.script.getD 0
     let counted := countBy .missingFragments e.missing s
     let lacking := fun m => raise (.missingFragment r.annId script e.missing m) counted
     let cut := fun (i : Nat) (u : State) => raise (.truncated r.annId script i) (count .truncatedLists u)
     (e.firstMissing = none → e.truncatedAt = none → noteExpansion r e s = counted) ∧
     (∀ m, e.firstMissing = some m → e.truncatedAt = none → noteExpansion r e s = lacking m) ∧
     (∀ i, e.firstMissing = none → e.truncatedAt = some i → noteExpansion r e s = cut i counted) ∧
     ∀ m i, e.firstMissing = some m → e.truncatedAt = some i → noteExpansion r e s = cut i (lacking m)) ∧
  (∀ (s : State) (r : AnnRec) (src : Source) (u taken : ZoneSet),
     let e := expandFor r s
     let noted := noteExpansion r e s
     let t := tryStart r src u taken s
     (∀ n, r.ask.stream = some n → t = startRecord r src u taken [] s) ∧
     (r.ask.stream = none → e.elements ≠ [] → t = startRecord r src u taken e.elements noted) ∧
     (r.ask.stream = none → e.elements = [] →
       t = endRecord r.annId .aborted .emptyList false (count .emptyLists noted) ∧
       (s.ann r.annId = some r → r.state = .ready → r.held = 0#32 → StatsSound s.stats →
         t.zar = s.zar ∧ t.pbc = s.pbc ∧ t.lmu = s.lmu ∧
         t.apl.records = s.apl.records.filter (fun x => x.annId != r.annId) ∧
         counter t .emptyLists = min (counter s .emptyLists + 1) 4294967295))) ∧
  (∀ (s : State) (r : AnnRec) (src : Source) (u taken : ZoneSet) (list : List Element), s.ann r.annId = some r →
     (∀ c v, src = .steal c v → v ≠ r.annId) →
     let t := startRecord r src u taken list s
     let again := fun x : AnnRec => x.ask.restartable = true ∧ x.restartCount < 2 ∧
       ∀ l, x.ask.latest = some l → s.sck.time ≤ l
     let returned := fun x : AnnRec => { x with
       state := .ready, held := 0#32, missed := 0#32, lost := 0#32, channel := none, platformSpoken := false
       restartCount := x.restartCount + 1 }
     let seized := fun other : Nat =>
       zoneSetOf ((zonesOf taken).filter fun z => (s.zone z).holder == some other)
     t.ann r.annId = some { r with
       state := .playing, held := taken, missed := u &&& ~~~taken, lost := 0#32
       channel := (match src with | .stream => none | .idle c => some c | .steal c _ => some c)
       platformSpoken := speaksPlatform s r } ∧
     (∀ c v x, src = .steal c v → s.ann v = some x →
       (again x → t.ann v = some (returned x)) ∧ (¬again x → t.ann v = none)) ∧
     ∀ other x, other ≠ r.annId → (∀ c v, src = .steal c v → v ≠ other) → s.ann other = some x →
       (seized other = 0#32 → t.ann other = some x) ∧
       (seized other ≠ 0#32 → x.state ≠ .playing ∨ x.held &&& ~~~seized other ≠ 0#32 →
         t.ann other = some { x with held := x.held &&& ~~~seized other, lost := x.lost ||| seized other }) ∧
       (seized other ≠ 0#32 → x.state = .playing → x.held &&& ~~~seized other = 0#32 →
         (again x → t.ann other = some (returned x)) ∧ (¬again x → t.ann other = none))) ∧
  ∀ (why : Reason) (id : Nat) (s : State) (r : AnnRec), s.ann id = some r →
    let t := restartOrPreempt why id s
    let ended := endRecord id .preempted why false s
    ((r.ask.restartable = true ∧ r.restartCount < 2 ∧ ∀ l, r.ask.latest = some l → s.sck.time ≤ l) →
      t.zar.passPending = true ∧ t.zar.zones = ended.zar.zones ∧ t.lmu = ended.lmu ∧ t.pbc = ended.pbc ∧
      t.notices = s.notices ∧ t.stats = s.stats) ∧
    (¬(r.ask.restartable = true ∧ r.restartCount < 2 ∧ ∀ l, r.ask.latest = some l → s.sck.time ≤ l) → t = ended)

/-! ### Playback channels and phrase memory -/

/-- FETCH_GRANT (R145, R139): nothing while the port is BUSY or no request is set; otherwise the urgent requester first
after the urgent pointer, and only without one the routine requester first after the routine pointer; its request is
cleared, its burst of at most 128 samples is recorded with its grant value, and the port is BUSY. BURST_COMPLETION
(R146): the port is FREE; the samples read from phrase memory go behind those the FIFO holds, the first with the
mark the burst carries, if the channel is not IDLE and its grant value is the one recorded, and are thrown away
otherwise. How a channel fetches (R138 to R142): entering an element sets the base and current values, the end of a pass
is the next loop, the next element or the end of the list, and the first sample of an element carries its mark; a SILENCE
element is filled with zeros, 128 at most at a time, until no fill is due; a request is set for a FRAGMENT element while
the FIFO holds 256 samples or fewer and no burst is in flight; PREFILL and PLAYING end by their conditions; a start begins
at element 0 in PREFILL. That a former owner's burst does not count as in flight, and that the current address moves in a
SILENCE element, are the model's inferences (log 16, log 38). -/
def Obligations.BurstsServeUrgentChannelsFirst : Prop :=
  (∀ c : Channel,
     (∀ i id loops address length trim, c.list[i]? = some (.fragment id loops address length trim) →
       c.enter i = { c with
         fetchElem := i, baseAddr := address, curAddr := address, baseCount := length, curCount := length
         loopsLeft := loops }) ∧
     (∀ i ms, c.list[i]? = some (.silence ms) →
       c.enter i = { c with fetchElem := i, baseCount := 16 * ms, curCount := 16 * ms, loopsLeft := 1 }) ∧
     (1 < c.loopsLeft → c.passEnd = { c with
       curAddr := c.baseAddr, curCount := c.baseCount, loopsLeft := c.loopsLeft - 1 }) ∧
     (c.loopsLeft ≤ 1 → c.fetchElem + 1 < c.list.length → c.passEnd = c.enter (c.fetchElem + 1)) ∧
     (c.loopsLeft ≤ 1 → c.list.length ≤ c.fetchElem + 1 → c.passEnd = { c with fetchFinished := true }) ∧
     (∀ n, n < c.curCount → c.issue n = { c with curAddr := c.curAddr + n, curCount := c.curCount - n }) ∧
     c.issue c.curCount = Channel.passEnd { c with curAddr := c.curAddr + c.curCount, curCount := 0 } ∧
     (∀ j, c.begins = some j ↔ j = c.fetchElem ∧ c.curCount = c.baseCount ∧
       ((∃ id address length trim, c.list[j]? = some (.fragment id c.loopsLeft address length trim)) ∨
         (c.loopsLeft = 1 ∧ ∃ ms, c.list[j]? = some (.silence ms)))) ∧
     ∀ mark x rest, marked mark [] = [] ∧
       marked mark (x :: rest) = ⟨x, mark⟩ :: rest.map fun y => ⟨y, none⟩) ∧
  (∀ (c : Channel) (grant : Nat),
     let here := fun x : Channel => x.list[x.fetchElem]?
     let busy := fun x : Channel => ∃ b, x.burst = some b ∧ b.grant = grant
     let filling := fun x : Channel => x.state ≠ .idle ∧ (∃ ms, here x = some (.silence ms)) ∧
       x.fetchFinished = false ∧ x.fifo.length ≤ 256 ∧ ¬busy x
     let asking := c.state ≠ .idle ∧ (∃ id loops address length trim,
       here c = some (.fragment id loops address length trim)) ∧ c.fetchFinished = false ∧ ¬busy c ∧ c.fifo.length ≤ 256
     let n := min 128 c.curCount
     let filled := Channel.issue n { c with fifo := c.fifo ++ marked c.begins (List.replicate n 0) }
     let done := c.fetchFinished = true ∧ ¬busy c
     let settled := c.settle grant
     (¬filling c → ∀ k, Channel.silenceFill grant k c = c) ∧
     (filling c → ∀ k, Channel.silenceFill grant (k + 1) c = Channel.silenceFill grant k filled) ∧
     (0 < c.curCount → 0 < c.baseCount → (∀ ms, .silence ms ∈ c.list → 0 < ms) →
       ¬filling (Channel.silenceFill grant 257 c)) ∧
     (asking → c.judgeRequest grant = { c with fetchReq := true }) ∧ (¬asking → c.judgeRequest grant = c) ∧
     (c.state = .prefill ∨ c.state = .playing → done → c.judgeState grant = { c with state := .draining }) ∧
     (c.state = .prefill → ¬done → 256 ≤ c.fifo.length → c.judgeState grant = { c with state := .playing }) ∧
     (c.state = .prefill → ¬done → c.fifo.length < 256 → c.judgeState grant = c) ∧
     (c.state = .playing → ¬done → c.judgeState grant = c) ∧
     (c.state ≠ .prefill → c.state ≠ .playing → c.judgeState grant = c) ∧
     settled = ((Channel.silenceFill grant 257 c).judgeRequest grant).judgeState grant ∧
     (∃ zeros : List FifoSample, settled.fifo = c.fifo ++ zeros ∧ ∀ x ∈ zeros, x.sample = 0) ∧
     { settled with
       state := c.state, fetchElem := c.fetchElem, curAddr := c.curAddr, curCount := c.curCount
       loopsLeft := c.loopsLeft, fetchFinished := c.fetchFinished, baseAddr := c.baseAddr, baseCount := c.baseCount
       fifo := c.fifo, fetchReq := c.fetchReq } = c ∧
     ∀ (owner cls : Nat) (latched : Bool) (list : List Element), c.start owner cls latched list grant =
       Channel.settle grant (Channel.enter 0 ⟨.prefill, some owner, some cls, latched, list, 0, 0, 0, 1, false, 0, 0, [],
         c.burst, false, 0, 0, 0, 0⟩)) ∧
  ((∀ (ptr : Nat) (p : Nat → Bool), ptr ≤ 5 →
     (nextAfter ptr p = none ↔ ∀ c, c < 6 → p c = false) ∧
     ∀ c, nextAfter ptr p = some c → c < 6 ∧ p c = true ∧
       ∀ d, d < 6 → p d = true → (c + 5 - ptr) % 6 ≤ (d + 5 - ptr) % 6) ∧
   ∀ s : State,
     let issued := fun (c : Nat) (port : PhraseController) =>
       let ch := s.channel c
       let n := min 128 ch.curCount
       { s with
         pbc := tabUpd s.pbc c fun x =>
           { x with fetchReq := false, burst := some ⟨n, s.grantOf c, ch.curAddr, ch.begins⟩ }.issue n
         pmc := { port with transfer := some (.burst c) } }
     (s.pmc.transfer ≠ none → exec .fetchGrant s = .next s) ∧
     (s.pmc.transfer = none →
       (∀ c, nextAfter s.pmc.urgentPtr (s.requests true) = some c →
         exec .fetchGrant s = .next (issued c { s.pmc with urgentPtr := c })) ∧
       (nextAfter s.pmc.urgentPtr (s.requests true) = none →
         (∀ c, nextAfter s.pmc.routinePtr (s.requests false) = some c →
           exec .fetchGrant s = .next (issued c { s.pmc with routinePtr := c })) ∧
         (nextAfter s.pmc.routinePtr (s.requests false) = none → exec .fetchGrant s = .next s)))) ∧
  (∀ s : State,
     ((∀ c, s.pmc.transfer ≠ some (.burst c)) → exec .burstCompletion s = .next s) ∧
     ∀ c ch b, s.pmc.transfer = some (.burst c) → tabGet s.pbc c = some ch → ch.burst = some b →
       ∃ t, exec .burstCompletion s = .next t ∧ t.pmc = { s.pmc with transfer := none } ∧
         (∀ d, d ≠ c → t.channel d = s.channel d) ∧ { t with pmc := s.pmc, pbc := s.pbc } = s ∧
         ((ch.state = .idle ∨ b.grant ≠ s.grantOf c) → t.channel c = { ch with burst := none }) ∧
         (ch.state ≠ .idle → b.grant = s.grantOf c →
           t.channel c = { ch with
             burst := none
             fifo := ch.fifo ++ marked b.mark ((List.range b.length).map fun k => readPhrase s.pmc (b.address + k))
             }.settle (s.grantOf c)))

/-- WRITE_PHRASE, PHRASE_WRITE_START and PHRASE_WRITE_COMPLETE (R150, R151): the checks; the wait at the head of the
queue; the second overlap check when the port is FREE with no request set; and the write itself, after which the
samples read back and every other address reads as before. -/
def Obligations.PhraseWritesWaitForThePort : Prop :=
  (∀ (s : State) (m : Message), Ready s m 0x70 →
    let b := m.body
    let n := be16 b 4
    let w := parseWrite b
    (b.length ≠ 6 + 2 * n ∨ b.length < 6 → Answers .writePhrase s m .badLength [] s) ∧
    (b.length = 6 + 2 * n →
      (n = 0 ∨ 496 < n ∨ 33554432 ≤ be32 b 0 ∨ 33554432 < be32 b 0 + n → Answers .writePhrase s m .badValue [] s) ∧
      (1 ≤ n → n ≤ 496 → be32 b 0 < 33554432 → be32 b 0 + n ≤ 33554432 →
        w.address = be32 b 0 ∧ w.samples.length = n ∧
        (writeOverlaps s w = true → Answers .writePhrase s m .inUse [] s) ∧
        (writeOverlaps s w = false → exec .writePhrase s = .next
          { s with pmc := { s.pmc with pendingWrite := some w } })))) ∧
  (∀ s : State,
    (s.pmc.pendingWrite = none → exec .phraseWriteStart s = .next s ∧ exec .phraseWriteComplete s = .next s) ∧
    ∀ w m, s.pmc.pendingWrite = some w → s.mgi.commands.head? = some m →
      (s.pmc.transfer ≠ none ∨ s.noRequest = false → exec .phraseWriteStart s = .next s) ∧
      (s.pmc.transfer = none → s.noRequest = true →
        (writeOverlaps s w = true →
          Answers .phraseWriteStart s m .inUse [] { s with pmc := { s.pmc with pendingWrite := none } }) ∧
        (writeOverlaps s w = false → exec .phraseWriteStart s = .next
          { s with pmc := { s.pmc with transfer := some .write } })) ∧
      (s.pmc.transfer ≠ some .write → exec .phraseWriteComplete s = .next s) ∧
      (s.pmc.transfer = some .write → Answers .phraseWriteComplete s m .ok [] { s with pmc := { s.pmc with
        transfer := none, pendingWrite := none
        memory := writePhrases s.pmc.memory w.address w.samples } })) ∧
  ∀ (p : PhraseController) (a b : Nat) (samples : List Sample),
    readPhrase { p with memory := writePhrases p.memory a samples } b =
      if a ≤ b ∧ b < a + samples.length then samples.getD (b - a) 0 else readPhrase p b

/-- What a channel outputs in a sample period (R142, R147): nothing but zero in IDLE, PREFILL and GAP; the oldest sample
of its FIFO in PLAYING and DRAINING; zero in PLAYING with an empty FIFO, where the first such period raises an
UNDERRUN notice and counts an episode. A sample that carries a mark makes its element the play element, and for a
FRAGMENT sets the current trim and takes G again with it in every zone that the owner holds; a SILENCE mark keeps both
(R158). After a sample a PLAYING channel makes its tests, and is DRAINING exactly when its fetch has finished and no burst
of its own is in flight. CHANNEL_END, GAP_END and UNDERRUN_ABORT (R143, R144, R147): a DRAINING
channel whose FIFO is empty enters GAP, if it is latched and its end is not requested, and otherwise becomes IDLE
and its record completes; a gap of 2000 ms ends in PREFILL, judged at once, where the gap time that stays is the model's
choice (log 43); a run of 1600 empty periods ends the
record ABORTED. A completion (R94, R95, R133, R134): the record ends COMPLETED with its pass, a live one's source
faded; then a COMPLETED event is passed for a STEP or REPEAT record, and a COMMAND record's repeat and the residual of
its missed and lost zones are asked for, in either order (log 10): what each asks for, and what is counted and noticed
when no place is free. -/
def Obligations.ChannelsOutputAndEnd : Prop :=
  (∀ (s : State) (c : Nat) (ch : Channel), tabGet s.pbc c = some ch →
     (ch.state = .idle ∨ ch.state = .prefill ∨ ch.state = .gap → channelOutput c s = (0#16, s)) ∧
     (∀ x rest, ch.fifo = x :: rest → ch.state = .playing ∨ ch.state = .draining →
       let grant := s.grantOf c
       let next := { ch with fifo := rest, underrunRun := 0 }
       let sounding := match x.mark with
         | none => next
         | some i => match ch.list[i]? with
           | some (.fragment _ _ _ _ trim) => { next with playElem := i, curTrim := trim }
           | _ => { next with playElem := i }
       let after := if ch.state = .playing then sounding.settle grant else sounding
       let t := (channelOutput c s).2
       (channelOutput c s).1 = x.sample ∧ t.pbc = tabSet s.pbc c after ∧
       (ch.state = .playing → (after.state = .playing ∨ after.state = .draining) ∧
         (after.state = .draining ↔ after.fetchFinished = true ∧ ∀ b, after.burst = some b → b.grant ≠ grant)) ∧
       { t with pbc := s.pbc, lmu := s.lmu } = s ∧ { t.lmu with levels := s.lmu.levels } = s.lmu ∧
       (∀ i id loops address length trim r, x.mark = some i →
         ch.list[i]? = some (.fragment id loops address length trim) → ch.owner.bind s.ann = some r →
         ∀ z, (tabGet s.lmu.levels z).isSome = true → t.level z =
           if r.held.getLsbD z then
             { s.level z with att := some (attFor (s.zone z) (s.level z).ambient r.ask.cls trim) }
           else s.level z) ∧
       ((∀ i id loops address length trim, x.mark = some i →
           ch.list[i]? ≠ some (.fragment id loops address length trim)) ∨ ch.owner.bind s.ann = none →
         t.lmu = s.lmu)) ∧
     (ch.fifo = [] → ch.state = .draining → channelOutput c s = (0#16, s)) ∧
     (ch.fifo = [] → ch.state = .playing →
       let counted := s.updChannel c fun y => { y with underrunRun := min (ch.underrunRun + 1) 1600 }
       channelOutput c s = (0#16,
         if ch.underrunRun = 0 then count (.underruns (ch.cls.getD 0))
           (raise (.underrun (ch.owner.getD 0) (ch.cls.getD 0) c ch.playElem s.sck.time) counted)
         else counted))) ∧
  (∀ (s : State) (c : Nat) (first : Bool),
     let ch := s.channel c
     let ending := match ch.owner.bind s.ann with
       | some r => r.endRequested
       | none => false
     (ch.state ≠ .draining ∨ ch.fifo ≠ [] → exec (.channelEnd c first) s = .next s) ∧
     (ch.state = .draining → ch.fifo = [] → ch.latched = true → ending = false →
       exec (.channelEnd c first) s = .next (s.updChannel c fun x =>
         ({ x with state := .gap, gapTime := 0, fetchFinished := false }.enter 0).settle (s.grantOf c))) ∧
     (∀ id, ch.state = .draining → ch.fifo = [] → ch.latched = false ∨ ending = true → ch.owner = some id →
       exec (.channelEnd c first) s = .next (completeRecord id (if ch.latched then .emergencyEnded else .endOfList) first
         (causePass (s.updChannel c fun x => { Channel.reset with burst := x.burst })))) ∧
     (ch.state ≠ .gap ∨ ch.gapTime < 2000 → exec (.gapEnd c) s = .next s) ∧
     (ch.state = .gap → 2000 ≤ ch.gapTime → exec (.gapEnd c) s = .next
       (s.updChannel c fun x => { x with state := .prefill }.settle (s.grantOf c))) ∧
     (ch.state ≠ .playing ∨ ch.underrunRun < 1600 ∨ ch.fifo ≠ [] → exec (.underrunAbort c) s = .next s) ∧
     ∀ id, ch.state = .playing → 1600 ≤ ch.underrunRun → ch.fifo = [] → ch.owner = some id →
       exec (.underrunAbort c) s = .next (endAnn id .aborted .underrun false s)) ∧
  (∀ (id : Nat) (why : Reason) (residualFirst : Bool) (s : State) (r : AnnRec), s.ann id = some r →
     let now := s.sck.time
     let ended := endAnn id .completed why (r.ask.origin != .live) s
     let passed := if r.ask.origin = .step ∨ r.ask.origin = .repeated then
         { ended with tru := { ended.tru with completions := ended.tru.completions ++ [⟨r, now⟩] } }
       else ended
     completeRecord id why residualFirst s =
       if residualFirst then requestRepeat r now (requestResidual r now passed)
       else requestResidual r now (requestRepeat r now passed)) ∧
  ∀ (r : AnnRec) (now : Nat) (s : State),
     let left := r.missed ||| r.lost
     (r.ask.residual = false ∨ left = 0#32 → requestResidual r now s = s) ∧
     (r.ask.residual = true → left ≠ 0#32 → requestResidual r now s =
       match createRecord { r.ask with
         origin := .residual, step := none, selector := .explicit left, policy := .part, residual := false
         restartable := false, latched := false, confirm := .never, earliest := now, latest := some (now + 120)
         window := none, repeats := 0 } s with
       | some (_, t) => t
       | none => countBy .droppedResidualZones ((List.range 32).filter fun z => left.getLsbD z).length s) ∧
     (r.ask.origin ≠ .command ∨ r.ask.repeats = 0 ∨ (r.ask.call ≠ none ∧ s.callOf r.ask.call = none) →
       requestRepeat r now s = s) ∧
     (r.ask.origin = .command → 0 < r.ask.repeats → (r.ask.call = none ∨ s.callOf r.ask.call ≠ none) →
       requestRepeat r now s = match createRecord { r.ask with
         repeats := r.ask.repeats - 1, earliest := now + r.ask.repeatInterval
         latest := some (now + r.ask.repeatInterval + r.ask.window.getD 0) } s with
       | some (_, t) => t
       | none => raise (.poolFull r.ask.call none r.ask.cls s.sck.time) (count .poolFullAttempts s))

/-! ### Levels, mixing and the zone link -/

/-- The gain table (R162): 32767 at 0, 0 from 121 on, and for each of 1..120 the integer nearest to 32768 x 10^(-a/40),
a half rounded up, said in integers by comparing 40th powers. -/
def Obligations.GainsAreRoundedToNearest : Prop :=
  gain 0 = 32767 ∧ (∀ a, 121 ≤ a → gain a = 0) ∧
  ∀ a, 1 ≤ a → a ≤ 120 → (2 * gain a - 1) ^ 40 * 10 ^ a ≤ 65536 ^ 40 ∧ 65536 ^ 40 < (2 * gain a + 1) ^ 40 * 10 ^ a

/-- SAMPLE_PERIOD (R142, R160, R163, R165, R167, R171, R183): the second phase moves on and the stream buffers deliver; every
zone's output is its three inputs times their gains, summed with 16384, divided by 32768 rounding down, and limited to
16 bits, a limited one counted as a clip; each tail gives up one sample; the link is sent the output of a zone that is
enabled and available and zero for any other; the monitored zone's output is gathered, and a 32nd sample hands a cell
on, which in a full queue replaces the older of two and is counted. In SELF_CHECK every zone is sent zero. Nothing
else changes but what the channels' outputs change. That the second phase counts sample periods and holds at 15,999 (log
14), and that the UNDERRUN notices of one period stand in ascending channel number (log 30), are the model's choices. -/
def Obligations.ZonesAreMixedAndSent : Prop :=
  (∀ (a t b : Int) (ga gt gb : Nat),
    mixSum a t b ga gt gb = (a * ga + t * gt + b * gb + 16384) / 32768 ∧
    -32768 ≤ limit (mixSum a t b ga gt gb) ∧ limit (mixSum a t b ga gt gb) ≤ 32767) ∧
  (∀ (b : StreamBuffer) (t : Tail),
    (b.cells = [] → b.out = 0 ∧ b.advance = b) ∧
    (∀ cell rest, b.cells = cell :: rest → b.out = cell.getD b.pos 0 ∧
      b.advance = if b.pos + 1 < 32 then { b with pos := b.pos + 1 } else { b with cells := rest, pos := 0 }) ∧
    (∀ x rest, t.source = .samples (x :: rest) → t.consume = { t with source := .samples rest }) ∧
    (∀ n k, t.source = .stream n (k + 1) → t.consume = { t with source := .stream n k }) ∧
    (t.source = .samples [] ∨ (∃ n, t.source = .stream n 0) → t.consume = t)) ∧
  ∀ s : State, StatsSound s.stats →
    (s.mgi.partState = .selfCheck → exec .samplePeriod s = .next { s with
      zli := { s.zli with sent := List.replicate 32 0 } }) ∧
    (s.mgi.partState ≠ .selfCheck →
      let streams := (List.range 6).map fun n => (s.stream n).out
      let played := channelOutputs (List.range 6) { s with
        sck := { s.sck with phase := min (s.sck.phase + 1) 15999 }
        tki := { s.tki with streams := tabMap (fun _ b => b.advance) s.tki.streams } }
      let exact := fun z => zoneSum played.2 streams played.1 z
      let output := fun z => BitVec.ofInt 16 (limit (exact z))
      ∃ t, exec .samplePeriod s = .next t ∧ t.zli.sent.length = 32 ∧ t.zli.links = s.zli.links ∧
        (∀ z, z < 32 → t.zli.sent.getD z 0 =
          if (s.zone z).enabled && (s.zone z).available then output z else 0) ∧
        (∀ z, z < 32 → counter t (.clips z) = if limit (exact z) = exact z then counter played.2 (.clips z)
          else min (counter played.2 (.clips z) + 1) 4294967295) ∧
        (∀ z l, z < 32 → tabGet played.2.lmu.levels z = some l →
          t.level z = { l with tail := l.tail.map Tail.consume }) ∧
        t.sck = { s.sck with phase := min (s.sck.phase + 1) 15999 } ∧
        t.tki = { s.tki with
          streams := tabMap (fun _ b => b.advance) s.tki.streams, monitorQueue := t.tki.monitorQueue } ∧
        t.lmu.monitorZone = s.lmu.monitorZone ∧ t.lmu.readings = s.lmu.readings ∧
        (s.lmu.monitorZone = none → t.lmu.gathered = s.lmu.gathered ∧ t.lmu.monitorSeq = s.lmu.monitorSeq ∧
          t.tki.monitorQueue = s.tki.monitorQueue) ∧
        (∀ z, z < 32 → s.lmu.monitorZone = some z →
          let cell := s.lmu.gathered ++ [output z]
          (cell.length < 32 → t.lmu.gathered = cell ∧ t.lmu.monitorSeq = s.lmu.monitorSeq ∧
            t.tki.monitorQueue = s.tki.monitorQueue) ∧
          (32 ≤ cell.length → t.lmu.gathered = [] ∧ t.lmu.monitorSeq = (s.lmu.monitorSeq + 1) % 256 ∧
            (s.tki.monitorQueue.length < 2 →
              t.tki.monitorQueue = s.tki.monitorQueue ++ [⟨s.lmu.monitorSeq, cell⟩] ∧
              counter t .monitorCellsDropped = counter played.2 .monitorCellsDropped) ∧
            (2 ≤ s.tki.monitorQueue.length →
              t.tki.monitorQueue = s.tki.monitorQueue.tail ++ [⟨s.lmu.monitorSeq, cell⟩] ∧
              counter t .monitorCellsDropped = min (counter played.2 .monitorCellsDropped + 1) 4294967295))) ∧
        t.pbc = played.2.pbc ∧ t.notices = played.2.notices ∧
        { t with
          sck := s.sck, tki := s.tki, lmu := s.lmu, zli := s.zli, pbc := s.pbc, notices := s.notices
          stats := s.stats } = s)

/-- BLOCK (R156, R159, R161, R164, R174, R178): each background attenuation moves one step toward its target, reaches it
exactly and never passes it; release ages, cell ages and report ages grow to their limits, and the age of a partly
reassembled message to 101, one more than R178 waits for (log 15); a tail is raised by 5 units a block, and ends at 121
or after its 16th block. Nothing happens in SELF_CHECK, and nothing else changes. -/
def Obligations.BlocksRampAndAge : Prop :=
  ∀ s : State,
    (s.mgi.partState = .selfCheck → exec .block s = .next s) ∧
    (s.mgi.partState ≠ .selfCheck → ∃ t, exec .block s = .next t ∧
      (∀ z l, tabGet s.lmu.levels z = some l →
        let e := s.zone z
        let target := 16 * (if e.holder.isSome then min (e.backLevel + e.duck) 121 else e.backLevel)
        (t.level z).back =
          (if l.back < target then min target (l.back + e.attack) else max target (l.back - e.release)) ∧
        ((l.back ≤ target → (t.level z).back ≤ target) ∧ (target ≤ l.back → target ≤ (t.level z).back)) ∧
        (t.level z).releaseAge = min (l.releaseAge + 1) 500 ∧ (t.level z).ambient = l.ambient ∧
        (t.level z).att = l.att ∧
        (l.tail = none → (t.level z).tail = none) ∧
        ∀ x, l.tail = some x → (t.level z).tail =
          if 121 ≤ x.att + 5 ∨ 15 ≤ x.blocks then none else some ⟨x.source, x.att + 5, x.blocks + 1⟩) ∧
      (∀ n b, tabGet s.tki.streams n = some b → t.stream n = { b with age := min (b.age + 1) 5000 }) ∧
      t.tki = { s.tki with
        streams := t.tki.streams
        reassembly := s.tki.reassembly.map fun r => { r with age := min (r.age + 1) 101 } } ∧
      t.lmu = { s.lmu with levels := t.lmu.levels } ∧ t.zli = { s.zli with links := t.zli.links } ∧
      (∀ z k, tabGet s.zli.links z = some k → t.link z = { k with age := min (k.age + 1) 1000 }) ∧
      (∀ c ch, tabGet s.pbc c = some ch → t.channel c =
        if ch.state = .gap then { ch with gapTime := min (ch.gapTime + 1) 2000 } else ch) ∧
      { t with lmu := s.lmu, tki := s.tki, zli := s.zli, pbc := s.pbc } = s)

/-- AMBIENT_READING (R155): the oldest reading of a zone is applied, an order that is the model's choice (log 44): a sensor fault sets the smoothed ambient to A_ref;
a value is ignored and counted while the zone has a holder, a tail or a release age below 500, and otherwise moves
the smoothed ambient a quarter of the way, truncated toward zero. The boost and the announcement attenuation (R157,
R158): B is (A_s − A_ref) x s / 8 truncated and kept in 0..Bmax; G is L − B − t, or E_l − t for class 0, kept in
Gmin..121. -/
def Obligations.LevelsFollowTheAmbient : Prop :=
  (∀ (s : State) (z : Nat),
     (takeFirst (fun p => p.1 == z) s.lmu.readings = none → exec (.ambientReading z) s = .next s) ∧
     ∀ a rest l, takeFirst (fun p => p.1 == z) s.lmu.readings = some ((z, a), rest) →
       tabGet s.lmu.levels z = some l →
       let taken := { s with lmu := { s.lmu with readings := rest } }
       let frozen := (s.zone z).holder ≠ none ∨ l.tail ≠ none ∨ l.releaseAge < 500
       (a = .sensorFault → exec (.ambientReading z) s = .next
         (taken.updLevel z fun x => { x with ambient := (s.zone z).aRef })) ∧
       ∀ v, a = .value v →
         (frozen → exec (.ambientReading z) s = .next (count (.ambientIgnored z) taken)) ∧
         (¬frozen → ∃ t, exec (.ambientReading z) s = .next t ∧
           ((t.level z).ambient : Int) = l.ambient + ((v : Int) - l.ambient).tdiv 4 ∧
           { t with lmu := s.lmu } = s)) ∧
  (∀ (z : ZoneEntry) (ambient cls : Nat) (trim : Int), z.gMin ≤ 121 →
     (boost z ambient : Int) = max 0 (min ((((ambient : Int) - z.aRef) * z.slope).tdiv 8) z.bMax) ∧
     (cls = 0 → (attFor z ambient cls trim : Int) = max (z.gMin : Int) (min ((z.emergencyLevel : Int) - trim) 121)) ∧
     (cls ≠ 0 → (attFor z ambient cls trim : Int) = max (z.gMin : Int) (min ((z.level : Int) - boost z ambient - trim) 121)) ∧
     z.gMin ≤ attFor z ambient cls trim ∧ attFor z ambient cls trim ≤ 121)

/-- STREAM_LOST and MONITOR (R164, R166, R167): a stream whose cell age has reached 5000 expects no number any more, and
the LIVE record that names it ends ABORTED; MONITOR selects a zone or OFF and discards the partly gathered cell, and the
sequence number runs on. -/
def Obligations.StreamsAreLostAndMonitored : Prop :=
  (∀ (s : State) (n : Nat),
    let cleared := s.updStream n fun b => { b with expected := none }
    ((s.stream n).age < 5000 → exec (.streamLost n) s = .next s) ∧
    (5000 ≤ (s.stream n).age →
      (∀ r, liveOn s n = some r →
        exec (.streamLost n) s = .next (endAnn r.annId .aborted .streamLost false cleared)) ∧
      (liveOn s n = none → (s.stream n).expected ≠ none → exec (.streamLost n) s = .next cleared) ∧
      (liveOn s n = none → (s.stream n).expected = none → exec (.streamLost n) s = .next s))) ∧
  ∀ (s : State) (m : Message), AtHead s m 0x80 1 →
    (byteAt m.body 0 = 255 →
      Answers .monitor s m .ok [] { s with lmu := { s.lmu with monitorZone := none, gathered := [] } }) ∧
    (31 < byteAt m.body 0 → byteAt m.body 0 ≠ 255 → Answers .monitor s m .badIndex [] s) ∧
    (byteAt m.body 0 ≤ 31 → Answers .monitor s m .ok [] { s with
      lmu := { s.lmu with monitorZone := some (byteAt m.body 0), gathered := [] } })

/-- ZONE_REPORT and LINK_LOST (R172 to R175): a report is discarded in SELF_CHECK, counted as an error for an unknown
zone or line state, and otherwise counts, refreshes its zone's age, line state, link state and sensor flag, and hands on
its ambient reading; a change of the sensor flag raises a SENSOR_FAULT notice, and a change of the usable value is
judged with the new link state as its cause, in either order, which the step names, an OUTCOME of the judgement (R130)
standing with its notice (log 39); a zone whose age has
reached 1000 ms becomes LINK_LOST, its last line state, ambient and sensor flag kept, and a change of the usable value
is judged. -/
def Obligations.ReportsAndLossesMoveTheLink : Prop :=
  (∀ (report : List Byte) (first : Bool) (s : State),
    (s.mgi.partState = .selfCheck → exec (.zoneReport ⟨report, first⟩) s = .next s) ∧
    (s.mgi.partState ≠ .selfCheck → 32 ≤ byteAt report 0 ∨ 4 ≤ byteAt report 1 →
      exec (.zoneReport ⟨report, first⟩) s = .next (count .zoneReportErrors s)) ∧
    ∀ z line k, s.mgi.partState ≠ .selfCheck → byteAt report 0 = z → z < 32 →
      lineStateOf (byteAt report 1) = some line → tabGet s.zli.links z = some k →
      let a : Ambient := if byteAt report 2 = 255 then .sensorFault else .value (byteAt report 2)
      let fault := decide (byteAt report 2 = 255)
      let seen := State.updLink z (fun x => { x with age := 0, lastLine := some line, lastAmbient := some a })
        { count (.reportsReceived z) s with lmu := { s.lmu with readings := s.lmu.readings ++ [(z, a)] } }
      let sensor := fun u : State => if k.sensorFault = fault then u
        else raise (.sensorFault z fault line s.sck.time) (u.updLink z fun x => { x with sensorFault := fault })
      let linked := fun u : State =>
        let moved := u.updLink z fun x => { x with link := line }
        if (k.link = .ok ↔ line = .ok) then moved else judgeAvailability z (.link line) moved
      ∃ t, exec (.zoneReport ⟨report, first⟩) s = .next t ∧
        t = (if first then sensor (linked seen) else linked (sensor seen)) ∧
        t.link z = ⟨line, some line, 0, some a, fault⟩ ∧ (∀ other, other ≠ z → t.link other = s.link other) ∧
        t.lmu.readings = s.lmu.readings ++ [(z, a)] ∧
        t.sck = s.sck ∧ t.crg = s.crg ∧ t.tki = s.tki ∧
        ((k.link = .ok ↔ line = .ok) → t.zar = s.zar ∧ t.apl = s.apl) ∧
        ((k.link = .ok ↔ line = .ok) → k.sensorFault = fault → t.notices = s.notices)) ∧
  ∀ (s : State) (z : Nat) (k : ZoneLink), tabGet s.zli.links z = some k →
    (k.age < 1000 ∨ k.link = .linkLost → exec (.linkLost z) s = .next s) ∧
    (1000 ≤ k.age → k.link ≠ .linkLost →
      let lost := s.updLink z fun x => { x with link := .linkLost }
      exec (.linkLost z) s = .next (if k.link = .ok then judgeAvailability z (.link .linkLost) lost else lost))
end

