-- ==== Sys2Proof/Laws/State.lean ====
section
/-! SUPPORT. What each block update leaves alone: one lemma for each field and each update. -/

namespace Sys2Proof.Machine

@[simp] theorem onTki_tki (f : TrunkInterface → TrunkInterface) (s : State) : (s.onTki f).tki = f s.tki := rfl
@[simp] theorem onTki_mgi (f : TrunkInterface → TrunkInterface) (s : State) : (s.onTki f).mgi = s.mgi := rfl
@[simp] theorem onTki_notices (f : TrunkInterface → TrunkInterface) (s : State) : (s.onTki f).notices = s.notices := rfl
@[simp] theorem onTki_stats (f : TrunkInterface → TrunkInterface) (s : State) : (s.onTki f).stats = s.stats := rfl
@[simp] theorem onTki_sck (f : TrunkInterface → TrunkInterface) (s : State) : (s.onTki f).sck = s.sck := rfl
@[simp] theorem onTki_crg (f : TrunkInterface → TrunkInterface) (s : State) : (s.onTki f).crg = s.crg := rfl
@[simp] theorem onTki_tru (f : TrunkInterface → TrunkInterface) (s : State) : (s.onTki f).tru = s.tru := rfl
@[simp] theorem onTki_sxe (f : TrunkInterface → TrunkInterface) (s : State) : (s.onTki f).sxe = s.sxe := rfl
@[simp] theorem onTki_apl (f : TrunkInterface → TrunkInterface) (s : State) : (s.onTki f).apl = s.apl := rfl
@[simp] theorem onTki_zar (f : TrunkInterface → TrunkInterface) (s : State) : (s.onTki f).zar = s.zar := rfl
@[simp] theorem onTki_pbc (f : TrunkInterface → TrunkInterface) (s : State) : (s.onTki f).pbc = s.pbc := rfl
@[simp] theorem onTki_pmc (f : TrunkInterface → TrunkInterface) (s : State) : (s.onTki f).pmc = s.pmc := rfl
@[simp] theorem onTki_lmu (f : TrunkInterface → TrunkInterface) (s : State) : (s.onTki f).lmu = s.lmu := rfl
@[simp] theorem onTki_zli (f : TrunkInterface → TrunkInterface) (s : State) : (s.onTki f).zli = s.zli := rfl
@[simp] theorem onTki_free (f : TrunkInterface → TrunkInterface) (s : State) : (s.onTki f).free = s.free := rfl
@[simp] theorem onTki_pending (f : TrunkInterface → TrunkInterface) (s : State) : (s.onTki f).pending = s.pending := rfl

@[simp] theorem onMgi_tki (f : Interpreter → Interpreter) (s : State) : (s.onMgi f).tki = s.tki := rfl
@[simp] theorem onMgi_mgi (f : Interpreter → Interpreter) (s : State) : (s.onMgi f).mgi = f s.mgi := rfl
@[simp] theorem onMgi_notices (f : Interpreter → Interpreter) (s : State) : (s.onMgi f).notices = s.notices := rfl
@[simp] theorem onMgi_stats (f : Interpreter → Interpreter) (s : State) : (s.onMgi f).stats = s.stats := rfl
@[simp] theorem onMgi_sck (f : Interpreter → Interpreter) (s : State) : (s.onMgi f).sck = s.sck := rfl
@[simp] theorem onMgi_crg (f : Interpreter → Interpreter) (s : State) : (s.onMgi f).crg = s.crg := rfl
@[simp] theorem onMgi_tru (f : Interpreter → Interpreter) (s : State) : (s.onMgi f).tru = s.tru := rfl
@[simp] theorem onMgi_sxe (f : Interpreter → Interpreter) (s : State) : (s.onMgi f).sxe = s.sxe := rfl
@[simp] theorem onMgi_apl (f : Interpreter → Interpreter) (s : State) : (s.onMgi f).apl = s.apl := rfl
@[simp] theorem onMgi_zar (f : Interpreter → Interpreter) (s : State) : (s.onMgi f).zar = s.zar := rfl
@[simp] theorem onMgi_pbc (f : Interpreter → Interpreter) (s : State) : (s.onMgi f).pbc = s.pbc := rfl
@[simp] theorem onMgi_pmc (f : Interpreter → Interpreter) (s : State) : (s.onMgi f).pmc = s.pmc := rfl
@[simp] theorem onMgi_lmu (f : Interpreter → Interpreter) (s : State) : (s.onMgi f).lmu = s.lmu := rfl
@[simp] theorem onMgi_zli (f : Interpreter → Interpreter) (s : State) : (s.onMgi f).zli = s.zli := rfl
@[simp] theorem onMgi_free (f : Interpreter → Interpreter) (s : State) : (s.onMgi f).free = s.free := rfl
@[simp] theorem onMgi_pending (f : Interpreter → Interpreter) (s : State) : (s.onMgi f).pending = s.pending := rfl

@[simp] theorem onNotices_tki (f : NoticeFifo → NoticeFifo) (s : State) : (s.onNotices f).tki = s.tki := rfl
@[simp] theorem onNotices_mgi (f : NoticeFifo → NoticeFifo) (s : State) : (s.onNotices f).mgi = s.mgi := rfl
@[simp] theorem onNotices_notices (f : NoticeFifo → NoticeFifo) (s : State) : (s.onNotices f).notices = f s.notices := rfl
@[simp] theorem onNotices_stats (f : NoticeFifo → NoticeFifo) (s : State) : (s.onNotices f).stats = s.stats := rfl
@[simp] theorem onNotices_sck (f : NoticeFifo → NoticeFifo) (s : State) : (s.onNotices f).sck = s.sck := rfl
@[simp] theorem onNotices_crg (f : NoticeFifo → NoticeFifo) (s : State) : (s.onNotices f).crg = s.crg := rfl
@[simp] theorem onNotices_tru (f : NoticeFifo → NoticeFifo) (s : State) : (s.onNotices f).tru = s.tru := rfl
@[simp] theorem onNotices_sxe (f : NoticeFifo → NoticeFifo) (s : State) : (s.onNotices f).sxe = s.sxe := rfl
@[simp] theorem onNotices_apl (f : NoticeFifo → NoticeFifo) (s : State) : (s.onNotices f).apl = s.apl := rfl
@[simp] theorem onNotices_zar (f : NoticeFifo → NoticeFifo) (s : State) : (s.onNotices f).zar = s.zar := rfl
@[simp] theorem onNotices_pbc (f : NoticeFifo → NoticeFifo) (s : State) : (s.onNotices f).pbc = s.pbc := rfl
@[simp] theorem onNotices_pmc (f : NoticeFifo → NoticeFifo) (s : State) : (s.onNotices f).pmc = s.pmc := rfl
@[simp] theorem onNotices_lmu (f : NoticeFifo → NoticeFifo) (s : State) : (s.onNotices f).lmu = s.lmu := rfl
@[simp] theorem onNotices_zli (f : NoticeFifo → NoticeFifo) (s : State) : (s.onNotices f).zli = s.zli := rfl
@[simp] theorem onNotices_free (f : NoticeFifo → NoticeFifo) (s : State) : (s.onNotices f).free = s.free := rfl
@[simp] theorem onNotices_pending (f : NoticeFifo → NoticeFifo) (s : State) : (s.onNotices f).pending = s.pending := rfl

@[simp] theorem onStats_tki (f : Tab Nat → Tab Nat) (s : State) : (s.onStats f).tki = s.tki := rfl
@[simp] theorem onStats_mgi (f : Tab Nat → Tab Nat) (s : State) : (s.onStats f).mgi = s.mgi := rfl
@[simp] theorem onStats_notices (f : Tab Nat → Tab Nat) (s : State) : (s.onStats f).notices = s.notices := rfl
@[simp] theorem onStats_stats (f : Tab Nat → Tab Nat) (s : State) : (s.onStats f).stats = f s.stats := rfl
@[simp] theorem onStats_sck (f : Tab Nat → Tab Nat) (s : State) : (s.onStats f).sck = s.sck := rfl
@[simp] theorem onStats_crg (f : Tab Nat → Tab Nat) (s : State) : (s.onStats f).crg = s.crg := rfl
@[simp] theorem onStats_tru (f : Tab Nat → Tab Nat) (s : State) : (s.onStats f).tru = s.tru := rfl
@[simp] theorem onStats_sxe (f : Tab Nat → Tab Nat) (s : State) : (s.onStats f).sxe = s.sxe := rfl
@[simp] theorem onStats_apl (f : Tab Nat → Tab Nat) (s : State) : (s.onStats f).apl = s.apl := rfl
@[simp] theorem onStats_zar (f : Tab Nat → Tab Nat) (s : State) : (s.onStats f).zar = s.zar := rfl
@[simp] theorem onStats_pbc (f : Tab Nat → Tab Nat) (s : State) : (s.onStats f).pbc = s.pbc := rfl
@[simp] theorem onStats_pmc (f : Tab Nat → Tab Nat) (s : State) : (s.onStats f).pmc = s.pmc := rfl
@[simp] theorem onStats_lmu (f : Tab Nat → Tab Nat) (s : State) : (s.onStats f).lmu = s.lmu := rfl
@[simp] theorem onStats_zli (f : Tab Nat → Tab Nat) (s : State) : (s.onStats f).zli = s.zli := rfl
@[simp] theorem onStats_free (f : Tab Nat → Tab Nat) (s : State) : (s.onStats f).free = s.free := rfl
@[simp] theorem onStats_pending (f : Tab Nat → Tab Nat) (s : State) : (s.onStats f).pending = s.pending := rfl

@[simp] theorem onSck_tki (f : Clock → Clock) (s : State) : (s.onSck f).tki = s.tki := rfl
@[simp] theorem onSck_mgi (f : Clock → Clock) (s : State) : (s.onSck f).mgi = s.mgi := rfl
@[simp] theorem onSck_notices (f : Clock → Clock) (s : State) : (s.onSck f).notices = s.notices := rfl
@[simp] theorem onSck_stats (f : Clock → Clock) (s : State) : (s.onSck f).stats = s.stats := rfl
@[simp] theorem onSck_sck (f : Clock → Clock) (s : State) : (s.onSck f).sck = f s.sck := rfl
@[simp] theorem onSck_crg (f : Clock → Clock) (s : State) : (s.onSck f).crg = s.crg := rfl
@[simp] theorem onSck_tru (f : Clock → Clock) (s : State) : (s.onSck f).tru = s.tru := rfl
@[simp] theorem onSck_sxe (f : Clock → Clock) (s : State) : (s.onSck f).sxe = s.sxe := rfl
@[simp] theorem onSck_apl (f : Clock → Clock) (s : State) : (s.onSck f).apl = s.apl := rfl
@[simp] theorem onSck_zar (f : Clock → Clock) (s : State) : (s.onSck f).zar = s.zar := rfl
@[simp] theorem onSck_pbc (f : Clock → Clock) (s : State) : (s.onSck f).pbc = s.pbc := rfl
@[simp] theorem onSck_pmc (f : Clock → Clock) (s : State) : (s.onSck f).pmc = s.pmc := rfl
@[simp] theorem onSck_lmu (f : Clock → Clock) (s : State) : (s.onSck f).lmu = s.lmu := rfl
@[simp] theorem onSck_zli (f : Clock → Clock) (s : State) : (s.onSck f).zli = s.zli := rfl
@[simp] theorem onSck_free (f : Clock → Clock) (s : State) : (s.onSck f).free = s.free := rfl
@[simp] theorem onSck_pending (f : Clock → Clock) (s : State) : (s.onSck f).pending = s.pending := rfl

@[simp] theorem onCrg_tki (f : CallRegister → CallRegister) (s : State) : (s.onCrg f).tki = s.tki := rfl
@[simp] theorem onCrg_mgi (f : CallRegister → CallRegister) (s : State) : (s.onCrg f).mgi = s.mgi := rfl
@[simp] theorem onCrg_notices (f : CallRegister → CallRegister) (s : State) : (s.onCrg f).notices = s.notices := rfl
@[simp] theorem onCrg_stats (f : CallRegister → CallRegister) (s : State) : (s.onCrg f).stats = s.stats := rfl
@[simp] theorem onCrg_sck (f : CallRegister → CallRegister) (s : State) : (s.onCrg f).sck = s.sck := rfl
@[simp] theorem onCrg_crg (f : CallRegister → CallRegister) (s : State) : (s.onCrg f).crg = f s.crg := rfl
@[simp] theorem onCrg_tru (f : CallRegister → CallRegister) (s : State) : (s.onCrg f).tru = s.tru := rfl
@[simp] theorem onCrg_sxe (f : CallRegister → CallRegister) (s : State) : (s.onCrg f).sxe = s.sxe := rfl
@[simp] theorem onCrg_apl (f : CallRegister → CallRegister) (s : State) : (s.onCrg f).apl = s.apl := rfl
@[simp] theorem onCrg_zar (f : CallRegister → CallRegister) (s : State) : (s.onCrg f).zar = s.zar := rfl
@[simp] theorem onCrg_pbc (f : CallRegister → CallRegister) (s : State) : (s.onCrg f).pbc = s.pbc := rfl
@[simp] theorem onCrg_pmc (f : CallRegister → CallRegister) (s : State) : (s.onCrg f).pmc = s.pmc := rfl
@[simp] theorem onCrg_lmu (f : CallRegister → CallRegister) (s : State) : (s.onCrg f).lmu = s.lmu := rfl
@[simp] theorem onCrg_zli (f : CallRegister → CallRegister) (s : State) : (s.onCrg f).zli = s.zli := rfl
@[simp] theorem onCrg_free (f : CallRegister → CallRegister) (s : State) : (s.onCrg f).free = s.free := rfl
@[simp] theorem onCrg_pending (f : CallRegister → CallRegister) (s : State) : (s.onCrg f).pending = s.pending := rfl

@[simp] theorem onTru_tki (f : TriggerUnit → TriggerUnit) (s : State) : (s.onTru f).tki = s.tki := rfl
@[simp] theorem onTru_mgi (f : TriggerUnit → TriggerUnit) (s : State) : (s.onTru f).mgi = s.mgi := rfl
@[simp] theorem onTru_notices (f : TriggerUnit → TriggerUnit) (s : State) : (s.onTru f).notices = s.notices := rfl
@[simp] theorem onTru_stats (f : TriggerUnit → TriggerUnit) (s : State) : (s.onTru f).stats = s.stats := rfl
@[simp] theorem onTru_sck (f : TriggerUnit → TriggerUnit) (s : State) : (s.onTru f).sck = s.sck := rfl
@[simp] theorem onTru_crg (f : TriggerUnit → TriggerUnit) (s : State) : (s.onTru f).crg = s.crg := rfl
@[simp] theorem onTru_tru (f : TriggerUnit → TriggerUnit) (s : State) : (s.onTru f).tru = f s.tru := rfl
@[simp] theorem onTru_sxe (f : TriggerUnit → TriggerUnit) (s : State) : (s.onTru f).sxe = s.sxe := rfl
@[simp] theorem onTru_apl (f : TriggerUnit → TriggerUnit) (s : State) : (s.onTru f).apl = s.apl := rfl
@[simp] theorem onTru_zar (f : TriggerUnit → TriggerUnit) (s : State) : (s.onTru f).zar = s.zar := rfl
@[simp] theorem onTru_pbc (f : TriggerUnit → TriggerUnit) (s : State) : (s.onTru f).pbc = s.pbc := rfl
@[simp] theorem onTru_pmc (f : TriggerUnit → TriggerUnit) (s : State) : (s.onTru f).pmc = s.pmc := rfl
@[simp] theorem onTru_lmu (f : TriggerUnit → TriggerUnit) (s : State) : (s.onTru f).lmu = s.lmu := rfl
@[simp] theorem onTru_zli (f : TriggerUnit → TriggerUnit) (s : State) : (s.onTru f).zli = s.zli := rfl
@[simp] theorem onTru_free (f : TriggerUnit → TriggerUnit) (s : State) : (s.onTru f).free = s.free := rfl
@[simp] theorem onTru_pending (f : TriggerUnit → TriggerUnit) (s : State) : (s.onTru f).pending = s.pending := rfl

@[simp] theorem onSxe_tki (f : ScriptExpander → ScriptExpander) (s : State) : (s.onSxe f).tki = s.tki := rfl
@[simp] theorem onSxe_mgi (f : ScriptExpander → ScriptExpander) (s : State) : (s.onSxe f).mgi = s.mgi := rfl
@[simp] theorem onSxe_notices (f : ScriptExpander → ScriptExpander) (s : State) : (s.onSxe f).notices = s.notices := rfl
@[simp] theorem onSxe_stats (f : ScriptExpander → ScriptExpander) (s : State) : (s.onSxe f).stats = s.stats := rfl
@[simp] theorem onSxe_sck (f : ScriptExpander → ScriptExpander) (s : State) : (s.onSxe f).sck = s.sck := rfl
@[simp] theorem onSxe_crg (f : ScriptExpander → ScriptExpander) (s : State) : (s.onSxe f).crg = s.crg := rfl
@[simp] theorem onSxe_tru (f : ScriptExpander → ScriptExpander) (s : State) : (s.onSxe f).tru = s.tru := rfl
@[simp] theorem onSxe_sxe (f : ScriptExpander → ScriptExpander) (s : State) : (s.onSxe f).sxe = f s.sxe := rfl
@[simp] theorem onSxe_apl (f : ScriptExpander → ScriptExpander) (s : State) : (s.onSxe f).apl = s.apl := rfl
@[simp] theorem onSxe_zar (f : ScriptExpander → ScriptExpander) (s : State) : (s.onSxe f).zar = s.zar := rfl
@[simp] theorem onSxe_pbc (f : ScriptExpander → ScriptExpander) (s : State) : (s.onSxe f).pbc = s.pbc := rfl
@[simp] theorem onSxe_pmc (f : ScriptExpander → ScriptExpander) (s : State) : (s.onSxe f).pmc = s.pmc := rfl
@[simp] theorem onSxe_lmu (f : ScriptExpander → ScriptExpander) (s : State) : (s.onSxe f).lmu = s.lmu := rfl
@[simp] theorem onSxe_zli (f : ScriptExpander → ScriptExpander) (s : State) : (s.onSxe f).zli = s.zli := rfl
@[simp] theorem onSxe_free (f : ScriptExpander → ScriptExpander) (s : State) : (s.onSxe f).free = s.free := rfl
@[simp] theorem onSxe_pending (f : ScriptExpander → ScriptExpander) (s : State) : (s.onSxe f).pending = s.pending := rfl

@[simp] theorem onApl_tki (f : AnnouncementPool → AnnouncementPool) (s : State) : (s.onApl f).tki = s.tki := rfl
@[simp] theorem onApl_mgi (f : AnnouncementPool → AnnouncementPool) (s : State) : (s.onApl f).mgi = s.mgi := rfl
@[simp] theorem onApl_notices (f : AnnouncementPool → AnnouncementPool) (s : State) : (s.onApl f).notices = s.notices := rfl
@[simp] theorem onApl_stats (f : AnnouncementPool → AnnouncementPool) (s : State) : (s.onApl f).stats = s.stats := rfl
@[simp] theorem onApl_sck (f : AnnouncementPool → AnnouncementPool) (s : State) : (s.onApl f).sck = s.sck := rfl
@[simp] theorem onApl_crg (f : AnnouncementPool → AnnouncementPool) (s : State) : (s.onApl f).crg = s.crg := rfl
@[simp] theorem onApl_tru (f : AnnouncementPool → AnnouncementPool) (s : State) : (s.onApl f).tru = s.tru := rfl
@[simp] theorem onApl_sxe (f : AnnouncementPool → AnnouncementPool) (s : State) : (s.onApl f).sxe = s.sxe := rfl
@[simp] theorem onApl_apl (f : AnnouncementPool → AnnouncementPool) (s : State) : (s.onApl f).apl = f s.apl := rfl
@[simp] theorem onApl_zar (f : AnnouncementPool → AnnouncementPool) (s : State) : (s.onApl f).zar = s.zar := rfl
@[simp] theorem onApl_pbc (f : AnnouncementPool → AnnouncementPool) (s : State) : (s.onApl f).pbc = s.pbc := rfl
@[simp] theorem onApl_pmc (f : AnnouncementPool → AnnouncementPool) (s : State) : (s.onApl f).pmc = s.pmc := rfl
@[simp] theorem onApl_lmu (f : AnnouncementPool → AnnouncementPool) (s : State) : (s.onApl f).lmu = s.lmu := rfl
@[simp] theorem onApl_zli (f : AnnouncementPool → AnnouncementPool) (s : State) : (s.onApl f).zli = s.zli := rfl
@[simp] theorem onApl_free (f : AnnouncementPool → AnnouncementPool) (s : State) : (s.onApl f).free = s.free := rfl
@[simp] theorem onApl_pending (f : AnnouncementPool → AnnouncementPool) (s : State) : (s.onApl f).pending = s.pending := rfl

@[simp] theorem onZar_tki (f : ZoneArbiter → ZoneArbiter) (s : State) : (s.onZar f).tki = s.tki := rfl
@[simp] theorem onZar_mgi (f : ZoneArbiter → ZoneArbiter) (s : State) : (s.onZar f).mgi = s.mgi := rfl
@[simp] theorem onZar_notices (f : ZoneArbiter → ZoneArbiter) (s : State) : (s.onZar f).notices = s.notices := rfl
@[simp] theorem onZar_stats (f : ZoneArbiter → ZoneArbiter) (s : State) : (s.onZar f).stats = s.stats := rfl
@[simp] theorem onZar_sck (f : ZoneArbiter → ZoneArbiter) (s : State) : (s.onZar f).sck = s.sck := rfl
@[simp] theorem onZar_crg (f : ZoneArbiter → ZoneArbiter) (s : State) : (s.onZar f).crg = s.crg := rfl
@[simp] theorem onZar_tru (f : ZoneArbiter → ZoneArbiter) (s : State) : (s.onZar f).tru = s.tru := rfl
@[simp] theorem onZar_sxe (f : ZoneArbiter → ZoneArbiter) (s : State) : (s.onZar f).sxe = s.sxe := rfl
@[simp] theorem onZar_apl (f : ZoneArbiter → ZoneArbiter) (s : State) : (s.onZar f).apl = s.apl := rfl
@[simp] theorem onZar_zar (f : ZoneArbiter → ZoneArbiter) (s : State) : (s.onZar f).zar = f s.zar := rfl
@[simp] theorem onZar_pbc (f : ZoneArbiter → ZoneArbiter) (s : State) : (s.onZar f).pbc = s.pbc := rfl
@[simp] theorem onZar_pmc (f : ZoneArbiter → ZoneArbiter) (s : State) : (s.onZar f).pmc = s.pmc := rfl
@[simp] theorem onZar_lmu (f : ZoneArbiter → ZoneArbiter) (s : State) : (s.onZar f).lmu = s.lmu := rfl
@[simp] theorem onZar_zli (f : ZoneArbiter → ZoneArbiter) (s : State) : (s.onZar f).zli = s.zli := rfl
@[simp] theorem onZar_free (f : ZoneArbiter → ZoneArbiter) (s : State) : (s.onZar f).free = s.free := rfl
@[simp] theorem onZar_pending (f : ZoneArbiter → ZoneArbiter) (s : State) : (s.onZar f).pending = s.pending := rfl

@[simp] theorem onPbc_tki (f : Tab Channel → Tab Channel) (s : State) : (s.onPbc f).tki = s.tki := rfl
@[simp] theorem onPbc_mgi (f : Tab Channel → Tab Channel) (s : State) : (s.onPbc f).mgi = s.mgi := rfl
@[simp] theorem onPbc_notices (f : Tab Channel → Tab Channel) (s : State) : (s.onPbc f).notices = s.notices := rfl
@[simp] theorem onPbc_stats (f : Tab Channel → Tab Channel) (s : State) : (s.onPbc f).stats = s.stats := rfl
@[simp] theorem onPbc_sck (f : Tab Channel → Tab Channel) (s : State) : (s.onPbc f).sck = s.sck := rfl
@[simp] theorem onPbc_crg (f : Tab Channel → Tab Channel) (s : State) : (s.onPbc f).crg = s.crg := rfl
@[simp] theorem onPbc_tru (f : Tab Channel → Tab Channel) (s : State) : (s.onPbc f).tru = s.tru := rfl
@[simp] theorem onPbc_sxe (f : Tab Channel → Tab Channel) (s : State) : (s.onPbc f).sxe = s.sxe := rfl
@[simp] theorem onPbc_apl (f : Tab Channel → Tab Channel) (s : State) : (s.onPbc f).apl = s.apl := rfl
@[simp] theorem onPbc_zar (f : Tab Channel → Tab Channel) (s : State) : (s.onPbc f).zar = s.zar := rfl
@[simp] theorem onPbc_pbc (f : Tab Channel → Tab Channel) (s : State) : (s.onPbc f).pbc = f s.pbc := rfl
@[simp] theorem onPbc_pmc (f : Tab Channel → Tab Channel) (s : State) : (s.onPbc f).pmc = s.pmc := rfl
@[simp] theorem onPbc_lmu (f : Tab Channel → Tab Channel) (s : State) : (s.onPbc f).lmu = s.lmu := rfl
@[simp] theorem onPbc_zli (f : Tab Channel → Tab Channel) (s : State) : (s.onPbc f).zli = s.zli := rfl
@[simp] theorem onPbc_free (f : Tab Channel → Tab Channel) (s : State) : (s.onPbc f).free = s.free := rfl
@[simp] theorem onPbc_pending (f : Tab Channel → Tab Channel) (s : State) : (s.onPbc f).pending = s.pending := rfl

@[simp] theorem onPmc_tki (f : PhraseController → PhraseController) (s : State) : (s.onPmc f).tki = s.tki := rfl
@[simp] theorem onPmc_mgi (f : PhraseController → PhraseController) (s : State) : (s.onPmc f).mgi = s.mgi := rfl
@[simp] theorem onPmc_notices (f : PhraseController → PhraseController) (s : State) : (s.onPmc f).notices = s.notices := rfl
@[simp] theorem onPmc_stats (f : PhraseController → PhraseController) (s : State) : (s.onPmc f).stats = s.stats := rfl
@[simp] theorem onPmc_sck (f : PhraseController → PhraseController) (s : State) : (s.onPmc f).sck = s.sck := rfl
@[simp] theorem onPmc_crg (f : PhraseController → PhraseController) (s : State) : (s.onPmc f).crg = s.crg := rfl
@[simp] theorem onPmc_tru (f : PhraseController → PhraseController) (s : State) : (s.onPmc f).tru = s.tru := rfl
@[simp] theorem onPmc_sxe (f : PhraseController → PhraseController) (s : State) : (s.onPmc f).sxe = s.sxe := rfl
@[simp] theorem onPmc_apl (f : PhraseController → PhraseController) (s : State) : (s.onPmc f).apl = s.apl := rfl
@[simp] theorem onPmc_zar (f : PhraseController → PhraseController) (s : State) : (s.onPmc f).zar = s.zar := rfl
@[simp] theorem onPmc_pbc (f : PhraseController → PhraseController) (s : State) : (s.onPmc f).pbc = s.pbc := rfl
@[simp] theorem onPmc_pmc (f : PhraseController → PhraseController) (s : State) : (s.onPmc f).pmc = f s.pmc := rfl
@[simp] theorem onPmc_lmu (f : PhraseController → PhraseController) (s : State) : (s.onPmc f).lmu = s.lmu := rfl
@[simp] theorem onPmc_zli (f : PhraseController → PhraseController) (s : State) : (s.onPmc f).zli = s.zli := rfl
@[simp] theorem onPmc_free (f : PhraseController → PhraseController) (s : State) : (s.onPmc f).free = s.free := rfl
@[simp] theorem onPmc_pending (f : PhraseController → PhraseController) (s : State) : (s.onPmc f).pending = s.pending := rfl

@[simp] theorem onLmu_tki (f : LevelMix → LevelMix) (s : State) : (s.onLmu f).tki = s.tki := rfl
@[simp] theorem onLmu_mgi (f : LevelMix → LevelMix) (s : State) : (s.onLmu f).mgi = s.mgi := rfl
@[simp] theorem onLmu_notices (f : LevelMix → LevelMix) (s : State) : (s.onLmu f).notices = s.notices := rfl
@[simp] theorem onLmu_stats (f : LevelMix → LevelMix) (s : State) : (s.onLmu f).stats = s.stats := rfl
@[simp] theorem onLmu_sck (f : LevelMix → LevelMix) (s : State) : (s.onLmu f).sck = s.sck := rfl
@[simp] theorem onLmu_crg (f : LevelMix → LevelMix) (s : State) : (s.onLmu f).crg = s.crg := rfl
@[simp] theorem onLmu_tru (f : LevelMix → LevelMix) (s : State) : (s.onLmu f).tru = s.tru := rfl
@[simp] theorem onLmu_sxe (f : LevelMix → LevelMix) (s : State) : (s.onLmu f).sxe = s.sxe := rfl
@[simp] theorem onLmu_apl (f : LevelMix → LevelMix) (s : State) : (s.onLmu f).apl = s.apl := rfl
@[simp] theorem onLmu_zar (f : LevelMix → LevelMix) (s : State) : (s.onLmu f).zar = s.zar := rfl
@[simp] theorem onLmu_pbc (f : LevelMix → LevelMix) (s : State) : (s.onLmu f).pbc = s.pbc := rfl
@[simp] theorem onLmu_pmc (f : LevelMix → LevelMix) (s : State) : (s.onLmu f).pmc = s.pmc := rfl
@[simp] theorem onLmu_lmu (f : LevelMix → LevelMix) (s : State) : (s.onLmu f).lmu = f s.lmu := rfl
@[simp] theorem onLmu_zli (f : LevelMix → LevelMix) (s : State) : (s.onLmu f).zli = s.zli := rfl
@[simp] theorem onLmu_free (f : LevelMix → LevelMix) (s : State) : (s.onLmu f).free = s.free := rfl
@[simp] theorem onLmu_pending (f : LevelMix → LevelMix) (s : State) : (s.onLmu f).pending = s.pending := rfl

@[simp] theorem onZli_tki (f : LinkInterface → LinkInterface) (s : State) : (s.onZli f).tki = s.tki := rfl
@[simp] theorem onZli_mgi (f : LinkInterface → LinkInterface) (s : State) : (s.onZli f).mgi = s.mgi := rfl
@[simp] theorem onZli_notices (f : LinkInterface → LinkInterface) (s : State) : (s.onZli f).notices = s.notices := rfl
@[simp] theorem onZli_stats (f : LinkInterface → LinkInterface) (s : State) : (s.onZli f).stats = s.stats := rfl
@[simp] theorem onZli_sck (f : LinkInterface → LinkInterface) (s : State) : (s.onZli f).sck = s.sck := rfl
@[simp] theorem onZli_crg (f : LinkInterface → LinkInterface) (s : State) : (s.onZli f).crg = s.crg := rfl
@[simp] theorem onZli_tru (f : LinkInterface → LinkInterface) (s : State) : (s.onZli f).tru = s.tru := rfl
@[simp] theorem onZli_sxe (f : LinkInterface → LinkInterface) (s : State) : (s.onZli f).sxe = s.sxe := rfl
@[simp] theorem onZli_apl (f : LinkInterface → LinkInterface) (s : State) : (s.onZli f).apl = s.apl := rfl
@[simp] theorem onZli_zar (f : LinkInterface → LinkInterface) (s : State) : (s.onZli f).zar = s.zar := rfl
@[simp] theorem onZli_pbc (f : LinkInterface → LinkInterface) (s : State) : (s.onZli f).pbc = s.pbc := rfl
@[simp] theorem onZli_pmc (f : LinkInterface → LinkInterface) (s : State) : (s.onZli f).pmc = s.pmc := rfl
@[simp] theorem onZli_lmu (f : LinkInterface → LinkInterface) (s : State) : (s.onZli f).lmu = s.lmu := rfl
@[simp] theorem onZli_zli (f : LinkInterface → LinkInterface) (s : State) : (s.onZli f).zli = f s.zli := rfl
@[simp] theorem onZli_free (f : LinkInterface → LinkInterface) (s : State) : (s.onZli f).free = s.free := rfl
@[simp] theorem onZli_pending (f : LinkInterface → LinkInterface) (s : State) : (s.onZli f).pending = s.pending := rfl

@[simp] theorem drawFree_tki (s : State) : s.drawFree.tki = s.tki := rfl
@[simp] theorem drawFree_mgi (s : State) : s.drawFree.mgi = s.mgi := rfl
@[simp] theorem drawFree_notices (s : State) : s.drawFree.notices = s.notices := rfl
@[simp] theorem drawFree_stats (s : State) : s.drawFree.stats = s.stats := rfl
@[simp] theorem drawFree_sck (s : State) : s.drawFree.sck = s.sck := rfl
@[simp] theorem drawFree_crg (s : State) : s.drawFree.crg = s.crg := rfl
@[simp] theorem drawFree_tru (s : State) : s.drawFree.tru = s.tru := rfl
@[simp] theorem drawFree_sxe (s : State) : s.drawFree.sxe = s.sxe := rfl
@[simp] theorem drawFree_apl (s : State) : s.drawFree.apl = s.apl := rfl
@[simp] theorem drawFree_zar (s : State) : s.drawFree.zar = s.zar := rfl
@[simp] theorem drawFree_pbc (s : State) : s.drawFree.pbc = s.pbc := rfl
@[simp] theorem drawFree_pmc (s : State) : s.drawFree.pmc = s.pmc := rfl
@[simp] theorem drawFree_lmu (s : State) : s.drawFree.lmu = s.lmu := rfl
@[simp] theorem drawFree_zli (s : State) : s.drawFree.zli = s.zli := rfl
@[simp] theorem drawFree_free (s : State) : s.drawFree.free = s.free + 1 := rfl
@[simp] theorem drawFree_pending (s : State) : s.drawFree.pending = s.pending := rfl

end Sys2Proof.Machine
end

