-- ==== Sys2Proof/Laws/Table.lean ====
section
/-! SUPPORT. The laws of tables: an entry written reads back, every other entry reads as before, and the rising order
of the indexes is kept. From them, the laws of phrase memory. -/

namespace Sys2Proof.Machine

theorem tabGet_tabSet_same {α : Type} (t : Tab α) (i : Nat) (v : α) : tabGet (tabSet t i v) i = some v := by
  induction t with
  | nil => simp [tabSet, tabGet]
  | cons p rest ih =>
    obtain ⟨j, w⟩ := p
    simp only [tabSet]
    split
    · simp [tabGet]
    · split
      · simp [tabGet]
      · next h _ => simp [tabGet, h, ih]

theorem tabGet_tabSet_other {α : Type} (t : Tab α) {i j : Nat} (v : α) (h : j ≠ i) :
    tabGet (tabSet t i v) j = tabGet t j := by
  induction t with
  | nil => simp [tabSet, tabGet, h]
  | cons p rest ih =>
    obtain ⟨k, w⟩ := p
    simp only [tabSet]
    split
    · next e => subst e; simp [tabGet, h]
    · split
      · simp [tabGet, h]
      · simp only [tabGet]; split <;> simp_all

/-- A second write of an entry is the one that stands. -/
theorem tabSet_tabSet {α : Type} (t : Tab α) (i : Nat) (v w : α) : tabSet (tabSet t i v) i w = tabSet t i w := by
  induction t with
  | nil => simp [tabSet]
  | cons p rest ih =>
    obtain ⟨j, x⟩ := p
    by_cases h1 : i = j
    · simp [tabSet, h1]
    · by_cases h2 : i < j
      · simp [tabSet, h1, h2]
      · simp [tabSet, h1, h2, ih]

/-- Two updates of one entry are one. -/
theorem tabUpd_tabUpd {α : Type} (t : Tab α) (i : Nat) (f g : α → α) :
    tabUpd (tabUpd t i f) i g = tabUpd t i fun x => g (f x) := by
  unfold tabUpd
  cases h : tabGet t i with
  | none => simp [h]
  | some v => simp [tabGet_tabSet_same, tabSet_tabSet]

theorem tabGet_tabDel_other {α : Type} (t : Tab α) {i j : Nat} (h : j ≠ i) :
    tabGet (tabDel t i) j = tabGet t j := by
  induction t with
  | nil => simp [tabDel, tabGet]
  | cons p rest ih =>
    obtain ⟨k, w⟩ := p
    simp only [tabDel]
    split
    · next e => subst e; simp [tabGet, h]
    · simp only [tabGet]; split <;> simp_all

/-- Every index of a rising table's tail lies above its head's. -/
theorem tabRising_head {α : Type} {i : Nat} {v : α} {t : Tab α} (h : tabRising ((i, v) :: t) = true) :
    tabRising t = true ∧ ∀ p ∈ t, i < p.1 := by
  induction t generalizing i v with
  | nil => simp [tabRising]
  | cons q rest ih =>
    obtain ⟨j, w⟩ := q
    simp only [tabRising, Bool.and_eq_true, decide_eq_true_eq] at h
    refine ⟨h.2, fun p hp => ?_⟩
    rcases List.mem_cons.1 hp with rfl | hp
    · exact h.1
    · exact Nat.lt_trans h.1 ((ih h.2).2 p hp)

theorem tabRising_cons {α : Type} {i : Nat} {v : α} {t : Tab α} (h : tabRising t = true) (hi : ∀ p ∈ t, i < p.1) :
    tabRising ((i, v) :: t) = true := by
  cases t with
  | nil => rfl
  | cons q rest => simpa [tabRising, h] using hi q (by simp)

theorem mem_tabSet {α : Type} {t : Tab α} {i : Nat} {v : α} {p : Nat × α} (h : p ∈ tabSet t i v) :
    p = (i, v) ∨ p ∈ t := by
  induction t with
  | nil => simpa [tabSet] using h
  | cons q rest ih =>
    obtain ⟨k, w⟩ := q
    simp only [tabSet] at h
    split at h
    · rcases List.mem_cons.1 h with h | h <;> simp [h]
    · split at h
      · rcases List.mem_cons.1 h with h | h
        · exact .inl h
        · exact .inr h
      · rcases List.mem_cons.1 h with h | h
        · exact .inr (by simp [h])
        · rcases ih h with h | h
          · exact .inl h
          · exact .inr (by simp [h])

theorem mem_tabDel {α : Type} {t : Tab α} {i : Nat} {p : Nat × α} (h : p ∈ tabDel t i) : p ∈ t := by
  induction t with
  | nil => simp [tabDel] at h
  | cons q rest ih =>
    obtain ⟨k, w⟩ := q
    simp only [tabDel] at h
    split at h
    · simp [h]
    · rcases List.mem_cons.1 h with h | h
      · simp [h]
      · simp [ih h]

theorem tabSet_rising {α : Type} {t : Tab α} (i : Nat) (v : α) (h : tabRising t = true) :
    tabRising (tabSet t i v) = true := by
  induction t with
  | nil => rfl
  | cons q rest ih =>
    obtain ⟨k, w⟩ := q
    have hr := tabRising_head h
    simp only [tabSet]
    split
    · next e => subst e; exact tabRising_cons hr.1 hr.2
    · split
      · next hlt =>
        refine tabRising_cons h fun p hp => ?_
        rcases List.mem_cons.1 hp with rfl | hp
        · exact hlt
        · exact Nat.lt_trans hlt (hr.2 p hp)
      · refine tabRising_cons (ih hr.1) fun p hp => ?_
        rcases mem_tabSet hp with rfl | hp
        · simp only; omega
        · exact hr.2 p hp

theorem tabDel_rising {α : Type} {t : Tab α} (i : Nat) (h : tabRising t = true) : tabRising (tabDel t i) = true := by
  induction t with
  | nil => rfl
  | cons q rest ih =>
    obtain ⟨k, w⟩ := q
    have hr := tabRising_head h
    simp only [tabDel]
    split
    · exact hr.1
    · exact tabRising_cons (ih hr.1) fun p hp => hr.2 p (mem_tabDel hp)

theorem tabGet_tabDel_same {α : Type} {t : Tab α} (i : Nat) (h : tabRising t = true) : tabGet (tabDel t i) i = none := by
  induction t with
  | nil => rfl
  | cons q rest ih =>
    obtain ⟨k, w⟩ := q
    have hr := tabRising_head h
    simp only [tabDel]
    split
    · next e =>
      subst e
      have : ∀ u : Tab α, (∀ p ∈ u, i < p.1) → tabGet u i = none := by
        intro u hu
        induction u with
        | nil => rfl
        | cons p u ihu =>
          have := hu p (by simp)
          simp only [tabGet]
          rw [if_neg (by omega)]
          exact ihu fun p hp => hu p (by simp [hp])
      exact this rest hr.2
    · next e => simp [tabGet, e, ih hr.1]

theorem tabSetD_rising {α : Type} [DecidableEq α] {t : Tab α} (i : Nat) (d v : α) (h : tabRising t = true) :
    tabRising (tabSetD t i d v) = true := by
  unfold tabSetD
  split
  · exact tabDel_rising i h
  · exact tabSet_rising i v h

theorem tabGetD_tabSetD_same {α : Type} [DecidableEq α] {t : Tab α} (i : Nat) (d v : α) (h : tabRising t = true) :
    tabGetD (tabSetD t i d v) i d = v := by
  unfold tabSetD tabGetD
  split
  · next e => simp [tabGet_tabDel_same i h, e]
  · simp [tabGet_tabSet_same]

theorem tabGetD_tabSetD_other {α : Type} [DecidableEq α] (t : Tab α) {i j : Nat} (d v : α) (h : j ≠ i) :
    tabGetD (tabSetD t i d v) j d = tabGetD t j d := by
  unfold tabSetD tabGetD
  split
  · rw [tabGet_tabDel_other t h]
  · rw [tabGet_tabSet_other t v h]

theorem mem_tabSetD {α : Type} [DecidableEq α] {t : Tab α} {i : Nat} {d v : α} {p : Nat × α}
    (h : p ∈ tabSetD t i d v) : p = (i, v) ∨ p ∈ t := by
  unfold tabSetD at h
  split at h
  · exact .inr (mem_tabDel h)
  · exact mem_tabSet h

/-! ### Phrase memory (R150, R151) -/

theorem phraseWf_iff (m : Tab Sample) :
    phraseWf m = true ↔ tabRising m = true ∧ ∀ p ∈ m, p.1 < Config.phraseSize := by
  simp [phraseWf]

/-- A write within the address range keeps the canonical form. -/
theorem writePhrases_wf {m : Tab Sample} {a : Nat} {l : List Sample} (h : phraseWf m = true)
    (ha : a + l.length ≤ Config.phraseSize) : phraseWf (writePhrases m a l) = true := by
  induction l generalizing m a with
  | nil => exact h
  | cons x rest ih =>
    rw [List.length_cons] at ha
    have h' := (phraseWf_iff m).1 h
    refine ih ((phraseWf_iff _).2 ⟨tabSet_rising a x h'.1, fun p hp => ?_⟩) (by omega)
    rcases mem_tabSet hp with rfl | hp
    · simp only; omega
    · exact h'.2 p hp

/-- An address outside the range written reads as before. -/
theorem writePhrases_other {m : Tab Sample} {a b : Nat} {l : List Sample} (h : b < a ∨ a + l.length ≤ b) :
    tabGet (writePhrases m a l) b = tabGet m b := by
  induction l generalizing m a with
  | nil => rfl
  | cons x rest ih =>
    rw [List.length_cons] at h
    rw [writePhrases, ih (by omega), tabGet_tabSet_other m x (by omega)]

/-- An address within the range written reads as the sample written there. -/
theorem writePhrases_same {m : Tab Sample} {a : Nat} {l : List Sample} {k : Nat} (h : k < l.length) :
    tabGet (writePhrases m a l) (a + k) = l[k]? := by
  induction l generalizing m a k with
  | nil => simp at h
  | cons x rest ih =>
    cases k with
    | zero => rw [writePhrases, writePhrases_other (by omega)]; simp [tabGet_tabSet_same]
    | succ k =>
      have hk : k < rest.length := by simpa using h
      rw [writePhrases, show a + (k + 1) = (a + 1) + k by omega, ih hk]
      simp

end Sys2Proof.Machine
end

