-- ==== Sys2Proof/Laws/Calls.lean ====
section
/-! SUPPORT. The call table's soundness under the ways its slots are written, one lemma for each; what a record written
with its events leaves, and how an event sees its record. -/

namespace Sys2Proof.Machine

theorem tabRising_nodup {α : Type} {t : Tab α} (h : tabRising t = true) : t.Nodup := by
  induction t with
  | nil => exact List.nodup_nil
  | cons q rest ih =>
    obtain ⟨k, w⟩ := q
    have hk := tabRising_head h
    refine List.nodup_cons.2 ⟨fun hm => ?_, ih hk.1⟩
    exact Nat.lt_irrefl _ (hk.2 _ hm)

/-- In a table with rising indexes, an index is listed once. -/
theorem tabGet_of_mem {α : Type} {t : Tab α} {i : Nat} {v : α} (h : tabRising t = true) (hm : (i, v) ∈ t) :
    tabGet t i = some v := by
  induction t with
  | nil => simp at hm
  | cons q rest ih =>
    obtain ⟨k, w⟩ := q
    have hk := tabRising_head h
    rcases List.mem_cons.1 hm with he | hm
    · obtain ⟨rfl, rfl⟩ := Prod.mk.inj he
      simp [tabGet]
    · have : k < i := hk.2 _ hm
      simp [tabGet, ih hk.1 hm, Nat.ne_of_gt this]

theorem mem_of_tabGet {α : Type} {t : Tab α} {i : Nat} {v : α} (h : tabGet t i = some v) : (i, v) ∈ t := by
  induction t with
  | nil => simp [tabGet] at h
  | cons q rest ih =>
    obtain ⟨k, w⟩ := q
    unfold tabGet at h
    split at h
    · next e => simp_all
    · exact List.mem_cons_of_mem _ (ih h)

theorem CallsSound.inj {t : Tab CallRec} (h : CallsSound t) {p q : Nat × CallRec} (hp : p ∈ t) (hq : q ∈ t)
    (he : p.2.callRef = q.2.callRef) : p = q :=
  List.inj_on_of_nodup_map h.2.1 hp hq he

/-- A sound record written into a slot keeps the table sound, if no other slot holds its call_ref. -/
theorem CallsSound.put {t : Tab CallRec} (h : CallsSound t) {i : Nat} {c : CallRec} (hi : i ≤ 511) (hc : c.Sound)
    (hr : ∀ p ∈ t, p.1 ≠ i → p.2.callRef ≠ c.callRef) : CallsSound (tabSet t i c) := by
  have hrise := tabSet_rising i c h.1
  refine ⟨hrise, ?_, fun p hp => ?_⟩
  · refine List.Nodup.map_on ?_ (tabRising_nodup hrise)
    have key : ∀ p ∈ tabSet t i c, p = (i, c) ∨ (p ∈ t ∧ p.1 ≠ i) := by
      intro p hp
      rcases mem_tabSet hp with rfl | hm
      · exact .inl rfl
      · by_cases he : p.1 = i
        · obtain ⟨j, v⟩ := p
          have he : j = i := he
          subst he
          have h1 := tabGet_of_mem hrise hp
          rw [tabGet_tabSet_same] at h1
          exact .inl (by rw [Option.some.inj h1])
        · exact .inr ⟨hm, he⟩
    intro p hp q hq he
    rcases key p hp with rfl | ⟨hp, hpi⟩ <;> rcases key q hq with rfl | ⟨hq, hqi⟩
    · rfl
    · exact absurd he.symm (hr q hq hqi)
    · exact absurd he (hr p hp hpi)
    · exact h.inj hp hq he
  · rcases mem_tabSet hp with rfl | hm
    · exact ⟨hi, hc⟩
    · exact h.2.2 p hm

/-- A record changed in its slot, its call_ref kept, keeps the table sound. -/
theorem CallsSound.change {t : Tab CallRec} (h : CallsSound t) {i : Nat} {old c : CallRec} (hg : tabGet t i = some old)
    (hr : c.callRef = old.callRef) (hc : old.Sound → c.Sound) : CallsSound (tabSet t i c) := by
  have hm := mem_of_tabGet hg
  refine h.put (h.2.2 _ hm).1 (hc (h.2.2 _ hm).2) fun p hp hpi he => hpi ?_
  have := h.inj hp hm (he.trans hr)
  rw [this]

theorem CallsSound.drop {t : Tab CallRec} (h : CallsSound t) (i : Nat) : CallsSound (tabDel t i) := by
  have hrise := tabDel_rising i h.1
  refine ⟨hrise, ?_, fun p hp => h.2.2 p (mem_tabDel hp)⟩
  refine List.Nodup.map_on (fun p hp q hq he => h.inj (mem_tabDel hp) (mem_tabDel hq) he) (tabRising_nodup hrise)

/-! ### A record written with its events (R34, R35) -/

/-- The record and its events are what `withCall` says of them. -/
theorem putCall_eq (slot : Nat) (c : CallRec) (es : List TriggerEvent) (s : State) :
    putCall slot c es s = withCall slot c es [] s := by
  simp only [withCall, List.map_nil, List.append_nil]
  rfl

/-- A due check made by a command: both events see the record that is due (R21, R29, R35). -/
theorem putDueChecked_eq (slot : Nat) (c : CallRec) (e : TriggerEvent) (s : State) :
    putDueChecked slot c e s =
      if isDue s.tru.plans s.sck.time c then
        withCall slot { c with state := .due, stateSince := s.sck.time } [e, .stateEntry .due] [] s
      else withCall slot c [e] [] s := by
  unfold putDueChecked enterState
  split <;> exact putCall_eq _ _ _ _

/-! ### The record as an event saw it (R35, R60) -/

@[simp] theorem asSeen_none (c : CallRec) : c.asSeen none = c := rfl
@[simp] theorem asSeen_some (r c : CallRec) : c.asSeen (some r) = { r with plan := c.plan, steps := c.steps } := rfl
@[simp] theorem asSeen_plan (seen : Option CallRec) (c : CallRec) : (c.asSeen seen).plan = c.plan := by
  cases seen <;> rfl
@[simp] theorem asSeen_steps (seen : Option CallRec) (c : CallRec) : (c.asSeen seen).steps = c.steps := by
  cases seen <;> rfl
@[simp] theorem asSeen_entry (seen : Option CallRec) (c : CallRec) (i : Nat) : (c.asSeen seen).entry i = c.entry i := by
  cases seen <;> rfl

end Sys2Proof.Machine
end

