-- ==== Sys2Proof/Laws/Inner.lean ====
section
/-! SUPPORT. What the inner operations of the part leave alone: the blocks that only a command or a step from outside
changes, and the soundness of the notice FIFO, the counters and the pool. One lemma for each shared operation. -/

namespace Sys2Proof.Machine

/-- An inner operation's frame: the blocks it leaves as they were, and the soundness it keeps. -/
structure Inner (s t : State) : Prop where
  tki : t.tki = s.tki
  mgi : t.mgi = s.mgi
  sck : t.sck = s.sck
  sxe : t.sxe = s.sxe
  pmc : t.pmc = s.pmc
  zli : t.zli = s.zli
  free : t.free = s.free
  pending : t.pending = s.pending
  mask : t.notices.mask = s.notices.mask
  patterns : t.crg.patterns = s.crg.patterns
  plans : t.tru.plans = s.tru.plans
  platforms : t.zar.platforms = s.zar.platforms
  groups : t.zar.groups = s.zar.groups
  fifo : FifoSound s.notices.fifo → FifoSound t.notices.fifo
  stats : StatsSound s.stats → StatsSound t.stats
  pool : PoolSound s.apl → PoolSound t.apl
  calls : CallsSound s.crg.calls → CallsSound t.crg.calls

theorem Inner.refl (s : State) : Inner s s :=
  ⟨rfl, rfl, rfl, rfl, rfl, rfl, rfl, rfl, rfl, rfl, rfl, rfl, rfl, id, id, id, id⟩

theorem Inner.trans {s t u : State} (a : Inner s t) (b : Inner t u) : Inner s u :=
  ⟨b.tki.trans a.tki, b.mgi.trans a.mgi, b.sck.trans a.sck, b.sxe.trans a.sxe, b.pmc.trans a.pmc, b.zli.trans a.zli,
   b.free.trans a.free, b.pending.trans a.pending, b.mask.trans a.mask, b.patterns.trans a.patterns,
   b.plans.trans a.plans, b.platforms.trans a.platforms, b.groups.trans a.groups, b.fifo ∘ a.fifo, b.stats ∘ a.stats,
   b.pool ∘ a.pool, b.calls ∘ a.calls⟩

/-! ### One block -/

theorem Inner.onLmu (f : LevelMix → LevelMix) (s : State) : Inner s (s.onLmu f) :=
  ⟨rfl, rfl, rfl, rfl, rfl, rfl, rfl, rfl, rfl, rfl, rfl, rfl, rfl, id, id, id, id⟩

theorem Inner.onPbc (f : Tab Channel → Tab Channel) (s : State) : Inner s (s.onPbc f) :=
  ⟨rfl, rfl, rfl, rfl, rfl, rfl, rfl, rfl, rfl, rfl, rfl, rfl, rfl, id, id, id, id⟩

theorem Inner.onZar {f : ZoneArbiter → ZoneArbiter} {s : State} (h1 : (f s.zar).platforms = s.zar.platforms)
    (h2 : (f s.zar).groups = s.zar.groups) : Inner s (s.onZar f) :=
  ⟨rfl, rfl, rfl, rfl, rfl, rfl, rfl, rfl, rfl, rfl, rfl, h1, h2, id, id, id, id⟩

theorem Inner.onTru {f : TriggerUnit → TriggerUnit} {s : State} (h : (f s.tru).plans = s.tru.plans) :
    Inner s (s.onTru f) :=
  ⟨rfl, rfl, rfl, rfl, rfl, rfl, rfl, rfl, rfl, rfl, h, rfl, rfl, id, id, id, id⟩

theorem Inner.onCrg {f : CallRegister → CallRegister} {s : State} (h : (f s.crg).patterns = s.crg.patterns)
    (hc : CallsSound s.crg.calls → CallsSound (f s.crg).calls) : Inner s (s.onCrg f) :=
  ⟨rfl, rfl, rfl, rfl, rfl, rfl, rfl, rfl, rfl, h, rfl, rfl, rfl, id, id, id, hc⟩

theorem Inner.onApl {f : AnnouncementPool → AnnouncementPool} {s : State} (h : PoolSound s.apl → PoolSound (f s.apl)) :
    Inner s (s.onApl f) :=
  ⟨rfl, rfl, rfl, rfl, rfl, rfl, rfl, rfl, rfl, rfl, rfl, rfl, rfl, id, id, h, id⟩

/-- A change of the pool that keeps the ann_ids of its records in their places, and the last one assigned. -/
theorem PoolSound.sameIds {p q : AnnouncementPool} (h : PoolSound p)
    (hr : (q.records.map fun r => r.annId) = p.records.map fun r => r.annId) (hl : q.lastId = p.lastId) :
    PoolSound q := by
  have hlen : q.records.length = p.records.length := by simpa using congrArg List.length hr
  refine ⟨hlen ▸ h.1, hr ▸ h.2.1, fun r hm => ?_, hl ▸ h.2.2.2⟩
  have : r.annId ∈ p.records.map fun r => r.annId := hr ▸ List.mem_map_of_mem (f := fun r => r.annId) hm
  obtain ⟨r', hm', he⟩ := List.mem_map.1 this
  exact he ▸ h.2.2.1 r' hm'

/-! ### Counters and notices -/

theorem StatsSound.put {t : Tab Nat} (h : StatsSound t) (i v : Nat) (hv : v ≤ Config.maxCount) :
    StatsSound (tabSetD t i 0 v) := by
  refine ⟨tabSetD_rising i 0 v h.1, fun p hp => ?_⟩
  rcases mem_tabSetD hp with rfl | hp
  · exact hv
  · exact h.2 p hp

theorem Inner.countBy (c : Counter) (n : Nat) (s : State) : Inner s (countBy c n s) :=
  ⟨rfl, rfl, rfl, rfl, rfl, rfl, rfl, rfl, rfl, rfl, rfl, rfl, rfl, id,
   fun h => h.put _ _ (Nat.min_le_right _ _), id, id⟩

theorem Inner.count (c : Counter) (s : State) : Inner s (count c s) := Inner.countBy c 1 s

theorem markerOf_overflow_append (l : List Notice) (k : Nat) : markerOf (l ++ [.overflow k]) = some k := by
  induction l with
  | nil => rfl
  | cons x rest ih =>
    cases rest with
    | nil => cases x <;> simp [markerOf]
    | cons y more => cases x <;> simp only [List.cons_append, markerOf] <;> exact ih

/-- A FIFO with a marker ends in it. -/
theorem markerOf_some {l : List Notice} {k : Nat} (h : markerOf l = some k) : l = l.dropLast ++ [.overflow k] := by
  induction l with
  | nil => simp [markerOf] at h
  | cons x rest ih =>
    cases rest with
    | nil => cases x <;> simp_all [markerOf]
    | cons y more =>
      have h' : markerOf (y :: more) = some k := by cases x <;> simpa [markerOf] using h
      have := ih h'
      simp only [List.dropLast_cons_cons, List.cons_append]
      rw [← this]

/-- A FIFO without a marker holds none anywhere. -/
theorem no_marker {l : List Notice} (hd : ∀ n ∈ l.dropLast, n.isMarker = false) (h : markerOf l = none) :
    ∀ n ∈ l, n.isMarker = false := by
  intro n hn
  rcases List.eq_nil_or_concat l with rfl | ⟨init, last, rfl⟩
  · simp at hn
  · simp only [List.concat_eq_append, List.dropLast_concat] at hd hn h
    rcases List.mem_append.1 hn with hn | hn
    · exact hd n hn
    · simp only [List.mem_singleton] at hn
      subst hn
      cases n with
      | overflow k => simp [markerOf_overflow_append] at h
      | _ => rfl

theorem FifoSound.offer {l : List Notice} (h : FifoSound l) (n : Notice) :
    FifoSound (offerNotice l n).1 := by
  unfold offerNotice
  split
  · next k hk =>
    have hl := markerOf_some hk
    refine ⟨?_, ?_, fun hm => ?_⟩
    · have := h.1
      rw [hl] at this
      simpa using this
    · simpa using h.2.1
    · simp [markerOf_overflow_append] at hm
  · next hk =>
    have hno := no_marker h.2.1 hk
    split
    · next hlt =>
      refine ⟨?_, ?_, fun _ => ?_⟩
      · simp only [List.length_append, List.length_singleton]; omega
      · simpa using hno
      · simpa using hlt
    · next hge =>
      have := h.2.2 hk
      refine ⟨?_, ?_, fun hm => ?_⟩
      · simp only [List.length_append, List.length_singleton]; omega
      · simpa using hno
      · simp [markerOf_overflow_append] at hm

theorem Inner.raise (n : Notice) (s : State) : Inner s (raise n s) := by
  unfold Machine.raise
  split
  · have key : Inner s (s.onNotices fun f => { f with fifo := (offerNotice s.notices.fifo n).1 }) :=
      ⟨rfl, rfl, rfl, rfl, rfl, rfl, rfl, rfl, rfl, rfl, rfl, rfl, rfl, fun h => h.offer n, id, id, id⟩
    simp only
    split
    · exact key.trans (Inner.count _ _)
    · exact key
  · exact Inner.refl s

/-! ### Calls, records, zones, channels -/

theorem Inner.setCall {slot : Nat} {old c : CallRec} {s : State} (hg : s.callAt slot = some old)
    (hr : c.callRef = old.callRef) (hc : old.Sound → c.Sound) : Inner s (s.setCall slot c) :=
  Inner.onCrg rfl fun h => h.change hg hr hc

theorem Inner.dropCall (slot : Nat) (s : State) : Inner s (s.dropCall slot) := Inner.onCrg rfl fun h => h.drop _

theorem Inner.passTrigger (slot : Nat) (c : CallRec) (es : List TriggerEvent) (s : State) :
    Inner s (passTrigger slot c es s) :=
  Inner.onTru rfl

theorem Inner.passPool (slot ref : Nat) (e : PoolEvent) (s : State) : Inner s (passPool slot ref e s) :=
  Inner.onApl fun h => h.sameIds rfl rfl

theorem Inner.updAnn {id : Nat} {f : AnnRec → AnnRec} (hf : ∀ r, (f r).annId = r.annId) (s : State) :
    Inner s (s.updAnn id f) := by
  refine Inner.onApl fun h => h.sameIds ?_ rfl
  simp only [List.map_map]
  refine List.map_congr_left fun r _ => ?_
  simp only [Function.comp_apply]
  split <;> simp [hf]

theorem Inner.dropAnn (id : Nat) (s : State) : Inner s (s.dropAnn id) := by
  refine Inner.onApl fun h => ⟨?_, ?_, fun r hr => h.2.2.1 r (List.mem_of_mem_filter hr), h.2.2.2⟩
  · exact Nat.le_trans (List.length_filter_le _ _) h.1
  · exact h.2.1.sublist (List.filter_sublist.map _)

theorem Inner.updZone (z : Nat) (f : ZoneEntry → ZoneEntry) (s : State) : Inner s (s.updZone z f) :=
  Inner.onZar rfl rfl

theorem Inner.updLevel (z : Nat) (f : ZoneLevel → ZoneLevel) (s : State) : Inner s (s.updLevel z f) :=
  Inner.onLmu _ s

theorem Inner.updChannel (c : Nat) (f : Channel → Channel) (s : State) : Inner s (s.updChannel c f) :=
  Inner.onPbc _ s

theorem Inner.causePass (s : State) : Inner s (causePass s) := Inner.onZar rfl rfl

theorem Inner.takeAtt (cls : Nat) (trim : Int) (z : Nat) (s : State) : Inner s (takeAtt cls trim z s) :=
  Inner.updLevel _ _ _

/-! ### Stops, releases, endings -/

theorem Inner.placeTails (src : TailSource) (l : List Nat) (s : State) : Inner s (placeTails src l s) := by
  induction l generalizing s with
  | nil => exact Inner.refl s
  | cons z rest ih => exact (Inner.updLevel _ _ _).trans (ih _)

theorem Inner.fadeChannel (c : Nat) (zones : ZoneSet) (s : State) : Inner s (fadeChannel c zones s) :=
  (Inner.placeTails _ _ _).trans (Inner.updChannel _ _ _)

theorem Inner.stopSource (r : AnnRec) (s : State) : Inner s (stopSource r s) := by
  unfold Machine.stopSource
  split
  · exact (Inner.placeTails _ _ _).trans (Inner.causePass _)
  · exact (Inner.fadeChannel _ _ _).trans (Inner.causePass _)
  · exact Inner.refl s

theorem Inner.clearHolders (l : List Nat) (s : State) : Inner s (clearHolders l s) := by
  induction l generalizing s with
  | nil => exact Inner.refl s
  | cons z rest ih => exact ((Inner.updZone _ _ _).trans (Inner.updLevel _ _ _)).trans (ih _)

theorem Inner.releaseZones (zones : ZoneSet) (s : State) : Inner s (releaseZones zones s) := by
  unfold Machine.releaseZones
  split
  · exact Inner.refl s
  · exact (Inner.clearHolders _ _).trans (Inner.causePass _)

theorem Inner.stopUnless (ended : Bool) (r : AnnRec) (s : State) :
    Inner s (if ended then s else Machine.stopSource r s) := by
  split
  · exact Inner.refl s
  · exact Inner.stopSource r s

theorem Inner.letGo (id : Nat) (ended : Bool) (s : State) : Inner s (letGo id ended s) := by
  unfold Machine.letGo
  split
  · exact Inner.refl s
  · exact ((Inner.stopUnless _ _ _).trans (Inner.releaseZones _ _)).trans (Inner.updAnn (by intro _; rfl) _)

theorem Inner.closeAnn (id : Nat) (o : AnnOutcome) (why : Reason) (s : State) : Inner s (closeAnn id o why s) := by
  unfold Machine.closeAnn
  split
  · exact Inner.refl s
  · exact ((Inner.raise _ _).trans (Inner.count _ _)).trans (Inner.dropAnn _ _)

theorem Inner.endRecord (id : Nat) (o : AnnOutcome) (why : Reason) (ended : Bool) (s : State) :
    Inner s (endRecord id o why ended s) := (Inner.letGo _ _ _).trans (Inner.closeAnn _ _ _ _)

theorem Inner.endRecords (o : AnnOutcome) (why : Reason) (l : List Nat) (s : State) :
    Inner s (endRecords o why l s) := by
  induction l generalizing s with
  | nil => exact Inner.refl s
  | cons id rest ih => exact (Inner.endRecord _ _ _ _ _).trans (ih _)

theorem Inner.enterReady (t id : Nat) (s : State) : Inner s (enterReady t id s) := by
  unfold Machine.enterReady
  refine Inner.trans ?_ (Inner.causePass _)
  exact Inner.updAnn (by intro _; rfl) _

theorem Inner.leaveQueued (t id : Nat) (s : State) : Inner s (leaveQueued t id s) := by
  unfold Machine.leaveQueued
  split
  · exact Inner.refl s
  · split
    · split
      · refine Inner.trans ?_ (Inner.raise _ _)
        exact Inner.updAnn (by intro _; rfl) _
      · exact Inner.enterReady _ _ _
    · exact Inner.refl s

theorem Inner.expireAnn (t id : Nat) (s : State) : Inner s (expireAnn t id s) := by
  unfold Machine.expireAnn
  split
  · exact Inner.refl s
  · split
    · exact Inner.endRecord _ _ _ _ _
    · exact Inner.refl s

end Sys2Proof.Machine
end

