-- ==== Sys2Proof/Laws/InnerPool.lean ====
section
/-! SUPPORT. What the operations of the Announcement Pool leave alone: the frame of Laws/Inner, carried through creation,
the restart rule, the follow-on requests and the records of a call. -/

namespace Sys2Proof.Machine

/-! ### The next ann_id (R87) -/

/-- The ann_id that follows another: 65535 counts on to 1. -/
theorem nextId_range (used : List Nat) (k last : Nat) (hl : last ≤ 65535) (hk : 0 < k) :
    1 ≤ nextId used k last ∧ nextId used k last ≤ 65535 := by
  induction k generalizing last with
  | zero => omega
  | succ k ih =>
    unfold nextId
    simp only
    have hn : 1 ≤ (if last < 65535 then last + 1 else 1) ∧ (if last < 65535 then last + 1 else 1) ≤ 65535 := by
      split <;> omega
    by_cases hc : used.contains (if last < 65535 then last + 1 else 1) = true
    · rw [if_pos hc]
      rcases Nat.eq_zero_or_pos k with rfl | hk
      · exact hn
      · exact ih _ hn.2 hk
    · rw [if_neg hc]
      exact hn

/-- The place of a value among those that follow `last`: 0 for the next, 65534 for `last` itself. -/
def idDistance (last x : Nat) : Nat := (x + 65535 - last - 1) % 65535

/-- The search answers a value in use only when every one of the k values after `last` is in use. -/
theorem nextId_used (used : List Nat) (k last : Nat) (hl : last ≤ 65535) (hk : k ≤ 65535)
    (h : 0 < k → nextId used k last ∈ used) :
    ∀ x, 1 ≤ x → x ≤ 65535 → idDistance last x < k → x ∈ used := by
  induction k generalizing last with
  | zero => intro x _ _ h; omega
  | succ k ih =>
    intro x h1 h2 hd
    have h := h (Nat.succ_pos k)
    unfold nextId at h
    simp only at h
    have hx : idDistance last x = 0 → x = (if last < 65535 then last + 1 else 1) := by
      unfold idDistance; intro h; split <;> omega
    by_cases hc : used.contains (if last < 65535 then last + 1 else 1) = true
    · rw [if_pos hc] at h
      by_cases h0 : idDistance last x = 0
      · rw [hx h0]; simpa using hc
      · refine ih (if last < 65535 then last + 1 else 1) (by split <;> omega) (by omega) (fun _ => h) x h1 h2 ?_
        unfold idDistance at *
        split <;> omega
    · rw [if_neg hc] at h
      exact absurd (by simpa using h) hc

/-- With one step more than the values in use, the ann_id found is not one of them (R87). -/
theorem nextId_fresh (used : List Nat) (last : Nat) (hl : last ≤ 65535) (hu : used.length < 65535) :
    nextId used (used.length + 1) last ∉ used := by
  intro h
  have hall := nextId_used used (used.length + 1) last hl (by omega) (fun _ => h)
  have hsub : (List.range (used.length + 1)).map (fun d => (last + d) % 65535 + 1) ⊆ used := by
    intro y hy
    obtain ⟨d, hd, rfl⟩ := List.mem_map.1 hy
    have hd := List.mem_range.1 hd
    refine hall _ (by omega) (by omega) ?_
    unfold idDistance
    omega
  have hnd : ((List.range (used.length + 1)).map (fun d => (last + d) % 65535 + 1)).Nodup := by
    refine List.Nodup.map_on ?_ List.nodup_range
    intro a ha b hb he
    have := List.mem_range.1 ha
    have := List.mem_range.1 hb
    omega
  have := (List.subperm_of_subset hnd hsub).length_le
  simp at this

/-! ### Creation (R88) -/

theorem insertBy_perm {α : Type} (before : α → α → Bool) (x : α) (l : List α) : (insertBy before x l).Perm (x :: l) := by
  induction l with
  | nil => exact List.Perm.refl _
  | cons y rest ih =>
    unfold insertBy
    split
    · exact (ih.cons y).trans (List.Perm.swap x y rest)
    · exact List.Perm.refl _

theorem PoolSound.create {p : AnnouncementPool} (h : PoolSound p) (a : Ask) (hroom : p.records.length < Config.poolSize)
    (id : Nat) (hid : id = nextId (p.records.map fun r => r.annId) (p.records.length + 1) p.lastId)
    (c : Nat) : PoolSound { p with
      records := insertBy (fun x y => decide (x.seq ≤ y.seq)) (newRecord a id p.counter) p.records
      lastId := id
      counter := c } := by
  have hp := insertBy_perm (fun x y => decide (x.seq ≤ y.seq)) (newRecord a id p.counter) p.records
  have hr := nextId_range (p.records.map fun r => r.annId) (p.records.length + 1) p.lastId h.2.2.2 (by omega)
  have hf := nextId_fresh (p.records.map fun r => r.annId) p.lastId h.2.2.2 (by simp [Config.poolSize] at *; omega)
  simp only [List.length_map] at hf
  rw [← hid] at hr hf
  refine ⟨?_, ?_, ?_, hr.2⟩
  · show (insertBy _ _ _).length ≤ _
    rw [hp.length_eq]
    simpa using hroom
  · show ((insertBy _ _ _).map _).Nodup
    rw [(hp.map fun r => r.annId).nodup_iff]
    exact List.nodup_cons.2 ⟨hf, h.2.1⟩
  · intro r hm
    rcases List.mem_cons.1 (hp.subset hm) with rfl | hm
    · exact hr
    · exact h.2.2.1 r hm

theorem Inner.createRecord {a : Ask} {s t : State} {id : Nat} (h : createRecord a s = some (id, t)) : Inner s t := by
  unfold Machine.createRecord at h
  simp only at h
  split at h
  · cases h
  · next hroom =>
    obtain ⟨rfl, rfl⟩ := Prod.mk.inj (Option.some.inj h)
    refine Inner.trans ?_ (Inner.expireAnn _ _ _)
    refine Inner.trans ?_ (Inner.leaveQueued _ _ _)
    refine Inner.trans ?_ (Inner.count _ _)
    exact Inner.onApl fun h => h.create a (by omega) _ rfl _

/-! ### Return to READY, restart, completion (R94 to R96, R133) -/

theorem Inner.returnToReady (id : Nat) (s : State) : Inner s (returnToReady id s) := by
  unfold Machine.returnToReady
  split
  · exact Inner.refl s
  · refine Inner.trans ?_ (Inner.causePass _)
    refine Inner.trans ?_ (Inner.updAnn (by intro _; rfl) _)
    exact (Inner.stopSource _ _).trans (Inner.releaseZones _ _)

theorem Inner.restartOrPreempt (why : Reason) (id : Nat) (s : State) : Inner s (restartOrPreempt why id s) := by
  unfold Machine.restartOrPreempt
  split
  · exact Inner.refl s
  · split
    · exact (Inner.returnToReady _ _).trans (Inner.updAnn (by intro _; rfl) _)
    · exact Inner.endRecord _ _ _ _ _

theorem Inner.requestRepeat (r : AnnRec) (t : Nat) (s : State) : Inner s (requestRepeat r t s) := by
  unfold Machine.requestRepeat
  split
  · split
    · exact Inner.refl s
    · split
      · next h => exact Inner.createRecord h
      · exact (Inner.count _ _).trans (Inner.raise _ _)
  · exact Inner.refl s

theorem Inner.requestResidual (r : AnnRec) (t : Nat) (s : State) : Inner s (requestResidual r t s) := by
  unfold Machine.requestResidual
  split
  · split
    · next h => exact Inner.createRecord h
    · exact Inner.countBy _ _ _
  · exact Inner.refl s

theorem Inner.passCompleted (r : AnnRec) (t : Nat) (s : State) : Inner s (passCompleted r t s) := by
  unfold Machine.passCompleted
  split
  · exact Inner.onTru rfl
  · exact Inner.refl s

/-! ### Records of a call (R104 to R107) -/

theorem Inner.mapRecords {f : AnnRec → AnnRec} (hf : ∀ r, (f r).annId = r.annId) (s : State) :
    Inner s (s.onApl fun p => { p with records := p.records.map f }) := by
  refine Inner.onApl fun h => h.sameIds ?_ rfl
  simp only [List.map_map]
  exact List.map_congr_left fun r _ => hf r

theorem Inner.stepLeft (slot ref step : Nat) (s : State) : Inner s (stepLeft slot ref step s) := by
  refine (Inner.endRecords .withdrawn .stateLeft
    (s.annIds fun r => r.ofStep slot ref step && r.state != .playing) s).trans ?_
  exact Inner.mapRecords (fun r => by show (ite _ _ _ : AnnRec).annId = _; split <;> rfl) _

theorem Inner.enterReadyAll (t : Nat) (l : List Nat) (s : State) : Inner s (enterReadyAll t l s) := by
  induction l generalizing s with
  | nil => exact Inner.refl s
  | cons id rest ih => exact (Inner.enterReady _ _ _).trans (ih _)

theorem Inner.leaveQueuedAll (t : Nat) (l : List Nat) (s : State) : Inner s (leaveQueuedAll t l s) := by
  induction l generalizing s with
  | nil => exact Inner.refl s
  | cons id rest ih => exact (Inner.leaveQueued _ _ _).trans (ih _)

theorem Inner.timeOutHold (t id : Nat) (s : State) : Inner s (timeOutHold t id s) := by
  unfold Machine.timeOutHold
  split
  · exact Inner.refl s
  · split
    · split
      · exact Inner.enterReady _ _ _
      · exact Inner.endRecord _ _ _ _ _
    · exact Inner.refl s

theorem Inner.makeRoom (s : State) : Inner s (makeRoom s) := by
  unfold Machine.makeRoom
  split
  · split
    · exact Inner.endRecord _ _ _ _ _
    · exact Inner.refl s
  · exact Inner.refl s

end Sys2Proof.Machine
end

