-- ==== Sys2Proof/Laws/InnerArbiter.lean ====
section
/-! SUPPORT. What the operations of the Zone Arbiter and of the channels' output leave alone: the frame of Laws/Inner,
carried through a start, a pass, a zone fault and the marks that reach a channel's output. -/

namespace Sys2Proof.Machine

/-! ### Starts (R126 to R129) -/

theorem Inner.noteExpansion (r : AnnRec) (e : Expansion) (s : State) : Inner s (noteExpansion r e s) := by
  unfold Machine.noteExpansion
  simp only
  have h0 := Inner.countBy .missingFragments e.missing s
  generalize Machine.countBy .missingFragments e.missing s = s1 at *
  refine h0.trans ?_
  cases e.firstMissing <;> cases e.truncatedAt
  · exact Inner.refl _
  · exact (Inner.count _ _).trans (Inner.raise _ _)
  · exact Inner.raise _ _
  · exact (Inner.raise _ _).trans ((Inner.count _ _).trans (Inner.raise _ _))

theorem Inner.seizeZones (id cls : Nat) (l : List Nat) (s : State) : Inner s (seizeZones id cls l s) := by
  induction l generalizing s with
  | nil => exact Inner.refl s
  | cons z rest ih =>
    unfold Machine.seizeZones
    simp only
    refine Inner.trans ?_ (ih _)
    refine Inner.trans (Inner.trans ?_ (Inner.updZone _ _ _)) (Inner.takeAtt _ _ _ _)
    split
    · exact Inner.updAnn (by intro _; rfl) _
    · exact Inner.refl s

theorem Inner.giveChannel (c : Nat) (r : AnnRec) (list : List Element) (s : State) : Inner s (giveChannel c r list s) := by
  unfold Machine.giveChannel
  simp only
  refine Inner.trans ?_ (Inner.updChannel _ _ _)
  exact Inner.onZar rfl rfl

theorem Inner.dealWithLosers (l : List Nat) (s : State) : Inner s (dealWithLosers l s) := by
  induction l generalizing s with
  | nil => exact Inner.refl s
  | cons id rest ih =>
    unfold Machine.dealWithLosers
    split
    · refine Inner.trans ?_ (ih _)
      split
      · exact Inner.restartOrPreempt _ _ _
      · exact Inner.refl s
    · exact ih _

theorem Inner.takeStolen (src : Source) (s : State) : Inner s (takeStolen src s) := by
  unfold Machine.takeStolen
  split
  · split
    · exact (Inner.fadeChannel _ _ _).trans (Inner.updAnn (by intro _; rfl) _)
    · exact Inner.refl s
  · exact Inner.refl s

theorem Inner.dealWithVictim (src : Source) (s : State) : Inner s (dealWithVictim src s) := by
  unfold Machine.dealWithVictim
  split
  · exact Inner.restartOrPreempt _ _ _
  · exact Inner.refl s

theorem Inner.causePassIf (b : Bool) (s : State) : Inner s (if b then s else Machine.causePass s) := by
  cases b
  · exact Inner.causePass s
  · exact Inner.refl s

theorem Inner.giveSource (src : Source) (r : AnnRec) (list : List Element) (s : State) :
    Inner s (match src.channel with
      | some c => Machine.giveChannel c r list s
      | none => s) := by
  split
  · exact Inner.giveChannel _ _ _ _
  · exact Inner.refl s

theorem Inner.startRecord (r : AnnRec) (src : Source) (u taken : ZoneSet) (list : List Element) (s : State) :
    Inner s (startRecord r src u taken list s) := by
  unfold Machine.startRecord
  simp only
  refine Inner.trans ?_ (Inner.dealWithLosers _ _)
  refine Inner.trans ?_ (Inner.dealWithVictim _ _)
  refine Inner.trans ?_ (Inner.count _ _)
  refine Inner.trans ?_ (Inner.updAnn (by intro _; rfl) _)
  refine Inner.trans ?_ (Inner.giveSource _ _ _ _)
  refine Inner.trans ?_ (Inner.seizeZones _ _ _ _)
  exact (Inner.takeStolen _ _).trans (Inner.causePassIf _ _)

theorem Inner.tryStart (r : AnnRec) (src : Source) (u taken : ZoneSet) (s : State) :
    Inner s (tryStart r src u taken s) := by
  unfold Machine.tryStart
  split
  · exact Inner.startRecord _ _ _ _ _ _
  · have h0 := Inner.noteExpansion r (expandFor r s) s
    simp only
    generalize Machine.noteExpansion r (expandFor r s) s = s1 at *
    refine h0.trans ?_
    split
    · exact (Inner.count _ _).trans (Inner.endRecord _ _ _ _ _)
    · exact Inner.startRecord _ _ _ _ _ _

/-! ### Passes (R120 to R125) -/

theorem Inner.noteNoZones (r : AnnRec) (z : ZoneSet) (s : State) : Inner s (noteNoZones r z s) := by
  unfold Machine.noteNoZones
  split
  · exact Inner.refl s
  · exact (Inner.updAnn (by intro _; rfl) _).trans (Inner.raise _ _)

theorem Inner.takeTurn (id : Nat) (reserved : ZoneSet) (s : State) : Inner s (takeTurn id reserved s).2 := by
  unfold Machine.takeTurn
  repeat' (first | split | simp only)
  all_goals first
    | exact Inner.refl s
    | exact Inner.tryStart _ _ _ _ _
    | exact Inner.noteNoZones _ _ _

theorem Inner.takeTurns (l : List Nat) (reserved : ZoneSet) (s : State) : Inner s (takeTurns l reserved s) := by
  induction l generalizing s reserved with
  | nil => exact Inner.refl s
  | cons id rest ih => exact (Inner.takeTurn _ _ _).trans (ih _ _)

theorem Inner.onePass (s : State) : Inner s (onePass s) := Inner.takeTurns _ _ _

theorem Inner.passChain (k : Nat) (s : State) : Inner s (passChain k s) := by
  induction k generalizing s with
  | zero => exact Inner.refl s
  | succ k ih =>
    unfold Machine.passChain
    split
    · refine Inner.trans ?_ (ih _)
      refine Inner.trans ?_ (Inner.onePass _)
      exact Inner.onZar rfl rfl
    · exact Inner.refl s

/-! ### Availability (R113, R119, R130) -/

theorem Inner.zoneFault (z : Nat) (s : State) : Inner s (zoneFault z s) := by
  unfold Machine.zoneFault
  split
  · exact Inner.refl s
  · next id _ =>
    have h0 : Inner s (Machine.causePass (Machine.clearHolders [z] (s.updAnn id fun r => { r with
        held := r.held &&& ~~~(BitVec.twoPow 32 z), lost := r.lost ||| BitVec.twoPow 32 z }))) :=
      Inner.trans (Inner.trans (Inner.updAnn (by intro _; rfl) _) (Inner.clearHolders _ _)) (Inner.causePass _)
    simp only
    generalize Machine.causePass (Machine.clearHolders [z] (s.updAnn id fun r => { r with
        held := r.held &&& ~~~(BitVec.twoPow 32 z), lost := r.lost ||| BitVec.twoPow 32 z })) = s1 at *
    refine h0.trans ?_
    split
    · split
      · exact Inner.endRecord _ _ _ _ _
      · exact Inner.refl _
    · exact Inner.refl _

theorem Inner.zoneFaultIf (b : Bool) (z : Nat) (s : State) : Inner s (if b then s else Machine.zoneFault z s) := by
  cases b
  · exact Inner.zoneFault z s
  · exact Inner.refl s

theorem Inner.judgeAvailability (z : Nat) (cause : ZoneCause) (s : State) : Inner s (judgeAvailability z cause s) := by
  unfold Machine.judgeAvailability
  simp only
  split
  · exact Inner.refl s
  · refine Inner.trans ?_ (Inner.causePass _)
    refine Inner.trans ?_ (Inner.raise _ _)
    exact (Inner.updZone _ _ _).trans (Inner.zoneFaultIf _ _ _)

theorem Inner.judgeEnabled (l : List Nat) (s : State) : Inner s (judgeEnabled l s) := by
  induction l generalizing s with
  | nil => exact Inner.refl s
  | cons z rest ih => exact (Inner.judgeAvailability _ _ _).trans (ih _)

/-! ### The channels' output (R142, R147, R158) -/

theorem Inner.takeAtts (cls : Nat) (trim : Int) (l : List Nat) (s : State) : Inner s (takeAtts cls trim l s) := by
  induction l generalizing s with
  | nil => exact Inner.refl s
  | cons z rest ih => exact (Inner.takeAtt _ _ _ _).trans (ih _)

theorem Inner.startElement (c : Nat) (mark : Option Nat) (s : State) : Inner s (startElement c mark s) := by
  unfold Machine.startElement
  split
  · exact Inner.refl s
  · next i =>
    have h0 := Inner.updChannel c (fun ch => { ch with playElem := i }) s
    simp only
    generalize s.updChannel c (fun ch => { ch with playElem := i }) = s1 at *
    refine h0.trans ?_
    split
    · exact Inner.refl _
    · next trim _ =>
      have h1 := Inner.updChannel c (fun ch => { ch with curTrim := trim }) s1
      generalize s1.updChannel c (fun ch => { ch with curTrim := trim }) = s2 at *
      refine h1.trans ?_
      split
      · exact Inner.takeAtts _ _ _ _
      · exact Inner.refl _

theorem Inner.underrun (c : Nat) (s : State) : Inner s (underrun c s) := by
  unfold Machine.underrun
  simp only
  split
  · exact ((Inner.updChannel _ _ _).trans (Inner.raise _ _)).trans (Inner.count _ _)
  · exact Inner.updChannel _ _ _

theorem Inner.channelOutput (c : Nat) (s : State) : Inner s (channelOutput c s).2 := by
  unfold Machine.channelOutput
  simp only
  split
  · exact ((Inner.updChannel _ _ _).trans (Inner.startElement _ _ _)).trans (Inner.updChannel _ _ _)
  · exact (Inner.updChannel _ _ _).trans (Inner.startElement _ _ _)
  · exact Inner.underrun _ _
  · exact Inner.refl s

theorem Inner.channelOutputs (l : List Nat) (s : State) : Inner s (channelOutputs l s).2 := by
  induction l generalizing s with
  | nil => exact Inner.refl s
  | cons c rest ih => exact (Inner.channelOutput _ _).trans (ih _)

theorem Inner.mixZone (streams channels : List Sample) (z : Nat) (s : State) :
    Inner s (mixZone streams channels z s).2 := by
  unfold Machine.mixZone
  simp only
  split
  · exact Inner.updLevel _ _ _
  · exact (Inner.updLevel _ _ _).trans (Inner.count _ _)

theorem Inner.mixZones (streams channels : List Sample) (l : List Nat) (s : State) :
    Inner s (mixZones streams channels l s).2 := by
  induction l generalizing s with
  | nil => exact Inner.refl s
  | cons z rest ih => exact (Inner.mixZone _ _ _ _).trans (ih _)

/-! ### The Call Register (R22 to R33) -/

theorem Inner.putCall {slot : Nat} {old c : CallRec} {es : List TriggerEvent} {s : State}
    (hg : s.callAt slot = some old) (hr : c.callRef = old.callRef) (hc : old.Sound → c.Sound) :
    Inner s (putCall slot c es s) := (Inner.setCall hg hr hc).trans (Inner.passTrigger _ _ _ _)

theorem Inner.enterState {slot : Nat} {old c : CallRec} {st : CallState} {t : Nat} {es : List TriggerEvent} {s : State}
    (hg : s.callAt slot = some old) (hr : c.callRef = old.callRef)
    (hc : old.Sound → { c with state := st, stateSince := t }.Sound) : Inner s (enterState slot c st t es s) :=
  Inner.putCall (c := { c with state := st, stateSince := t }) hg hr hc

theorem Inner.dueCheck (t slot : Nat) (s : State) : Inner s (dueCheck t slot s) := by
  unfold Machine.dueCheck
  split
  · next c hc =>
    split
    · next hdue =>
      refine Inner.enterState hc rfl fun h => ?_
      have hp : c.state = .planned := by
        unfold isDue at hdue
        split at hdue <;> simp_all
      simpa [CallRec.Sound, hp] using h
    · exact Inner.refl s
  · exact Inner.refl s

theorem Inner.dueChecks (t : Nat) (l : List Nat) (s : State) : Inner s (dueChecks t l s) := by
  induction l generalizing s with
  | nil => exact Inner.refl s
  | cons z rest ih => exact (Inner.dueCheck _ _ _).trans (ih _)

theorem Inner.removeCall (slot : Nat) (s : State) : Inner s (removeCall slot s) := by
  unfold Machine.removeCall
  split
  · exact (Inner.dropCall _ _).trans (Inner.passPool _ _ _ _)
  · exact Inner.refl s

end Sys2Proof.Machine
end

