-- ==== Sys2Proof/Laws/InnerEndings.lean ====
section
/-! SUPPORT. What the ends of records and the operations of the Trigger Unit leave alone: the frame of Laws/Inner, carried
through an end with its pass, completion, PLATFORM_MOVED, the evaluations and the events of a call. -/

namespace Sys2Proof.Machine

/-! ### R94 with its pass -/

theorem Inner.letGoAndPass (id : Nat) (ended : Bool) (s : State) : Inner s (letGoAndPass id ended s) := by
  unfold Machine.letGoAndPass
  split
  · exact Inner.refl s
  · split
    · exact Inner.letGo _ _ _
    · exact (Inner.letGo _ _ _).trans (Inner.passChain _ _)

theorem Inner.endAnn (id : Nat) (o : AnnOutcome) (why : Reason) (ended : Bool) (s : State) :
    Inner s (endAnn id o why ended s) := (Inner.letGoAndPass _ _ _).trans (Inner.closeAnn _ _ _ _)

theorem Inner.letGoAll (l : List Nat) (s : State) : Inner s (letGoAll l s) := by
  induction l generalizing s with
  | nil => exact Inner.refl s
  | cons id rest ih => exact (Inner.letGo _ _ _).trans (ih _)

theorem Inner.closeAnns (o : AnnOutcome) (why : Reason) (l : List Nat) (s : State) : Inner s (closeAnns o why l s) := by
  induction l generalizing s with
  | nil => exact Inner.refl s
  | cons id rest ih => exact (Inner.closeAnn _ _ _ _).trans (ih _)

theorem Inner.endAnns (o : AnnOutcome) (why : Reason) (l : List Nat) (s : State) : Inner s (endAnns o why l s) := by
  unfold Machine.endAnns
  have key := fun p q => (Inner.endRecords o why q s).trans (Inner.letGoAll p _)
  refine Inner.trans ?_ (Inner.closeAnns _ _ _ _)
  split
  · exact (key _ _).trans (Inner.passChain _ _)
  · exact key _ _

/-! ### Completion, replacement, PLATFORM_MOVED, EMERGENCY_END (R95, R102, R104, R107) -/

theorem Inner.completeRecord (id : Nat) (why : Reason) (first : Bool) (s : State) :
    Inner s (completeRecord id why first s) := by
  unfold Machine.completeRecord
  split
  · exact Inner.refl s
  · have key := fun r t => (Inner.endAnn id .completed why (r.ask.origin != .live) s).trans (Inner.passCompleted r t _)
    simp only
    split
    · exact (key _ _).trans ((Inner.requestResidual _ _ _).trans (Inner.requestRepeat _ _ _))
    · exact (key _ _).trans ((Inner.requestRepeat _ _ _).trans (Inner.requestResidual _ _ _))

theorem Inner.replaceStep (slot ref step : Nat) (s : State) : Inner s (replaceStep slot ref step s) :=
  Inner.endAnns _ _ _ _

theorem Inner.platformMovedOne (id : Nat) (s : State) : Inner s (platformMovedOne id s) := by
  unfold Machine.platformMovedOne
  split
  · exact Inner.refl s
  · split
    · exact (Inner.updAnn (by intro _; rfl) _).trans (Inner.raise _ _)
    · split
      · exact Inner.returnToReady _ _
      · exact Inner.refl s
    · exact Inner.refl s

theorem Inner.platformMovedAll (l : List Nat) (s : State) : Inner s (platformMovedAll l s) := by
  induction l generalizing s with
  | nil => exact Inner.refl s
  | cons id rest ih => exact (Inner.platformMovedOne _ _).trans (ih _)

theorem Inner.movePlatform (slot ref : Nat) (s : State) : Inner s (movePlatform slot ref s) :=
  ((Inner.platformMovedAll _ _).trans (Inner.endAnns _ _ _ _)).trans (Inner.causePass _)

theorem Inner.endEmergency (r : AnnRec) (s : State) : Inner s (endEmergency r s) := by
  unfold Machine.endEmergency
  split
  · exact Inner.endRecord _ _ _ _ _
  · split
    · exact Inner.refl s
    · have key : Inner s (s.updAnn r.annId fun r => { r with endRequested := true }) :=
        Inner.updAnn (by intro _; rfl) _
      simp only
      split
      · split
        · exact key.trans (((Inner.updChannel _ _ _).trans (Inner.causePass _)).trans (Inner.completeRecord _ _ _ _))
        · exact key
      · exact key
  · exact Inner.refl s

theorem Inner.endEmergencies (l : List Nat) (s : State) : Inner s (endEmergencies l s) := by
  induction l generalizing s with
  | nil => exact Inner.refl s
  | cons id rest ih =>
    unfold Machine.endEmergencies
    split
    · exact (Inner.endEmergency _ _).trans (ih _)
    · exact ih _

/-! ### The ends of a list (R143) -/

theorem Inner.endChannel (c : Nat) (first : Bool) (s : State) : Inner s (endChannel c first s) := by
  unfold Machine.endChannel
  simp only
  split
  · exact ((Inner.updChannel _ _ _).trans (Inner.causePass _)).trans (Inner.completeRecord _ _ _ _)
  · exact (Inner.updChannel _ _ _).trans (Inner.causePass _)

/-! ### The Trigger Unit (R46 to R63) -/

theorem Inner.setEntry (slot i : Nat) (e : StepEntry) (s : State) : Inner s (setEntry slot i e s) := by
  unfold Machine.setEntry
  split
  · next c hc =>
    refine Inner.setCall hc rfl fun h => ?_
    simpa [CallRec.Sound] using h
  · exact Inner.refl s

theorem Inner.dropRetry (slot i : Nat) (s : State) : Inner s (dropRetry slot i s) := Inner.onTru rfl

theorem Inner.skipStep (slot i : Nat) (s : State) : Inner s (skipStep slot i s) := by
  unfold Machine.skipStep
  split
  · exact (Inner.setEntry _ _ _ _).trans (Inner.dropRetry _ _ _)
  · exact Inner.refl s

theorem Inner.skipSteps (slot : Nat) (l : List LiveStep) (s : State) : Inner s (skipSteps slot l s) := by
  induction l generalizing s with
  | nil => exact Inner.refl s
  | cons x rest ih => exact (Inner.skipStep _ _ _).trans (ih _)

theorem Inner.cleanRetry (p : RetryEntry → Bool) (s : State) : Inner s (cleanRetry p s) := Inner.onTru rfl

theorem Inner.retryLater (slot ref i : Nat) (p : PlanStep) (pending : Option Nat) (s : State) :
    Inner s (retryLater slot ref i p pending s) := by
  unfold Machine.retryLater
  simp only
  split
  · exact (Inner.count _ _).trans (Inner.onTru rfl)
  · exact ((Inner.count _ _).trans (Inner.onTru rfl)).trans (Inner.raise _ _)

theorem Inner.fireStep (slot i : Nat) (p : PlanStep) (t latest e : Nat) (pending : Option Nat) (s : State) :
    Inner s (fireStep slot i p t latest e pending s) := by
  unfold Machine.fireStep
  split
  · exact Inner.refl s
  · next c _ =>
    have h0 := Inner.replaceStep slot c.callRef i s
    simp only
    generalize Machine.replaceStep slot c.callRef i s = s1 at *
    refine h0.trans ?_
    split
    · next h => exact ((Inner.createRecord h).trans (Inner.setEntry _ _ _ _)).trans (Inner.dropRetry _ _ _)
    · exact Inner.retryLater _ _ _ _ _ _

theorem Inner.collapseGroup (slot t e : Nat) (live : List LiveStep) (s : State) :
    Inner s (collapseGroup slot t e live s) := by
  unfold Machine.collapseGroup
  split
  · exact (Inner.skipSteps _ _ _).trans (Inner.fireStep _ _ _ _ _ _ _ _)
  · exact Inner.refl s

theorem Inner.collapseGroups (slot t e : Nat) (live : List LiveStep) (l : List Nat) (s : State) :
    Inner s (collapseGroups slot t e live l s) := by
  induction l generalizing s with
  | nil => exact Inner.refl s
  | cons x rest ih => exact (Inner.collapseGroup _ _ _ _ _).trans (ih _)

theorem Inner.retryOne (slot t : Nat) (seen : Option CallRec) (pl : Plan) (e : RetryEntry) (s : State) :
    Inner s (retryOne slot t seen pl e s) := by
  unfold Machine.retryOne
  split
  · split
    · split
      · split
        · exact Inner.skipStep _ _ _
        · exact Inner.dropRetry _ _ _
      · split
        · exact Inner.fireStep _ _ _ _ _ _ _ _
        · exact Inner.refl s
    · exact Inner.refl s
  · exact Inner.refl s

theorem Inner.retryAll (slot t : Nat) (seen : Option CallRec) (pl : Plan) (l : List RetryEntry) (s : State) :
    Inner s (retryAll slot t seen pl l s) := by
  induction l generalizing s with
  | nil => exact Inner.refl s
  | cons x rest ih => exact (Inner.retryOne _ _ _ _ _ _).trans (ih _)

theorem Inner.evaluateCall (slot t : Nat) (seen : Option CallRec) (attempted : List Nat) (s : State) :
    Inner s (evaluateCall slot t seen attempted s) := by
  unfold Machine.evaluateCall
  simp only
  have h0 := Inner.cleanRetry (fun e => e.slot == slot) s
  generalize Machine.cleanRetry (fun e => e.slot == slot) s = s1 at *
  refine h0.trans ?_
  split
  · exact Inner.refl _
  · split
    · exact Inner.refl _
    · exact ((Inner.skipSteps _ _ _).trans (Inner.collapseGroups _ _ _ _ _ _)).trans (Inner.retryAll _ _ _ _ _ _)

theorem Inner.evaluateAll (t : Nat) (l : List Nat) (s : State) : Inner s (evaluateAll t l s) := by
  induction l generalizing s with
  | nil => exact Inner.refl s
  | cons x rest ih => exact (Inner.evaluateCall _ _ _ _ _).trans (ih _)

theorem Inner.fireAll (slot t e : Nat) (l : List (PlanStep × Nat)) (s : State) : Inner s (fireAll slot t e l s) := by
  induction l generalizing s with
  | nil => exact Inner.refl s
  | cons x rest ih => exact (Inner.fireStep _ _ _ _ _ _ _ _).trans (ih _)

theorem Inner.leaveSteps (slot ref : Nat) (st : CallState) (l : List (PlanStep × Nat)) (s : State) :
    Inner s (leaveSteps slot ref st l s) := by
  induction l generalizing s with
  | nil => exact Inner.refl s
  | cons x rest ih =>
    unfold Machine.leaveSteps
    refine Inner.trans ?_ (ih _)
    split
    · exact Inner.refl s
    · exact (Inner.stepLeft _ _ _ _).trans (Inner.dropRetry _ _ _)

theorem Inner.dropStaleRetry (e : CallEvent PassedEvent) (s : State) : Inner s (dropStaleRetry e s) := by
  unfold Machine.dropStaleRetry
  split
  · exact Inner.onTru rfl
  · exact Inner.cleanRetry _ _

theorem Inner.leaveBehind (e : CallEvent PassedEvent) (pl : Plan) (s : State) : Inner s (leaveBehind e pl s) := by
  unfold Machine.leaveBehind
  split
  · exact Inner.leaveSteps _ _ _ _ _
  · exact Inner.refl s

theorem Inner.actOnEvent (e : CallEvent PassedEvent) (c : CallRec) (pl : Plan) (s : State) :
    Inner s (actOnEvent e c pl s) :=
  ((Inner.fireAll _ _ _ _ _).trans (Inner.leaveBehind _ _ _)).trans (Inner.evaluateCall _ _ _ _ _)

theorem Inner.takeTriggerEvent (e : CallEvent PassedEvent) (s : State) : Inner s (takeTriggerEvent e s) := by
  have h0 := Inner.dropStaleRetry e s
  unfold Machine.takeTriggerEvent
  simp only
  generalize Machine.dropStaleRetry e s = s1 at *
  refine h0.trans ?_
  split
  · exact Inner.refl _
  · split
    · exact Inner.refl _
    · exact Inner.actOnEvent _ _ _ _

theorem Inner.takeCompletion (c : Completion) (s : State) : Inner s (takeCompletion c s) := by
  unfold Machine.takeCompletion
  simp only
  split
  · split
    · split
      · split
        · exact Inner.refl s
        · split
          · next h => exact Inner.createRecord h
          · exact (Inner.count _ _).trans (Inner.raise _ _)
      · exact Inner.refl s
    · exact Inner.refl s
  · exact Inner.refl s

end Sys2Proof.Machine
end

