-- ==== Sys2Proof/Laws/Endings.lean ====
section
/-! SUPPORT. What the end of a record does: what each of its steps leaves alone, and what becomes of the pool, the
zones, the levels and the counters. -/

namespace Sys2Proof.Machine

/-! ### The blocks each step leaves alone -/

@[simp] theorem countBy_apl (c : Counter) (n : Nat) (s : State) : (countBy c n s).apl = s.apl := rfl
@[simp] theorem countBy_crg (c : Counter) (n : Nat) (s : State) : (countBy c n s).crg = s.crg := rfl
@[simp] theorem countBy_tru (c : Counter) (n : Nat) (s : State) : (countBy c n s).tru = s.tru := rfl
@[simp] theorem countBy_zar (c : Counter) (n : Nat) (s : State) : (countBy c n s).zar = s.zar := rfl
@[simp] theorem countBy_lmu (c : Counter) (n : Nat) (s : State) : (countBy c n s).lmu = s.lmu := rfl
@[simp] theorem countBy_pbc (c : Counter) (n : Nat) (s : State) : (countBy c n s).pbc = s.pbc := rfl
@[simp] theorem countBy_sck (c : Counter) (n : Nat) (s : State) : (countBy c n s).sck = s.sck := rfl
@[simp] theorem countBy_sxe (c : Counter) (n : Nat) (s : State) : (countBy c n s).sxe = s.sxe := rfl
@[simp] theorem countBy_notices (c : Counter) (n : Nat) (s : State) : (countBy c n s).notices = s.notices := rfl
@[simp] theorem count_apl (c : Counter) (s : State) : (count c s).apl = s.apl := rfl
@[simp] theorem count_crg (c : Counter) (s : State) : (count c s).crg = s.crg := rfl
@[simp] theorem count_tru (c : Counter) (s : State) : (count c s).tru = s.tru := rfl
@[simp] theorem count_zar (c : Counter) (s : State) : (count c s).zar = s.zar := rfl
@[simp] theorem count_lmu (c : Counter) (s : State) : (count c s).lmu = s.lmu := rfl
@[simp] theorem count_pbc (c : Counter) (s : State) : (count c s).pbc = s.pbc := rfl
@[simp] theorem count_sck (c : Counter) (s : State) : (count c s).sck = s.sck := rfl
@[simp] theorem count_sxe (c : Counter) (s : State) : (count c s).sxe = s.sxe := rfl
@[simp] theorem count_notices (c : Counter) (s : State) : (count c s).notices = s.notices := rfl

/-- A notice changes the FIFO and one counter, and nothing else. -/
theorem raise_shape (n : Notice) (s : State) : ∃ f c, raise n s = { s with notices := f, stats := c } := by
  unfold raise
  split
  · simp only
    split
    · exact ⟨_, _, rfl⟩
    · exact ⟨_, s.stats, rfl⟩
  · exact ⟨s.notices, s.stats, rfl⟩

@[simp] theorem raise_apl (n : Notice) (s : State) : (raise n s).apl = s.apl := by
  obtain ⟨_, _, h⟩ := raise_shape n s; rw [h]
@[simp] theorem raise_crg (n : Notice) (s : State) : (raise n s).crg = s.crg := by
  obtain ⟨_, _, h⟩ := raise_shape n s; rw [h]
@[simp] theorem raise_tru (n : Notice) (s : State) : (raise n s).tru = s.tru := by
  obtain ⟨_, _, h⟩ := raise_shape n s; rw [h]
@[simp] theorem raise_zar (n : Notice) (s : State) : (raise n s).zar = s.zar := by
  obtain ⟨_, _, h⟩ := raise_shape n s; rw [h]
@[simp] theorem raise_lmu (n : Notice) (s : State) : (raise n s).lmu = s.lmu := by
  obtain ⟨_, _, h⟩ := raise_shape n s; rw [h]
@[simp] theorem raise_pbc (n : Notice) (s : State) : (raise n s).pbc = s.pbc := by
  obtain ⟨_, _, h⟩ := raise_shape n s; rw [h]
@[simp] theorem raise_sck (n : Notice) (s : State) : (raise n s).sck = s.sck := by
  obtain ⟨_, _, h⟩ := raise_shape n s; rw [h]
@[simp] theorem raise_sxe (n : Notice) (s : State) : (raise n s).sxe = s.sxe := by
  obtain ⟨_, _, h⟩ := raise_shape n s; rw [h]

/-- A tail placed changes the levels of the zones, and nothing else. -/
theorem placeTails_shape (src : TailSource) (l : List Nat) (s : State) :
    ∃ v, placeTails src l s = { s with lmu := { s.lmu with levels := v } } := by
  induction l generalizing s with
  | nil => exact ⟨_, rfl⟩
  | cons z rest ih =>
    unfold placeTails
    obtain ⟨v, hv⟩ := ih (s.updLevel z fun l => { l with tail := some ⟨src, appliedAtt s z, 0⟩ })
    exact ⟨v, hv⟩

/-- A stop changes the levels, the channels and the wait for a pass, and nothing else. -/
theorem stopSource_shape (r : AnnRec) (s : State) : ∃ v c w, stopSource r s = { s with
    lmu := { s.lmu with levels := v }, pbc := c, zar := { s.zar with passPending := w } } := by
  unfold stopSource
  split
  · obtain ⟨v, hv⟩ := placeTails_shape (.stream _ 256) (zonesOf r.held) s
    rw [hv]; exact ⟨v, s.pbc, _, rfl⟩
  · unfold fadeChannel
    obtain ⟨v, hv⟩ := placeTails_shape (.samples (s.channel _).tailSamples) (zonesOf r.held) s
    rw [hv]; exact ⟨v, _, _, rfl⟩
  · exact ⟨s.lmu.levels, s.pbc, s.zar.passPending, rfl⟩

/-- The holders cleared change the zones and the levels, and nothing else. -/
theorem clearHolders_shape (l : List Nat) (s : State) : ∃ v z, clearHolders l s = { s with
    lmu := { s.lmu with levels := v }, zar := { s.zar with zones := z } } := by
  induction l generalizing s with
  | nil => exact ⟨_, _, rfl⟩
  | cons x rest ih =>
    unfold clearHolders
    obtain ⟨v, z, h⟩ := ih ((s.updZone x fun e => { e with holder := none }).updLevel x
      fun l => { l with att := none, releaseAge := 0 })
    exact ⟨v, z, h⟩

/-- A release changes the zones, the levels and the wait for a pass, and nothing else. -/
theorem releaseZones_shape (zones : ZoneSet) (s : State) : ∃ v z w, releaseZones zones s = { s with
    lmu := { s.lmu with levels := v }, zar := { s.zar with zones := z, passPending := w } } := by
  unfold releaseZones
  split
  · exact ⟨s.lmu.levels, s.zar.zones, s.zar.passPending, rfl⟩
  · obtain ⟨v, z, h⟩ := clearHolders_shape (zonesOf zones) s
    rw [h]; exact ⟨v, z, _, rfl⟩

/-! ### Tables changed entry by entry -/

theorem tabGet_tabUpd {α : Type} (t : Tab α) (i j : Nat) (f : α → α) :
    tabGet (tabUpd t i f) j = if j = i then (tabGet t i).map f else tabGet t j := by
  unfold tabUpd
  split
  · next v h =>
    split
    · next e => subst e; simp [h, tabGet_tabSet_same]
    · next e => rw [tabGet_tabSet_other t _ e]
  · next h =>
    split
    · next e => subst e; simp [h]
    · rfl

theorem updZone_zone (z x : Nat) (f : ZoneEntry → ZoneEntry) (s : State) :
    (s.updZone z f).zone x =
      if x = z then ((tabGet s.zar.zones z).map f).getD ZoneEntry.reset else s.zone x := by
  simp only [State.zone, State.updZone, onZar_zar, tabGetD, tabGet_tabUpd]
  split <;> rfl

theorem updLevel_level (z x : Nat) (f : ZoneLevel → ZoneLevel) (s : State) :
    (s.updLevel z f).level x =
      if x = z then ((tabGet s.lmu.levels z).map f).getD ZoneLevel.reset else s.level x := by
  simp only [State.level, State.updLevel, onLmu_lmu, tabGetD, tabGet_tabUpd]
  split <;> rfl

theorem zone_of_listed {s : State} {z : Nat} {e : ZoneEntry} (h : tabGet s.zar.zones z = some e) : s.zone z = e := by
  simp [State.zone, tabGetD, h]

theorem level_of_listed {s : State} {z : Nat} {l : ZoneLevel} (h : tabGet s.lmu.levels z = some l) : s.level z = l := by
  simp [State.level, tabGetD, h]

/-- A table entry stays listed through a change of any entry. -/
theorem tabUpd_isSome {α : Type} (t : Tab α) (i j : Nat) (f : α → α) :
    (tabGet (tabUpd t i f) j).isSome = (tabGet t j).isSome := by
  rw [tabGet_tabUpd]
  split
  · next e => subst e; simp
  · rfl

/-! ### Zones of a set -/

theorem mem_zonesOf {set : ZoneSet} {z : Nat} : z ∈ zonesOf set ↔ set.getLsbD z = true := by
  simp only [zonesOf, List.mem_filter, List.mem_range, and_iff_right_iff_imp]
  intro h
  exact BitVec.lt_of_getLsbD h

/-! ### Holders cleared -/

theorem clearHolders_zone (l : List Nat) (s : State) (z : Nat) :
    (z ∈ l → ((clearHolders l s).zone z).holder = none) ∧ (z ∉ l → (clearHolders l s).zone z = s.zone z) ∧
      ((clearHolders l s).zone z).available = (s.zone z).available ∧
      ((clearHolders l s).zone z).enabled = (s.zone z).enabled := by
  induction l generalizing s with
  | nil => simp [clearHolders]
  | cons x rest ih =>
    have ih := ih ((s.updZone x fun e => { e with holder := none }).updLevel x
      fun l => { l with att := none, releaseAge := 0 })
    have hz : ∀ t : State, (t.updLevel x fun l => { l with att := none, releaseAge := 0 }).zone z = t.zone z :=
      fun _ => rfl
    rw [hz, updZone_zone] at ih
    unfold clearHolders
    by_cases hx : z = x
    · subst hx
      simp only [if_true] at ih
      have key : ∀ o : Option ZoneEntry,
          ((o.map fun e => { e with holder := none }).getD ZoneEntry.reset).holder = none ∧
          ((o.map fun e => { e with holder := none }).getD ZoneEntry.reset).available =
            (o.getD ZoneEntry.reset).available ∧
          ((o.map fun e => { e with holder := none }).getD ZoneEntry.reset).enabled =
            (o.getD ZoneEntry.reset).enabled := by
        intro o; cases o <;> exact ⟨rfl, rfl, rfl⟩
      refine ⟨fun _ => ?_, fun h => absurd (List.mem_cons_self ..) h, ?_, ?_⟩
      · by_cases hr : z ∈ rest
        · exact ih.1 hr
        · rw [ih.2.1 hr]; exact (key _).1
      · rw [ih.2.2.1]; exact (key _).2.1
      · rw [ih.2.2.2]; exact (key _).2.2
    · rw [if_neg hx] at ih
      refine ⟨fun h => ?_, fun h => ?_, ih.2.2.1, ih.2.2.2⟩
      · rcases List.mem_cons.1 h with h | h
        · exact absurd h hx
        · exact ih.1 h
      · exact ih.2.1 fun hm => h (List.mem_cons_of_mem _ hm)

theorem clearHolders_level (l : List Nat) (s : State) (z : Nat) (hl : (tabGet s.lmu.levels z).isSome = true) :
    (z ∈ l → ((clearHolders l s).level z).att = none ∧ ((clearHolders l s).level z).releaseAge = 0) ∧
      (z ∉ l → (clearHolders l s).level z = s.level z) := by
  induction l generalizing s with
  | nil => simp [clearHolders]
  | cons x rest ih =>
    have ih := ih ((s.updZone x fun e => { e with holder := none }).updLevel x
      fun l => { l with att := none, releaseAge := 0 })
      (by
        show (tabGet (tabUpd s.lmu.levels x _) z).isSome = true
        rw [tabUpd_isSome]; exact hl)
    rw [updLevel_level] at ih
    unfold clearHolders
    by_cases hx : z = x
    · subst hx
      simp only [if_true] at ih
      obtain ⟨v, hv⟩ := Option.isSome_iff_exists.1 hl
      have hv' : tabGet (s.updZone z fun e => { e with holder := none }).lmu.levels z = some v := hv
      rw [hv'] at ih
      refine ⟨fun _ => ?_, fun h => absurd (List.mem_cons_self ..) h⟩
      by_cases hr : z ∈ rest
      · exact ih.1 hr
      · rw [ih.2 hr]; exact ⟨rfl, rfl⟩
    · rw [if_neg hx] at ih
      refine ⟨fun h => ?_, fun h => ?_⟩
      · rcases List.mem_cons.1 h with h | h
        · exact absurd h hx
        · exact ih.1 h
      · exact ih.2 fun hm => h (List.mem_cons_of_mem _ hm)

/-! ### The end of a record -/

theorem letGo_none {id : Nat} {s : State} (h : s.ann id = none) (ended : Bool) : letGo id ended s = s := by
  unfold letGo; rw [h]

/-- What letting go changes (R94, R132): the record's sets and channel, the levels, the zones, the channels and the wait
for a pass, and nothing else. -/
theorem letGo_shape {id : Nat} {s : State} {r : AnnRec} (h : s.ann id = some r) (ended : Bool) :
    ∃ v z w c, letGo id ended s = State.updAnn id
      (fun r => { r with held := 0#32, missed := 0#32, lost := 0#32, channel := none })
      { s with lmu := { s.lmu with levels := v }, pbc := c, zar := { s.zar with zones := z, passPending := w } } := by
  unfold letGo
  rw [h]
  have h1 : ∃ v c w, (if ended = true then s else stopSource r s) = { s with
      lmu := { s.lmu with levels := v }, pbc := c, zar := { s.zar with passPending := w } } := by
    split
    · exact ⟨s.lmu.levels, s.pbc, s.zar.passPending, rfl⟩
    · exact stopSource_shape r s
  obtain ⟨v, c, w, h1⟩ := h1
  simp only [h1]
  obtain ⟨v', z, w', h2⟩ := releaseZones_shape r.held
    { s with lmu := { s.lmu with levels := v }, pbc := c, zar := { s.zar with passPending := w } }
  rw [h2]
  exact ⟨v', z, w', c, rfl⟩

/-- A record changed by its ann_id is found changed, and every other as it was. -/
theorem updAnn_ann {s : State} {id : Nat} {f : AnnRec → AnnRec} (hf : ∀ r, (f r).annId = r.annId) (other : Nat) :
    (s.updAnn id f).ann other = if other = id then (s.ann id).map f else s.ann other := by
  simp only [State.ann, State.updAnn, onApl_apl]
  generalize s.apl.records = l
  induction l with
  | nil => simp
  | cons x rest ih =>
    by_cases hx : x.annId = id <;> by_cases ho : x.annId = other <;>
      by_cases hoi : other = id <;> simp_all

/-- A record freed is found no more, and every other as it was. -/
theorem dropAnn_ann (id other : Nat) (s : State) :
    (s.dropAnn id).ann other = if other = id then none else s.ann other := by
  simp only [State.ann, State.dropAnn, onApl_apl]
  generalize s.apl.records = l
  induction l with
  | nil => simp
  | cons x rest ih =>
    by_cases hx : x.annId = id <;> by_cases ho : x.annId = other <;>
      by_cases hoi : other = id <;> simp_all

/-- The record after it has let go: PLAYING still, its sets and channel cleared; every other as it was. -/
theorem letGo_ann {id : Nat} {s : State} {r : AnnRec} (h : s.ann id = some r) (ended : Bool) (other : Nat) :
    (letGo id ended s).ann other =
      if other = id then some { r with held := 0#32, missed := 0#32, lost := 0#32, channel := none }
      else s.ann other := by
  obtain ⟨v, z, w, c, hs⟩ := letGo_shape h ended
  rw [hs, updAnn_ann (by intro _; rfl)]
  show (if other = id then (s.ann id).map _ else s.ann other) = _
  rw [h]; rfl

/-- What closing a record changes: the notices, the counters and the pool. -/
theorem closeAnn_apl (id : Nat) (o : AnnOutcome) (why : Reason) (s : State) : (closeAnn id o why s).apl = { s.apl with
      records := s.apl.records.filter fun x => x.annId != id
      holdDue := if (s.ann id).isSome then s.apl.holdDue.filter (· != id) else s.apl.holdDue
      expiryDue := if (s.ann id).isSome then s.apl.expiryDue.filter (· != id) else s.apl.expiryDue } := by
  unfold closeAnn
  cases h : s.ann id with
  | none =>
    have : s.apl.records.filter (fun x => x.annId != id) = s.apl.records :=
      List.filter_eq_self.2 fun x hx => by simpa [bne] using List.find?_eq_none.1 h x hx
    simp [this]
  | some r => simp [State.dropAnn]

theorem closeAnn_blocks (id : Nat) (o : AnnOutcome) (why : Reason) (s : State) :
    (closeAnn id o why s).crg = s.crg ∧ (closeAnn id o why s).tru = s.tru ∧ (closeAnn id o why s).zar = s.zar ∧
      (closeAnn id o why s).lmu = s.lmu ∧ (closeAnn id o why s).pbc = s.pbc := by
  unfold closeAnn
  split
  · exact ⟨rfl, rfl, rfl, rfl, rfl⟩
  · simp [State.dropAnn]

/-- The pool after the end of a record (R94): the record is gone, with the judgements due for it, and every other
record and field stays. -/
theorem endRecord_apl {id : Nat} {s : State} {r : AnnRec} (h : s.ann id = some r) (o : AnnOutcome) (why : Reason)
    (ended : Bool) : (endRecord id o why ended s).apl = { s.apl with
      records := s.apl.records.filter fun x => x.annId != id
      holdDue := s.apl.holdDue.filter (· != id)
      expiryDue := s.apl.expiryDue.filter (· != id) } := by
  unfold endRecord
  rw [closeAnn_apl, letGo_ann h, if_pos rfl]
  obtain ⟨v, z, w, c, hs⟩ := letGo_shape h ended
  rw [hs]
  simp only [Option.isSome_some, if_true, State.updAnn, onApl_apl, AnnouncementPool.mk.injEq, and_true]
  induction s.apl.records with
  | nil => rfl
  | cons x rest ih =>
    rw [List.map_cons, List.filter_cons, List.filter_cons, ih]
    by_cases hx : x.annId = id
    · simp [hx]
    · simp [hx]

/-- The blocks that the end of a record leaves as they were. -/
theorem endRecord_blocks (id : Nat) (o : AnnOutcome) (why : Reason) (ended : Bool) (s : State) :
    (endRecord id o why ended s).crg = s.crg ∧ (endRecord id o why ended s).tru = s.tru := by
  unfold endRecord
  have h := closeAnn_blocks id o why (letGo id ended s)
  rw [h.1, h.2.1]
  cases hr : s.ann id with
  | none => rw [letGo_none hr]; exact ⟨rfl, rfl⟩
  | some r =>
    obtain ⟨v, z, w, c, hs⟩ := letGo_shape hr ended
    rw [hs]; exact ⟨rfl, rfl⟩

theorem endRecord_none {id : Nat} {s : State} (h : s.ann id = none) (o : AnnOutcome) (why : Reason) (ended : Bool) :
    endRecord id o why ended s = s := by
  unfold endRecord closeAnn
  rw [letGo_none h, h]

/-- The records of a pool after several have ended: those that are not named (R94). -/
theorem endRecords_apl (o : AnnOutcome) (why : Reason) (l : List Nat) (s : State) :
    (endRecords o why l s).apl.records = s.apl.records.filter (fun x => !l.contains x.annId) ∧
      (endRecords o why l s).apl.lastId = s.apl.lastId ∧ (endRecords o why l s).apl.counter = s.apl.counter ∧
      (endRecords o why l s).apl.events = s.apl.events ∧ (endRecords o why l s).apl.changes = s.apl.changes := by
  induction l generalizing s with
  | nil => simp [endRecords]
  | cons id rest ih =>
    have ih := ih (endRecord id o why false s)
    unfold endRecords
    cases hr : s.ann id with
    | none =>
      have he : endRecord id o why false s = s := endRecord_none hr _ _ _
      rw [he] at ih ⊢
      refine ⟨?_, ih.2⟩
      rw [ih.1]
      refine List.filter_congr fun x hx => ?_
      have := List.find?_eq_none.1 hr x hx
      simp only [List.contains_cons]
      grind
    | some r =>
      rw [endRecord_apl hr] at ih
      refine ⟨?_, ih.2⟩
      rw [ih.1, List.filter_filter]
      refine List.filter_congr fun x _ => ?_
      simp only [List.contains_cons]
      grind

theorem endRecords_blocks (o : AnnOutcome) (why : Reason) (l : List Nat) (s : State) :
    (endRecords o why l s).crg = s.crg ∧ (endRecords o why l s).tru = s.tru := by
  induction l generalizing s with
  | nil => exact ⟨rfl, rfl⟩
  | cons id rest ih =>
    have h := endRecord_blocks id o why false s
    exact ⟨(ih _).1.trans h.1, (ih _).2.trans h.2⟩

end Sys2Proof.Machine
end

