-- ==== Sys2Proof/Laws/Clock.lean ====
section
/-! SUPPORT. The freewheel rule of the Station Clock (R8): what a second notes of it, and what entering freewheel does. -/

namespace Sys2Proof.Machine

@[simp] theorem noteFreewheel_day (c : Clock) : c.noteFreewheel.day = c.day := by
  unfold Clock.noteFreewheel; split <;> rfl
@[simp] theorem noteFreewheel_time (c : Clock) : c.noteFreewheel.time = c.time := by
  unfold Clock.noteFreewheel; split <;> rfl
@[simp] theorem noteFreewheel_dayNumber (c : Clock) : c.noteFreewheel.dayNumber = c.dayNumber := by
  unfold Clock.noteFreewheel; split <;> rfl
@[simp] theorem noteFreewheel_originHour (c : Clock) : c.noteFreewheel.originHour = c.originHour := by
  unfold Clock.noteFreewheel; split <;> rfl
@[simp] theorem noteFreewheel_freewheel (c : Clock) : c.noteFreewheel.freewheel = c.freewheel := by
  unfold Clock.noteFreewheel; split <;> rfl
@[simp] theorem noteFreewheel_markAge (c : Clock) : c.noteFreewheel.markAge = c.markAge := by
  unfold Clock.noteFreewheel; split <;> rfl
@[simp] theorem noteFreewheel_markDay (c : Clock) : c.noteFreewheel.markDay = c.markDay := by
  unfold Clock.noteFreewheel; split <;> rfl
@[simp] theorem noteFreewheel_overrun (c : Clock) : c.noteFreewheel.overrun = c.overrun := by
  unfold Clock.noteFreewheel; split <;> rfl
@[simp] theorem noteFreewheel_phase (c : Clock) : c.noteFreewheel.phase = c.phase := by
  unfold Clock.noteFreewheel; split <;> rfl

/-- A second fixes T and the day number of the ENTERED notice exactly where the mark age becomes 60 with the flag
clear (R8). -/
theorem noteFreewheel_entering (c : Clock) : c.noteFreewheel.entering =
    if c.markAge = 60 ∧ c.freewheel = false then some (c.time, c.dayNumber) else c.entering := by
  unfold Clock.noteFreewheel; split <;> rfl

/-- Entering freewheel where no second calls for it does nothing (R8). -/
theorem enterFreewheel_none {s : State} (h : s.sck.entering = none) : enterFreewheel s = s := by
  unfold enterFreewheel; rw [h]

/-- Entering freewheel: the flag and the notice of the second that called for it (R8). -/
theorem enterFreewheel_some {s : State} {t : Nat} {day : Option Nat} (h : s.sck.entering = some (t, day)) :
    enterFreewheel s = raise (.freewheel true t 60 day)
      { s with sck := { s.sck with freewheel := true, entering := none } } := by
  unfold enterFreewheel; rw [h]; rfl

/-- Entering freewheel changes the clock's flag and what a second has noted, the notices and a counter, and nothing
else. -/
theorem enterFreewheel_shape (s : State) : ∃ flag f c, enterFreewheel s =
    { s with sck := { s.sck with freewheel := flag, entering := none }, notices := f, stats := c } := by
  cases h : s.sck.entering with
  | none =>
    refine ⟨s.sck.freewheel, s.notices, s.stats, ?_⟩
    rw [enterFreewheel_none h, ← h]
  | some e =>
    obtain ⟨f, c, hr⟩ := raise_shape (.freewheel true e.1 60 e.2)
      { s with sck := { s.sck with freewheel := true, entering := none } }
    exact ⟨true, f, c, (enterFreewheel_some h).trans hr⟩

end Sys2Proof.Machine
end

