-- ==== Sys2Proof/Laws/Commands.lean ====
section
/-! SUPPORT. What the execution of a command can do: a row that is not the head's changes nothing; one that is gives a
common answer or the owning rule's, and the message leaves the queue. -/

namespace Sys2Proof.Machine

/-- The head of the queue is a row's when it may be executed and has the row's code and body. -/
theorem headFor_some {row : Row} {s : State} {m : Message} (h : s.mgi.commands.head? = some m)
    (hc : canExecute s = true) (hm : m.code = row.code) (hb : row.mine m.body = true) : headFor row s = some m := by
  unfold headFor
  cases hl : s.mgi.commands with
  | nil => simp [hl] at h
  | cons x rest =>
    simp only [hl, List.head?_cons, Option.some.injEq] at h
    subst h
    simp [hc, hm, hb]

/-- What it means that the head of the queue is a row's. -/
theorem headFor_head {row : Row} {s : State} {m : Message} (h : headFor row s = some m) :
    s.mgi.commands.head? = some m ∧ canExecute s = true ∧ m.code = row.code ∧ row.mine m.body = true := by
  unfold headFor at h
  cases hl : s.mgi.commands with
  | nil => simp [hl] at h
  | cons x rest =>
    simp only [hl] at h
    split at h
    · next hx => cases h; exact ⟨rfl, hx⟩
    · cases h

theorem runCommand_idle {row : Row} {act : List Byte → State → Reply} {s : State} (h : headFor row s = none) :
    runCommand row act s = s := by
  unfold runCommand
  rw [h]

theorem runCommand_failed {row : Row} {act : List Byte → State → Reply} {s : State} {m : Message}
    (h : headFor row s = some m) (hf : s.mgi.partState = .failed) (hr : row.inFailed = false) :
    runCommand row act s = finish m .failedPart row.failedBody s := by
  unfold runCommand
  simp [h, hf, hr]

theorem runCommand_short {row : Row} {act : List Byte → State → Reply} {s : State} {m : Message}
    (h : headFor row s = some m) (hf : s.mgi.partState = .failed → row.inFailed = true)
    (hl : row.fits m.body = false) : runCommand row act s = finish m .badLength row.shortBody s := by
  unfold runCommand
  have : ¬(s.mgi.partState = .failed ∧ row.inFailed = false) := fun ⟨a, b⟩ => by simp [hf a] at b
  simp [h, hl, this]

theorem runCommand_taken {row : Row} {act : List Byte → State → Reply} {s : State} {m : Message}
    (h : headFor row s = some m) (hf : s.mgi.partState = .failed → row.inFailed = true)
    (hl : row.fits m.body = true) :
    runCommand row act s = finish m (act m.body s).status (act m.body s).body (act m.body s).state := by
  unfold runCommand
  have : ¬(s.mgi.partState = .failed ∧ row.inFailed = false) := fun ⟨a, b⟩ => by simp [hf a] at b
  simp [h, hl, this]

/-- Everything the execution of a command can do (R182). -/
theorem runCommand_cases (row : Row) (act : List Byte → State → Reply) (s : State) :
    (headFor row s = none ∧ runCommand row act s = s) ∨
    ∃ m, headFor row s = some m ∧
      ((s.mgi.partState = .failed ∧ row.inFailed = false ∧
          runCommand row act s = finish m .failedPart row.failedBody s) ∨
       ((s.mgi.partState = .failed → row.inFailed = true) ∧ row.fits m.body = false ∧
          runCommand row act s = finish m .badLength row.shortBody s) ∨
       ((s.mgi.partState = .failed → row.inFailed = true) ∧ row.fits m.body = true ∧
          runCommand row act s =
            finish m (act m.body s).status (act m.body s).body (act m.body s).state)) := by
  cases h : headFor row s with
  | none => exact .inl ⟨rfl, runCommand_idle h⟩
  | some m =>
    refine .inr ⟨m, rfl, ?_⟩
    by_cases hf : s.mgi.partState = .failed ∧ row.inFailed = false
    · exact .inl ⟨hf.1, hf.2, runCommand_failed h hf.1 hf.2⟩
    · have hf' : s.mgi.partState = .failed → row.inFailed = true := fun a => by
        cases hr : row.inFailed with
        | true => rfl
        | false => exact absurd ⟨a, hr⟩ hf
      cases hl : row.fits m.body with
      | false => exact .inr (.inl ⟨hf', rfl, runCommand_short h hf' hl⟩)
      | true => exact .inr (.inr ⟨hf', rfl, runCommand_taken h hf' hl⟩)

end Sys2Proof.Machine
end

