-- ==== Sys2Proof/Laws/Creation.lean ====
section
/-! SUPPORT. What the creation of a record does: where it stands among the others, and what its judgement at once
makes of it. -/

namespace Sys2Proof.Machine

/-! ### Records of a sound pool -/

/-- A record of a sound pool is the one its ann_id names. -/
theorem ann_of_mem {s : State} (hp : PoolSound s.apl) {r : AnnRec} (h : r ∈ s.apl.records) :
    s.ann r.annId = some r := by
  unfold State.ann
  have hn := hp.2.1
  generalize s.apl.records = l at *
  induction l with
  | nil => simp at h
  | cons x rest ih =>
    rw [List.map_cons, List.nodup_cons] at hn
    rcases List.mem_cons.1 h with rfl | hm
    · simp
    · have hne : x.annId ≠ r.annId := fun he => hn.1 (he ▸ List.mem_map_of_mem (f := fun r => r.annId) hm)
      rw [List.find?_cons_of_neg (by simpa using hne)]
      exact ih hm hn.2

theorem mem_of_ann {s : State} {id : Nat} {r : AnnRec} (h : s.ann id = some r) : r ∈ s.apl.records ∧ r.annId = id :=
  ⟨List.mem_of_find?_eq_some h, by simpa using List.find?_some h⟩

/-- The records that are not among the ann_ids of those at which a condition holds: those at which it does not. -/
theorem filter_annIds {s : State} (hp : PoolSound s.apl) (q : AnnRec → Bool) :
    (s.apl.records.filter fun x => !(s.annIds q).contains x.annId) = s.apl.records.filter fun x => !q x := by
  refine List.filter_congr fun x hx => ?_
  have h1 := ann_of_mem hp hx
  congr 1
  rw [Bool.eq_iff_iff]
  simp only [State.annIds, List.contains_iff_mem, List.mem_map, List.mem_filter]
  constructor
  · rintro ⟨y, ⟨hy, hq⟩, he⟩
    have h2 := ann_of_mem hp hy
    rw [he, h1] at h2
    cases h2
    exact hq
  · intro hq
    exact ⟨x, ⟨hx, hq⟩, rfl⟩

/-! ### A record among the others -/

theorem insertBy_find {before : AnnRec → AnnRec → Bool} {r : AnnRec} {l : List AnnRec} (id : Nat)
    (h : ∀ x ∈ l, x.annId ≠ r.annId) :
    (insertBy before r l).find? (fun x => x.annId == id) =
      if r.annId = id then some r else l.find? fun x => x.annId == id := by
  induction l with
  | nil => by_cases he : r.annId = id <;> simp [insertBy, he]
  | cons y rest ih =>
    have ih := ih fun x hx => h x (List.mem_cons_of_mem _ hx)
    have hy := h y (List.mem_cons_self ..)
    unfold insertBy
    split
    · by_cases hyi : y.annId = id
      · have hr : r.annId ≠ id := fun he => hy (hyi.trans he.symm)
        simp [hyi, hr]
      · rw [List.find?_cons_of_neg (by simpa using hyi), ih]
        simp [hyi]
    · by_cases he : r.annId = id <;> simp [he]

theorem insertBy_filter {α : Type} {before : α → α → Bool} {p : α → Bool} {r : α} {l : List α} (h : p r = false) :
    (insertBy before r l).filter p = l.filter p := by
  induction l with
  | nil => simp [insertBy, h]
  | cons y rest ih =>
    unfold insertBy
    split
    · simp [List.filter_cons, ih]
    · simp [List.filter_cons, h]

/-! ### The judgements -/

/-- The record that an expiry is judged for: gone if T has passed its latest, and otherwise as it was. -/
theorem expireAnn_ann (t id other : Nat) (s : State) : (expireAnn t id s).ann other =
    if other = id ∧ ∃ r, s.ann id = some r ∧ r.expired t = true then none else s.ann other := by
  unfold expireAnn
  cases hr : s.ann id with
  | none => simp
  | some r =>
    simp only
    split
    · next he =>
      simp only [State.ann, endRecord_apl hr]
      by_cases ho : other = id
      · subst ho
        simp [he]
      · simp only [ho, false_and, if_false]
        generalize s.apl.records = l
        induction l with
        | nil => rfl
        | cons x rest ih => by_cases hx : x.annId = id <;> by_cases hy : x.annId = other <;> simp_all
    · next he => simp [he]

/-- What the judgement at once makes of the records: a new record leaves QUEUED when its time has come, and every
other stays (R89). -/
theorem leaveQueued_ann (t id other : Nat) (s : State) : (leaveQueued t id s).ann other =
    if other = id then (s.ann id).map fun r =>
      if r.state = .queued ∧ r.ask.earliest ≤ t then
        if needsConfirmation s r.ask = true then { r with state := .held, holdStart := some t }
        else { r with state := .ready, holdStart := none, eligibleSince := some (r.eligibleSince.getD t) }
      else r
    else s.ann other := by
  unfold leaveQueued
  cases hr : s.ann id with
  | none => by_cases ho : other = id <;> simp [ho, hr]
  | some r =>
    simp only
    split
    · next hq =>
      split
      · next hn =>
        have : ∀ n (u : State), (raise n u).ann other = u.ann other := fun n u => by simp [State.ann]
        rw [this, updAnn_ann (by intro _; rfl)]
        simp [hr, hq, hn]
      · next hn =>
        have : ∀ u : State, (causePass u).ann other = u.ann other := fun u => rfl
        rw [enterReady, this, updAnn_ann (by intro _; rfl)]
        simp [hr, hq, hn]
    · next hq => by_cases ho : other = id <;> simp [ho, hr, hq]

/-! ### Creation (R87, R88) -/

/-- A creation succeeds exactly when a place is free. -/
theorem createRecord_isSome (a : Ask) (s : State) :
    (createRecord a s).isSome = true ↔ s.apl.records.length < Config.poolSize := by
  unfold createRecord
  simp only
  split
  · next h => simp; omega
  · next h => simp; omega

/-- The records after a creation: every other as it was; the new one as written, unless its judgement at once has
moved it on or ended it. -/
theorem createRecord_ann {a : Ask} {s t : State} {id : Nat} (hp : PoolSound s.apl)
    (h : createRecord a s = some (id, t)) :
    id = nextId (s.apl.records.map fun r => r.annId) (s.apl.records.length + 1) s.apl.lastId ∧
    (∀ r ∈ s.apl.records, r.annId ≠ id) ∧ 1 ≤ id ∧ id ≤ 65535 ∧
    (∀ other, other ≠ id → t.ann other = s.ann other) ∧
    t.ann id =
      let fresh := newRecord a id s.apl.counter
      let judged :=
        if fresh.ask.earliest ≤ s.sck.time then
          if needsConfirmation s a = true then { fresh with state := .held, holdStart := some s.sck.time }
          else { fresh with state := .ready, eligibleSince := some s.sck.time }
        else fresh
      if judged.expired s.sck.time = true then none else some judged := by
  have hroom : s.apl.records.length < Config.poolSize := (createRecord_isSome a s).1 (by simp [h])
  have hl : s.apl.records.length ≤ 96 := hp.1
  unfold createRecord at h
  simp only [Nat.not_le.2 hroom, if_false, Option.some.injEq, Prod.mk.injEq] at h
  obtain ⟨hid, ht⟩ := h
  have hr := nextId_range (s.apl.records.map fun r => r.annId) (s.apl.records.length + 1) s.apl.lastId hp.2.2.2
    (by omega)
  have hf := nextId_fresh (s.apl.records.map fun r => r.annId) s.apl.lastId hp.2.2.2 (by simp; omega)
  simp only [List.length_map] at hf
  rw [hid] at hr hf ht
  have hne : ∀ r ∈ s.apl.records, r.annId ≠ id := fun r hm he =>
    hf (he ▸ List.mem_map_of_mem (f := fun r => r.annId) hm)
  refine ⟨hid.symm, hne, hr.1, hr.2, ?_⟩
  have key : ∀ u : State, u.sck = s.sck → u.crg = s.crg →
      (∀ other, u.ann other = if id = other then some (newRecord a id s.apl.counter) else s.ann other) →
      t = expireAnn u.sck.time id (leaveQueued u.sck.time id u) →
      (∀ other, other ≠ id → t.ann other = s.ann other) ∧ t.ann id =
        let fresh := newRecord a id s.apl.counter
        let judged :=
          if fresh.ask.earliest ≤ s.sck.time then
            if needsConfirmation s a = true then { fresh with state := .held, holdStart := some s.sck.time }
            else { fresh with state := .ready, eligibleSince := some s.sck.time }
          else fresh
        if judged.expired s.sck.time = true then none else some judged := by
    intro u hs hc hu ht
    subst ht
    have hn : needsConfirmation u (newRecord a id s.apl.counter).ask = needsConfirmation s a := by
      simp only [needsConfirmation, State.callOf, State.callAt, hc, newRecord]
    refine ⟨fun other ho => ?_, ?_⟩
    · rw [expireAnn_ann, if_neg (by simp [ho]), leaveQueued_ann, if_neg ho, hu, if_neg (Ne.symm ho)]
    · rw [expireAnn_ann, leaveQueued_ann, if_pos rfl, hu, if_pos rfl]
      simp only [Option.map_some, true_and, Option.some.injEq, exists_eq_left', hn, hs]
      have hq : (newRecord a id s.apl.counter).state = .queued := rfl
      simp only [hq, true_and]
      rfl
  refine key _ ?_ ?_ ?_ ht.symm
  · rfl
  · rfl
  · exact fun other => insertBy_find (r := newRecord a id s.apl.counter) other hne

/-- The blocks that a creation leaves as they were. -/
theorem createRecord_blocks {a : Ask} {s t : State} {id : Nat} (h : createRecord a s = some (id, t)) :
    t.crg = s.crg ∧ t.tru = s.tru ∧ t.apl.lastId = id ∧ t.apl.counter = (s.apl.counter + 1) % 4294967296 := by
  have hleave : ∀ (n : Nat) (u : State), (leaveQueued n id u).crg = u.crg ∧ (leaveQueued n id u).tru = u.tru ∧
      (leaveQueued n id u).apl.lastId = u.apl.lastId ∧ (leaveQueued n id u).apl.counter = u.apl.counter := by
    intro n u
    unfold leaveQueued
    split
    · exact ⟨rfl, rfl, rfl, rfl⟩
    · split
      · split
        · simp [State.updAnn]
        · exact ⟨rfl, rfl, rfl, rfl⟩
      · exact ⟨rfl, rfl, rfl, rfl⟩
  have hexpire : ∀ (n : Nat) (u : State), (expireAnn n id u).crg = u.crg ∧ (expireAnn n id u).tru = u.tru ∧
      (expireAnn n id u).apl.lastId = u.apl.lastId ∧ (expireAnn n id u).apl.counter = u.apl.counter := by
    intro n u
    unfold expireAnn
    split
    · exact ⟨rfl, rfl, rfl, rfl⟩
    · next r hr =>
      split
      · have hb := endRecord_blocks id .expired .latestPassed false u
        rw [endRecord_apl hr]
        exact ⟨hb.1, hb.2, rfl, rfl⟩
      · exact ⟨rfl, rfl, rfl, rfl⟩
  unfold createRecord at h
  simp only at h
  split at h
  · cases h
  · simp only [Option.some.injEq, Prod.mk.injEq] at h
    obtain ⟨rfl, rfl⟩ := h
    have h1 := hexpire s.sck.time
    simp only [(hexpire _ _).1, (hexpire _ _).2.1, (hexpire _ _).2.2.1, (hexpire _ _).2.2.2, (hleave _ _).1,
      (hleave _ _).2.1, (hleave _ _).2.2.1, (hleave _ _).2.2.2]
    exact ⟨rfl, rfl, rfl, rfl⟩

end Sys2Proof.Machine
end

