-- ==== Sys2Proof/Laws/Fetch.lean ====
section
/-! SUPPORT. What the fetch of a channel can change: the seven values of the fetch position and nothing else. -/

namespace Sys2Proof.Machine

/-- A channel with the fetch position of another (R138 to R140). -/
def Channel.positionOf (c d : Channel) : Channel :=
  { c with
    fetchElem := d.fetchElem, baseAddr := d.baseAddr, baseCount := d.baseCount, curAddr := d.curAddr
    curCount := d.curCount, loopsLeft := d.loopsLeft, fetchFinished := d.fetchFinished }

theorem enter_frame (i : Nat) (c : Channel) : c.enter i = c.positionOf (c.enter i) := by
  unfold Channel.enter
  split <;> rfl

theorem passEnd_frame (c : Channel) : c.passEnd = c.positionOf c.passEnd := by
  unfold Channel.passEnd
  split
  · rfl
  · split
    · exact enter_frame _ c
    · rfl

theorem issue_frame (n : Nat) (c : Channel) : c.issue n = c.positionOf (c.issue n) := by
  unfold Channel.issue
  simp only
  split
  · exact (passEnd_frame _).trans rfl
  · rfl

/-- A fill appends its zeros, the first with the mark of its element, and moves the fetch position alone. -/
theorem fillOnce_frame (c : Channel) : c.fillOnce = Channel.positionOf
    { c with fifo := c.fifo ++ marked c.begins (List.replicate (min 128 c.curCount) 0) } c.fillOnce :=
  (issue_frame (min 128 c.curCount) _).trans rfl

end Sys2Proof.Machine
end

