-- ==== Sys2Proof/Laws/Parsing.lean ====
section
/-! SUPPORT. What the operations that read an entry's bytes can answer, said once: the 16-bit values of a body, the
parts of a body cut at one size, and a list of parts parsed or refused as a whole. -/

namespace Sys2Proof.Machine

/-- The 16-bit values from a place on, each at its own place. -/
theorem be16s_map (b : List Byte) (i n : Nat) : be16s b i n = (List.range n).map fun k => be16 b (i + 2 * k) := by
  induction n generalizing i with
  | zero => rfl
  | succ n ih =>
    rw [be16s, ih, List.range_succ_eq_map]
    simp only [List.map_cons, List.map_map, Nat.mul_zero, Nat.add_zero, List.cons.injEq, true_and]
    apply List.map_congr_left
    intro k _
    simp only [Function.comp, Nat.succ_eq_add_one]
    congr 1
    omega

/-- A body of whole parts of one size is cut at every multiple of it. -/
theorem splitEntries_const (m n : Nat) (b : List Byte) (h : b.length = m * n) :
    splitEntries (fun _ => m) n b = some ((List.range n).map fun k => (b.drop (m * k)).take m) := by
  induction n generalizing b with
  | zero =>
    have : b = [] := List.length_eq_zero_iff.mp (by simpa using h)
    subst this
    rfl
  | succ n ih =>
    have hm : m ≤ b.length := by rw [h, Nat.mul_succ]; omega
    rw [splitEntries, if_neg (by omega), ih (b.drop m) (by rw [List.length_drop, h, Nat.mul_succ]; omega),
      List.range_succ_eq_map]
    simp only [Option.map_some, List.map_cons, List.map_map, Nat.mul_zero, List.drop_zero, Option.some.injEq,
      List.cons.injEq, true_and]
    apply List.map_congr_left
    intro k _
    simp only [Function.comp, List.drop_drop, Nat.succ_eq_add_one]
    congr 2
    rw [Nat.mul_succ]
    omega

/-- Every part parsed gives the values, in their order. -/
theorem parseAll_some {α : Type} (parse : List Byte → Option α) (l : List (List Byte)) (v : List α) :
    parseAll parse l = some v ↔ l.map parse = v.map some := by
  induction l generalizing v with
  | nil => cases v <;> simp [parseAll]
  | cons b rest ih =>
    cases hb : parse b with
    | none => cases v <;> simp [parseAll, hb]
    | some x =>
      cases hr : parseAll parse rest with
      | none =>
        have hn : ∀ w : List α, rest.map parse ≠ w.map some := fun w hw => by
          have := (ih w).2 hw
          rw [hr] at this
          cases this
        cases v with
        | nil => simp [parseAll, hb, hr]
        | cons y w => simp [parseAll, hb, hr, hn w]
      | some w =>
        cases v with
        | nil => simp [parseAll, hb, hr]
        | cons y u =>
          have := ih u
          rw [hr] at this
          simp only [parseAll, hb, hr, List.map_cons, Option.some.injEq, List.cons.injEq] at this ⊢
          exact and_congr_right fun _ => this

/-- One part refused refuses the whole. -/
theorem parseAll_none {α : Type} (parse : List Byte → Option α) (l : List (List Byte)) :
    parseAll parse l = none ↔ ∃ b ∈ l, parse b = none := by
  induction l with
  | nil => simp [parseAll]
  | cons b rest ih =>
    cases hb : parse b <;> cases hr : parseAll parse rest <;> simp [parseAll, hb, hr] <;> simp [hr] at ih
    · exact ih
    · exact ih

end Sys2Proof.Machine
end

