-- ==== Sys2Proof/Laws/Passes.lean ====
section
/-! SUPPORT. What an arbitration pass can do to the pool (R121 to R130): it starts, returns and ends records, and never
makes one, changes a request, or touches a record that waits in QUEUED or HELD. -/

namespace Sys2Proof.Machine

/-- Whether a record waits before READY. -/
def AnnRec.waits (r : AnnRec) : Bool := r.state == .queued || r.state == .held

/-- A record as a pass leaves it: the same ann_id, seq and request, and the same state if it waits before READY. -/
structure SameAsk (r x : AnnRec) : Prop where
  id : x.annId = r.annId
  seq : x.seq = r.seq
  ask : x.ask = r.ask
  before : r.waits = true → x.state = r.state
  after : x.waits = true → x.state = r.state

theorem SameAsk.refl (r : AnnRec) : SameAsk r r := ⟨rfl, rfl, rfl, fun _ => rfl, fun _ => rfl⟩

theorem SameAsk.waits {r x : AnnRec} (h : SameAsk r x) : x.waits = r.waits := by
  cases hr : r.waits with
  | true => unfold AnnRec.waits at *; rw [h.before hr]; exact hr
  | false =>
    cases hx : x.waits with
    | false => rfl
    | true =>
      have := h.after hx
      unfold AnnRec.waits at hr hx
      rw [this] at hx
      simp_all

theorem SameAsk.trans {r x y : AnnRec} (a : SameAsk r x) (b : SameAsk x y) : SameAsk r y :=
  ⟨b.id.trans a.id, b.seq.trans a.seq, b.ask.trans a.ask,
   fun h => (b.before (a.waits ▸ h)).trans (a.before h), fun h => (b.after h).trans (a.after (b.waits ▸ h))⟩

/-- The ann_ids of the pool's records. -/
def State.ids (s : State) : List Nat := s.apl.records.map fun r => r.annId

/-- What a pass keeps of a pool in which no two records share an ann_id. -/
structure KeptCore (s t : State) : Prop where
  crg : t.crg = s.crg
  tru : t.tru = s.tru
  lastId : t.apl.lastId = s.apl.lastId
  counter : t.apl.counter = s.apl.counter
  events : t.apl.events = s.apl.events
  changes : t.apl.changes = s.apl.changes
  ids : t.ids.Sublist s.ids
  old : ∀ x ∈ t.apl.records, ∃ r ∈ s.apl.records, SameAsk r x
  waiting : ∀ r ∈ s.apl.records, r.waits = true → ∃ x ∈ t.apl.records, SameAsk r x

/-- A pass keeps it, if no two records share an ann_id. -/
def Kept (s t : State) : Prop := s.ids.Nodup → KeptCore s t

theorem Kept.refl (s : State) : Kept s s := fun _ =>
  ⟨rfl, rfl, rfl, rfl, rfl, rfl, List.Sublist.refl _, fun x h => ⟨x, h, .refl x⟩, fun x h _ => ⟨x, h, .refl x⟩⟩

theorem Kept.trans {s t u : State} (h : Kept s t) (k : Kept t u) : Kept s u := by
  intro hn
  have a := h hn
  have b := k (hn.sublist a.ids)
  refine ⟨b.crg.trans a.crg, b.tru.trans a.tru, b.lastId.trans a.lastId, b.counter.trans a.counter,
    b.events.trans a.events, b.changes.trans a.changes, b.ids.trans a.ids, fun x hx => ?_, fun r hr hw => ?_⟩
  · obtain ⟨y, hy, h1⟩ := b.old x hx
    obtain ⟨r, hr, h2⟩ := a.old y hy
    exact ⟨r, hr, h2.trans h1⟩
  · obtain ⟨y, hy, h1⟩ := a.waiting r hr hw
    obtain ⟨x, hx, h2⟩ := b.waiting y hy (h1.waits ▸ hw)
    exact ⟨x, hx, h1.trans h2⟩

/-- A step that leaves the pool, the Call Register and the Trigger Unit alone. -/
theorem Kept.same {s t : State} (ha : t.apl = s.apl) (hc : t.crg = s.crg) (ht : t.tru = s.tru) : Kept s t := by
  exact fun _ => ⟨hc, ht, by rw [ha], by rw [ha], by rw [ha], by rw [ha],
    by rw [State.ids, ha]; exact List.Sublist.refl _,
    fun x h => ⟨x, ha ▸ h, .refl x⟩, fun x h _ => ⟨x, ha ▸ h, .refl x⟩⟩

theorem find_mem {s : State} (hn : s.ids.Nodup) {r : AnnRec} (h : r ∈ s.apl.records) : s.ann r.annId = some r := by
  unfold State.ann
  unfold State.ids at hn
  generalize s.apl.records = l at *
  induction l with
  | nil => simp at h
  | cons x rest ih =>
    rw [List.map_cons, List.nodup_cons] at hn
    rcases List.mem_cons.1 h with rfl | hm
    · simp
    · have hne : x.annId ≠ r.annId := fun he => hn.1 (he ▸ List.mem_map_of_mem (f := fun r => r.annId) hm)
      rw [List.find?_cons_of_neg (by simpa using hne)]
      exact ih hn.2 hm

/-- What is found of a record after a pass: it was found before, and waits as it did. -/
theorem Kept.ann {s t : State} (h : Kept s t) (hn : s.ids.Nodup) {id : Nat} {x : AnnRec} (hx : t.ann id = some x) :
    ∃ r, s.ann id = some r ∧ SameAsk r x := by
  have hm := mem_of_ann hx
  obtain ⟨r, hr, h1⟩ := (h hn).old x hm.1
  have := find_mem hn hr
  rw [← h1.id, hm.2] at this
  exact ⟨r, this, h1⟩

/-- A record changed by its ann_id: its request stays, and its state if it waits. -/
theorem Kept.updAnn {id : Nat} {f : AnnRec → AnnRec} {s : State}
    (hf : ∀ r, (f r).annId = r.annId ∧ (f r).seq = r.seq ∧ (f r).ask = r.ask)
    (hs : ∀ r, s.ids.Nodup → s.ann id = some r → SameAsk r (f r)) : Kept s (s.updAnn id f) := by
  have hid : (s.updAnn id f).ids = s.ids := by
    unfold State.ids
    simp only [State.updAnn, onApl_apl, List.map_map]
    refine List.map_congr_left fun r _ => ?_
    simp only [Function.comp_apply]
    split <;> simp [hf]
  intro hn
  have key : ∀ r ∈ s.apl.records, SameAsk r (if r.annId = id then f r else r) := by
    intro r hr
    split
    · next he => exact hs r hn (he ▸ find_mem hn hr)
    · exact .refl r
  refine ⟨rfl, rfl, rfl, rfl, rfl, rfl, hid ▸ List.Sublist.refl _, fun x hx => ?_, fun r hr _ => ?_⟩
  · obtain ⟨r, hr, rfl⟩ := List.mem_map.1 hx
    exact ⟨r, hr, key r hr⟩
  · exact ⟨_, List.mem_map.2 ⟨r, hr, rfl⟩, key r hr⟩

/-- A change of a record that leaves its state and its request as they are. -/
theorem Kept.upd {f : AnnRec → AnnRec} (id : Nat) (s : State)
    (hf : ∀ r, (f r).annId = r.annId ∧ (f r).seq = r.seq ∧ (f r).ask = r.ask) (hst : ∀ r, (f r).state = r.state) :
    Kept s (s.updAnn id f) :=
  Kept.updAnn hf fun r _ _ => ⟨(hf r).1, (hf r).2.1, (hf r).2.2, fun _ => hst r, fun _ => hst r⟩

/-- A record that does not wait leaves the pool. -/
theorem Kept.endRecord {id : Nat} (o : AnnOutcome) (why : Reason) (ended : Bool) {s : State}
    (hw : s.ids.Nodup → ∀ r, s.ann id = some r → r.waits = false) : Kept s (endRecord id o why ended s) := by
  cases hr : s.ann id with
  | none => rw [endRecord_none hr]; exact .refl s
  | some r =>
    intro hn
    have ha := endRecord_apl hr o why ended
    have hb := endRecord_blocks id o why ended s
    refine ⟨hb.1, hb.2, by rw [ha], by rw [ha], by rw [ha], by rw [ha], ?_, fun x hx => ?_, fun x hx hxw => ?_⟩
    · unfold State.ids; rw [ha]; exact List.filter_sublist.map _
    · rw [ha] at hx
      exact ⟨x, List.mem_of_mem_filter hx, .refl x⟩
    · refine ⟨x, ?_, .refl x⟩
      rw [ha]
      refine List.mem_filter.2 ⟨hx, ?_⟩
      simp only [bne_iff_ne, ne_eq]
      intro he
      have h1 := find_mem hn hx
      rw [he] at h1
      rw [hw hn x h1] at hxw
      exact absurd hxw (by decide)

/-! ### Starts, returns and restarts -/

theorem Kept.causePass (s : State) : Kept s (causePass s) := .same rfl rfl rfl

theorem Kept.raise (n : Notice) (s : State) : Kept s (raise n s) := .same (by simp) (by simp) (by simp)

theorem Kept.countBy (c : Counter) (n : Nat) (s : State) : Kept s (countBy c n s) := .same rfl rfl rfl

theorem Kept.stopSource (r : AnnRec) (s : State) : Kept s (stopSource r s) := by
  obtain ⟨v, c, w, h⟩ := stopSource_shape r s
  rw [h]; exact .same rfl rfl rfl

theorem Kept.releaseZones (z : ZoneSet) (s : State) : Kept s (releaseZones z s) := by
  obtain ⟨v, c, w, h⟩ := releaseZones_shape z s
  rw [h]; exact .same rfl rfl rfl

theorem Kept.fadeChannel (c : Nat) (z : ZoneSet) (s : State) : Kept s (fadeChannel c z s) := by
  unfold Machine.fadeChannel
  obtain ⟨v, h⟩ := placeTails_shape (.samples (s.channel c).tailSamples) (zonesOf z) s
  rw [h]; exact .same rfl rfl rfl

theorem Kept.letGo (id : Nat) (ended : Bool) (s : State) : Kept s (letGo id ended s) := by
  cases hr : s.ann id with
  | none => rw [letGo_none hr]; exact .refl s
  | some r =>
    obtain ⟨v, z, w, c, h⟩ := letGo_shape hr ended
    rw [h]
    refine Kept.trans ?_ (Kept.upd _ _ (fun _ => ⟨rfl, rfl, rfl⟩) fun _ => rfl)
    exact .same rfl rfl rfl

/-- A return to READY, of a record that does not wait before it (R96). -/
theorem Kept.returnToReady {id : Nat} {s : State} (hw : s.ids.Nodup → ∀ r, s.ann id = some r → r.waits = false) :
    Kept s (returnToReady id s) := by
  unfold Machine.returnToReady
  cases hr : s.ann id with
  | none => exact .refl s
  | some r =>
    have h1 : Kept s (Machine.releaseZones r.held (Machine.stopSource r s)) :=
      (Kept.stopSource _ _).trans (Kept.releaseZones _ _)
    simp only
    refine Kept.trans ?_ (Kept.causePass _)
    refine h1.trans (Kept.updAnn (fun _ => ⟨rfl, rfl, rfl⟩) fun x hn hx => ?_)
    refine ⟨rfl, rfl, rfl, fun h => ?_, fun h => ?_⟩
    · have ha : (Machine.releaseZones r.held (Machine.stopSource r s)).apl = s.apl := by
        obtain ⟨v, c, w, e1⟩ := stopSource_shape r s
        obtain ⟨v', c', w', e2⟩ := releaseZones_shape r.held (Machine.stopSource r s)
        rw [e2, e1]
      have hx' : s.ann id = some x := by simpa [State.ann, ha] using hx
      rw [hw (by simpa [State.ids, ha] using hn) x hx'] at h
      exact absurd h (by decide)
    · exact absurd h (by simp [AnnRec.waits])

theorem Kept.restartOrPreempt (why : Reason) {id : Nat} {s : State}
    (hw : s.ids.Nodup → ∀ r, s.ann id = some r → r.waits = false) : Kept s (restartOrPreempt why id s) := by
  unfold Machine.restartOrPreempt
  split
  · exact .refl s
  · split
    · exact (Kept.returnToReady hw).trans (Kept.upd _ _ (fun _ => ⟨rfl, rfl, rfl⟩) fun _ => rfl)
    · exact Kept.endRecord _ _ _ hw

theorem Kept.dealWithLosers (l : List Nat) (s : State) : Kept s (dealWithLosers l s) := by
  induction l generalizing s with
  | nil => exact .refl s
  | cons id rest ih =>
    unfold Machine.dealWithLosers
    split
    · next r hr =>
      refine Kept.trans ?_ (ih _)
      split
      · next hp =>
        refine Kept.restartOrPreempt _ fun _ x hx => ?_
        rw [hr] at hx; cases hx
        simp [AnnRec.waits, hp.1]
      · exact .refl s
    · exact ih s

theorem Kept.seizeZones (id cls : Nat) (l : List Nat) (s : State) : Kept s (seizeZones id cls l s) := by
  induction l generalizing s with
  | nil => exact .refl s
  | cons z rest ih =>
    unfold Machine.seizeZones
    simp only
    refine Kept.trans ?_ (ih _)
    refine Kept.trans (t := match (s.zone z).holder with
      | some h => s.updAnn h fun r => { r with
          held := r.held &&& ~~~(BitVec.twoPow 32 z), lost := r.lost ||| BitVec.twoPow 32 z }
      | none => s) ?_ (.same rfl rfl rfl)
    split
    · exact Kept.upd _ _ (fun _ => ⟨rfl, rfl, rfl⟩) fun _ => rfl
    · exact .refl s

theorem Kept.takeStolen (src : Source) (s : State) : Kept s (takeStolen src s) := by
  unfold Machine.takeStolen
  split
  · split
    · exact (Kept.fadeChannel _ _ _).trans (Kept.upd _ _ (fun _ => ⟨rfl, rfl, rfl⟩) fun _ => rfl)
    · exact .refl s
  · exact .refl s

/-- The victim of a steal, if the source is one, is a record that does not wait. -/
def Source.Sound (src : Source) (s : State) : Prop :=
  ∀ c v, src = .steal c v → ∀ x, s.ann v = some x → x.waits = false

/-- A record that did not wait before some steps is changed after them. -/
theorem Kept.thenUpdAnn {s t : State} (h : Kept s t) {id : Nat} {f : AnnRec → AnnRec}
    (hf : ∀ r, (f r).annId = r.annId ∧ (f r).seq = r.seq ∧ (f r).ask = r.ask ∧ (f r).waits = false)
    (hw : s.ids.Nodup → ∀ r, s.ann id = some r → r.waits = false) : Kept s (t.updAnn id f) := fun hn => by
  refine (h.trans (Kept.updAnn (fun r => ⟨(hf r).1, (hf r).2.1, (hf r).2.2.1⟩) fun x _ hx => ?_)) hn
  obtain ⟨r, hr, h1⟩ := h.ann hn hx
  have := h1.waits.trans (hw hn r hr)
  have := (hf x).2.2.2
  exact ⟨(hf x).1, (hf x).2.1, (hf x).2.2.1, fun h => by simp_all, fun h => by simp_all⟩

theorem Kept.thenRestart {s t : State} (h : Kept s t) (why : Reason) {id : Nat}
    (hw : s.ids.Nodup → ∀ r, s.ann id = some r → r.waits = false) : Kept s (Machine.restartOrPreempt why id t) :=
  fun hn => by
    refine (h.trans (Kept.restartOrPreempt why fun _ x hx => ?_)) hn
    obtain ⟨r, hr, h1⟩ := h.ann hn hx
    exact h1.waits.trans (hw hn r hr)

theorem Kept.giveSource (src : Source) (r : AnnRec) (list : List Element) (s : State) :
    Kept s (match src.channel with
      | some c => giveChannel c r list s
      | none => s) := by
  split
  · exact .same rfl rfl rfl
  · exact .refl s

theorem Kept.causePassIf (b : Bool) (s : State) : Kept s (if b then s else Machine.causePass s) := by
  cases b
  · exact .causePass s
  · exact .refl s

theorem Kept.startRecord {r : AnnRec} {src : Source} {s : State} (u taken : ZoneSet) (list : List Element)
    (hsrc : s.ids.Nodup → src.Sound s) (hw : s.ids.Nodup → ∀ x, s.ann r.annId = some x → x.waits = false) :
    Kept s (startRecord r src u taken list s) := by
  unfold Machine.startRecord
  simp only
  refine Kept.trans ?_ (Kept.dealWithLosers _ _)
  have key : ∀ t : State, Kept s t → Kept s (Machine.dealWithVictim src t) := by
    intro t h
    unfold Machine.dealWithVictim
    split
    · next c v => exact h.thenRestart _ fun hn x hx => hsrc hn c v rfl x hx
    · exact h
  refine key _ ?_
  refine Kept.trans ?_ (Kept.countBy _ 1 _)
  refine Kept.thenUpdAnn ?_ (fun _ => ⟨rfl, rfl, rfl, rfl⟩) hw
  refine Kept.trans ?_ (Kept.giveSource _ _ _ _)
  refine Kept.trans ?_ (Kept.seizeZones _ _ _ _)
  exact (Kept.takeStolen _ _).trans (Kept.causePassIf _ _)

/-! ### Sources -/

theorem foldl_betterVictim (s : State) (l : List (Nat × Nat × Nat)) (x : Nat × Nat × Nat) :
    l.foldl (betterVictim s) x = x ∨ l.foldl (betterVictim s) x ∈ l := by
  induction l generalizing x with
  | nil => exact .inl rfl
  | cons y rest ih =>
    rw [List.foldl_cons]
    rcases ih (betterVictim s x y) with h | h
    · rw [h]
      unfold betterVictim
      split
      · exact .inr (List.mem_cons_self ..)
      · exact .inl rfl
    · exact .inr (List.mem_cons_of_mem _ h)

/-- The victim of a steal is a PLAYING record that holds the channel (R127). -/
theorem steal_victim {s : State} {r : AnnRec} {c v : Nat} (h : sourceFor s r = some (.steal c v)) :
    ∃ a ∈ s.apl.records, a.annId = v ∧ a.state = .playing ∧ a.channel = some c := by
  have hc : stealChoice s = some (.steal c v) := by
    unfold sourceFor at h
    split at h
    · cases h
    · split at h
      · cases h
      · split at h
        · exact h
        · cases h
  unfold stealChoice at hc
  split at hc
  · cases hc
  · next y rest hl =>
    simp only [Option.some.injEq, Source.steal.injEq] at hc
    have hm : rest.foldl (betterVictim s) y ∈ stealCandidates s := by
      rw [hl]
      rcases foldl_betterVictim s rest y with h | h
      · rw [h]; exact List.mem_cons_self ..
      · exact List.mem_cons_of_mem _ h
    obtain ⟨a, ha, hb⟩ := List.mem_filterMap.1 hm
    split at hb
    · next hp =>
      obtain ⟨d, hd, he⟩ := Option.map_eq_some_iff.1 hb
      rw [← he] at hc
      have h1 : d = c := hc.1
      exact ⟨a, ha, hc.2, hp.1, h1 ▸ hd⟩
    · cases hb

theorem sourceFor_sound {s : State} {r : AnnRec} {src : Source} (h : sourceFor s r = some src) (hn : s.ids.Nodup) :
    src.Sound s := by
  rintro c v rfl x hx
  obtain ⟨a, ha, h1, h2, _⟩ := steal_victim h
  have := find_mem hn ha
  rw [h1, hx] at this
  cases this
  simp [AnnRec.waits, h2]

/-! ### Turns and passes -/

theorem Kept.noteExpansion (r : AnnRec) (e : Expansion) (s : State) : Kept s (noteExpansion r e s) := by
  unfold Machine.noteExpansion
  simp only
  cases e.firstMissing <;> cases e.truncatedAt
  · exact .countBy _ _ _
  · exact ((Kept.countBy _ _ _).trans (Kept.countBy _ 1 _)).trans (Kept.raise _ _)
  · exact (Kept.countBy _ _ _).trans (Kept.raise _ _)
  · exact (((Kept.countBy _ _ _).trans (Kept.raise _ _)).trans (Kept.countBy _ 1 _)).trans (Kept.raise _ _)

theorem noteExpansion_ann (r : AnnRec) (e : Expansion) (s : State) (id : Nat) :
    (noteExpansion r e s).ann id = s.ann id := by
  unfold noteExpansion
  simp only [State.ann]
  cases e.firstMissing <;> cases e.truncatedAt <;> simp

theorem Kept.tryStart {r : AnnRec} {src : Source} {s : State} (u taken : ZoneSet) (hsrc : s.ids.Nodup → src.Sound s)
    (hw : s.ids.Nodup → ∀ x, s.ann r.annId = some x → x.waits = false) : Kept s (tryStart r src u taken s) := by
  unfold Machine.tryStart
  split
  · exact .startRecord _ _ _ hsrc hw
  · have h0 := Kept.noteExpansion r (expandFor r s) s
    simp only
    generalize hs1 : Machine.noteExpansion r (expandFor r s) s = s1 at *
    have ha : ∀ id, s1.ann id = s.ann id := hs1 ▸ noteExpansion_ann r _ s
    refine fun hn => (h0.trans ?_) hn
    split
    · refine (Kept.countBy _ 1 _).trans (Kept.endRecord _ _ _ fun _ x hx => hw hn x ?_)
      rw [← ha]; exact hx
    · refine .startRecord _ _ _ (fun _ c v e x hx => hsrc hn c v e x ?_) fun _ x hx => hw hn x ?_
      · rw [← ha]; exact hx
      · rw [← ha]; exact hx

theorem Kept.takeTurn (id : Nat) (reserved : ZoneSet) (s : State) : Kept s (takeTurn id reserved s).2 := by
  unfold Machine.takeTurn
  split
  · exact .refl s
  · next r hr =>
    have hid : r.annId = id := (mem_of_ann hr).2
    split
    · exact .refl s
    · next hready =>
      have hready : r.state = .ready := by simpa using hready
      have hw : s.ids.Nodup → ∀ x, s.ann r.annId = some x → x.waits = false := by
        intro _ x hx
        rw [hid, hr] at hx; cases hx
        simp [AnnRec.waits, hready]
      have start : ∀ src u taken, sourceFor s r = some src → Kept s (Machine.tryStart r src u taken s) :=
        fun src u taken h => .tryStart u taken (sourceFor_sound h) hw
      simp only
      split
      · unfold noteNoZones
        split
        · exact .refl s
        · refine Kept.trans ?_ (Kept.raise _ _)
          exact Kept.upd _ _ (fun _ => ⟨rfl, rfl, rfl⟩) fun _ => rfl
      · split
        · split
          · split
            · next src h => exact start _ _ _ h
            · exact .refl s
          · exact .refl s
        · split
          · exact .refl s
          · split
            · next src h => exact start _ _ _ h
            · exact .refl s

theorem Kept.takeTurns (l : List Nat) (reserved : ZoneSet) (s : State) : Kept s (takeTurns l reserved s) := by
  induction l generalizing s reserved with
  | nil => exact .refl s
  | cons id rest ih => exact (Kept.takeTurn _ _ _).trans (ih _ _)

/-- What a chain of passes keeps (R120, R121). -/
theorem Kept.passChain (k : Nat) (s : State) : Kept s (passChain k s) := by
  induction k generalizing s with
  | zero => exact .refl s
  | succ k ih =>
    unfold Machine.passChain
    split
    · refine Kept.trans ?_ (ih _)
      refine Kept.trans ?_ (Kept.takeTurns _ _ _)
      exact .same rfl rfl rfl
    · exact .refl s

theorem Kept.letGoAndPass (id : Nat) (ended : Bool) (s : State) : Kept s (letGoAndPass id ended s) := by
  unfold Machine.letGoAndPass
  split
  · exact .refl s
  · split
    · exact .letGo _ _ _
    · exact (Kept.letGo _ _ _).trans (Kept.passChain _ _)

/-! ### Ends with their passes (R94) -/

/-- What the ends of the records named keep of a pool in which no two records share an ann_id: none of them is left, no
record is made or asks for anything else, and those that wait before READY stay. -/
structure KeptBut (gone : List Nat) (s t : State) : Prop where
  crg : t.crg = s.crg
  tru : t.tru = s.tru
  lastId : t.apl.lastId = s.apl.lastId
  counter : t.apl.counter = s.apl.counter
  events : t.apl.events = s.apl.events
  changes : t.apl.changes = s.apl.changes
  ids : t.ids.Sublist s.ids
  old : ∀ x ∈ t.apl.records, x.annId ∉ gone ∧ ∃ r ∈ s.apl.records, SameAsk r x
  waiting : ∀ r ∈ s.apl.records, r.annId ∉ gone → r.waits = true → ∃ x ∈ t.apl.records, SameAsk r x

theorem KeptBut.ofKept {s t : State} (hn : s.ids.Nodup) (h : Kept s t) : KeptBut [] s t := by
  have h := h hn
  exact ⟨h.crg, h.tru, h.lastId, h.counter, h.events, h.changes, h.ids, fun x hx => ⟨by simp, h.old x hx⟩,
    fun r hr _ hw => h.waiting r hr hw⟩

theorem KeptBut.trans {a b : List Nat} {s t u : State} (h : KeptBut a s t) (k : KeptBut b t u) : KeptBut (a ++ b) s u := by
  refine ⟨k.crg.trans h.crg, k.tru.trans h.tru, k.lastId.trans h.lastId, k.counter.trans h.counter,
    k.events.trans h.events, k.changes.trans h.changes, k.ids.trans h.ids, fun x hx => ?_, fun r hr hg hw => ?_⟩
  · obtain ⟨h1, y, hy, h2⟩ := k.old x hx
    obtain ⟨h3, r, hr, h4⟩ := h.old y hy
    rw [List.mem_append, not_or]
    exact ⟨⟨by simpa [h2.id] using h3, h1⟩, r, hr, h4.trans h2⟩
  · rw [List.mem_append, not_or] at hg
    obtain ⟨y, hy, h1⟩ := h.waiting r hr hg.1 hw
    obtain ⟨x, hx, h2⟩ := k.waiting y hy (by rw [h1.id]; exact hg.2) (h1.waits ▸ hw)
    exact ⟨x, hx, h1.trans h2⟩

theorem KeptBut.sameNames {a b : List Nat} {s t : State} (h : KeptBut a s t) (hab : ∀ id, id ∈ a ↔ id ∈ b) :
    KeptBut b s t :=
  ⟨h.crg, h.tru, h.lastId, h.counter, h.events, h.changes, h.ids,
   fun x hx => ⟨fun hm => (h.old x hx).1 ((hab _).2 hm), (h.old x hx).2⟩,
   fun r hr hg hw => h.waiting r hr (fun hm => hg ((hab _).1 hm)) hw⟩

/-- The record named leaves the pool, which is otherwise as it was. -/
theorem KeptBut.freed {id : Nat} {s t : State} (hc : t.crg = s.crg) (ht : t.tru = s.tru)
    (hr : t.apl.records = s.apl.records.filter fun x => x.annId != id) (hl : t.apl.lastId = s.apl.lastId)
    (hk : t.apl.counter = s.apl.counter) (he : t.apl.events = s.apl.events) (hg : t.apl.changes = s.apl.changes) :
    KeptBut [id] s t := by
  refine ⟨hc, ht, hl, hk, he, hg, ?_, fun x hx => ?_, fun r hm hn _ => ⟨r, ?_, .refl r⟩⟩
  · unfold State.ids; rw [hr]; exact List.filter_sublist.map _
  · rw [hr] at hx
    have hm := List.mem_filter.1 hx
    exact ⟨by simpa using hm.2, x, hm.1, .refl x⟩
  · rw [hr]
    exact List.mem_filter.2 ⟨hm, by simpa using hn⟩

theorem KeptBut.closeAnn (id : Nat) (o : AnnOutcome) (why : Reason) (s : State) :
    KeptBut [id] s (closeAnn id o why s) := by
  have hb := closeAnn_blocks id o why s
  have ha := closeAnn_apl id o why s
  exact .freed hb.1 hb.2.1 (by rw [ha]) (by rw [ha]) (by rw [ha]) (by rw [ha]) (by rw [ha])

theorem KeptBut.closeAnns (o : AnnOutcome) (why : Reason) (l : List Nat) {s : State} (hn : s.ids.Nodup) :
    KeptBut l s (closeAnns o why l s) := by
  induction l generalizing s with
  | nil => exact .ofKept hn (.refl s)
  | cons id rest ih =>
    have a := KeptBut.closeAnn id o why s
    exact a.trans (ih (hn.sublist a.ids))

theorem KeptBut.endRecords (o : AnnOutcome) (why : Reason) (l : List Nat) {s : State} (hn : s.ids.Nodup) :
    KeptBut l s (endRecords o why l s) := by
  induction l generalizing s with
  | nil => exact .ofKept hn (.refl s)
  | cons id rest ih =>
    have a : KeptBut [id] s (Machine.endRecord id o why false s) :=
      (KeptBut.ofKept hn (.letGo id false s)).trans (.closeAnn id o why _)
    exact a.trans (ih (hn.sublist a.ids))

theorem KeptBut.endAnn (id : Nat) (o : AnnOutcome) (why : Reason) (ended : Bool) {s : State} (hn : s.ids.Nodup) :
    KeptBut [id] s (endAnn id o why ended s) :=
  (KeptBut.ofKept hn (.letGoAndPass id ended s)).trans (.closeAnn id o why _)

theorem Kept.letGoAll (l : List Nat) (s : State) : Kept s (letGoAll l s) := by
  induction l generalizing s with
  | nil => exact .refl s
  | cons id rest ih => exact (Kept.letGo id false s).trans (ih _)

theorem KeptBut.endAnns (o : AnnOutcome) (why : Reason) (l : List Nat) {s : State} (hn : s.ids.Nodup) :
    KeptBut l s (endAnns o why l s) := by
  have a := KeptBut.endRecords o why (l.filter fun id => !s.plays id) hn
  have b : ∀ held : Bool, Kept (Machine.endRecords o why (l.filter fun id => !s.plays id) s)
      (if held = true then Machine.passChain 290 (Machine.letGoAll (l.filter s.plays)
        (Machine.endRecords o why (l.filter fun id => !s.plays id) s)) else Machine.letGoAll (l.filter s.plays)
        (Machine.endRecords o why (l.filter fun id => !s.plays id) s)) := by
    intro held
    split
    · exact (Kept.letGoAll _ _).trans (Kept.passChain _ _)
    · exact Kept.letGoAll _ _
  have c := a.trans (.ofKept (hn.sublist a.ids) (b ((l.filter s.plays).any s.holdsZone)))
  refine (c.trans (.closeAnns o why (l.filter s.plays) (hn.sublist c.ids))).sameNames fun id => ?_
  simp only [List.append_nil, List.mem_append, List.mem_filter, Bool.not_eq_true']
  cases s.plays id <;> simp

/-- The records not named are the same after a step that changes one named record. -/
theorem updAnn_others {l : List Nat} {id : Nat} (h : id ∈ l) {f : AnnRec → AnnRec} (hf : ∀ r, (f r).annId = r.annId)
    (s : State) : (s.updAnn id f).apl.records.filter (fun r => !l.contains r.annId) =
      s.apl.records.filter fun r => !l.contains r.annId := by
  simp only [State.updAnn, onApl_apl]
  induction s.apl.records with
  | nil => rfl
  | cons x rest ih =>
    rw [List.map_cons, List.filter_cons, List.filter_cons, ih]
    by_cases hx : x.annId = id
    · simp [hx, hf, h]
    · simp [hx]

theorem letGoAll_others {l named : List Nat} (h : ∀ id ∈ l, id ∈ named) (s : State) :
    (letGoAll l s).apl.records.filter (fun r => !named.contains r.annId) =
      s.apl.records.filter fun r => !named.contains r.annId := by
  induction l generalizing s with
  | nil => rfl
  | cons id rest ih =>
    refine (ih (fun x hx => h x (List.mem_cons_of_mem _ hx)) (letGo id false s)).trans ?_
    cases hr : s.ann id with
    | none => rw [letGo_none hr]
    | some r =>
      obtain ⟨v, z, w, c, hs⟩ := letGo_shape hr false
      rw [hs]
      exact updAnn_others (f := fun r => { r with held := 0#32, missed := 0#32, lost := 0#32, channel := none })
        (h id (List.mem_cons_self ..)) (fun _ => rfl) _

theorem closeAnns_records (o : AnnOutcome) (why : Reason) (l : List Nat) (s : State) :
    (closeAnns o why l s).apl.records = s.apl.records.filter fun r => !l.contains r.annId := by
  induction l generalizing s with
  | nil => simp [closeAnns]
  | cons id rest ih =>
    unfold closeAnns
    rw [ih, closeAnn_apl, List.filter_filter]
    refine List.filter_congr fun x _ => ?_
    simp only [List.contains_cons, Bool.not_or, bne, Bool.and_comm]

/-- Where the records named hold no zone, their end makes no pass, and the pool's other records stay as they were
(R94). -/
theorem endAnns_quiet {l : List Nat} {s : State} (h : ∀ id ∈ l, s.holdsZone id = false) (o : AnnOutcome)
    (why : Reason) : (endAnns o why l s).apl.records = s.apl.records.filter fun r => !l.contains r.annId := by
  unfold endAnns
  have hq : (l.filter s.plays).any s.holdsZone = false :=
    List.any_eq_false.2 fun id hid => by simp [h id (List.mem_of_mem_filter hid)]
  simp only [hq, closeAnns_records]
  rw [if_neg (by simp), letGoAll_others (fun _ h => h), (endRecords_apl o why _ s).1, List.filter_filter]
  refine List.filter_congr fun r _ => ?_
  cases hp : s.plays r.annId <;> by_cases hm : r.annId ∈ l <;> simp [hp, hm]

/-- A record that holds no zone ends without a pass (R94). -/
theorem endAnn_quiet {id : Nat} {s : State} (h : ∀ r, s.ann id = some r → r.held = 0#32) (o : AnnOutcome) (why : Reason)
    (ended : Bool) : endAnn id o why ended s = endRecord id o why ended s := by
  unfold endAnn endRecord letGoAndPass
  cases hr : s.ann id with
  | none => rw [letGo_none hr]
  | some r => simp only [h r hr, if_true]

/-! ### The record whose end makes the pass (R94) -/

/-- A record stands aside in a state: it is PLAYING, but holds no channel, and no zone has it as its holder. -/
structure Aside (id : Nat) (x : AnnRec) (s : State) : Prop where
  ann : s.ann id = some x
  state : x.state = .playing
  channel : x.channel = none
  zones : ∀ z, (s.zone z).holder ≠ some id

theorem Aside.same {id : Nat} {x : AnnRec} {s t : State} (h : Aside id x s) (ha : t.apl = s.apl)
    (hz : t.zar.zones = s.zar.zones) : Aside id x t :=
  ⟨by simpa [State.ann, ha] using h.ann, h.state, h.channel, fun z => by simpa [State.zone, hz] using h.zones z⟩

theorem Aside.upd {id other : Nat} {x : AnnRec} {s : State} {f : AnnRec → AnnRec} (h : Aside id x s) (ho : other ≠ id)
    (hf : ∀ r, (f r).annId = r.annId) : Aside id x (s.updAnn other f) :=
  ⟨by rw [updAnn_ann hf, if_neg ho.symm]; exact h.ann, h.state, h.channel, h.zones⟩

theorem Aside.raise {id : Nat} {x : AnnRec} {s : State} (h : Aside id x s) (n : Notice) : Aside id x (raise n s) :=
  h.same (by simp) (by simp)

theorem Aside.causePass {id : Nat} {x : AnnRec} {s : State} (h : Aside id x s) : Aside id x (causePass s) := h.same rfl rfl

theorem Aside.count {id : Nat} {x : AnnRec} {s : State} (h : Aside id x s) (c : Counter) : Aside id x (count c s) :=
  h.same rfl rfl

theorem Aside.stopSource {id : Nat} {x : AnnRec} {s : State} (h : Aside id x s) (r : AnnRec) :
    Aside id x (stopSource r s) := by
  obtain ⟨v, c, w, e⟩ := stopSource_shape r s
  rw [e]; exact h.same rfl rfl

theorem Aside.releaseZones {id : Nat} {x : AnnRec} {s : State} (h : Aside id x s) (zones : ZoneSet) :
    Aside id x (releaseZones zones s) := by
  unfold Machine.releaseZones
  split
  · exact h
  · obtain ⟨v, z, e⟩ := clearHolders_shape (zonesOf zones) s
    refine ⟨?_, h.state, h.channel, fun y => ?_⟩
    · have := h.ann
      rw [e]; exact this
    · show ((clearHolders (zonesOf zones) s).zone y).holder ≠ some id
      have hc := clearHolders_zone (zonesOf zones) s y
      by_cases hy : y ∈ zonesOf zones
      · rw [hc.1 hy]; simp
      · rw [hc.2.1 hy]; exact h.zones y

theorem Aside.endRecord {id other : Nat} {x : AnnRec} {s : State} (h : Aside id x s) (ho : other ≠ id) (o : AnnOutcome)
    (why : Reason) (ended : Bool) : Aside id x (endRecord other o why ended s) := by
  cases hr : s.ann other with
  | none => rw [endRecord_none hr]; exact h
  | some r =>
    have hz := (closeAnn_blocks other o why (letGo other ended s)).2.2.1
    have h1 : Aside id x (letGo other ended s) := by
      unfold letGo
      rw [hr]
      refine Aside.upd (Aside.releaseZones ?_ _) ho fun _ => rfl
      split
      · exact h
      · exact h.stopSource r
    refine ⟨?_, h.state, h.channel, fun z => ?_⟩
    · have ha := endRecord_apl hr o why ended
      simp only [State.ann, ha]
      have := dropAnn_ann other id s
      rw [if_neg ho.symm] at this
      have h2 := h.ann
      rw [← this] at h2
      exact h2
    · unfold Machine.endRecord
      simpa [State.zone, hz] using h1.zones z

theorem Aside.restart {id other : Nat} {x : AnnRec} {s : State} (h : Aside id x s) (ho : other ≠ id) (why : Reason) :
    Aside id x (restartOrPreempt why other s) := by
  unfold restartOrPreempt
  split
  · exact h
  · split
    · refine Aside.upd ?_ ho fun _ => rfl
      unfold returnToReady
      split
      · exact h
      · refine Aside.causePass ?_
        exact ((h.stopSource _).releaseZones _).upd ho fun _ => rfl
    · exact h.endRecord ho _ _ _

theorem Aside.dealWithLosers {id : Nat} {x : AnnRec} (l : List Nat) (hl : id ∉ l) {s : State} (h : Aside id x s) :
    Aside id x (dealWithLosers l s) := by
  induction l generalizing s with
  | nil => exact h
  | cons other rest ih =>
    rw [List.mem_cons, not_or] at hl
    unfold Machine.dealWithLosers
    split
    · refine ih hl.2 ?_
      split
      · exact h.restart (Ne.symm hl.1) _
      · exact h
    · exact ih hl.2 h

theorem Aside.seizeZones {id rid : Nat} {x : AnnRec} (hne : rid ≠ id) (cls : Nat) (l : List Nat) {s : State}
    (h : Aside id x s) : Aside id x (seizeZones rid cls l s) := by
  induction l generalizing s with
  | nil => exact h
  | cons z rest ih =>
    unfold Machine.seizeZones
    simp only
    refine ih ?_
    have key : ∀ u : State, Aside id x u →
        Aside id x (Machine.takeAtt cls 0 z (u.updZone z fun e => { e with holder := some rid })) := by
      intro u h1
      refine ⟨h1.ann, h1.state, h1.channel, fun y => ?_⟩
      show ((u.updZone z fun e => { e with holder := some rid }).zone y).holder ≠ some id
      rw [updZone_zone]
      split
      · cases tabGet u.zar.zones z with
        | none => simp [ZoneEntry.reset]
        | some e => simpa using hne
      · exact h1.zones y
    refine key _ ?_
    split
    · next hh he => exact h.upd (fun e => h.zones z (e ▸ he)) fun _ => rfl
    · exact h

theorem holdersOf_mem {s : State} {l : List Nat} {h : Nat} (hm : h ∈ holdersOf s l) : ∃ z, (s.zone z).holder = some h := by
  induction l with
  | nil => simp [holdersOf] at hm
  | cons z rest ih =>
    unfold holdersOf at hm
    simp only at hm
    split at hm
    · next k hk =>
      split at hm
      · exact ih hm
      · rcases List.mem_cons.1 hm with rfl | hm
        · exact ⟨z, hk⟩
        · exact ih hm
    · exact ih hm

theorem mem_insertBy {α : Type} (before : α → α → Bool) (x y : α) (l : List α) : y ∈ insertBy before x l ↔ y = x ∨ y ∈ l := by
  rw [(insertBy_perm before x l).mem_iff, List.mem_cons]

theorem mem_sortBy {α : Type} (before : α → α → Bool) (y : α) (l : List α) : y ∈ sortBy before l ↔ y ∈ l := by
  induction l with
  | nil => rfl
  | cons x rest ih =>
    show y ∈ insertBy before x (sortBy before rest) ↔ _
    rw [mem_insertBy, ih, List.mem_cons]

theorem Aside.startRecord {id : Nat} {x : AnnRec} {r : AnnRec} {src : Source} {s : State} (u taken : ZoneSet)
    (list : List Element) (h : Aside id x s) (hne : r.annId ≠ id) (hv : ∀ c v, src = .steal c v → v ≠ id) :
    Aside id x (startRecord r src u taken list s) := by
  unfold Machine.startRecord
  simp only
  have h1 : Aside id x (takeStolen src s) := by
    unfold takeStolen
    split
    · next c v =>
      split
      · unfold fadeChannel
        obtain ⟨w, e⟩ := placeTails_shape (.samples (s.channel c).tailSamples) (zonesOf ‹AnnRec›.held) s
        refine Aside.upd ?_ (hv c v rfl) fun _ => rfl
        rw [e]; exact h.same rfl rfl
      · exact h
    · exact h
  generalize takeStolen src s = s1 at *
  refine Aside.dealWithLosers _ ?_ ?_
  · intro hm
    have hm := (mem_sortBy _ _ _).1 (List.mem_of_mem_filter hm)
    obtain ⟨z, hz⟩ := holdersOf_mem hm
    exact h1.zones z hz
  · have key : ∀ t : State, Aside id x t → Aside id x (dealWithVictim src t) := by
      intro t ht
      unfold dealWithVictim
      split
      · next c v => exact ht.restart (hv c v rfl) _
      · exact ht
    refine key _ ?_
    refine Aside.count ?_ _
    refine Aside.upd ?_ hne fun _ => rfl
    have give : ∀ t : State, Aside id x t → Aside id x (match src.channel with
        | some c => giveChannel c r list t
        | none => t) := by
      intro t ht
      split
      · exact ht.same rfl rfl
      · exact ht
    refine give _ (Aside.seizeZones hne _ _ ?_)
    split
    · exact h1
    · exact h1.same rfl rfl

theorem Aside.tryStart {id : Nat} {x : AnnRec} {r : AnnRec} {src : Source} {s : State} (u taken : ZoneSet)
    (h : Aside id x s) (hne : r.annId ≠ id) (hv : ∀ c v, src = .steal c v → v ≠ id) :
    Aside id x (tryStart r src u taken s) := by
  unfold Machine.tryStart
  split
  · exact h.startRecord _ _ _ hne hv
  · have h1 : Aside id x (noteExpansion r (expandFor r s) s) := by
      refine ⟨(noteExpansion_ann r _ s id).trans h.ann, h.state, h.channel, fun z => ?_⟩
      have : (noteExpansion r (expandFor r s) s).zar = s.zar := by
        unfold noteExpansion
        simp only
        cases (expandFor r s).firstMissing <;> cases (expandFor r s).truncatedAt <;> simp
      simpa [State.zone, this] using h.zones z
    simp only
    split
    · exact (h1.count _).endRecord hne _ _ _
    · exact h1.startRecord _ _ _ hne hv

theorem Aside.takeTurn {id : Nat} {x : AnnRec} {s : State} (hn : s.ids.Nodup) (h : Aside id x s) (rid : Nat)
    (reserved : ZoneSet) : Aside id x (takeTurn rid reserved s).2 := by
  unfold Machine.takeTurn
  split
  · exact h
  · next r hr =>
    split
    · exact h
    · next hready =>
      have hready : r.state = .ready := by simpa using hready
      have hrid := (mem_of_ann hr).2
      have hne : r.annId ≠ id := by
        intro he
        rw [← hrid, he, h.ann] at hr
        cases hr
        rw [h.state] at hready; cases hready
      have start : ∀ src u taken, sourceFor s r = some src → Aside id x (Machine.tryStart r src u taken s) := by
        intro src u taken hs
        refine h.tryStart u taken hne fun c v e hv => ?_
        subst e
        obtain ⟨a, ha, h1, _, h3⟩ := steal_victim hs
        have := find_mem hn ha
        rw [h1, hv, h.ann] at this
        cases this
        rw [h.channel] at h3; cases h3
      simp only
      split
      · unfold noteNoZones
        split
        · exact h
        · refine Aside.raise ?_ _
          exact h.upd hne fun _ => rfl
      · split
        · split
          · split
            · next src hs => exact start _ _ _ hs
            · exact h
          · exact h
        · split
          · exact h
          · split
            · next src hs => exact start _ _ _ hs
            · exact h

theorem Aside.takeTurns {id : Nat} {x : AnnRec} (l : List Nat) (reserved : ZoneSet) {s : State} (hn : s.ids.Nodup)
    (h : Aside id x s) : Aside id x (takeTurns l reserved s) := by
  induction l generalizing s reserved with
  | nil => exact h
  | cons rid rest ih =>
    exact ih _ (hn.sublist (Kept.takeTurn rid reserved s hn).ids) (h.takeTurn hn rid reserved)

/-- The record whose end makes the pass stands aside in it: PLAYING still, it is neither started, nor robbed, nor
returned, nor ended by it (R94, R121). -/
theorem Aside.passChain {id : Nat} {x : AnnRec} (k : Nat) {s : State} (hn : s.ids.Nodup) (h : Aside id x s) :
    Aside id x (passChain k s) := by
  induction k generalizing s with
  | zero => exact h
  | succ k ih =>
    unfold Machine.passChain
    split
    · have h1 : Aside id x (s.onZar fun a => { a with passPending := false }) := h.same rfl rfl
      have hn1 : (s.onZar fun a => { a with passPending := false }).ids.Nodup := hn
      exact ih (hn1.sublist (Kept.takeTurns _ _ _ hn1).ids) (h1.takeTurns _ _ hn1)
    · exact h

end Sys2Proof.Machine
end

