-- ==== Sys2Proof/Laws/Starts.lean ====
section
/-! SUPPORT. What the start of a record does to its zones (R126 to R128, R158): the sets it is made of, and the zones
it seizes when they are free. -/

namespace Sys2Proof.Machine

/-- The set made of a list of zones holds exactly those below 32. -/
theorem zoneSetOf_get (l : List Nat) (z : Nat) (hz : z < 32) : (zoneSetOf l).getLsbD z = l.contains z := by
  induction l with
  | nil => simp [zoneSetOf]
  | cons x rest ih => 
    simp only [zoneSetOf, BitVec.getLsbD_or, ih, BitVec.getLsbD_twoPow, List.contains_cons]
    grind

/-- Zones that are free have no holder to lose them. -/
theorem holdersOf_free (s : State) (l : List Nat) (h : ∀ z ∈ l, (s.zone z).holder = none) : holdersOf s l = [] := by
  induction l with
  | nil => rfl
  | cons z rest ih => 
    simp only [holdersOf, h z (by simp)]
    exact ih fun x hx => h x (by simp [hx])

/-- Free zones that a record seizes: each has the record as its holder and a G taken for its class, and nothing else
changes. -/
theorem seizeZones_free (id cls : Nat) (l : List Nat) (hn : l.Nodup) (s : State) (h : ∀ z ∈ l, (s.zone z).holder = none) :
    (∃ v z, seizeZones id cls l s = { s with lmu := { s.lmu with levels := v }, zar := { s.zar with zones := z } }) ∧
    (∀ z, (tabGet s.zar.zones z).isSome = true → ((seizeZones id cls l s).zone z).holder = if z ∈ l then some id else (s.zone z).holder) ∧
    (∀ z ∈ l, (tabGet s.zar.zones z).isSome = true → (tabGet s.lmu.levels z).isSome = true →
      ((seizeZones id cls l s).level z).att = some (attFor (s.zone z) (s.level z).ambient cls 0)) ∧
    (∀ z, z ∉ l → (seizeZones id cls l s).level z = s.level z) := by
  induction l generalizing s with
  | nil => exact ⟨⟨_, _, rfl⟩, by simp [seizeZones]⟩
  | cons x rest ih =>
    obtain ⟨hx, hr⟩ := List.nodup_cons.1 hn
    unfold seizeZones
    simp only [h x (by simp)]
    have hzone : ∀ z, z ≠ x → (takeAtt cls 0 x (s.updZone x fun e => { e with holder := some id })).zone z = s.zone z := by
      intro z hz
      show (s.updZone x fun e => { e with holder := some id }).zone z = _
      rw [updZone_zone, if_neg hz]
    have ih := ih hr (takeAtt cls 0 x (s.updZone x fun e => { e with holder := some id })) (fun z hz => by
      rw [hzone z (fun he => hx (he ▸ hz))]; exact h z (by simp [hz]))
    obtain ⟨⟨v, w, h1⟩, h2, h3, h4⟩ := ih
    have hsome : ∀ z, (tabGet (takeAtt cls 0 x (s.updZone x fun e => { e with holder := some id })).zar.zones z).isSome = (tabGet s.zar.zones z).isSome := fun z => tabUpd_isSome _ _ _ _
    have hlev : ∀ z, (tabGet (takeAtt cls 0 x (s.updZone x fun e => { e with holder := some id })).lmu.levels z).isSome = (tabGet s.lmu.levels z).isSome := fun z => tabUpd_isSome _ _ _ _
    refine ⟨⟨v, w, h1⟩, fun z hz => ?_, fun z hm hz hl => ?_, fun z hz => ?_⟩
    · rw [h2 z (by rw [hsome]; exact hz)]
      by_cases hzr : z ∈ rest
      · simp [hzr]
      · by_cases hzx : z = x
        · subst hzx
          obtain ⟨e, he⟩ := Option.isSome_iff_exists.1 hz
          have : (takeAtt cls 0 z (s.updZone z fun e => { e with holder := some id })).zone z = (s.updZone z fun e => { e with holder := some id }).zone z := rfl
          rw [this, updZone_zone]
          simp [he, hzr]
        · rw [hzone z hzx]; simp [hzr, hzx]
    · by_cases hzx : z = x
      · subst hzx
        rw [h4 z hx]
        obtain ⟨e, he⟩ := Option.isSome_iff_exists.1 hz
        obtain ⟨l, hl⟩ := Option.isSome_iff_exists.1 hl
        unfold takeAtt
        rw [updLevel_level, if_pos rfl]
        have : tabGet (s.updZone z fun e => { e with holder := some id }).lmu.levels z = some l := hl
        rw [this]
        simp only [Option.map_some, Option.getD_some, updZone_zone, if_true, he, zone_of_listed he, level_of_listed hl]
        rfl
      · have hm : z ∈ rest := by simpa [hzx] using hm
        rw [h3 z hm (by rw [hsome]; exact hz) (by rw [hlev]; exact hl), hzone z hzx]
        congr 2
        unfold takeAtt
        rw [updLevel_level, if_neg hzx]
        rfl
    · have hzx : z ≠ x := fun he => hz (by simp [he])
      rw [h4 z (fun hm => hz (by simp [hm]))]
      unfold takeAtt
      rw [updLevel_level, if_neg hzx]; rfl

/-- A zone set lists each zone once. -/
theorem zonesOf_nodup (u : ZoneSet) : (zonesOf u).Nodup := List.Nodup.filter _ List.nodup_range

end Sys2Proof.Machine
end

