-- ==== Sys2Proof/Tests/Slice0.lean ====
section
/-! SUPPORT. Tests on small states. `test_…` checks a value that the spec works out itself, named in its comment;
`witness_…` shows states and operands that meet the hypotheses of the statement of that name, clause by clause, at the
ends of their ranges. -/

namespace Sys2Proof.Tests
open Sys2Proof.Machine

-- One theorem at a time: each thread of Lean reserves a deep stack (check.sh), and memory is bounded.
set_option Elab.async false

/-! ### States -/

/-- The state a step leads to. -/
def after (i : Instr) (s : State) : State :=
  match exec i s with
  | .next t => t
  | _ => s

/-- The part at unit address 9 after a self-check that passed. -/
def standby : State := after (.selfCheckEnd .pass) (after (.powerOnReset 9) State.reset)

/-- The part after a self-check that failed. -/
def failed : State := after (.selfCheckEnd (.fail 2 1 4)) State.reset

/-- The part RUNNING on day 412 with origin hour 3, at a given T. -/
def runningAt (t : Nat) : State :=
  { standby with
    mgi := { standby.mgi with partState := .running }
    sck := { standby.sck with day := .opened, dayNumber := some 412, originHour := 3, time := t } }

/-- The part RUNNING at T = 48,000. -/
def running : State := runningAt 48000

/-- A message of a command code with tag 1. -/
def msg (code : Nat) (body : List Byte) : Message := ⟨messageBytes code 0 1 body, false⟩

/-- A state with one message in its command queue. -/
def holding (m : Message) (s : State) : State := { s with mgi := { s.mgi with commands := [m] } }

/-- The state after a row has executed a message of a command code. -/
def command (i : Instr) (code : Nat) (body : List Byte) (s : State) : State := after i (holding (msg code body) s)

/-- The status of the response stored last, and the first bytes of its body. -/
def answered (n : Nat) (s : State) : Nat × List Nat :=
  let r := s.tki.responses.getLast?.getD []
  (byteAt r 3, ((r.drop 8).take n).map fun b => b.toNat)

/-- The events that wait at the Trigger Unit, without their calls. -/
def passed (s : State) : List TriggerEvent := s.tru.events.map fun e => e.what.event

/-- What `AtHead` asks, of a message alone in the queue. -/
abbrev Heads (s : State) (code n : Nat) (body : List Byte) : Prop :=
  AtHead (holding (msg code body) s) (msg code body) code n

/-- What `Ready` asks, of a message alone in the queue. -/
abbrev Comes (s : State) (code : Nat) (body : List Byte) : Prop :=
  Ready (holding (msg code body) s) (msg code body) code

/-- Call 40117 of 2.9, as loaded in slot 12 at T = 40,000. -/
def corran : CallRec :=
  { callRef := 40117, kind := .departure, plan := 5, platform := 0, provisional := false, sched := 50400, delay := 0,
    expected := 50400, place := 523, pattern := some 31, state := .planned, stateSince := 40000, retainUntil := none,
    steps := List.replicate 8 ⟨.armed, 50400⟩ }

/-- The same call standing at platform 7 in a state. -/
def corranIn (st : CallState) : CallRec :=
  { corran with
    platform := 7, state := st
    retainUntil := if st = .finished ∨ st = .cancelled then some 48000 else none }

/-- A state with one call in slot 12. -/
def withCorran (c : CallRec) (s : State) : State := { s with crg := { s.crg with calls := [(12, c)] } }

/-- A plan step of plan 5 (3.10): every step has selector CALL_PLATFORM and policy PARTIAL. -/
def stepOf (a : Anchor) (lead group : Nat) (valid : BitVec 6) (cls window repeats : Nat) : PlanStep :=
  { anchor := a, lead := lead, minDelay := 0, group := group, valid := valid, window := window, repeats := repeats,
    repeatInterval := 180, script := 40, selector := .callPlatform, cls := cls, policy := .part, residual := false,
    restartable := false, confirm := .never, confirmTimeout := 60, timeoutPolicy := .playAnyway }

/-- Plan 5 of 3.10. -/
def plan5 : Plan := ⟨1200, [
  stepOf .expectedLead 900 0 0b000011 3 600 1, stepOf .expectedLead 300 0 0b000010 3 300 0,
  stepOf .expectedLead 180 0 0b000110 2 300 0, stepOf .expectedLead 120 0 0b000110 2 300 0,
  stepOf .expectedLead 60 0 0b000110 2 300 0, stepOf .onDelayChange 300 1 0b000011 2 600 0,
  stepOf .onPlatformChange 0 2 0b000011 2 300 0, stepOf (.onState .cancelled) 0 3 0b100000 2 600 0]⟩

/-- A state in which plan 5 is loaded. -/
def withPlan5 (s : State) : State := { s with tru := { s.tru with plans := [(5, plan5)] } }

/-- A record of class 3 that plays script 40 in zones 0 and 1. -/
def bulletin (id : Nat) (st : RecState) : AnnRec :=
  { annId := id, seq := id
    ask :=
      { origin := .command, call := none, step := none, script := some 40, stream := none, cls := 3
        selector := .explicit 3#32, policy := .part, residual := false, restartable := true, latched := false
        confirm := .always, confirmTimeout := 60, timeoutPolicy := .playAnyway, earliest := 47000
        latest := some 48600, window := some 600, repeats := 0, repeatInterval := 60 }
    state := st, eligibleSince := if st = .ready then some 47500 else none
    holdStart := if st = .held then some 47940 else none
    restartCount := 0, held := 0#32, missed := 0#32, lost := 0#32, channel := none, platformSpoken := false
    noRepeat := false, endRequested := false, noZonesNoted := false }

/-- A live page on stream 2 in READY. -/
def page : AnnRec :=
  { bulletin 410 .ready with ask := { (bulletin 410 .ready).ask with
      origin := .live, stream := some 2, script := none, confirm := .never, latest := none } }

/-- An evacuation message on every zone in a state. -/
def evacuation (st : RecState) (latched : Bool) : AnnRec :=
  { bulletin 9 st with ask := { (bulletin 9 st).ask with
      origin := .emergency, cls := 0, selector := .all, latched := latched, confirm := .never, latest := none } }

/-- A state whose pool holds these records. -/
def withPool (records : List AnnRec) (s : State) : State :=
  { s with apl := { s.apl with records := records, lastId := 410, counter := 411 } }

/-- Zone 7 of 8.6. -/
def zone7 : ZoneEntry :=
  { ZoneEntry.reset with
    enabled := true, level := 24, gMin := 10, emergencyLevel := 10, aRef := 140, slope := 6, bMax := 16
    feed := some 0, backLevel := 40, duck := 30, attack := 48, release := 8, available := true }

/-- A state in which a zone's entry is zone 7's and its link is OK. -/
def withZones (l : List Nat) (s : State) : State :=
  l.foldl (fun s z => (s.updZone z fun _ => zone7).updLink z fun k => { k with link := .ok, age := 0 }) s

/-- Script 40, the numbers and the directory of 4.7: every fragment is loaded but 521. -/
def voices : ScriptExpander :=
  { scripts := [(40, scriptOf [.chime 3 2, .fragment 110, .time false, .fragment 111, .place, .fragment 112,
      .time true, .gap 300, .fragment 113, .calling])]
    numbers := [(7, 1007), (17, 1017), (200, 1200), (201, 1201)]
    directory := [3, 110, 111, 112, 113, 520, 522, 523, 1007, 1017, 1200, 1201].map fun id =>
      (id, ⟨id * 100, 1200, 2⟩) }

/-- Two zones in service, script 40 with one fragment, and one record in the pool. -/
def stage (r : AnnRec) : State :=
  causePass { (withPool [r] (withZones [0, 1] running)) with
    sxe := { voices with scripts := [(40, scriptOf [.fragment 110])] } }

/-- A PLAYING record of a step of plan 5 for call 40117, with a held set and a number of repeats. -/
def trackRecord (step : Nat) (held : ZoneSet) (repeats : Nat) : AnnRec :=
  { bulletin 5 .playing with
    held := held
    ask := { stepAsk 12 40117 step (stepOf .expectedLead 900 0 3 3 600 1) 47000 48600 with repeats := repeats } }

/-- A state in which channel 2 is another. -/
def withChannel (f : Channel → Channel) (s : State) : State := s.updChannel 2 f

/-- Some zero bytes. -/
def zeros (n : Nat) : List Byte := List.replicate n 0

/-! ### Well-formed steps -/

/-- R187: the failures that the table of self-check lists, and those it does not. -/
theorem test_selfCheckEnd_wellFormed :
    (Instr.selfCheckEnd .pass).wellFormed = true ∧ (Instr.selfCheckEnd (.fail 1 10 511)).wellFormed = true ∧
    (Instr.selfCheckEnd (.fail 1 0 0)).wellFormed = false ∧ (Instr.selfCheckEnd (.fail 1 11 0)).wellFormed = false ∧
    (Instr.selfCheckEnd (.fail 2 1 16777216)).wellFormed = true ∧ (Instr.selfCheckEnd (.fail 2 1 3)).wellFormed = false ∧
    (Instr.selfCheckEnd (.fail 2 2 4)).wellFormed = false ∧
    (Instr.selfCheckEnd (.fail 3 4 262143)).wellFormed = true ∧ (Instr.selfCheckEnd (.fail 3 5 0)).wellFormed = false ∧
    (Instr.selfCheckEnd (.fail 3 1 262144)).wellFormed = false ∧ (Instr.selfCheckEnd (.fail 4 1 0)).wellFormed = false := by
  decide +kernel

/-- 11.2, 11.8: a cell has 68 bytes and a zone report 4. -/
theorem test_input_wellFormed :
    (Instr.downstreamCell (zeros 68)).wellFormed = true ∧ (Instr.downstreamCell (zeros 67)).wellFormed = false ∧
    (Instr.zoneReport ⟨zeros 4, true⟩).wellFormed = true ∧ (Instr.zoneReport ⟨zeros 5, false⟩).wellFormed = false := by
  decide +kernel

/-- 00_scope: the ranges of slots, ann_ids, channels, streams and zones. -/
theorem test_index_wellFormed :
    (Instr.retention 511).wellFormed = true ∧ (Instr.retention 512).wellFormed = false ∧
    (Instr.loaded 512).wellFormed = false ∧ (Instr.stateEntry 512).wellFormed = false ∧
    (Instr.delayChange 512).wellFormed = false ∧ (Instr.platformSet 512).wellFormed = false ∧
    (Instr.platformChange 512).wellFormed = false ∧ (Instr.platformCleared 512).wellFormed = false ∧
    (Instr.platformMoved 512).wellFormed = false ∧ (Instr.cancelled 512).wellFormed = false ∧
    (Instr.provisionalCleared 512).wellFormed = false ∧ (Instr.callRemoved 512).wellFormed = false ∧
    (Instr.holdTimeout 0).wellFormed = false ∧ (Instr.expiry 65535).wellFormed = true ∧
    (Instr.expiry 65536).wellFormed = false ∧ (Instr.channelEnd 6 false).wellFormed = false ∧
    (Instr.gapEnd 6).wellFormed = false ∧ (Instr.underrunAbort 5).wellFormed = true ∧
    (Instr.streamLost 6).wellFormed = false ∧ (Instr.ambientReading 32).wellFormed = false ∧
    (Instr.linkLost 32).wellFormed = false ∧ Instr.readStatus.wellFormed = true := by decide +kernel

/-! ### Values worked in the spec -/

/-- 1.9: the readings of four instants at origin hour 3, and of one at origin hour 0. -/
theorem test_clock_readings :
    readClock 3 0 = (3, 0) ∧ readClock 3 50830 = (17, 7) ∧ readClock 3 80000 = (1, 13) ∧
    readClock 3 107999 = (8, 59) ∧ readClock 0 50830 = (14, 7) := by decide +kernel

/-- R78: the delay minutes of the table. -/
theorem test_delay_minutes :
    [-300, 0, 1, 60, 61, 100, 430, 21600].map delayMinutes = [0, 0, 1, 1, 2, 2, 8, 199] := by decide +kernel

/-- R162: the gains of the table. -/
theorem test_gains :
    [0, 1, 12, 16, 40, 70, 80, 120, 121].map gain = [32767, 30935, 16423, 13045, 3277, 583, 328, 33, 0] := by decide +kernel

/-- R157: the boosts of two lines of the table. -/
theorem test_boost :
    boost { zone7 with bMax := 16 } 250 = 16 ∧ boost { zone7 with slope := 3 } 143 = 1 ∧ boost zone7 156 = 12 := by
  decide

/-- R158: the attenuations of the table for zone 7. -/
theorem test_announcement_attenuation :
    attFor zone7 156 3 (-4) = 16 ∧ attFor zone7 156 3 20 = 10 ∧ attFor zone7 156 3 (-48) = 60 ∧
    attFor zone7 156 0 6 = 10 ∧ attFor zone7 156 0 (-4) = 14 := by decide +kernel

/-- 8.6: the three worked mixes. -/
theorem test_mix :
    limit (mixSum 10000 0 (-8000) 13045 0 583) = 3839 ∧ mixSum 32767 0 32767 32767 0 32767 = 65532 ∧
    limit 65532 = 32767 ∧ mixSum (-32768) 0 (-32768) 32767 0 32767 = -65534 ∧ limit (-65534) = -32768 := by decide +kernel

/-- The number of blocks a tail of an attenuation plays. -/
def tailBlocks (att : Nat) : Nat :=
  let rec go : Nat → Tail → Nat
    | 0, _ => 0
    | n + 1, t => match t.nextBlock with
      | some u => go n u + 1
      | none => 1
  go 20 ⟨.samples [], att, 0⟩

/-- R161: tails that start at 16, 50 and 121 play 16 blocks, 15 and 1. -/
theorem test_tail_blocks : tailBlocks 16 = 16 ∧ tailBlocks 50 = 15 ∧ tailBlocks 121 = 1 := by decide +kernel

/-- R155: the four readings of the table. -/
theorem test_smoothed_ambient :
    let read := fun (old value : Nat) =>
      ((applyAmbient 7 (.value value) (standby.updLevel 7 fun l => { l with ambient := old })).level 7).ambient
    read 156 170 = 159 ∧ read 159 170 = 161 ∧ read 161 140 = 156 ∧ read 156 158 = 156 := by decide +kernel

/-- R17: the delay is clamped at both ends, and E at 0 and 107,999. -/
theorem test_expected_time :
    clampDelay (-601) = -600 ∧ clampDelay 21601 = 21600 ∧ expectedTime 300 (-600) = 0 ∧
    expectedTime 100000 21600 = 107999 ∧ expectedTime 50400 430 = 50830 := by decide +kernel

/-- 11.2: the CRC-8 of the polynomial x^8 + x^2 + x + 1 from 0, on two headers divided by hand. -/
theorem test_header_crc : crc8 [0, 0, 1] = 0x07#8 ∧ crc8 [0, 1, 0] = 0x15#8 := by decide +kernel

/-- 11.8: the OUTCOME notice of record 410, in one cell. -/
theorem test_outcome_notice :
    (noticeBytes (.outcome 410 .completed .endOfList none 3)).map (fun b => b.toNat) =
      [0, 17, 0xF0, 0, 0, 0, 0, 0, 0x24, 0x01, 0x9A, 0x01, 0x01, 0, 0, 0, 3] ∧
    cellCount (noticeBytes (.outcome 410 .completed .endOfList none 3)) = 1 := by decide +kernel

/-- R87: after 65535 the counting goes on at 1. -/
theorem test_next_ann_id : nextValue 65535 = 1 ∧ nextValue 0 = 1 ∧ nextValue 65534 = 65535 := by decide +kernel

/-- The fragment id and loops of an element, or the length of a silence. -/
def elementKey : Element → Nat × Nat
  | .fragment id loops _ _ _ => (id, loops)
  | .silence ms => (0, ms)

/-- 4.7: the list handed to the channel has 15 elements, and fragment 521 is the one left out. -/
theorem test_worked_expansion :
    let e := expandScript voices [(31, [520, 521, 522, 523])] 3 (some { corran with delay := 430, expected := 50830 }) 40
    e.elements.map elementKey = [(3, 2), (110, 1), (1017, 1), (1200, 1), (111, 1), (523, 1), (112, 1), (1017, 1),
      (1007, 1), (0, 300), (113, 1), (520, 1), (522, 1), (1201, 1), (523, 1)] ∧
    e.missing = 1 ∧ e.firstMissing = some (.fragmentId 521) ∧ e.truncatedAt = none := by decide +kernel

/-- 4.8: the all-stations list is cut at item 11 with 64 elements and none missing. -/
theorem test_truncated_expansion :
    let x : ScriptExpander :=
      { scripts := [(77, scriptOf [.chime 3 2, .fragment 110, .platform, .fragment 111, .calling, .gap 300,
          .fragment 112, .fragment 111, .calling, .gap 300, .fragment 111, .calling])]
        numbers := [(4, 1007), (201, 1201)], directory := voices.directory }
    let e := expandScript x [(31, List.replicate 24 520)] 3 (some { corran with platform := 4 }) 77
    e.elements.length = 64 ∧ e.missing = 0 ∧ e.truncatedAt = some 11 := by decide +kernel

/-- 3.10: after the delay is cut to 100 at T = 50,600, steps 2, 3 and 4 of group 0 are due and step 4 wins. -/
theorem test_collapse_group :
    let c := { corranIn .due with delay := 100, expected := 50500, steps := [⟨.fired, 50830⟩, ⟨.fired, 50830⟩,
      ⟨.armed, 50400⟩, ⟨.armed, 50400⟩, ⟨.armed, 50400⟩, ⟨.armed, 50500⟩, ⟨.fired, 50830⟩, ⟨.armed, 50400⟩] }
    (dueSteps c plan5 50600).map (fun l => (l.index, l.fire)) = [(2, 50320), (3, 50380), (4, 50440)] ∧
    (groupWinner (dueSteps c plan5 50600)).map (fun l => l.index) = some 4 := by decide +kernel

/-- 3.10: step 5 fires on a delay change of 330 s, and 299 s would not be enough. -/
theorem test_delay_change_step :
    let c := { corranIn .due with steps := List.replicate 8 ⟨.armed, 50830⟩ }
    firesOn c 5 (stepOf .onDelayChange 300 1 0b000011 2 600 0) (.delayChange 50830 50500) = true ∧
    firesOn c 5 (stepOf .onDelayChange 300 1 0b000011 2 600 0) (.delayChange 50830 50531) = false := by decide +kernel

/-! ### Commands, one step each -/

/-- A time mark of a day and an instant. -/
def mark (day m : Nat) : Instr := .downstreamCell (cellBytes 9 2 0 0 (w16 day ++ w32 m))

/-- 1.10: the mark for M = 7,205 with T = 4 is taken with a CLOCK_STEP and a FORWARD change. -/
theorem test_first_mark :
    let t := after (mark 412 7205) (standby.onSck fun c => { c with time := 4, markAge := 4 })
    t.sck.time = 7205 ∧ t.sck.markAge = 0 ∧ t.sck.markDay = some 412 ∧
    t.notices.fifo.getLast? = some (.clockStep none 4 7205) ∧ t.crg.changes = [⟨.forward, 4, 7205⟩] ∧
    counter t .marksTaken = 1 ∧ counter t .clockSteps = 1 := by decide +kernel

/-- 1.10: a mark for day 413 on open day 412 is counted and ignored, the freewheel flag stays. -/
theorem test_mark_of_another_day :
    let s := (runningAt 7290).onSck fun c => { c with freewheel := true, markAge := 79 }
    let t := after (mark 413 7296) s
    t.sck = s.sck ∧ counter t .marksOtherDay = 1 ∧ counter t .marksTaken = 0 := by decide +kernel

/-- 1.11: the first second held at T = 107,999 in an open day is noticed once, and handed on. -/
theorem test_day_overrun :
    let t := after .secondElapses (runningAt 107999)
    t.sck.time = 107999 ∧ t.sck.overrun = true ∧ t.crg.changes = [⟨.advance, 107999, 107999⟩] ∧
    t.notices.fifo.getLast? = some (.dayOverrun (some 412) 107999) ∧
    (after .secondElapses t).notices.fifo.length = t.notices.fifo.length := by decide +kernel

/-- 1.10: freewheel is entered at the second that makes the mark age 60, with its T, and not at 59; taken one second
later, FREEWHEEL_ENTERED still gives that second (R8). -/
theorem test_freewheel :
    let s := fun age => after .secondElapses ((runningAt 7270).onSck fun c => { c with markAge := age })
    let t := after .freewheelEntered (after .secondElapses (s 59))
    (after .freewheelEntered (s 59)).notices.fifo.getLast? = some (.freewheel true 7271 60 (some 412)) ∧
    t.notices.fifo.getLast? = some (.freewheel true 7271 60 (some 412)) ∧ t.sck.freewheel = true ∧
    after .freewheelEntered (s 58) = s 58 := by decide +kernel

/-- R8: a mark taken right after that second finds the flag set: ENTERED, then CLOCK_STEP, then LEFT. -/
theorem test_freewheel_left :
    let t := after (mark 412 7297) (after .secondElapses ((runningAt 7270).onSck fun c => { c with markAge := 59 }))
    t.notices.fifo.drop 1 = [.freewheel true 7271 60 (some 412), .clockStep (some 412) 7271 7297,
      .freewheel false 7297 60 (some 412)] ∧
    t.sck.freewheel = false ∧ after .freewheelEntered t = t := by decide +kernel

/-- R187: a failure ends in FAILED and is reported with its cause, major, minor and parameter (11.7). -/
theorem test_self_check_failure :
    failed.mgi.partState = .failed ∧
    failed.notices.fifo.map (fun n => (noticeBytes n).map fun b => b.toNat) =
      [[0, 18, 0xF0, 0, 0, 0, 0, 0, 1, 1, 1, 2, 1, 0, 0, 0, 4, 0]] := by decide +kernel

/-- R182: an unknown code is answered BAD_CODE; R186: in FAILED another command is answered FAILED_PART. -/
theorem test_common_answers :
    answered 9 (command .unknownCommandCode 0x99 [] standby) = (2, []) ∧
    answered 9 (command .readPool 0x5A [] failed) = (14, []) ∧
    answered 9 (command .readPool 0x5A [1] standby) = (1, []) ∧
    (answered 1 (command .readStatus 0x01 [] failed)).1 = 0 := by decide +kernel

/-- R68, R43, R112: FAILED_PART to these three loads carries the loaded count 0; R69 gives LOAD_NUMBERS none. -/
theorem test_failed_loads :
    answered 2 (command .loadScripts 0x40 [0, 0] failed) = (14, [0, 0]) ∧
    answered 2 (command .loadPlans 0x30 [0, 0] failed) = (14, [0, 0]) ∧
    answered 2 (command .loadZones 0x60 [0, 0] failed) = (14, [0, 0]) ∧
    answered 2 (command .loadNumbers 0x41 [0, 0] failed) = (14, []) := by decide +kernel

/-- R9: OPEN_DAY in STANDBY opens the day, and in RUNNING is refused with BAD_STATE. -/
theorem test_open_day :
    let t := command .openDay 0x10 (w16 412 ++ w8 3 ++ w32 7211) standby
    t.mgi.partState = .running ∧ t.sck.time = 7211 ∧ t.sck.dayNumber = some 412 ∧ t.sck.originHour = 3 ∧
    t.crg.changes = [⟨.forward, 0, 7211⟩] ∧
    (answered 1 (command .openDay 0x10 (w16 413 ++ w8 3 ++ w32 1841) running)).1 = 5 := by decide +kernel

/-- 1.11: CLOSE_DAY leaves T and the overrun flag and takes the day number away. -/
theorem test_close_day :
    let s := withCorran (corranIn .due) ((runningAt 107999).onSck fun c => { c with overrun := true })
    let t := command .closeDay 0x11 [] s
    t.sck.day = .noDay ∧ t.sck.time = 107999 ∧ t.sck.overrun = true ∧ t.sck.dayNumber = none ∧
    t.mgi.partState = .standby ∧ t.crg.calls = [] := by decide +kernel

/-- The 20 bytes of a call record load entry (11.4). -/
def callEntry (ref kind plan platform flags pattern sched : Nat) (delay : Int) (place : Nat) : List Byte :=
  w24 ref ++ w8 kind ++ w8 plan ++ w8 platform ++ w8 flags ++ w8 pattern ++ w32 sched ++ ws32 delay ++ w16 place ++
    w16 0

/-- 2.9: slot 12 is loaded at T = 40,000 with call 40117. -/
theorem test_load_calls :
    let t := command .loadCalls 0x20 (w16 12 ++ w16 1 ++ callEntry 40117 1 5 0 2 31 50400 0 523)
      (withPlan5 (runningAt 40000))
    answered 2 t = (0, [0, 1]) ∧ t.callAt 12 = some corran ∧ t.tru.events = [⟨12, 40117, ⟨.loaded, corran⟩⟩] := by
  decide +kernel

/-- 2.9: the second entry holds call_ref 40117, which slot 12 holds: DUPLICATE_REF with loaded count 1. -/
theorem test_load_calls_duplicate :
    let t := command .loadCalls 0x20 (w16 13 ++ w16 3 ++ callEntry 40188 0 5 0 0 0 60000 0 8 ++
      callEntry 40117 0 5 0 0 0 60000 0 8 ++ callEntry 40119 0 5 0 0 0 60000 0 8)
      (withPlan5 (withCorran corran (runningAt 49200)))
    answered 2 t = (7, [0, 1]) ∧ (t.callAt 13).map (fun c => c.callRef) = some 40188 ∧ t.callAt 14 = none := by
  decide +kernel

/-- The 8 bytes of an UPDATE_CALL for call 40117. -/
def update (u : Nat) (operand : List Byte) : List Byte := w24 40117 ++ w8 u ++ operand

/-- 2.9, T = 48,000: the delay of 430 moves E to 50,830, and the call stays PLANNED. -/
theorem test_update_delay :
    let t := command .updateCallDelay 0x21 (update 4 (ws32 430)) (withPlan5 (withCorran corran running))
    answered 7 t = (0, [0, 12, 1, 0, 0, 198, 142]) ∧
    t.tru.events = [⟨12, 40117, ⟨.delayChange 50400 50830, { corran with delay := 430, expected := 50830 }⟩⟩] ∧
    (t.callAt 12).map (fun c => (c.delay, c.expected, c.state)) = some (430, 50830, .planned) := by decide +kernel

/-- 2.9, T = 48,500: platform 7 provisional is set, and the pool is told that the platform moved from 0. -/
theorem test_update_platform :
    let t := command .updateCallPlatform 0x21 (update 5 [7, 1, 0, 0]) (withCorran corran (runningAt 48500))
    passed t = [.platformSet 7] ∧ t.apl.events = [⟨12, 40117, .platformMoved 0 7⟩] ∧
    (t.callAt 12).map (fun c => (c.platform, c.provisional)) = some (7, true) := by decide +kernel

/-- 2.9, T = 49,800 and 49,900: a confirmation passes PROVISIONAL_CLEARED alone, and a change both events. -/
theorem test_update_platform_again :
    let at7 := { corranIn .due with provisional := true }
    let t := command .updateCallPlatform 0x21 (update 5 [7, 0, 0, 0]) (withCorran at7 (runningAt 49800))
    let u := command .updateCallPlatform 0x21 (update 5 [9, 0, 0, 0])
      (withCorran { at7 with provisional := false } (runningAt 49900))
    t.tru.events = [] ∧ t.apl.events = [⟨12, 40117, .provisionalCleared⟩] ∧
    passed u = [.platformChange 7 9] ∧ u.apl.events = [⟨12, 40117, .platformMoved 7 9⟩] := by
  decide +kernel

/-- 2.9, T = 50,610, 50,880 and 50,950: ARRIVED, DEPARTING and GONE, with the retention of 600 s. -/
theorem test_update_reports :
    let on := fun i u st t => ((command i 0x21 (update u (zeros 4)) (withCorran (corranIn st) (runningAt t))).callAt 12).map
      fun c => (c.state, c.stateSince, c.retainUntil)
    on .updateCallArrived 0 .due 50610 = some (.atPlatform, 50610, none) ∧
    on .updateCallDeparting 1 .atPlatform 50880 = some (.departing, 50880, none) ∧
    on .updateCallGone 2 .departing 50950 = some (.finished, 50950, some 51550) := by decide +kernel

/-- 2.9, T = 49,000 and 51,000: CANCEL of a PLANNED call passes CANCELLED and the entry; of a FINISHED one BAD_STATE. -/
theorem test_update_cancel :
    let t := command .updateCallCancel 0x21 (update 3 (zeros 4)) (withCorran corran (runningAt 49000))
    t.apl.events = [⟨12, 40117, .cancelled⟩] ∧ passed t = [.stateEntry .cancelled] ∧
    (t.callAt 12).map (fun c => c.retainUntil) = some (some 49600) ∧
    (answered 0 (command .updateCallCancel 0x21 (update 3 (zeros 4))
      (withCorran (corranIn .finished) (runningAt 51000)))).1 = 5 := by decide +kernel

/-- R190: an update code beyond the table is refused with BAD_VALUE. -/
theorem test_update_bad_code :
    let t := command .updateCallBadUpdate 0x21 (update 6 (zeros 4)) (withCorran corran running)
    (answered 0 t).1 = 4 ∧ t.callAt 12 = some corran := by decide +kernel

/-- R32, R33: a FINISHED call is freed by FREE_CALL and by its retention; CALL_REMOVED goes to the pool. -/
theorem test_free_and_retention :
    let s := withCorran { corranIn .finished with retainUntil := some 51550 } (runningAt 51550)
    let t := command .freeCall 0x22 (w24 40117) s
    let u := after (.retention 12) { s with crg := { s.crg with retentionDue := [12] } }
    t.callAt 12 = none ∧ t.apl.events = [⟨12, 40117, .callRemoved⟩] ∧ t.tru.events = [] ∧
    u.callAt 12 = none ∧ u.apl.events = [⟨12, 40117, .callRemoved⟩] := by decide +kernel

/-- 2.9, T = 49,630: the change of T makes the call DUE. -/
theorem test_due :
    let s := withPlan5 (withCorran { corran with delay := 430, expected := 50830 } (runningAt 49630))
    let on := fun t : Nat => after .callRegisterTimeChange { s with crg := { s.crg with changes := [⟨.advance, t - 1, t⟩] } }
    ((on 49630).callAt 12).map (fun c => (c.state, c.stateSince)) = some (.due, 49630) ∧
    passed (on 49630) = [.stateEntry .due] ∧
    ((on 49629).callAt 12).map (fun c => c.state) = some .planned := by decide +kernel

/-- R37: READ_CALL by slot of an EMPTY slot, and by a call_ref that no slot holds. -/
theorem test_read_call :
    answered 2 (command .readCall 0x23 ([1] ++ w24 13) running) = (0, [0]) ∧
    answered 2 (command .readCall 0x23 ([0] ++ w24 40117) running) = (9, [255, 255]) ∧
    (answered 3 (command .readCall 0x23 ([0] ++ w24 40117) (withCorran corran running))).1 = 0 := by decide +kernel

/-- R36, R38: a pattern loaded reads back. -/
theorem test_patterns :
    let t := command .loadPatterns 0x24 ([31, 1] ++ [1, 2] ++ w16 520 ++ w16 4095) standby
    answered 2 t = (0, [0, 1]) ∧ tabGet t.crg.patterns 31 = some [520, 4095] ∧
    answered 9 (command .readPattern 0x25 [31] t) = (0, [1, 2, 2, 8, 15, 255]) ∧
    answered 2 (command .loadPatterns 0x24 ([31, 1] ++ [1, 1] ++ w16 4096) standby) = (4, [0, 0]) := by decide +kernel

/-- R43, R44: plan 5 loaded from its bytes reads back, and a lead of 7201 is refused. -/
theorem test_plans :
    let t := command .loadPlans 0x30 ([5, 1] ++ planBytes (some plan5)) standby
    answered 2 t = (0, [0, 1]) ∧ tabGet t.tru.plans 5 = some plan5 ∧
    (answered 4 (command .readPlan 0x31 [5] t)) = (0, [1, 8, 4, 176]) ∧
    (answered 2 (command .loadPlans 0x30 ([5, 1] ++ planBytes (some ⟨1200, [stepOf .expectedLead 7201 0 1 3 600 1]⟩))
      standby)) = (4, [0, 0]) := by decide +kernel

/-- R68, R72: a script loaded reads back with its needs-call flag. -/
theorem test_scripts :
    let t := command .loadScripts 0x40 ([40, 1] ++ [1, 2] ++ [1, 0, 3, 2] ++ [7, 0, 0, 0]) standby
    tabGet t.sxe.scripts 40 = some ⟨[.chime 3 2, .calling], true⟩ ∧
    answered 11 (command .readScript 0x43 [40] t) = (0, [1, 1, 2, 1, 0, 3, 2, 7, 0, 0, 0]) := by decide +kernel

/-- R69, R71, R72: number and directory entries loaded read back; entry 201 is the last number. -/
theorem test_numbers_and_fragments :
    let t := command .loadNumbers 0x41 (w16 200 ++ w16 2 ++ w16 1200 ++ w16 65535) standby
    let u := command .loadFragments 0x42 (w16 4095 ++ w16 1 ++ w32 40000 ++ w32 1200 ++ [0xFC, 0, 0, 0]) standby
    answered 4 (command .readNumbers 0x44 (w16 200 ++ w16 2) t) = (0, [4, 176, 255, 255]) ∧
    answered 1 (command .readNumbers 0x44 (w16 201 ++ w16 2) t) = (3, []) ∧
    dirEntry u.sxe 4095 = ⟨40000, 1200, -4⟩ ∧
    answered 12 (command .readFragments 0x45 (w16 4095 ++ w16 1) u) =
      (0, [0, 0, 156, 64, 0, 0, 4, 176, 252, 0, 0, 0]) := by decide +kernel

/-- The 22 bytes of an ANNOUNCE of script 40 without a call: confirm timeout 60, window 300, repeat interval 60. -/
def announceBody (sel : List Byte) (cls confirm : Nat) : List Byte :=
  [40, 0, 0, 0, 0] ++ sel ++ w8 cls ++ [1] ++ w8 confirm ++ [0, 0] ++ w16 60 ++ w16 300 ++ w16 60

/-- R97, R88: an ANNOUNCE without confirmation is answered with the next ann_id, enters READY and causes a pass. -/
theorem test_announce :
    let t := command .announce 0x50 (announceBody ([0, 0] ++ w32 3) 3 0) (withPool [bulletin 7 .queued] running)
    answered 2 t = (0, w16 411 |>.map fun b => b.toNat) ∧ t.zar.passPending = true ∧
    (t.ann 411).map (fun r => (r.state, r.seq, r.eligibleSince, r.ask.earliest, r.ask.latest)) =
      some (.ready, 411, some 48000, 48000, some 48300) := by decide +kernel

/-- R97, R90: ALWAYS sends the new record to HELD; a class of 4 is refused. -/
theorem test_announce_held :
    let t := command .announce 0x50 (announceBody ([5, 0] ++ w32 0) 3 1) running
    (t.ann 1).map (fun r => (r.state, r.holdStart)) = some (.held, some 48000) ∧
    (answered 0 (command .announce 0x50 (announceBody ([5, 0] ++ w32 0) 4 0) running)).1 = 4 := by decide +kernel

/-- R98, R166: a page on stream 2 clears its cell age; a second page on it is refused IN_USE. -/
theorem test_live_page_begin :
    let t := command .livePageBegin 0x51 ([2, 1, 5, 0] ++ w32 0) standby
    (t.ann 1).map (fun r => (r.state, r.ask.origin, r.ask.cls, r.ask.stream)) = some (.ready, .live, 1, some 2) ∧
    (t.stream 2).age = 0 ∧
    (answered 0 (command .livePageBegin 0x51 ([2, 1, 5, 0] ++ w32 0) (withPool [page] standby))).1 = 13 := by
  decide +kernel

/-- R99: LIVE_PAGE_END of a page not started ends it WITHDRAWN with reason NOT_STARTED. -/
theorem test_live_page_end :
    let t := command .livePageEnd 0x52 [2] (withPool [page] standby)
    answered 2 t = (0, [1, 154]) ∧ t.apl.records = [] ∧
    t.notices.fifo.getLast? = some (.outcome 410 .withdrawn .notStarted none 3) ∧
    (answered 0 (command .livePageEnd 0x52 [2] standby)).1 = 5 := by decide +kernel

/-- R100, R101: an emergency evicts the waiting record of the least urgent class when the pool is full. -/
theorem test_emergency_evicts :
    let s := withPool ((List.range 96).map fun k => bulletin (k + 1) .ready) running
    let t := command .emergencyBegin 0x53 ([1, 1, 5, 0] ++ w32 0) s
    answered 2 t = (0, [1, 155]) ∧ t.apl.records.length = 96 ∧
    (t.ann 411).map (fun r => (r.ask.cls, r.ask.latched)) = some (0, true) ∧
    (t.notices.fifo.filter fun n => n.maskBit == some 7).length = 1 := by decide +kernel

/-- R102: EMERGENCY_END of all ends a READY record before the completion of one in GAP can start it. -/
theorem test_emergency_end_all :
    let second := { evacuation .ready false with annId := 10, seq := 10 }
    let s := stage { evacuation .playing true with held := 3#32, channel := some 2 }
    let s := withChannel (fun c => { c with state := .gap, owner := some 9, latched := true }) (s.onApl fun a =>
      { a with records := a.records ++ [second] })
    let t := command .emergencyEnd 0x54 (w16 0) s
    answered 2 t = (0, [0, 2]) ∧ t.apl.records = [] ∧ t.notices.fifo.drop 1 =
      [.outcome 10 .withdrawn .command none 0, .outcome 9 .completed .emergencyEnded none 0] := by decide +kernel

/-- R102: EMERGENCY_END of a READY emergency withdraws it, and marks a PLAYING one. -/
theorem test_emergency_end :
    let t := command .emergencyEnd 0x54 (w16 0) (withPool [evacuation .ready true] running)
    let u := command .emergencyEnd 0x54 (w16 9) (withPool [evacuation .playing true] running)
    answered 2 t = (0, [0, 1]) ∧ t.apl.records = [] ∧
    u.apl.records.map (fun r => (r.annId, r.endRequested)) = [(9, true)] := by decide +kernel

/-- R90: CONFIRM sends a HELD record to READY, and finds a READY one TOO_LATE. -/
theorem test_confirm :
    let t := command .confirm 0x55 (w16 7) (withPool [bulletin 7 .held] running)
    (t.ann 7).map (fun r => (r.state, r.eligibleSince, r.holdStart)) = some (.ready, some 48000, none) ∧
    (answered 0 (command .confirm 0x55 (w16 7) (withPool [bulletin 7 .ready] running))).1 = 12 := by decide +kernel

/-- R90, R103: REJECT ends a HELD record REJECTED; WITHDRAW and CLEAR_ANNOUNCEMENTS end records WITHDRAWN. -/
theorem test_reject_withdraw_clear :
    let s := withPool [bulletin 7 .held, bulletin 8 .queued] running
    let last := fun t : State => t.notices.fifo.getLast?
    last (command .reject 0x56 (w16 7) s) = some (.outcome 7 .rejected .command none 3) ∧
    last (command .withdraw 0x57 (w16 8) s) = some (.outcome 8 .withdrawn .command none 3) ∧
    last (command .clearAnnouncements 0x58 [] s) = some (.outcome 8 .withdrawn .cleared none 3) ∧
    answered 2 (command .clearAnnouncements 0x58 [] s) = (0, [0, 2]) := by decide +kernel

/-- R94, step 2: the pass that a WITHDRAW's release makes gives the zones to the waiting record before the notice. -/
theorem test_withdraw_passes_first :
    let s := ((stage { bulletin 8 .ready with seq := 9 }).onApl fun a => { a with
      records := { bulletin 7 .playing with held := 3#32 } :: a.records }).updZone 0 fun e => { e with holder := some 7 }
    let t := command .withdraw 0x57 (w16 7) (s.updZone 1 fun e => { e with holder := some 7 })
    t.apl.records.map (fun r => (r.annId, r.state)) = [(8, .playing)] ∧ (t.zone 1).holder = some 8 ∧
    t.zar.passPending = false ∧ t.notices.fifo.getLast? = some (.outcome 7 .withdrawn .command none 3) := by
  decide +kernel

/-- R89: a QUEUED record leaves at its earliest and not before. -/
theorem test_pool_judgement :
    let on := fun t : Nat => ((after .poolJudgement ((withPool [{ bulletin 7 .queued with
      ask := { (bulletin 7 .queued).ask with confirm := .never } }] (runningAt t)).onApl fun a =>
        { a with changes := [⟨.advance, t - 1, t⟩] })).ann 7).map fun r => r.state
    on 46999 = some .queued ∧ on 47000 = some .ready := by decide +kernel

/-- R91, R92: a hold of 60 s from 47,940 times out at 48,000; a latest of 48,600 has passed at 48,601. -/
theorem test_hold_timeout_and_expiry :
    let t := after .secondElapses (withPool [bulletin 7 .held] (runningAt 47999))
    let u := after .secondElapses (withPool [bulletin 7 .ready] (runningAt 48600))
    t.apl.holdDue = [7] ∧ ((after (.holdTimeout 7) t).ann 7).map (fun r => r.state) = some .ready ∧
    u.apl.expiryDue = [7] ∧ (after (.expiry 7) u).ann 7 = none ∧
    (after .secondElapses (withPool [bulletin 7 .ready] (runningAt 48599))).apl.expiryDue = [] := by decide +kernel

/-- 5.10, T = 60,010: a HELD record's hold restarts with a notice, and a QUEUED one is untouched. -/
theorem test_platform_moved :
    let ofCall := fun (id : Nat) (st : RecState) =>
      { bulletin id st with ask := { (bulletin id st).ask with call := some (12, 40117) } }
    let t := after (.platformMoved 12) ((withPool [ofCall 302 .held, ofCall 304 .queued] (runningAt 60010)).onApl
      fun a => { a with events := [⟨12, 40117, .platformMoved 12 14⟩] })
    t.apl.records.map (fun r => (r.annId, r.holdStart)) = [(302, some 60010), (304, none)] ∧
    t.notices.fifo.getLast? = some (.held true 302 (some 40117) none 3 60010 60) ∧ t.zar.passPending = true := by
  decide +kernel

/-- R104: a PLAYING record that cannot restart ends SUPERSEDED; the READY record of the call that its release starts is
at the new platform already, and is left alone. -/
theorem test_platform_moved_superseded :
    let ofCall := fun (id : Nat) (st : RecState) => { bulletin id st with ask := { (bulletin id st).ask with
      call := some (12, 40117), selector := .callPlatform, restartable := false } }
    let s := { stage (ofCall 305 .ready) with crg := { running.crg with calls := [(12, corranIn .due)] } }
    let s := s.onZar fun a => { a with platforms := [(7, 3#32)], passPending := false }
    let s := (s.updZone 0 fun e => { e with holder := some 301 }).updZone 1 fun e => { e with holder := some 301 }
    let t := after (.platformMoved 12) (s.onApl fun a => { a with
      records := { ofCall 301 .playing with held := 3#32, channel := some 5 } :: a.records
      events := [⟨12, 40117, .platformMoved 0 7⟩] })
    t.apl.records.map (fun r => (r.annId, r.state, r.held)) = [(305, .playing, 3#32)] ∧
    t.notices.fifo.getLast? = some (.outcome 301 .superseded .platformChanged (some 40117) 3) := by decide +kernel

/-- R106: CANCELLED withdraws the records of the call, before the Trigger Unit takes STATE_ENTRY(CANCELLED). -/
theorem test_cancelled :
    let ofCall := { bulletin 302 .ready with ask := { (bulletin 302 .ready).ask with call := some (12, 40117) } }
    let s := command .updateCallCancel 0x21 (update 3 (zeros 4)) (withPlan5 (withCorran (corranIn .due)
      (withPool [ofCall, bulletin 7 .ready] running)))
    let t := after (.cancelled 12) s
    after (.stateEntry 12) s = s ∧ t.apl.records.map (fun r => r.annId) = [7] ∧
    ((after (.stateEntry 12) t).apl.records.map fun r => (r.annId, r.ask.step)) = [(7, none), (411, some 7)] := by
  decide +kernel

/-- 3.10, T = 49,900: step 6 fires on PLATFORM_CHANGE with latest 50,200 and becomes FIRED. -/
theorem test_platform_change_step :
    let c := { corranIn .due with expected := 50830, steps := List.replicate 8 ⟨.armed, 50400⟩ }
    let t := after (.platformChange 12) ((withPlan5 (withCorran c (runningAt 49900))).onTru fun u =>
      { u with events := [⟨12, 40117, ⟨.platformChange 7 9, c⟩⟩] })
    t.apl.records.map (fun r => (r.ask.step, r.ask.earliest, r.ask.latest)) = [(some 6, 49900, some 50200)] ∧
    (t.callAt 12).map (fun c => c.entry 6) = some ⟨.fired, 50830⟩ := by decide +kernel

/-- R35, R55: ARRIVED and DEPARTING are executed before the first STATE_ENTRY is taken, and a step anchored on
AT_PLATFORM and valid in it alone still fires. -/
theorem test_event_sees_its_call :
    let plan : Plan := ⟨0, [stepOf (.onState .atPlatform) 0 0 0b000100 2 300 0]⟩
    let s := (withCorran { corranIn .due with steps := List.replicate 8 ⟨.armed, 50400⟩ } running).onTru fun u =>
      { u with plans := [(5, plan)] }
    let t := command .updateCallDeparting 0x21 (update 1 (zeros 4)) (command .updateCallArrived 0x21 (update 0 (zeros 4)) s)
    (t.callAt 12).map (fun c => c.state) = some .departing ∧ passed t = [.stateEntry .atPlatform, .stateEntry .departing] ∧
    ((after (.stateEntry 12) t).callAt 12).map (fun c => (c.entry 0).status) = some .fired := by decide +kernel

/-- 3.10, T = 49,930: step 0 fires at the change of T with latest 50,530. -/
theorem test_trigger_evaluation :
    let c := { corranIn .due with expected := 50830, delay := 430, steps := List.replicate 8 ⟨.armed, 50400⟩ }
    let t := after .triggerEvaluation ((withPlan5 (withCorran c (runningAt 49930))).onTru fun u =>
      { u with changes := [⟨.advance, 49929, 49930⟩] })
    t.apl.records.map (fun r => (r.ask.step, r.ask.earliest, r.ask.latest)) = [(some 0, 49930, some 50530)] ∧
    (t.callAt 12).map (fun c => c.entry 0) = some ⟨.fired, 50830⟩ := by decide +kernel

/-- 3.10: the repeat of step 0 completed at 49,960 is asked for 50,140 to 50,740. -/
theorem test_completed :
    let r := { bulletin 5 .playing with ask := { (stepAsk 12 40117 0 (stepOf .expectedLead 900 0 3 3 600 1) 49930 50530) with repeats := 1 } }
    let t := after .completed ((withPlan5 (withCorran (corranIn .due) (runningAt 49960))).onTru fun u =>
      { u with completions := [⟨r, 49960⟩] })
    t.apl.records.map (fun r => (r.ask.origin, r.ask.step, r.ask.earliest, r.ask.latest, r.ask.repeats)) =
      [(.repeated, some 0, 50140, some 50740, 0)] := by decide +kernel

/-- The 16 bytes of zone 7's entry (8.6), as LOAD_ZONES carries them. -/
def zone7Bytes : List Byte := [1, 0x17, 24, 10, 10, 140, 6, 16, 0, 40, 30, 0, 0, 48, 0, 8]

/-- R112, R113, R155: a zone loaded starts its ambient at A_ref, and is not available until its link is OK. -/
theorem test_load_zones :
    let t := command .loadZones 0x60 ([7, 1] ++ zone7Bytes) standby
    let u := after (.zoneReport ⟨[7, 0, 156, 0], false⟩) t
    answered 2 t = (0, [0, 1]) ∧ t.zone 7 = { zone7 with code := 0x17, available := false } ∧
    (t.level 7).ambient = 140 ∧ (u.zone 7).available = true ∧
    u.notices.fifo.getLast? = some (.zoneState 7 true (.link .ok)) := by decide +kernel

/-- R114, R115, R116, R117: the members of a group are the zones whose codes match its value under its mask. -/
theorem test_maps_and_groups :
    let t := command .loadGroups 0x62 ([1, 1, 0x10, 0xF0]) (withZones [7, 9] standby)
    let u := command .loadPlatformMap 0x61 ([40, 1] ++ w32 0x80000001) ((t.updZone 7 fun e => { e with code := 0x17 }))
    groupMembers u 1 = 0x80#32 ∧ platformZones u 40 = 0x80000001#32 ∧
    (answered 2 (command .loadPlatformMap 0x61 ([0, 1] ++ w32 1) standby)) = (3, [0, 0]) := by decide +kernel

/-- 9.7, 250 ms: an amplifier fault takes the zone from its holder, which plays on with the zone in its lost set. -/
theorem test_zone_report_fault :
    let r := { bulletin 640 .playing with held := 0x1800#32 }
    let s := (withPool [r] ((withZones [11, 12] standby).onLmu id)).updZone 12 fun e => { e with holder := some 640 }
    let t := after (.zoneReport ⟨[12, 3, 151, 0], false⟩) (s.updZone 11 fun e => { e with holder := some 640 })
    (t.link 12).link = .ampFault ∧ (t.zone 12).available = false ∧ (t.zone 12).holder = none ∧
    t.notices.fifo.getLast? = some (.zoneState 12 false (.link .ampFault)) ∧
    (t.ann 640).map (fun r => (r.held, r.lost)) = some (0x800#32, 0x1000#32) := by decide +kernel

/-- 9.7, 1500 ms: the link of an OPEN zone is lost without a word; R174 keeps its last line state. -/
theorem test_link_lost :
    let s := standby.updLink 12 fun _ => ⟨.opened, some .opened, 1000, some (.value 149), false⟩
    let t := after (.linkLost 12) s
    t.link 12 = ⟨.linkLost, some .opened, 1000, some (.value 149), false⟩ ∧ t.notices.fifo = s.notices.fifo ∧
    after (.linkLost 12) (s.updLink 12 fun k => { k with age := 999 }) = s.updLink 12 fun k => { k with age := 999 } := by
  decide +kernel

/-- R175: where one report raises both notices, either may come first. -/
theorem test_zone_report_orders :
    let kinds := fun first : Bool =>
      (((after (.zoneReport ⟨[7, 0, 255, 0], first⟩) (standby.updZone 7 fun _ => { zone7 with available := false })).notices.fifo).filterMap
        fun n => n.maskBit)
    (kinds false).length = 2 ∧ kinds true = (kinds false).reverse ∧ kinds true ≠ kinds false := by decide +kernel

/-- R155: a sensor fault resets the smoothed ambient to A_ref; a reading in a held zone is ignored and counted. -/
theorem test_ambient_reading :
    let s := fun a => (withZones [7] standby).onLmu fun l => { l with readings := [(7, a)] }
    ((after (.ambientReading 7) (s .sensorFault)).level 7).ambient = 140 ∧
    counter (after (.ambientReading 7) ((s (.value 170)).updZone 7 fun e => { e with holder := some 5 }))
      (.ambientIgnored 7) = 1 := by decide +kernel

/-- 7.10: record 530 on channel 2: the first burst is of 128 samples, the tenth of 48, then the second loop. -/
theorem test_bursts :
    let list := [Element.fragment 3 2 40000 1200 2, .fragment 110 1 52000 6400 0]
    let s := withChannel (fun c => c.start 530 3 false list 0) standby
    let t := after .fetchGrant s
    ((t.channel 2).curAddr, (t.channel 2).curCount, (t.channel 2).loopsLeft) = (40128, 1072, 2) ∧
    t.pmc.transfer = some (.burst 2) ∧ t.pmc.urgentPtr = 5 ∧
    ((after .burstCompletion t).channel 2).fifo.length = 128 ∧
    (after .burstCompletion t).pmc.transfer = none := by decide +kernel

/-- 7.10: the last burst of the first loop is of 48 samples and starts the second loop at 40,000. -/
theorem test_loop_end :
    let list := [Element.fragment 3 2 40000 1200 2, .fragment 110 1 52000 6400 0]
    let s := withChannel (fun c => { c.start 530 3 false list 0 with curAddr := 41152, curCount := 48 }) standby
    let t := after .fetchGrant s
    ((t.channel 2).burst.map fun b => b.length) = some 48 ∧
    ((t.channel 2).curAddr, (t.channel 2).curCount, (t.channel 2).loopsLeft) = (40000, 1200, 1) := by decide +kernel

/-- R150, R151: a WRITE_PHRASE waits, starts and completes, and its samples read back. -/
theorem test_write_phrase :
    let s := command .writePhrase 0x70 (w32 33554430 ++ w16 2 ++ [1, 2, 0x80, 0]) standby
    let t := after .phraseWriteComplete (after .phraseWriteStart s)
    s.mgi.commands.length = 1 ∧ s.tki.responses = [] ∧ (answered 0 t).1 = 0 ∧ t.mgi.commands = [] ∧
    readPhrase t.pmc 33554431 = 0x8000#16 ∧ readPhrase t.pmc 33554430 = 0x102#16 ∧
    (answered 0 (command .writePhrase 0x70 (w32 33554431 ++ w16 2 ++ [1, 2, 3, 4]) standby)).1 = 4 := by decide +kernel

/-- R143, R144: a DRAINING channel that is empty ends its record; a latched one gaps for 2000 ms. -/
theorem test_channel_end :
    let s := withPool [{ bulletin 7 .playing with channel := some 2 }]
      (withChannel (fun c => { c with state := .draining, owner := some 7, cls := some 3 }) running)
    let t := after (.channelEnd 2 false) s
    let u := after (.channelEnd 2 false) (withChannel (fun c => { c with latched := true, list := [.silence 10] }) s)
    (t.channel 2).state = .idle ∧ t.notices.fifo.getLast? = some (.outcome 7 .completed .endOfList none 3) ∧
    (u.channel 2).state = .gap ∧ after (.gapEnd 2) u = u ∧
    ((after (.gapEnd 2) (withChannel (fun c => { c with gapTime := 2000 }) u)).channel 2).state ≠ .gap := by
  decide +kernel

/-- R147: the first empty period of a PLAYING channel is noticed, and 1600 of them end the record ABORTED. -/
theorem test_underrun :
    let s := withPool [{ bulletin 7 .playing with channel := some 2 }]
      (withChannel (fun c => { c with state := .playing, owner := some 7, cls := some 3 }) running)
    let t := after .samplePeriod s
    let u := after (.underrunAbort 2) (withChannel (fun c => { c with underrunRun := 1600 }) s)
    t.notices.fifo.getLast? = some (.underrun 7 3 2 0 48000) ∧ counter t (.underruns 3) = 1 ∧
    u.notices.fifo.getLast? = some (.outcome 7 .aborted .underrun none 3) ∧ after (.underrunAbort 2) s = s := by
  decide +kernel

/-- 8.6: zone 7 held by a page on stream 2 with x = 10000 and a background of −8000 sends 3839. -/
theorem test_sample_period :
    let s := withPool [{ page with state := .playing, held := 0x80#32 }]
      (((withZones [7] running).updZone 7 fun e => { e with holder := some 410 }).updLevel 7 fun l =>
        { l with ambient := 156, att := some 16, back := 1120 })
    let cell := fun x : Int => fun b : StreamBuffer => { b with cells := [List.replicate 32 (BitVec.ofInt 16 x)] }
    let t := after .samplePeriod ((s.updStream 2 (cell 10000)).updStream 4 (cell (-8000)))
    t.zli.sent.getD 7 0 = 3839#16 ∧ t.zli.sent.getD 8 0 = 0#16 := by decide +kernel

/-- R159, R161: one block of a duck at attack rate 48 toward 70, and of its release at rate 8; a tail goes on by 5. -/
theorem test_block :
    let s := ((withZones [7, 8] running).updZone 7 fun e => { e with holder := some 410 }).updLevel 7 fun l =>
      { l with back := 640, tail := some ⟨.samples [], 16, 0⟩ }
    let t := after .block (s.updLevel 8 fun l => { l with back := 645 })
    (t.level 7).back = 688 ∧ (t.level 8).back = 640 ∧ (t.level 7).tail = some ⟨.samples [], 21, 1⟩ := by decide +kernel

/-- R148, R160: the tail of a channel in PREFILL or GAP is of zeros, and that of any other is the head of its FIFO. -/
theorem test_tails :
    let ch := fun st => { Channel.reset with state := st, fifo := [⟨5, none⟩, ⟨6, none⟩] }
    (ch .prefill).tailSamples = List.replicate 256 0 ∧ (ch .gap).tailSamples = List.replicate 256 0 ∧
    (ch .playing).tailSamples.take 3 = [5, 6, 0] ∧ (ch .draining).tailSamples.length = 256 := by decide +kernel

/-- R147: the sample that a DRAINING channel outputs ends an underrun episode. -/
theorem test_draining_ends_underrun :
    ((channelOutput 2 (withChannel (fun c => { c with state := .draining, underrunRun := 9, fifo := [⟨5, none⟩] })
      running)).2.channel 2).underrunRun = 0 := by decide +kernel

/-- R166: a page whose stream has been silent for 5000 ms ends ABORTED, and the next cell starts a new sequence. -/
theorem test_stream_lost :
    let s := (withPool [page] standby).updStream 2 fun b => { b with age := 5000, expected := some 9 }
    let t := after (.streamLost 2) s
    t.notices.fifo.getLast? = some (.outcome 410 .aborted .streamLost none 3) ∧ (t.stream 2).expected = none ∧
    after (.streamLost 2) (s.updStream 2 fun b => { b with age := 4999 }) = s.updStream 2 fun b => { b with age := 4999 } := by
  decide +kernel

/-- R164: an audio cell that skips two ahead appends two zero cells and counts them lost. -/
theorem test_audio_cell :
    let t := after (.downstreamCell (cellBytes 9 0 2 12 (zeros 64))) (standby.updStream 2 fun b => { b with expected := some 10 })
    (t.stream 2).cells.length = 3 ∧ (t.stream 2).expected = some 13 ∧ (t.stream 2).age = 0 ∧
    counter t (.lost 2) = 2 ∧ counter t (.outOfSequence 2) = 1 ∧ counter t (.cells 2) = 1 := by decide +kernel

/-- 10.10: LAST with sequence 42 where 41 was expected, and then a stray MIDDLE, are two reassembly discards. -/
theorem test_reassembly :
    let load := messageBytes 0x20 0 107 (zeros 164)
    let first := after (.downstreamCell (cellBytes 9 1 1 40 (cellPayload load 0))) running
    let last := after (.downstreamCell (cellBytes 9 1 3 42 (cellPayload load 2))) first
    let stray := after (.downstreamCell (cellBytes 9 1 2 43 (zeros 64))) last
    first.tki.reassembly.map (fun r => (r.nextSeq, r.broadcast)) = some (41, false) ∧ last.tki.reassembly = none ∧
    counter last .reassemblyDiscards = 1 ∧ counter stray .reassemblyDiscards = 2 := by decide +kernel

/-- 10.10: the sixth message queues PAUSE, and a message offered to a full queue is dropped with its tag. -/
theorem test_flow_control :
    let offer := fun s : State => after (.downstreamCell (cellBytes 9 1 0 0 (messageBytes 0x81 0 109 [0, 1]))) s
    let six := offer (offer (offer (offer (offer (offer running)))))
    let dropped := offer (offer (offer six))
    six.mgi.commands.length = 6 ∧ six.tki.flowQueue = [.pause] ∧ dropped.mgi.commands.length = 8 ∧
    dropped.notices.fifo.getLast? = some (.cmdDropped 0x81 109 false) ∧ counter dropped .commandsDropped = 1 := by
  decide +kernel

/-- R183: a response of two cells is sent FIRST and then LAST, and leaves the store with the second. -/
theorem test_upstream_send :
    let s := running.onTki fun k => { k with responses := [messageBytes 0x02 0 1 (zeros 57)] }
    let t := after .upstreamSend s
    t.tki.sentCells = some 1 ∧ t.tki.trunkOut.map (fun c => ((c.take 3).map fun b => b.toNat, c.length)) = some ([9, 68, 0], 68) ∧
    (after .upstreamSend t).tki.responses = [] ∧
    (after .upstreamSend t).tki.trunkOut.map (fun c => (c.take 3).map fun b => b.toNat) = some [9, 76, 1] := by decide +kernel

/-- R178: a partial message of cell age 101 is discarded, and one of 100 is kept. -/
theorem test_reassembly_timeout :
    let s := fun age => running.onTki fun k => { k with reassembly := some ⟨zeros 64, 1, false, age⟩ }
    (after .reassemblyTimeout (s 101)).tki.reassembly = none ∧ after .reassemblyTimeout (s 100) = s 100 := by
  decide +kernel

/-- R184, R185: SET_NOTICE_MASK; READ_STATS with its clear flag. -/
theorem test_mask_and_stats :
    let t := command .setNoticeMask 0x03 (w16 0x1FFE) standby
    let s := count .flowCells standby
    t.notices.mask = 0x1FFE#13 ∧ (command .readStats 0x02 [1] s).stats = [] ∧
    counter (command .readStats 0x02 [0] s) .flowCells = 1 ∧
    (((command .readStats 0x02 [0] s).tki.responses.getLast?.getD []).length) = 8 + 4 * 177 := by decide +kernel

/-- R188: RESET_PART is answered, the reset follows its response, and another option is refused. -/
theorem test_reset_part :
    let t := command .resetPartKeepPhrases 0x04 [2] ((standby.onSxe fun x => { x with directory := [(3, ⟨0, 9, 0⟩)] }))
    let u := after (.resetAfterResponse 9) (after .upstreamSend t)
    (answered 0 t).1 = 0 ∧ after (.resetAfterResponse 9) t = t ∧ u.mgi.partState = .selfCheck ∧
    u.mgi.cause = .resetKeepPhrases ∧ u.sxe.directory = [(3, ⟨0, 9, 0⟩)] ∧
    (after (.resetAfterResponse 9) (after .upstreamSend (command .resetPartFull 0x04 [1] standby))).mgi.cause = .resetFull ∧
    (answered 0 (command .resetPartBadOption 0x04 [3] standby)).1 = 4 := by decide +kernel

/-- R116, R153, R168, R176, R110: the heads of five reports. -/
theorem test_reads :
    (answered 4 (command .readZones 0x63 [31, 2] standby)).1 = 3 ∧
    (answered 4 (command .readChannel 0x71 [6] standby)).1 = 3 ∧
    (answered 4 (command .readChannel 0x71 [5] standby)).1 = 0 ∧
    (answered 4 (command .readLevels 0x81 [0, 0] standby)).1 = 4 ∧
    (answered 4 (command .readLink 0x90 [31, 1] standby)).1 = 0 ∧
    answered 4 (command .readPool 0x5A [] (withPool [bulletin 7 .held] running)) = (0, [0, 1, 0, 7]) ∧
    (answered 2 (command .readAnnouncement 0x59 (w16 7) (withPool [bulletin 7 .held] running))) = (0, [0, 7]) ∧
    (answered 1 (command .readMaps 0x64 [] standby)).1 = 0 := by decide +kernel

/-- R167: MONITOR selects a zone, OFF is 255, and 32 is refused. -/
theorem test_monitor :
    (command .monitor 0x80 [31] standby).lmu.monitorZone = some 31 ∧
    (command .monitor 0x80 [255] (command .monitor 0x80 [31] standby)).lmu.monitorZone = none ∧
    (answered 0 (command .monitor 0x80 [32] standby)).1 = 3 := by decide +kernel

/-- 6.2, R121: a pass starts the lone READY record on the lowest IDLE channel in both its zones. -/
theorem test_arbitration_pass :
    let s := (withPool [bulletin 7 .ready] (withZones [0, 1] running)).onSxe fun _ =>
      { voices with scripts := [(40, scriptOf [.fragment 110])] }
    let t := after .arbitrationPass (causePass s)
    (t.ann 7).map (fun r => (r.state, r.held, r.channel)) = some (.playing, 3#32, some 0) ∧
    (t.zone 1).holder = some 7 ∧ (t.channel 0).owner = some 7 ∧ t.zar.passPending = false := by decide +kernel

/-! ### States that meet the hypotheses of the statements -/

/-- A part that has a second waiting at the front of its queue. -/
def ticking : State := (withPool [bulletin 7 .ready] (withCorran corran running)).withPending [.secondElapses]

theorem witness_StepRunsFront : standby.pending = [] := by decide +kernel

theorem witness_StepKeepsClock : ClockSound ticking ∧ ∃ t, step ticking = .next t := by
  refine ⟨?_, _, rfl⟩
  unfold ClockSound
  refine ⟨by decide +kernel, by decide +kernel, by decide +kernel, by decide +kernel, ?_, ?_, ?_, by decide +kernel,
    by decide +kernel⟩
  · intro d h
    have : ticking.sck.dayNumber = some 412 := by decide +kernel
    rw [this] at h
    cases h
    decide
  · intro d h
    have : ticking.sck.markDay = none := by decide +kernel
    rw [this] at h
    cases h
  · intro e h
    have : ticking.sck.entering = none := by decide +kernel
    rw [this] at h
    cases h

/-- A part whose WRITE_PHRASE of the last two places of phrase memory waits, with a sample already there. -/
def writing : State :=
  holding (msg 0x70 (zeros 10)) { standby with
    pmc := { standby.pmc with pendingWrite := some ⟨33554430, [1, 2]⟩, memory := [(33554431, 5)] } }

theorem witness_StepKeepsPhraseMemory :
    PhraseSound (writing.withPending [.phraseWriteStart]) ∧
    ∃ t, step (writing.withPending [.phraseWriteStart]) = .next t := by
  refine ⟨⟨by decide +kernel, ?_⟩, _, rfl⟩
  intro w h
  cases h
  decide

/-- A notice FIFO of 31 entries. -/
def fullFifo : List Notice := List.replicate 31 (.zoneState 7 true (.link .ok))

theorem witness_StepKeepsNoticesAndCounters :
    let s := { ticking with notices := ⟨fullFifo ++ [.overflow 3], BitVec.allOnes 13⟩, stats := [(0, 4294967295)] }
    FifoSound s.notices.fifo ∧ StatsSound s.stats ∧ ∃ t, step s = .next t := by
  refine ⟨?_, ?_, _, rfl⟩
  · unfold FifoSound
    decide +kernel
  · unfold StatsSound
    decide +kernel

theorem witness_StepKeepsQueues :
    let s := { (writing.onTki fun t => { t with responses := [zeros 8] }) with pending := [.samplePeriod] }
    QueuesSound s ∧ ∃ t, step s = .next t := by
  refine ⟨?_, _, rfl⟩
  unfold QueuesSound
  decide +kernel

theorem witness_StepKeepsPool :
    let s := (withPool ((List.range 96).map fun k => bulletin (k + 65440) .ready) running).withPending [.expiry 65535]
    PoolSound s.apl ∧ ∃ t, step s = .next t := by
  refine ⟨?_, _, rfl⟩
  unfold PoolSound
  decide +kernel

theorem witness_StepKeepsCalls : CallsSound ticking.crg.calls ∧ ∃ t, step ticking = .next t := by
  refine ⟨?_, _, rfl⟩
  unfold CallsSound CallRec.Sound
  decide +kernel

theorem witness_PartStateTransitions :
    ∃ t, exec .closeDay (holding (msg 0x11 []) running) = .next t := ⟨_, rfl⟩

theorem witness_ChangesOfTimeAreHandedOn :
    ∃ t, exec .secondElapses running = .next t ∧ t.sck.time ≠ running.sck.time :=
  ⟨_, rfl, by decide +kernel⟩

theorem witness_RecordingsChangeOnlyBy :
    (∃ t, exec .secondElapses running = .next t) ∧
    (∀ straps, Instr.secondElapses ≠ .powerOnReset straps ∧ Instr.secondElapses ≠ .resetAfterResponse straps) ∧
    Instr.secondElapses ≠ .phraseWriteComplete ∧ Instr.secondElapses ≠ .loadFragments ∧
    (∀ r, Instr.secondElapses ≠ .selfCheckEnd r) ∧
    (writing.onMgi fun m => { m with resetWaiting := some .keepPhrases }).mgi.resetWaiting = some .keepPhrases ∧
    ∃ t, exec (.resetAfterResponse 9) (writing.onMgi fun m => { m with resetWaiting := some .keepPhrases }) = .next t :=
  ⟨⟨_, rfl⟩, fun _ => ⟨by simp, by simp⟩, by simp, by simp, fun _ => by simp, by decide +kernel, _, rfl⟩

theorem witness_EveryMessageHasOneRow :
    isCommand .readPool = true ∧ canExecute State.reset = false ∧
    (∀ m, (holding (msg 0x59 [0, 1]) standby).mgi.commands.head? = some m → rowTakes .readPool m = false) := by
  refine ⟨by decide, by decide +kernel, ?_⟩
  intro m h
  cases h
  decide +kernel

theorem witness_CommonAnswersComeFirst :
    (canExecute (holding (msg 0x99 []) standby) = true ∧ rowTakes .unknownCommandCode (msg 0x99 []) = true) ∧
    (canExecute (holding (msg 0x5A []) failed) = true ∧ rowTakes .readPool (msg 0x5A []) = true ∧
      failed.mgi.partState = .failed ∧ inFailedToo .readPool = false) ∧
    (canExecute (holding (msg 0x01 [7]) failed) = true ∧ rowTakes .readStatus (msg 0x01 [7]) = true ∧
      fixedBody .readStatus = some 0 ∧ inFailedToo .readStatus = true ∧ (msg 0x01 [7]).body.length ≠ 0) ∧
    (commandCode .updateCallArrived = some 0x21 ∧ rowTakes .updateCallArrived (msg 0x21 (update 0 (zeros 4))) = true ∧
      Heads standby 0x21 8 (update 0 (zeros 4)) ∧ standby.mgi.partState ≠ .running) ∧
    (Heads running 0x21 8 (zeros 8) ∧ running.mgi.partState = .running ∧ be24 (msg 0x21 (zeros 8)).body 0 = 0) ∧
    (be24 (msg 0x21 (update 0 (zeros 4))).body 0 ≠ 0 ∧
      findRef running.crg.calls (be24 (msg 0x21 (update 0 (zeros 4))).body 0) = none) ∧
    (rowTakes .updateCallBadUpdate (msg 0x21 (update 6 (zeros 4))) = true ∧ Heads running 0x21 8 (update 6 (zeros 4)) ∧
      tabRising (withCorran corran running).crg.calls = true ∧
      findRef (withCorran corran running).crg.calls (be24 (msg 0x21 (update 6 (zeros 4))).body 0) = some (12, corran)) := by
  decide +kernel

theorem witness_MessagesJoinAndLeaveTheQueue :
    (holding (msg 0x5A []) standby).mgi.commands = msg 0x5A [] :: [] := rfl

theorem witness_NoticesAndCountersHoldTheirLimits :
    let n : Notice := .zoneState 7 true (.link .ok)
    FifoSound fullFifo ∧ noticeEnabled 0 n = false ∧ noticeEnabled (BitVec.allOnes 13) n = true ∧
    (markerOf fullFifo = none ∧ fullFifo.length = 31) ∧ (markerOf fullFifo.tail = none ∧ fullFifo.tail.length ≤ 30) ∧
    FifoSound fullFifo.tail ∧ (FifoSound (fullFifo ++ [.overflow 3]) ∧ markerOf (fullFifo ++ [.overflow 3]) = some 3) ∧
    Heads standby 0x03 2 [0, 0] ∧ StatsSound [(0, 4294967295)] ∧
    (Counter.flowCells).index ≠ (Counter.headerErrors).index := by
  unfold FifoSound StatsSound
  decide +kernel

theorem witness_ResetPartIsAnsweredThenResets :
    (∀ n ∈ [1, 2, 0, 3], Heads standby 0x04 1 (w8 n)) ∧ byteAt (msg 0x04 [1]).body 0 = 1 ∧
    byteAt (msg 0x04 [2]).body 0 = 2 ∧ byteAt (msg 0x04 [3]).body 0 ≠ 1 ∧ byteAt (msg 0x04 [3]).body 0 ≠ 2 ∧
    standby.mgi.resetWaiting = none ∧ standby.tki.responses = [] ∧
    (command .resetPartFull 0x04 [1] standby).tki.responses ≠ [] ∧
    (after .upstreamSend (command .resetPartFull 0x04 [1] standby)).mgi.resetWaiting = some .full ∧
    (after .upstreamSend (command .resetPartFull 0x04 [1] standby)).tki.responses = [] ∧
    (after .upstreamSend (command .resetPartKeepPhrases 0x04 [2] standby)).mgi.resetWaiting = some .keepPhrases ∧
    (after .upstreamSend (command .resetPartKeepPhrases 0x04 [2] standby)).tki.responses = [] := by
  decide +kernel

theorem witness_SelfCheckEndsInStandbyOrFailed :
    standby.mgi.partState ≠ .selfCheck ∧ resultFits .resetKeepPhrases (.fail 2 1 0) = false ∧
    State.reset.mgi.partState = .selfCheck ∧ resultFits State.reset.mgi.cause (.fail 3 4 262143) = true ∧
    resultFits State.reset.mgi.cause .pass = true := by decide +kernel

theorem witness_AudioCellsJoinTheirStream :
    let b : StreamBuffer := ⟨List.replicate 7 (List.replicate 32 1), 0, some 10, 4⟩
    tabGet (standby.updStream 5 fun _ => b).tki.streams 5 = some b ∧ b.cells.length < 8 ∧
    b.expected = some 10 ∧ 1 ≤ (11 + 256 - 10) % 256 ∧ (137 + 256 - 10) % 256 ≤ 127 ∧ 128 ≤ (138 + 256 - 10) % 256 ∧
    8 ≤ (b.cells ++ [List.replicate 32 1]).length ∧ (⟨[], 0, none, 5000⟩ : StreamBuffer).expected = none := by
  decide +kernel

theorem witness_MarksSetTheClock :
    (107999 < 108000) ∧ ((412 : Nat) ≠ 0 ∧ 107999 ≤ 107999) ∧ running.sck.day = .opened ∧
    running.sck.dayNumber ≠ some 413 ∧ (running.sck.day = .opened → running.sck.dayNumber = some 412) ∧
    (standby.sck.day = .opened → standby.sck.dayNumber = some 65535) ∧ running.sck.entering = none ∧
    (after .secondElapses ((runningAt 7270).onSck fun c => { c with markAge := 59 })).sck.entering =
      some (7271, some 412) := by decide +kernel

theorem witness_MessagesAreReassembled :
    standby.tki.reassembly = none ∧
    (after (.downstreamCell (cellBytes 9 1 1 40 (messageBytes 0x20 0 7 (zeros 120)))) standby).tki.reassembly.isSome = true ∧
    (0 ≤ 3 ∧ 3 ≤ 3) := by decide +kernel

theorem witness_UpstreamSendsInOrder :
    let s := running.onTki fun k => { k with flowQueue := [.pause], monitorQueue := [⟨0, []⟩], responses := [zeros 8] }
    s.tki.flowQueue = .pause :: [] ∧ (after .upstreamSend s).tki.flowQueue = [] ∧
    (after .upstreamSend s).tki.monitorQueue = ⟨0, []⟩ :: [] ∧
    (after .upstreamSend (after .upstreamSend s)).tki.monitorQueue = [] ∧
    (after .upstreamSend (after .upstreamSend s)).tki.responses = zeros 8 :: [] ∧
    standby.tki.flowQueue = [] ∧ standby.tki.monitorQueue = [] ∧ standby.tki.responses = [] ∧
    standby.notices.fifo.length = 1 ∧ (after .upstreamSend standby).notices.fifo = [] := by decide +kernel

theorem witness_SecondsAdvanceTheClock :
    State.reset.mgi.partState = .selfCheck ∧ standby.mgi.partState ≠ .selfCheck ∧
    (runningAt 107998).sck.time < 107999 ∧ 107999 ≤ (runningAt 107999).sck.time ∧
    (after .secondElapses ((runningAt 107999).onSck fun c => { c with markAge := 59 })).sck.entering =
      some (107999, some 412) ∧ running.sck.entering = none := by decide +kernel

theorem witness_TheDayOpensAndCloses :
    let good := w16 65535 ++ w8 23 ++ w32 107999
    let bad := w16 1 ++ w8 24 ++ w32 0
    Heads running 0x10 7 good ∧ running.mgi.partState = .running ∧ Heads standby 0x10 7 bad ∧
    23 < byteAt (msg 0x10 bad).body 2 ∧ Heads standby 0x10 7 good ∧ be16 (msg 0x10 good).body 0 ≠ 0 ∧
    byteAt (msg 0x10 good).body 2 ≤ 23 ∧ be32 (msg 0x10 good).body 3 ≤ 107999 ∧ Heads standby 0x11 0 [] ∧
    Heads (withPool [bulletin 7 .held] running) 0x11 0 [] ∧ PoolSound (withPool [bulletin 7 .held] running).apl := by
  unfold PoolSound
  decide +kernel

theorem witness_TakenEntriesReadBack :
    let t := command .loadPatterns 0x24 ([31, 1] ++ [1, 2] ++ w16 520 ++ w16 4095) (withPlan5 standby)
    tabRising t.crg.patterns = true ∧ tabRising t.tru.plans = true ∧ tabRising voices.scripts = true ∧
    tabRising voices.numbers = true ∧ tabRising voices.directory = true ∧ tabRising t.zar.platforms = true := by
  decide +kernel

/-- A step whose values stand at the lower ends of their ranges (11.9). -/
def lowStep : PlanStep :=
  { stepOf .onDelayChange 60 0 1 0 30 0 with repeatInterval := 60, selector := .all, policy := .whole, confirmTimeout := 5 }

/-- A step whose values stand at the upper ends of their ranges. -/
def highStep : PlanStep :=
  { stepOf .scheduledLead 7200 3 0b111111 3 1800 7 with
    minDelay := 21600, repeatInterval := 1800, script := 255, selector := .callPlatformAndGroup 15, residual := true
    restartable := true, confirm := .ifProvisional, confirmTimeout := 600, timeoutPolicy := .discard }

theorem witness_TableLoadsAreAnswered :
    (∀ code ∈ [0x24, 0x30, 0x40, 0x41, 0x42, 0x61, 0x62], Comes standby code [0, 0]) ∧
    ([[0, 9] ++ w32 4294967295, [1, 1], [1, 40], [2, 99], [3, 15], [4, 15], [5], [0, 9] ++ w32 0, [1, 0], [1, 41], [3, 16],
      [4, 16], [6]].map parseSelector = [some (.explicit 0xFFFFFFFF#32), some (.platform 1), some (.platform 40),
      some .callPlatform, some (.group 15), some (.callPlatformAndGroup 15), some .all] ++ List.replicate 6 none) ∧
    ([[0, 99], [1, 0], [1, 2] ++ w16 0 ++ w16 4095, 1 :: 24 :: (List.replicate 24 (w16 4095)).flatten].map parsePattern =
      [some none, some (some []), some (some [0, 4095]), some (some (List.replicate 24 4095))]) ∧
    (∀ e ∈ [[2, 0], [255, 0], [1, 1] ++ w16 4096, [1, 2] ++ w16 0 ++ w16 65535, 1 :: 25 :: zeros 50], parsePattern e = none) ∧
    (∀ p ∈ [⟨0, [lowStep]⟩, ⟨3600, List.replicate 8 highStep⟩, plan5],
      parsePlan (planBytes (some p)) = some (some p) ∧ (planBytes (some p)).length = 4 + 28 * p.steps.length) ∧
    (∀ p ∈ [⟨3601, [lowStep]⟩, ⟨0, []⟩, ⟨0, List.replicate 9 lowStep⟩, ⟨0, [lowStep, { lowStep with window := 29 }]⟩],
      parsePlan (planBytes (some p)) = none) ∧ [[0, 9], [2]].map parsePlan = [some none, none] := by decide +kernel

theorem witness_TableLoadsAreAnswered_steps :
    (∀ p ∈ [lowStep, { lowStep with lead := 1800 }, highStep, stepOf .expectedLead 7200 3 1 3 1800 7,
      stepOf .onPlatformSet 0 0 32 0 30 0, stepOf (.onState .due) 0 0 32 0 30 0, stepOf (.onState .cancelled) 0 0 32 0 30 0],
      parseStep (stepBytes p) = some p) ∧
    (∀ p ∈ [{ lowStep with lead := 59 }, { lowStep with lead := 1801 }, { lowStep with minDelay := 1 },
      { lowStep with anchor := .onPlatformSet }, { lowStep with anchor := .onState .planned, lead := 0 },
      { lowStep with window := 29 }, { lowStep with repeatInterval := 59 }, { lowStep with confirmTimeout := 4 },
      { lowStep with selector := .explicit 0 }, { lowStep with selector := .platform 41 },
      { highStep with lead := 7201 }, { highStep with minDelay := 21601 }, { highStep with group := 4 },
      { highStep with window := 1801 }, { highStep with repeats := 8 }, { highStep with repeatInterval := 1801 },
      { highStep with cls := 4 }, { highStep with confirmTimeout := 601 },
      { highStep with anchor := .expectedLead }], parseStep (stepBytes p) = none) ∧
    ∀ q ∈ [(0, 6#8), (7, 0#8), (7, 0xC0#8), (16, 6#8), (22, 2#8), (23, 3#8), (26, 2#8)],
      parseStep ((stepBytes highStep).set q.1 q.2) = none := by decide +kernel

theorem witness_TableLoadsAreAnswered_scripts :
    ([0 :: w16 4095, 1 :: (w16 4095 ++ [1]), 1 :: (w16 0 ++ [16]), 2 :: w16 10, 2 :: w16 2000, [3], [4], [5, 0], [5, 1], [6],
      [7]].map parseItem = [some (.fragment 4095), some (.chime 4095 1), some (.chime 0 16), some (.gap 10),
      some (.gap 2000), some .place, some .platform, some (.time false), some (.time true), some .delay, some .calling]) ∧
    (∀ e ∈ [0 :: w16 4096, 1 :: (w16 4096 ++ [1]), 1 :: (w16 5 ++ [0]), 1 :: (w16 5 ++ [17]), 2 :: w16 9, 2 :: w16 2001,
      [5, 2], [8], [255]], parseItem e = none) ∧
    (∀ e ∈ [[1, 1, 3, 0, 0, 0], 1 :: 24 :: (zeros 92 ++ [7, 0, 0, 0])],
      (parseScript e).map (fun x => x.map fun sc => (sc.items.length, sc.needsCall)) = some (some (byteAt e 1, true)) ∧
      e.length = 2 + 4 * byteAt e 1) ∧
    (parseScript (1 :: 24 :: zeros 96)).map (fun x => x.map fun sc => sc.needsCall) = some (some false) ∧
    [[0, 9], [2], [1, 0], 1 :: 25 :: zeros 100, [1, 1, 8, 0, 0, 0]].map parseScript =
      some none :: List.replicate 4 none ∧
    [w16 0, w16 4095, w16 4096, w16 65534, w16 65535].map parseNumber =
      [some (some 0), some (some 4095), none, none, some none] ∧
    (∀ q ∈ [(33554431, 1, -48), (0, 1048575, 24), (33554432 - 1048575, 1048575, 0), (33554431, 0, 0)],
      (parseDir (w32 q.1 ++ w32 q.2.1 ++ w8 ((q.2.2 + 256) % 256).toNat)).map
        (fun d => (d.address, d.length, d.trim)) = some q) ∧
    (∀ q ∈ [(33554432, 0, (0 : Int)), (0, 1048576, 0), (33554431, 2, 0), (33554432 - 1048574, 1048575, 0), (0, 1, -49), (0, 1, 25)],
      parseDir (w32 q.1 ++ w32 q.2.1 ++ w8 ((q.2.2 + 256) % 256).toNat) = none) := by decide +kernel

theorem witness_ReadsReportAndChangeNothing :
    canExecute (holding (msg 0x01 []) failed) = true ∧ (msg 0x01 []).body.length = 0 ∧
    (∀ p ∈ [(0x02, 1), (0x23, 4), (0x25, 1), (0x31, 1), (0x43, 1), (0x44, 4), (0x45, 4), (0x59, 2), (0x5A, 0), (0x63, 2),
      (0x64, 0), (0x71, 1), (0x81, 2), (0x90, 2)], Heads standby p.1 p.2 (zeros p.2)) ∧
    byteAt (msg 0x23 [0, 0, 0, 1]).body 0 = 0 ∧ byteAt (msg 0x23 [1, 0, 1, 255]).body 0 = 1 ∧
    1 < byteAt (msg 0x23 [2, 0, 0, 0]).body 0 := by decide +kernel

theorem witness_LoadedCallsTakeTheirSlots :
    let b := callEntry 40117 1 5 0 2 31 50400 0 523
    let s := withPlan5 (runningAt 40000)
    Comes s 0x20 (w16 511 ++ w16 1 ++ b) ∧ tabRising s.crg.calls = true ∧
    parseCallEntry s.tru.plans 40000 (callEntry 40117 1 5 41 2 31 50400 0 523) = none ∧
    parseCallEntry s.tru.plans 40000 b = some corran ∧
    ((withCorran (corranIn .due) s).callAt 12 = some (corranIn .due) ∧ (corranIn .due).state ≠ .finished ∧
      (corranIn .due).state ≠ .cancelled) ∧
    (s.callAt 511 = none ∧ ∀ p ∈ (withCorran corran s).crg.calls, p.1 ≠ 511) ∧
    (withCorran corran s).crg.calls = [(12, corran)] := by decide +kernel

theorem witness_LoadedCallsTakeTheirSlots_entries :
    (∀ b ∈ [callEntry 1 0 5 0 0 0 0 (-600) 0, callEntry 16777215 2 5 40 3 255 107999 21600 4095],
      (parseCallEntry [(5, plan5)] 40000 b).isSome = true) ∧
    (∀ b ∈ [callEntry 0 0 5 0 0 0 0 0 0, callEntry 1 3 5 0 0 0 0 0 0, callEntry 1 0 6 0 0 0 0 0 0, callEntry 1 0 5 41 0 0 0 0 0,
      callEntry 1 0 5 0 1 0 0 0 0, callEntry 1 0 5 0 0 0 108000 0 0, callEntry 1 0 5 0 0 0 0 0 4096],
      parseCallEntry [(5, plan5)] 40000 b = none) := by decide +kernel

/-- What `Names` asks, of an UPDATE_CALL for call 40117 in slot 12. -/
abbrev Updates (c : CallRec) (u : Nat) (operand : List Byte) : Prop :=
  Names (holding (msg 0x21 (update u operand)) (withCorran c running)) (msg 0x21 (update u operand)) u 12 c

theorem witness_CallsFollowTheirReports :
    (∀ st ∈ [CallState.planned, .due, .atPlatform, .departing, .finished, .cancelled], ∀ u ∈ [0, 1, 2, 3],
      Updates (corranIn st) u (zeros 4) ∧ tabRising (withCorran (corranIn st) running).crg.calls = true) ∧
    Updates corran 0 (zeros 4) ∧ corran.platform = 0 ∧ (corranIn .planned).platform ≠ 0 ∧
    (corranIn .due).kind ≠ .arrival ∧ Updates { corranIn .due with kind := .arrival } 1 (zeros 4) := by decide +kernel

theorem witness_DelaysAndPlatformsAreTaken :
    (∀ st ∈ [CallState.planned, .due, .atPlatform, .departing, .finished, .cancelled],
      ∀ p ∈ [(4, ws32 21600), (4, ws32 0), (5, [40, 1, 0, 0])], Updates (corranIn st) p.1 p.2) ∧
    (∀ operand ∈ [[41, 0, 0, 0], [0, 1, 0, 0], [0, 0, 0, 0]], Updates corran 5 operand) ∧
    clampDelay (signed32 (msg 0x21 (update 4 (ws32 21601))).body 4) = 21600 := by decide +kernel

theorem witness_EndedCallsAreFreed :
    Heads standby 0x22 3 (w24 40117) ∧ Heads running 0x22 3 [0, 0, 0] ∧ be24 (msg 0x22 [0, 0, 0]).body 0 = 0 ∧
    findRef running.crg.calls (be24 (msg 0x22 (w24 40117)).body 0) = none ∧
    findRef (withCorran (corranIn .due) running).crg.calls (be24 (msg 0x22 (w24 40117)).body 0) = some (12, corranIn .due) ∧
    findRef (withCorran (corranIn .finished) running).crg.calls (be24 (msg 0x22 (w24 40117)).body 0) =
      some (12, corranIn .finished) ∧
    tabRising (withCorran (corranIn .finished) running).crg.calls = true ∧ 12 ∉ running.crg.retentionDue ∧
    12 ∈ (after .secondElapses (withCorran (corranIn .finished) (runningAt 47999))).crg.retentionDue ∧
    (corranIn .finished).retained 48000 = true ∧ (corranIn .finished).retained 47999 = false := by decide +kernel

theorem witness_PlannedCallsBecomeDue :
    running.crg.changes = [] ∧ (after .secondElapses (withCorran corran running)).crg.changes = [⟨.advance, 48000, 48001⟩] ∧
    tabRising (withCorran corran running).crg.calls = true := by decide +kernel

theorem witness_TriggerEventsAreTakenInOrder :
    let t := command .updateCallCancel 0x21 (update 3 (zeros 4)) (withCorran corran running)
    let gone := { corran with state := .cancelled, stateSince := 48000, retainUntil := some 48600 }
    oldestOf 12 t.tru.events = some (⟨12, 40117, ⟨.stateEntry .cancelled, gone⟩⟩, []) ∧
    (t.callOf (some (12, 40117)) = some gone ∧ tabGet t.tru.plans gone.plan = none ∧
      tabGet (withPlan5 t).tru.plans gone.plan = some plan5 ∧ running.callOf (some (12, 40117)) = none) ∧
    eventRow 12 .loaded ≠ eventRow 12 (.stateEntry .cancelled) ∧ oldestOf 12 running.tru.events = none ∧
    running.tru.completions = [] ∧ running.tru.changes = [] ∧
    (after .secondElapses running).tru.changes = [⟨.advance, 48000, 48001⟩] ∧
    (running.onTru fun u => { u with completions := [⟨bulletin 5 .playing, 48000⟩] }).tru.completions =
      [⟨bulletin 5 .playing, 48000⟩] ∧
    ((bulletin 5 .playing).ask.call = none ∧ plan5.steps[8]? = none ∧ (trackRecord 7 0 0).ask.step = some 7 ∧
      running.callOf (trackRecord 7 0 0).ask.call = none) ∧
    (let s := withPlan5 (withCorran (corranIn .due) running)
     s.callAt 12 = some (corranIn .due) ∧ tabGet s.tru.plans (corranIn .due).plan = some plan5 ∧
     plan5.steps[0]?.map (fun p => (p.validIn .due, p.validIn .finished)) = some (true, false) ∧
     (trackRecord 0 0 1).ask.call = some (12, 40117) ∧ (trackRecord 0 0 1).ask.step = some 0 ∧
     0 < (trackRecord 0 0 1).ask.repeats ∧ (trackRecord 0 0 1).noRepeat = false ∧ (trackRecord 0 0 0).ask.repeats = 0 ∧
     (∀ r ∈ s.apl.records, r.ofStep 12 40117 0 = false) ∧
     ∃ r ∈ (withPool [trackRecord 0 0 0] s).apl.records, r.ofStep 12 40117 0 = true) := by decide +kernel

theorem witness_StepsFireByTheirAnchors :
    let c := { corranIn .due with steps := List.replicate 8 ⟨.armed, 50400⟩ }
    let s := (withPlan5 (withCorran c (runningAt 50340))).onTru fun u => { u with retry := [⟨12, 40117, 1, none⟩] }
    (dueSteps c plan5 50340).Pairwise (fun x y => x.index < y.index) ∧
    (PoolSound s.apl ∧ s.callAt 12 = some c ∧ tabGet s.tru.plans c.plan = some plan5 ∧ c.steps.length = 8 ∧
      plan5.steps.length = 8 ∧ (∀ p ∈ plan5.steps, p.group ≤ 3) ∧
      ∀ x ∈ s.tru.retry, x.slot = 12 → x.pendingTime = none) ∧
    ((dueSteps c plan5 50340).map fun l => (l.index, l.fire, decide (l.fire + l.step.window < 50340))) =
      [(0, 49500, true), (1, 50100, false), (2, 50220, false), (3, 50280, false), (4, 50340, false)] ∧
    dueTime c 50340 5 (stepOf .onDelayChange 300 1 0b000011 2 600 0) = none ∧
    (plan5.steps[6]?.map fun p => (p.eventAnchored, p.validIn .due, p.validIn .finished, p.window, p.anchor)) =
      some (true, true, false, 300, .onPlatformChange) ∧
    (plan5.steps[7]?.map fun p => (p.eventAnchored, p.window, p.anchor)) = some (true, 600, .onState .cancelled) ∧
    (plan5.steps[0]?.map fun p => p.eventAnchored) = some false := by
  unfold PoolSound
  decide +kernel

theorem witness_FiringReplacesItsOldRecord :
    let s := withPool [trackRecord 0 3 0, bulletin 7 .ready, bulletin 8 .queued] (withCorran (corranIn .due) running)
    let full := withPool ((List.range 96).map fun k => bulletin (k + 1) .held) (withCorran (corranIn .due) running)
    let mine := fun r : AnnRec => r.ofStep 12 40117 0
    (PoolSound s.apl ∧ PoolSound full.apl) ∧ s.callAt 12 = some (corranIn .due) ∧
    full.callAt 12 = some (corranIn .due) ∧ (∃ r ∈ s.apl.records, mine r = true) ∧
    (∃ r ∈ s.apl.records, mine r = false ∧ r.state = .queued) ∧ 96 ≤ full.apl.records.length ∧
    (∀ r ∈ full.apl.records, mine r = false ∧ r.held = 0#32) ∧ full.tru.retry = [] ∧
    ((full.onTru fun u => { u with retry := [⟨12, 40117, 0, none⟩] }).tru.retry.any fun x => x.isFor 12 0) = true := by
  unfold PoolSound
  decide +kernel

theorem witness_CallItemsExpandByTheirRules :
    (corranIn .due).pattern = some 31 ∧ tabGet [(31, [520, 523])] 31 = some [520, 523] ∧
    [520, 523] = [520] ++ [523] ∧ tabGet [(31, ([] : List Nat))] 31 = some [] ∧ tabGet [(31, [520])] 31 = some [520] ∧
    { corranIn .due with pattern := none }.pattern = none ∧ tabGet [(30, [520])] 31 = none ∧ corran.platform = 0 ∧
    (corranIn .due).platform ≠ 0 := by decide +kernel

theorem witness_ExpansionsStopAtSixtyFour :
    let items := List.replicate 20 (.chime 521 1) ++ [.calling, .gap 300, .place]
    let x := { voices with scripts := [(40, scriptOf items)] }
    let wanted := items.zipIdx.flatMap fun q =>
      (wantedOf [(31, List.replicate 63 520)] 3 (some corran) q.1).map fun w => (q.2, w)
    let there := fun k => ((wanted.take k).filter fun q => decide (q.2 ≠ .fragment 521 1)).length
    tabGet x.scripts 41 = none ∧ (tabGet x.scripts 40).map (fun sc => sc.items) = some items ∧
    (dirEntry x 521).length = 0 ∧ (dirEntry x 520).length ≠ 0 ∧ (tabGet x.numbers 201).isSome = true ∧
    wanted[84]? = some (21, .silence 300) ∧ there 84 = 64 ∧ there 83 = 63 ∧
    (expandScript x [(31, List.replicate 63 520)] 3 (some corran) 40).truncatedAt = some 21 ∧
    (expandScript x [(31, [520])] 3 (some corran) 40).truncatedAt = none := by decide +kernel

theorem witness_NewRecordsTakeTheNextFreeId :
    PoolSound (withPool [bulletin 411 .ready] running).apl ∧
    (createRecord (bulletin 0 .ready).ask (withPool [bulletin 411 .ready] running)).map Prod.fst = some 412 := by
  unfold PoolSound
  decide +kernel

theorem witness_CreatedRecordsAreJudgedAtOnce :
    let made := fun (a : Ask) (t : Nat) => (createRecord a (withPool [] (runningAt t))).isSome = true
    let a := (bulletin 0 .ready).ask
    let asked := { a with confirm := .ifProvisional, call := some (12, 40117) }
    PoolSound (withPool [] running).apl ∧ (StatsSound [(Counter.index (.created 3), 4294967295)] ∧ a.cls = 3) ∧
    (made a 48601 ∧ min 48600 107999 < (runningAt 48601).sck.time) ∧
    (made a 46999 ∧ (runningAt 46999).sck.time < min a.earliest 107999) ∧
    (made a 48600 ∧ min a.earliest 107999 ≤ (runningAt 48600).sck.time ∧ needsConfirmation running a = true) ∧
    needsConfirmation running { a with confirm := .never } = false ∧
    ([{ corran with provisional := true }, corran].map fun c => needsConfirmation (withCorran c running) asked) = [true, false] ∧
    needsConfirmation running asked = false ∧
    96 ≤ (withPool ((List.range 96).map fun k => bulletin (k + 1) .ready) running).apl.records.length := by
  unfold PoolSound StatsSound
  decide +kernel

/-- A zone beyond the 32 has no holder, where the zone table lists none. -/
theorem holds_beyond {s : State} (h : ∀ p ∈ s.zar.zones, p.1 < 32) {id : Nat} {held : ZoneSet}
    (hz : ∀ z, z < 32 → (s.zone z).holder = some id → held.getLsbD z = true) (z : Nat) :
    (s.zone z).holder = some id → held.getLsbD z = true := by
  by_cases hb : z < 32
  · exact hz z hb
  · intro hh
    have hn : tabGet s.zar.zones z = none := by
      cases e : tabGet s.zar.zones z with
      | none => rfl
      | some v => exact absurd (h _ (mem_of_tabGet e)) hb
    rw [State.zone, tabGetD, hn] at hh
    cases hh

theorem witness_EndedRecordsReleaseTheirZones :
    let r := { bulletin 7 .playing with held := 0x80000001#32, channel := some 2 }
    let live := { page with state := .playing, held := 0x80000001#32 }
    let s := ((withPool [r, live] { (withZones [0, 31] running) with notices := ⟨[], BitVec.allOnes 13⟩ }).updZone 31
      fun e => { e with holder := some 7 })
    ((StatsSound s.stats ∧ PoolSound s.apl) ∧ s.notices = ⟨[], BitVec.allOnes 13⟩ ∧
      [s.ann 7, s.ann 410] = [some r, some live] ∧ (live.state = .playing ∧ live.ask.stream = some 2) ∧
      (r.held ≠ 0#32 ∧ zonesOf r.held = [0, 31] ∧ (bulletin 8 .ready).held = 0#32) ∧
      (r.ask.cls = 3 ∧ r.ask.stream = none) ∧ (tabGet s.lmu.levels 31).isSome = true ∧ (tabGet s.pbc 2).isSome = true) ∧
    ∀ z, (s.zone z).holder = some 7 → r.held.getLsbD z = true := by
  unfold StatsSound PoolSound
  exact ⟨by decide +kernel, holds_beyond (by decide +kernel) (by decide +kernel)⟩

theorem witness_CreatingCommandsAreAnswered :
    let free := announceBody ([5, 0] ++ w32 0) 3 0
    let called := [40, 1] ++ w24 40117 ++ free.drop 5
    (Heads running 0x50 22 free ∧ (parseAnnounce (msg 0x50 free).body).isSome = true ∧
      parseAnnounce (msg 0x50 (zeros 22)).body = none ∧ Heads running 0x50 22 (zeros 22)) ∧
    (Heads running 0x50 22 called ∧ (parseAnnounce (msg 0x50 called).body).map Prod.fst = some (some 40117) ∧
      (parseAnnounce (msg 0x50 free).body).map Prod.fst = some none ∧ findRef running.crg.calls 40117 = none ∧
      findRef (withCorran corran running).crg.calls 40117 = some (12, corran)) ∧
    (Heads standby 0x51 8 ([3, 3, 5, 0] ++ w32 0) ∧ Heads standby 0x51 8 ([4, 3, 5, 0] ++ w32 0) ∧
      Heads standby 0x51 8 ([3, 3, 2, 0] ++ w32 0) ∧ (Selector.callPlatform).needsCall = true ∧
      (withPool [page] standby).apl.records = [page] ∧ page.ask.origin = .live ∧ page.ask.stream = some 2) ∧
    (Heads standby 0x53 8 ([1, 1, 5, 0] ++ w32 0) ∧ Heads standby 0x53 8 ([1, 1, 6, 0] ++ w32 0) ∧
      Heads standby 0x53 8 ([1, 1, 4, 0] ++ w32 0)) ∧
    (Heads standby 0x54 2 [0, 0] ∧ Heads standby 0x54 2 [0, 9] ∧ standby.ann 9 = none ∧
      (withPool [bulletin 9 .ready] standby).ann 9 = some (bulletin 9 .ready) ∧
      (bulletin 9 .ready).ask.origin ≠ .emergency ∧ (evacuation .ready true).ask.origin = .emergency ∧
      Heads (withPool [evacuation .ready true] standby) 0x54 2 [0, 0] ∧
      PoolSound (withPool [evacuation .ready true] standby).apl) ∧
    ((evacuation .ready true).state = .ready ∧ (evacuation .playing true).state = .playing ∧
      ((withChannel (fun c => { c with state := .gap }) standby).channel 2).state = .gap ∧
      (evacuation .playing false).ask.latched = false) ∧
    (let full := withPool ((List.range 96).map fun k => bulletin (k + 1) (if k < 90 then .ready else .held)) running
     96 ≤ full.apl.records.length ∧ bulletin 90 .ready ∈ full.apl.records ∧
     ∀ x ∈ full.apl.records, x.state = .queued ∨ x.state = .ready → x ≠ bulletin 90 .ready →
       x.ask.cls = 3 ∧ x.eligibleSince.getD 0 = 47500 ∧ x.seq < 90) ∧
    ∀ x ∈ (withPool ((List.range 96).map fun k => bulletin (k + 1) .held) running).apl.records,
      ¬(x.state = .queued ∨ x.state = .ready) := by
  unfold PoolSound
  refine ⟨?_, ?_, ?_, ?_, ?_, ?_, ?_, ?_⟩ <;> decide +kernel

/-- The 22 bytes of an ANNOUNCE, value by value (11.5). -/
def askBytes (flags ref : Nat) (sel : List Byte) (cls policy confirm timeout repeats : Nat) (waits : Nat × Nat × Nat) :
    List Byte :=
  [40] ++ w8 flags ++ w24 ref ++ sel ++ w8 cls ++ w8 policy ++ w8 confirm ++ w8 timeout ++ w8 repeats ++ w16 waits.1 ++
    w16 waits.2.1 ++ w16 waits.2.2

theorem witness_CreatingCommandsAreAnswered_requests :
    let all := [5, 0] ++ w32 0
    let low := (5, 30, 60)
    (∀ b ∈ [askBytes 0 0 all 0 0 0 0 0 low, askBytes 7 1 ([0, 0] ++ w32 1) 3 1 2 1 7 (600, 1800, 1800)],
      (parseAnnounce b).isSome = true) ∧
    ∀ b ∈ [askBytes 1 0 all 0 0 0 0 0 low, askBytes 0 0 ([6, 0] ++ w32 0) 0 0 0 0 0 low, askBytes 0 0 all 4 0 0 0 0 low,
      askBytes 0 0 all 0 2 0 0 0 low, askBytes 0 0 all 0 0 3 0 0 low, askBytes 0 0 all 0 0 0 2 0 low,
      askBytes 0 0 all 0 0 0 0 8 low, askBytes 0 0 all 0 0 0 0 0 (4, 30, 60), askBytes 0 0 all 0 0 0 0 0 (601, 30, 60),
      askBytes 0 0 all 0 0 0 0 0 (5, 29, 60), askBytes 0 0 all 0 0 0 0 0 (5, 1801, 60),
      askBytes 0 0 all 0 0 0 0 0 (5, 30, 59), askBytes 0 0 all 0 0 0 0 0 (5, 30, 1801)], parseAnnounce b = none := by
  decide +kernel

theorem witness_HeldRecordsAreAnswered :
    Heads running 0x55 2 [0, 0] ∧ Heads running 0x56 2 [0, 7] ∧ running.ann 7 = none ∧
    (∀ st ∈ [RecState.queued, .held, .ready, .playing],
      Heads (withPool [bulletin 7 st] running) 0x55 2 [0, 7] ∧ Heads (withPool [bulletin 7 st] running) 0x56 2 [0, 7] ∧
      (withPool [bulletin 7 st] running).ann (be16 (msg 0x55 [0, 7]).body 0) = some (bulletin 7 st)) := by decide +kernel

theorem witness_EndingCommandsAreAnswered :
    Heads standby 0x52 1 [4] ∧ Heads standby 0x52 1 [3] ∧ liveOn standby 3 = none ∧
    liveOn (withPool [page] standby) 2 = some page ∧
    liveOn (withPool [{ page with state := .playing }] standby) 2 = some { page with state := .playing } ∧
    Heads standby 0x57 2 [0, 0] ∧ Heads standby 0x57 2 [0, 7] ∧ standby.ann 7 = none ∧
    (withPool [bulletin 7 .held] standby).ann 7 = some (bulletin 7 .held) ∧ Heads standby 0x58 0 [] ∧
    PoolSound (withPool [trackRecord 0 3 0] standby).apl ∧
    ∃ r ∈ (withPool [trackRecord 0 3 0] standby).apl.records, r.held ≠ 0#32 := by
  unfold PoolSound
  decide +kernel

/-- A state whose pool waits with one event for slot 12. -/
def poolEvent (e : PoolEvent) (s : State) : State := s.onApl fun a => { a with events := [⟨12, 40117, e⟩] }

theorem witness_PoolEventsAreTakenInOrder :
    (∀ e ∈ [PoolEvent.platformMoved 7 9, .cancelled, .provisionalCleared, .callRemoved],
      oldestOf 12 (poolEvent e running).apl.events = some (⟨12, 40117, e⟩, [])) ∧
    poolRow 12 .cancelled ≠ poolRow 12 .callRemoved ∧ oldestOf 12 running.apl.events = none ∧
    running.apl.changes = [] ∧ (after .secondElapses running).apl.changes = [⟨.advance, 48000, 48001⟩] ∧
    7 ∉ running.apl.holdDue ∧ 7 ∉ running.apl.expiryDue ∧
    (withPool [bulletin 7 .held] running).ann 7 = some (bulletin 7 .held) ∧
    7 ∈ (after .secondElapses (withPool [bulletin 7 .held] (runningAt 47999))).apl.holdDue ∧
    7 ∈ (after .secondElapses (withPool [bulletin 7 .ready] (runningAt 48600))).apl.expiryDue := by decide +kernel

theorem witness_PoolEventsAreTakenInOrder_queued :
    let r := bulletin 7 .queued
    let s := withPool [r, bulletin 8 .ready] running
    s.ann 7 = some r ∧ (46999 < r.ask.earliest ∧ r.ask.earliest ≤ 47000) ∧ needsConfirmation s r.ask = true ∧
    (s.ann 8 = some (bulletin 8 .ready) ∧ (bulletin 8 .ready).state ≠ .queued) ∧
    needsConfirmation s { r.ask with confirm := .never } = false ∧ [7, 8].Nodup := by decide +kernel

theorem witness_CallEventsReachTheirRecords :
    let waits := fun e : PoolEvent => poolEvent e (withPool [bulletin 7 .held] running)
    let r := { bulletin 7 .playing with held := 0x80000001#32, platformSpoken := true }
    let s := (withPool [r, bulletin 8 .ready] (withZones [0, 31] running)).updZone 31 fun e => { e with holder := some 7 }
    ((∃ t, exec (.cancelled 12) (waits .cancelled) = .next t) ∧ ∃ t, exec (.callRemoved 12) (waits .callRemoved) = .next t) ∧
    (oldestOf 12 (waits .cancelled).apl.events = some (⟨12, 40117, .cancelled⟩, []) ∧ PoolSound (waits .cancelled).apl ∧
      (∀ st ∈ [RecState.queued, .held, .ready, .playing],
        (withPool [bulletin 7 st] running).ann 7 = some (bulletin 7 st) ∧
        (bulletin 7 st).ask.call ≠ some (12, 40117) ∧ (bulletin 7 st).held = 0#32) ∧
      (r.platformSpoken = true ∧ r.ask.restartable = true ∧ (evacuation .playing false).ask.selector.needsCall = false) ∧
      [7].Nodup ∧ PoolSound s.apl ∧ s.ann 7 = some r ∧ r.held ≠ 0#32) ∧
    ∀ z, (s.zone z).holder = some 7 → r.held.getLsbD z = true := by
  unfold PoolSound
  exact ⟨⟨⟨_, rfl⟩, ⟨_, rfl⟩⟩, by decide +kernel, holds_beyond (by decide +kernel) (by decide +kernel)⟩

theorem witness_ZoneLoadsAreJudged :
    let low : ZoneEntry := { zone7 with
      enabled := false, level := 0, gMin := 0, emergencyLevel := 0, aRef := 0, slope := 0, bMax := 0, feed := none
      backLevel := 0, duck := 0, attack := 1, release := 1 }
    let high : ZoneEntry := { zone7 with
      level := 120, gMin := 120, emergencyLevel := 120, aRef := 254, slope := 8, bMax := 24, feed := some 1
      backLevel := 121, duck := 121, attack := 640, release := 640 }
    Comes standby 0x60 ([31, 1] ++ zone7Bytes) ∧
    (∀ e ∈ [low, high, zone7], parseZone e (zoneBytes e) = some e) ∧
    (∀ e ∈ [{ high with level := 121 }, { high with gMin := 121 }, { high with emergencyLevel := 121 },
      { high with aRef := 255 }, { high with slope := 9 }, { high with bMax := 25 }, { high with feed := some 2 },
      { high with feed := some 254 }, { high with backLevel := 122 }, { high with duck := 122 }, { low with attack := 0 },
      { high with attack := 641 }, { low with release := 0 }, { high with release := 641 }],
      parseZone zone7 (zoneBytes e) = none) ∧
    (tabGet standby.zar.zones 31).isSome = true ∧ (tabGet standby.lmu.levels 31).isSome = true := by decide +kernel

/-- Zone 31 is held by record 7 and its link is shorted. -/
def shortedIn (held : ZoneSet) : State :=
  ((withPool [{ bulletin 7 .playing with held := held }] (withZones [0, 31] running)).updZone 31
    fun e => { e with holder := some 7 }).updLink 31 fun k => { k with link := .shorted }

theorem witness_ZonesResolveByMapAndLink :
    (tabGet standby.zar.zones 31).isSome = true ∧
    (((standby.zone 7).enabled && (standby.link 7).usable) = (standby.zone 7).available) ∧
    (let s := (withZones [7] standby).updZone 7 fun e => { e with available := false }
     ((s.zone 7).enabled && (s.link 7).usable) ≠ (s.zone 7).available ∧ (s.zone 7).holder = none) ∧
    ∀ zones ∈ [[0, 31], [31]],
      let held := zoneSetOf zones
      let s := shortedIn held
      ((s.zone 31).enabled && (s.link 31).usable) = false ∧ (s.zone 31).available = true ∧
      (s.zone 31).holder = some 7 ∧ s.ann 7 = some { bulletin 7 .playing with held := held } ∧
      (held &&& ~~~(BitVec.twoPow 32 31) = 0#32 ↔ zones = [31]) := by decide +kernel

/-- Every channel busy: channel 4 was given to record 1 before channel 5 was given to record 2. -/
def crowded : State :=
  { withPool [{ bulletin 1 .playing with channel := some 4 }, { bulletin 2 .playing with channel := some 5 }] running with
    pbc := tabFill 6 { Channel.reset with state := .playing }
    zar := { running.zar with grantCounter := 9, grants := [(4, 8), (5, 9)] } }

theorem witness_PassesTakeTurnsInOrder :
    (stage (bulletin 7 .ready)).ann 7 = some (bulletin 7 .ready) ∧ (bulletin 7 .held).state ≠ .ready ∧
    (stage (bulletin 7 .held)).ann 7 = some (bulletin 7 .held) ∧
    (resolveZones running (bulletin 7 .ready).ask &&& availableZones running) = 0#32 ∧
    (let s := (stage (bulletin 7 .ready)).updZone 1 fun e => { e with holder := some 9 }
     let u := resolveZones s (bulletin 7 .ready).ask &&& availableZones s
     u ≠ 0#32 ∧ takeable s 3 0#32 u ≠ u ∧ takeable s 3 1#32 u = 0#32) ∧
    (let s := stage (bulletin 7 .ready)
     let u := resolveZones s (bulletin 7 .ready).ask &&& availableZones s
     takeable s 3 0#32 u = u ∧ u = 3#32 ∧ (sourceFor s (bulletin 7 .ready)).isSome = true) ∧
    (page.ask.stream = some 2 ∧ (bulletin 7 .ready).ask.stream = none ∧ (evacuation .ready true).ask.cls = 0 ∧
      (running.channel 0).state = .idle ∧ ∀ d, d < 6 → (crowded.channel d).state ≠ .idle) ∧
    (trackRecord 0 1 0).ask.cls = 3 ∧ (∀ x ∈ crowded.apl.records, x.state = .playing ∧ x.channel.isSome = true ∧
      (x ≠ { bulletin 2 .playing with channel := some 5 } → x.ask.cls = 3 ∧ grantAge crowded 5 < grantAge crowded 4)) := by
  decide +kernel

theorem witness_ALoneRecordStarts :
    running.zar.passPending = false ∧
    (∀ r ∈ [bulletin 7 .ready, { page with ask := { page.ask with selector := .explicit 3#32 } }],
      (stage r).zar.passPending = true ∧ (stage r).apl.records = [r] ∧ r.state = .ready ∧ tabRising (stage r).stats = true ∧
      (∀ p ∈ (stage r).stats, p.2 ≤ 4294967295) ∧
      resolveZones (stage r) r.ask &&& availableZones (stage r) ≠ 0#32 ∧
      (∀ z, z < 32 → (tabGet (stage r).zar.zones z).isSome = true ∧ (tabGet (stage r).lmu.levels z).isSome = true ∧
        ((stage r).zone z).holder = none)) ∧
    page.ask.stream = some 2 ∧ (bulletin 7 .ready).ask.stream = none ∧
    (let s := (stage (bulletin 7 .ready)).updChannel 0 fun c => { c with state := .playing, owner := some 9 }
     (tabGet s.pbc 1).isSome = true ∧ (s.channel 1).state = .idle ∧ (s.channel 0).state ≠ .idle ∧
     (expandFor (bulletin 7 .ready) s).elements ≠ []) ∧
    (let victim := { bulletin 2 .playing with channel := some 5 }
     let kept := { bulletin 3 .playing with held := 6#32 }
     let gone := { bulletin 4 .playing with held := 1#32, restartCount := 2 }
     let s := ((withPool [evacuation .ready true, victim, kept, gone] (withZones [0, 1, 2] running)).updZone 0
       fun e => { e with holder := some 4 }).updZone 1 fun e => { e with holder := some 3 }
     s.ann 9 = some (evacuation .ready true) ∧ s.ann 2 = some victim ∧ s.ann 3 = some kept ∧ s.ann 4 = some gone ∧
     ((zonesOf 3#32).filter fun z => (s.zone z).holder == some 3) = [1] ∧
     ((zonesOf 3#32).filter fun z => (s.zone z).holder == some 4) = [0] ∧
     ((zonesOf 3#32).filter fun z => (s.zone z).holder == some 2) = [] ∧
     kept.held &&& ~~~(2#32) ≠ 0#32 ∧ gone.held &&& ~~~(1#32) = 0#32 ∧
     (victim.ask.restartable = true ∧ victim.restartCount < 2 ∧ victim.ask.latest = some 48600) ∧
     ¬gone.restartCount < 2) := by decide +kernel

theorem witness_ALoneRecordStarts_expansions :
    let x := { voices with scripts := [(40, scriptOf [.fragment 110]), (41, scriptOf [.fragment 521]),
      (42, scriptOf [.calling, .fragment 110]), (43, scriptOf [.fragment 521, .calling, .fragment 110])] }
    let s := { stage (bulletin 7 .ready) with sxe := { x with scripts := [] } }
    ([40, 41, 42, 43].map fun k =>
      let e := expandScript x [(31, List.replicate 64 520)] 3 (some corran) k
      (e.elements.length, e.firstMissing.isSome, e.truncatedAt)) =
        [(1, false, none), (0, true, none), (64, false, some 0), (64, true, some 1)] ∧
    (bulletin 7 .ready).ask.stream = none ∧ page.ask.stream = some 2 ∧
    (expandFor (bulletin 7 .ready) s).elements = [] ∧ (expandFor (bulletin 7 .ready) (stage (bulletin 7 .ready))).elements ≠ [] ∧
    s.ann (bulletin 7 .ready).annId = some (bulletin 7 .ready) ∧ (bulletin 7 .ready).state = .ready ∧
    (bulletin 7 .ready).held = 0#32 ∧ StatsSound s.stats := by
  unfold StatsSound
  decide +kernel

theorem witness_BurstsServeUrgentChannelsFirst :
    let s := withChannel (fun c => c.start 530 3 false [.fragment 3 2 40000 1200 2] 0) standby
    let u := withChannel (fun c => c.start 530 0 false [.fragment 3 2 40000 1200 2] 0) standby
    let t := after .fetchGrant s
    t.pmc.transfer ≠ none ∧ s.pmc.transfer = none ∧ nextAfter s.pmc.urgentPtr (s.requests true) = none ∧
    nextAfter s.pmc.routinePtr (s.requests false) = some 2 ∧ nextAfter u.pmc.urgentPtr (u.requests true) = some 2 ∧
    nextAfter standby.pmc.routinePtr (standby.requests false) = none ∧ t.pmc.transfer = some (.burst 2) ∧
    (tabGet t.pbc 2).isSome = true ∧ (t.channel 2).burst.isSome = true ∧ (t.channel 2).state ≠ .idle ∧
    ((t.channel 2).burst.map fun b => b.grant) = some (t.grantOf 2) ∧
    ((t.updChannel 2 Channel.toIdle).channel 2).state = .idle := by decide +kernel

/-- A channel of record 7 in the last of 16 samples of a fragment that two loops play, before a silence of 1 ms. -/
def walking (elem loops left : Nat) (st : ChannelState) (fifo : Nat) : Channel :=
  { Channel.reset with
    state := st, owner := some 7, cls := some 3, list := [.fragment 3 2 40000 16 20, .silence 1], fetchElem := elem
    loopsLeft := loops, curCount := left, baseCount := 16, fifo := List.replicate fifo ⟨5, none⟩ }

theorem witness_BurstsServeUrgentChannelsFirst_fetch :
    let bursting := fun c : Channel => ({ c with burst := some ⟨16, 4, 40000, none⟩ }).burst = some ⟨16, 4, 40000, none⟩
    let c := walking 0 2 16 .prefill 256
    (c.list[0]? = some (.fragment 3 2 40000 16 20) ∧ c.list[1]? = some (.silence 1)) ∧
    (1 < c.loopsLeft ∧ (walking 0 1 16 .prefill 0).loopsLeft ≤ 1 ∧ (walking 0 1 16 .prefill 0).fetchElem + 1 < 2 ∧
      2 ≤ (walking 1 1 16 .prefill 0).fetchElem + 1) ∧
    (15 < c.curCount ∧ 0 < c.curCount ∧ 0 < c.baseCount) ∧ (∀ e ∈ c.list, e ≠ .silence 0) ∧
    ([walking 0 2 16 .prefill 0, walking 0 1 16 .prefill 0, walking 0 2 15 .prefill 0, walking 1 1 16 .prefill 0].map
      Channel.begins = [some 0, none, none, some 1]) ∧
    ((walking 1 1 16 .playing 256).state ≠ .idle ∧ (walking 1 1 16 .playing 256).fetchFinished = false ∧
      (walking 1 1 16 .playing 256).fifo.length ≤ 256 ∧ (walking 1 1 16 .playing 256).burst = none ∧
      256 < (walking 1 1 16 .playing 257).fifo.length) ∧ bursting c ∧
    ((walking 0 2 16 .prefill 256).judgeRequest 4 = { walking 0 2 16 .prefill 256 with fetchReq := true } ∧
      (walking 0 2 16 .prefill 257).judgeRequest 4 = walking 0 2 16 .prefill 257) ∧
    ([walking 0 2 16 .prefill 255, walking 0 2 16 .prefill 256, { walking 0 2 16 .prefill 255 with fetchFinished := true },
      { walking 1 1 0 .playing 0 with fetchFinished := true },
      { walking 1 1 0 .playing 0 with fetchFinished := true, burst := some ⟨16, 4, 40000, none⟩ },
      { walking 1 1 0 .playing 0 with fetchFinished := true, burst := some ⟨16, 3, 40000, none⟩ }].map
        (fun c => (c.judgeState 4).state) = [.prefill, .playing, .draining, .draining, .playing, .draining]) := by
  decide +kernel

theorem witness_PhraseWritesWaitForThePort :
    Comes standby 0x70 (w32 33554431 ++ w16 1 ++ [1, 2]) ∧ Comes standby 0x70 (w32 33554431 ++ w16 2 ++ [1, 2, 3, 4]) ∧
    (let b := (msg 0x70 (w32 33554431 ++ w16 1 ++ [1, 2])).body
     b.length = 6 + 2 * be16 b 4 ∧ 1 ≤ be16 b 4 ∧ be16 b 4 ≤ 496 ∧ be32 b 0 + be16 b 4 ≤ 33554432 ∧
     writeOverlaps standby (parseWrite b) = false) ∧
    (let s := withChannel (fun c => c.start 530 3 false [.fragment 3 2 40000 1200 2] 0) standby
     writeOverlaps s ⟨41199, [1]⟩ = true ∧ writeOverlaps s ⟨41200, [1]⟩ = false ∧ s.noRequest = false) ∧
    standby.pmc.pendingWrite = none ∧ writing.pmc.pendingWrite = some ⟨33554430, [1, 2]⟩ ∧
    writing.mgi.commands.head? = some (msg 0x70 (zeros 10)) ∧ writing.pmc.transfer = none ∧ writing.noRequest = true ∧
    (after .phraseWriteStart writing).pmc.transfer = some .write ∧
    (let s := withChannel (fun c => { c with state := .playing, list := [.fragment 3 1 33554400 32 0] }) writing
     writeOverlaps s ⟨33554430, [1, 2]⟩ = true ∧ s.noRequest = true) := by decide +kernel

theorem witness_ChannelsOutputAndEnd :
    (∀ st ∈ [ChannelState.idle, .prefill, .playing, .draining, .gap],
      tabGet (withChannel (fun c => { c with state := st }) running).pbc 2 = some { Channel.reset with state := st }) ∧
    ({ Channel.reset with fifo := [⟨5, none⟩] } : Channel).fifo = ⟨5, none⟩ :: [] ∧ Channel.reset.fifo = [] ∧
    (let r := { trackRecord 0 3 1 with missed := 4#32, ask := { (trackRecord 0 3 1).ask with residual := true } }
     let s := withPool [r] (withCorran (corranIn .due) running)
     s.ann 5 = some r ∧ r.ask.residual = true ∧ r.missed ||| r.lost ≠ 0#32 ∧ (bulletin 7 .playing).ask.residual = false ∧
     (bulletin 7 .playing).ask.origin = .command ∧ (bulletin 7 .playing).ask.repeats = 0 ∧
     (let a := { (bulletin 7 .playing).ask with repeats := 255, call := some (12, 40117) }
      0 < a.repeats ∧ s.callOf a.call ≠ none ∧ running.callOf a.call = none)) ∧
    (let s := withPool [{ evacuation .playing true with channel := some 2 }] (withChannel (fun c =>
       { c with state := .draining, owner := some 9, latched := true }) running)
     (s.channel 2).state = .draining ∧ (s.channel 2).fifo = [] ∧ (s.channel 2).latched = true ∧
     (s.channel 2).owner = some 9 ∧ (s.ann 9).map (fun r => r.endRequested) = some false) ∧
    ({ Channel.reset with state := .gap, gapTime := 2000 } : Channel).gapTime = 2000 ∧
    (let ch : Channel := { Channel.reset with state := .playing, owner := some 7, underrunRun := 1600 }
     ch.state = .playing ∧ 1600 ≤ ch.underrunRun ∧ ch.fifo = [] ∧ ch.owner = some 7) := by decide +kernel

/-- Zone 31 is held by record 7, which plays on channel 2 with these samples in its FIFO. -/
def sounding (st : ChannelState) (fifo : List FifoSample) : State :=
  ((withPool [{ bulletin 7 .playing with held := 0x80000000#32, channel := some 2 }] (withZones [31] running)).updLevel 31
    fun l => { l with ambient := 156 }).updChannel 2 fun _ => { walking 1 1 16 st 0 with fifo := fifo }

theorem witness_ChannelsOutputAndEnd_marks :
    (∀ st ∈ [ChannelState.playing, .draining], ∀ mark ∈ [none, some 0, some 1, some 2],
      ((sounding st [⟨5, mark⟩]).channel 2).fifo = ⟨5, mark⟩ :: [] ∧
      ((sounding st [⟨5, mark⟩]).channel 2).state = st) ∧
    (let s := sounding .playing []
     ((s.channel 2).list[0]? = some (.fragment 3 2 40000 16 20) ∧ (s.channel 2).list[1]? = some (.silence 1)) ∧
     (s.channel 2).owner.bind s.ann = some { bulletin 7 .playing with held := 0x80000000#32, channel := some 2 } ∧
     (withPool [] s).ann 7 = none ∧ (tabGet s.lmu.levels 31).isSome = true ∧ (tabGet s.pbc 2).isSome = true) := by
  decide +kernel

theorem witness_ZonesAreMixedAndSent :
    let s := fun n => (withZones [31] running).onLmu fun l => { l with
      monitorZone := some 31, gathered := List.replicate n 0, monitorSeq := 255 }
    State.reset.mgi.partState = .selfCheck ∧ running.mgi.partState ≠ .selfCheck ∧ StatsSound State.reset.stats ∧
    StatsSound (s 31).stats ∧ running.lmu.monitorZone = none ∧ (s 31).lmu.monitorZone = some 31 ∧
    ((s 30).lmu.gathered ++ [0]).length < 32 ∧ 32 ≤ ((s 31).lmu.gathered ++ [0]).length ∧
    (s 31).tki.monitorQueue.length < 2 ∧
    2 ≤ ((s 31).onTki fun k => { k with monitorQueue := [⟨0, []⟩, ⟨1, []⟩] }).tki.monitorQueue.length ∧
    (tabGet running.lmu.levels 31).isSome = true := by
  unfold StatsSound
  decide +kernel

theorem witness_BlocksRampAndAge :
    let s := (withZones [31] running).updLevel 31 fun l => { l with tail := some ⟨.samples [], 116, 15⟩, back := 0 }
    State.reset.mgi.partState = .selfCheck ∧ s.mgi.partState ≠ .selfCheck ∧
    tabGet s.lmu.levels 31 = some { ZoneLevel.reset with tail := some ⟨.samples [], 116, 15⟩, back := 0 } ∧
    tabGet s.tki.streams 5 = some StreamBuffer.reset ∧ tabGet s.zli.links 0 = some ZoneLink.reset ∧
    tabGet s.pbc 5 = some Channel.reset ∧ (0 ≤ 16 * 40 ∧ 16 * 40 ≤ 1936) := by decide +kernel

theorem witness_LevelsFollowTheAmbient :
    let s := fun a => (withZones [31] standby).onLmu fun l => { l with readings := [(31, a)] }
    takeFirst (fun p => p.1 == 31) standby.lmu.readings = none ∧
    (∀ a ∈ [Ambient.sensorFault, .value 0, .value 254],
      takeFirst (fun p => p.1 == 31) (s a).lmu.readings = some ((31, a), [])) ∧
    tabGet (s .sensorFault).lmu.levels 31 = some ZoneLevel.reset ∧ ZoneLevel.reset.releaseAge = 500 ∧
    ((s .sensorFault).zone 31).holder = none ∧ ({ ZoneLevel.reset with releaseAge := 499 } : ZoneLevel).releaseAge < 500 ∧
    zone7.gMin ≤ 121 := by decide +kernel

theorem witness_StreamsAreLostAndMonitored :
    (let s := (withPool [page] standby).updStream 2 fun b => { b with age := 5000, expected := some 9 }
     5000 ≤ (s.stream 2).age ∧ liveOn s 2 = some page ∧ liveOn standby 2 = none ∧ (s.stream 2).expected ≠ none ∧
     (standby.stream 2).expected = none) ∧
    ((standby.updStream 2 fun b => { b with age := 4999 }).stream 2).age < 5000 ∧
    Heads standby 0x80 1 [255] ∧ Heads standby 0x80 1 [32] ∧ Heads standby 0x80 1 [31] := by decide +kernel

theorem witness_ReportsAndLossesMoveTheLink :
    State.reset.mgi.partState = .selfCheck ∧ standby.mgi.partState ≠ .selfCheck ∧ 32 ≤ byteAt [32, 0, 0, 0] 0 ∧
    4 ≤ byteAt [31, 4, 0, 0] 1 ∧ byteAt [31, 3, 255, 0] 0 = 31 ∧ lineStateOf (byteAt [31, 3, 255, 0] 1) = some .ampFault ∧
    tabGet standby.zli.links 31 = some ZoneLink.reset ∧ (ZoneLink.reset.link = .ok ↔ LinkState.ampFault = .ok) ∧
    ZoneLink.reset.sensorFault = false ∧ ZoneLink.reset.link = .linkLost ∧ lineStateOf (byteAt [31, 0, 0, 0] 1) = some .ok ∧
    ¬(ZoneLink.reset.link = .ok ↔ LinkState.ok = .ok) ∧ byteAt [31, 0, 254, 0] 2 ≠ 255 ∧
    (let s := (withZones [31] standby).updLink 31 fun k => { k with age := 1000 }
     1000 ≤ (s.link 31).age ∧ (s.link 31).link ≠ .linkLost) := by decide +kernel

/-! ### Endings and fetches, worked by hand -/

/-- R88, R89: a creation counts its class, and enters HELD with a HELD notice that says FIRST. -/
theorem test_created_held :
    (createRecord (bulletin 0 .ready).ask (withPool [] { running with notices := ⟨[], BitVec.allOnes 13⟩ })).map
      (fun x => (x.1, counter x.2 (.created 3), x.2.notices.fifo)) =
      some (411, 1, [.held false 411 none none 3 48000 60]) := by decide +kernel

/-- R130: a holder that loses its last zone ends ABORTED, NO_ZONES_LEFT, ahead of the zone's notice. -/
theorem test_last_zone_lost :
    let s := { shortedIn 0x80000000#32 with notices := ⟨[], BitVec.allOnes 13⟩ }
    let t := judgeAvailability 31 (.link .shorted) s
    t.ann 7 = none ∧ (t.zone 31).holder = none ∧
    t.notices.fifo = [.outcome 7 .aborted .noZonesLeft none 3, .zoneState 31 false (.link .shorted)] ∧
    ((judgeAvailability 31 (.link .shorted) (shortedIn 0x80000001#32)).ann 7).map (fun r => (r.held, r.lost)) =
      some (1#32, 0x80000000#32) := by decide +kernel

/-- R82: an empty expansion ends the record ABORTED with EMPTY_LIST, and the channel stays IDLE. -/
theorem test_empty_list :
    let s := { stage (bulletin 7 .ready) with sxe := { voices with scripts := [] }, notices := ⟨[], BitVec.allOnes 13⟩ }
    let t := after .arbitrationPass s
    t.apl.records = [] ∧ (t.channel 0).state = .idle ∧ counter t .emptyLists = 1 ∧
    t.notices.fifo = [.outcome 7 .aborted .emptyList none 3] := by decide +kernel

/-- R138 to R142: two loops of a fragment and its silence issue 16, 16 and 16 samples, and the list ends. -/
theorem test_fetch_walk :
    let c := (walking 0 2 16 .playing 0).issue 16
    (c.fetchElem, c.loopsLeft, c.curCount) = (0, 1, 16) ∧
    ((c.issue 16).fetchElem, (c.issue 16).loopsLeft, (c.issue 16).curCount) = (1, 1, 16) ∧
    ((c.issue 16).settle 4).fetchFinished = true ∧ ((c.issue 16).settle 4).state = .draining ∧
    ((c.issue 16).settle 4).fifo = ⟨0, some 1⟩ :: List.replicate 15 ⟨0, none⟩ := by decide +kernel

/-- R142, R158: the mark of a fragment of trim 20 takes G again in the held zone (the table's 10), and that of a silence
keeps it; the play element follows both. -/
theorem test_element_starts :
    let out := fun mark => (channelOutput 2 (sounding .playing [⟨5, some mark⟩])).2
    ((out 0).channel 2).playElem = 0 ∧ ((out 0).channel 2).curTrim = 20 ∧ ((out 0).level 31).att = some 10 ∧
    ((out 1).channel 2).playElem = 1 ∧ ((out 1).channel 2).curTrim = 0 ∧ ((out 1).level 31).att = none := by decide +kernel

end Sys2Proof.Tests
end

section
/-! SUPPORT. The clock and the part state kept: the frame of the shared operations, of the execution of a command and of
the commands of the Call Register. -/

namespace Sys2Proof.Machine

/-! ### The clock and the part state kept -/

/-- The clock and the part state stay as they were. -/
structure ClockKept (s t : State) : Prop where
  sck : t.sck = s.sck
  partState : t.mgi.partState = s.mgi.partState

theorem ClockKept.refl (s : State) : ClockKept s s := ⟨rfl, rfl⟩

theorem ClockKept.trans {s t u : State} (a : ClockKept s t) (b : ClockKept t u) : ClockKept s u :=
  ⟨b.sck.trans a.sck, b.partState.trans a.partState⟩

/-- An inner operation changes neither the clock nor the part state. -/
theorem Inner.clockKept {s t : State} (h : Inner s t) : ClockKept s t := ⟨h.sck, by rw [h.mgi]⟩

theorem ClockKept.onTki (f : TrunkInterface → TrunkInterface) (s : State) : ClockKept s (s.onTki f) := ⟨rfl, rfl⟩
theorem ClockKept.onNotices (f : NoticeFifo → NoticeFifo) (s : State) : ClockKept s (s.onNotices f) := ⟨rfl, rfl⟩
theorem ClockKept.onCrg (f : CallRegister → CallRegister) (s : State) : ClockKept s (s.onCrg f) := ⟨rfl, rfl⟩
theorem ClockKept.onTru (f : TriggerUnit → TriggerUnit) (s : State) : ClockKept s (s.onTru f) := ⟨rfl, rfl⟩
theorem ClockKept.onSxe (f : ScriptExpander → ScriptExpander) (s : State) : ClockKept s (s.onSxe f) := ⟨rfl, rfl⟩
theorem ClockKept.onApl (f : AnnouncementPool → AnnouncementPool) (s : State) : ClockKept s (s.onApl f) := ⟨rfl, rfl⟩
theorem ClockKept.onZar (f : ZoneArbiter → ZoneArbiter) (s : State) : ClockKept s (s.onZar f) := ⟨rfl, rfl⟩
theorem ClockKept.onPmc (f : PhraseController → PhraseController) (s : State) : ClockKept s (s.onPmc f) := ⟨rfl, rfl⟩
theorem ClockKept.onZli (f : LinkInterface → LinkInterface) (s : State) : ClockKept s (s.onZli f) := ⟨rfl, rfl⟩
theorem ClockKept.drawFree (s : State) : ClockKept s s.drawFree := ⟨rfl, rfl⟩

theorem ClockKept.count (c : Counter) (s : State) : ClockKept s (count c s) := (Inner.count c s).clockKept
theorem ClockKept.raise (n : Notice) (s : State) : ClockKept s (raise n s) := (Inner.raise n s).clockKept

/-! ### Commands (R182) -/

theorem finish_sck (m : Message) (st : Status) (body : List Byte) (s : State) : (finish m st body s).sck = s.sck := by
  unfold finish leaveQueue answer
  simp only
  split <;> split <;> rfl

theorem finish_partState (m : Message) (st : Status) (body : List Byte) (s : State) :
    (finish m st body s).mgi.partState = s.mgi.partState := by
  unfold finish leaveQueue answer
  simp only
  split <;> split <;> rfl

theorem ClockKept.finish (m : Message) (st : Status) (body : List Byte) (s : State) :
    ClockKept s (finish m st body s) := ⟨finish_sck .., finish_partState ..⟩

/-- A command whose owning rule keeps the clock and the part state keeps them. -/
theorem ClockKept.runCommand {row : Row} {act : List Byte → State → Reply}
    (h : ∀ b s, ClockKept s (act b s).state) (s : State) : ClockKept s (runCommand row act s) := by
  rcases runCommand_cases row act s with ⟨_, e⟩ | ⟨m, _, ⟨_, _, e⟩ | ⟨_, _, e⟩ | ⟨_, _, e⟩⟩ <;> rw [e]
  · exact .refl s
  · exact .finish _ _ _ s
  · exact .finish _ _ _ s
  · exact (h _ s).trans (.finish ..)

theorem ClockKept.loadEntries {take : Nat → List Byte → State → Status × State}
    (h : ∀ i b s, ClockKept s (take i b s).2) (i n : Nat) (entries : List (List Byte)) (s : State) :
    ClockKept s (loadEntries take i n entries s).2.2 := by
  induction entries generalizing i n s with
  | nil => exact .refl s
  | cons e rest ih =>
    unfold Machine.loadEntries
    simp only
    split
    · exact (h i e s).trans (ih ..)
    · exact .refl s

/-- A LOAD command keeps what each entry taken keeps. -/
theorem ClockKept.loadCommand {take : Nat → List Byte → State → Status × State}
    (h : ∀ i b s, ClockKept s (take i b s).2) (first count lo hi : Nat) (entries : List (List Byte)) (s : State) :
    ClockKept s (loadCommand first count lo hi entries take s).state := by
  unfold Machine.loadCommand
  split
  · exact .refl s
  · split
    · exact .refl s
    · exact .loadEntries h ..

theorem ClockKept.takeParsed {α : Type} {parse : List Byte → Option α} {put : Nat → α → State → State}
    (h : ∀ i v s, ClockKept s (put i v s)) (i : Nat) (b : List Byte) (s : State) :
    ClockKept s (takeParsed parse put i b s).2 := by
  unfold Machine.takeParsed
  split
  · exact h ..
  · exact .refl s

theorem readRange_state (first count hi : Nat) (body : List Byte) (s : State) :
    (readRange first count hi body s).state = s := by
  unfold readRange
  split
  · rfl
  · split <;> rfl

/-! ### The Call Register's commands (R18 to R33) -/

theorem ClockKept.takeCallEntry (slot : Nat) (b : List Byte) (s : State) : ClockKept s (takeCallEntry slot b s).2 := by
  have hput : ∀ c t, ClockKept t (putDueChecked slot c .loaded t) := fun c t => by
    rw [putDueChecked_eq]
    split <;> exact ⟨rfl, rfl⟩
  unfold Machine.takeCallEntry
  split
  · exact .refl s
  · split
    · exact .refl s
    · split
      · exact .refl s
      · exact (Inner.removeCall slot s).clockKept.trans (hput ..)

theorem ClockKept.arrive (slot : Nat) (c : CallRec) (b : List Byte) (s : State) :
    ClockKept s (arrive slot c b s).2 := by
  unfold Machine.arrive
  split
  · split
    · exact .refl s
    · split <;> exact ⟨rfl, rfl⟩
  · split
    · exact .refl s
    · split <;> exact ⟨rfl, rfl⟩
  · exact .refl s
  · exact .refl s

theorem ClockKept.depart (slot : Nat) (c : CallRec) (b : List Byte) (s : State) :
    ClockKept s (depart slot c b s).2 := by
  unfold Machine.depart
  split
  · exact .refl s
  · split <;> exact ⟨rfl, rfl⟩

theorem ClockKept.gone (slot : Nat) (c : CallRec) (b : List Byte) (s : State) :
    ClockKept s (gone slot c b s).2 := by
  unfold Machine.gone
  split <;> exact ⟨rfl, rfl⟩

theorem ClockKept.cancel (slot : Nat) (c : CallRec) (b : List Byte) (s : State) :
    ClockKept s (cancel slot c b s).2 := by
  unfold Machine.cancel
  split <;> exact ⟨rfl, rfl⟩

theorem ClockKept.changeDelay (slot : Nat) (c : CallRec) (b : List Byte) (s : State) :
    ClockKept s (changeDelay slot c b s).2 := by
  have hput : ∀ r e, ClockKept s (putDueChecked slot r e s) := fun r e => by
    rw [putDueChecked_eq]
    split <;> exact ⟨rfl, rfl⟩
  unfold Machine.changeDelay
  simp only
  split
  · exact .refl s
  · exact .refl s
  · split
    · exact .refl s
    · exact hput ..

theorem ClockKept.putPlatformOf (slot : Nat) (c : CallRec) (p : Nat) (provisional : Bool) (s : State) :
    ClockKept s (putPlatformOf slot c p provisional s) := by
  unfold Machine.putPlatformOf
  simp only
  split <;> split <;> exact ⟨rfl, rfl⟩

theorem ClockKept.changePlatform (slot : Nat) (c : CallRec) (b : List Byte) (s : State) :
    ClockKept s (changePlatform slot c b s).2 := by
  unfold Machine.changePlatform
  simp only
  split
  · exact .refl s
  · split
    · exact .putPlatformOf ..
    · exact .putPlatformOf ..
    · exact .refl s

/-- UPDATE_CALL keeps what its update keeps. -/
theorem ClockKept.updateCall {act : Nat → CallRec → List Byte → State → Status × State}
    (h : ∀ slot c b s, ClockKept s (act slot c b s).2) (b : List Byte) (s : State) :
    ClockKept s (updateCall act b s).state := by
  unfold Machine.updateCall
  split
  · exact .refl s
  · split
    · exact .refl s
    · split
      · exact .refl s
      · exact h ..

end Sys2Proof.Machine
end

section
/-! SUPPORT. The rows of the table that keep the clock and the part state: one lemma for each row or operation that is
not kept by the lemmas of the shared operations alone. -/

namespace Sys2Proof.Machine

/-! ### Zones (R112 to R115) -/

theorem ClockKept.takeZoneEntry (z : Nat) (b : List Byte) (s : State) : ClockKept s (takeZoneEntry z b s).2 := by
  unfold Machine.takeZoneEntry
  split <;> exact ⟨rfl, rfl⟩

theorem ClockKept.passAfterLoad {r : Reply} {s : State} (h : ClockKept s r.state) :
    ClockKept s (passAfterLoad r).state := by
  unfold Machine.passAfterLoad
  split
  · exact h
  · exact h.trans (Inner.causePass _).clockKept

/-! ### The Announcement Pool's commands (R90 to R103) -/

theorem ClockKept.createFor (a : Ask) (s : State) : ClockKept s (createFor a s).state := by
  unfold Machine.createFor
  split
  · next h => exact (Inner.createRecord h).clockKept
  · exact .refl s

theorem ClockKept.answerHeld {act : Nat → State → State} (h : ∀ id s, ClockKept s (act id s)) (b : List Byte)
    (s : State) : ClockKept s (answerHeld act b s).state := by
  unfold Machine.answerHeld
  split
  · exact .refl s
  · split
    · exact h ..
    · exact .refl s
    · exact .refl s

theorem ClockKept.execAnnounce {s t : State} (h : execAnnounce s = .next t) : ClockKept s t := by
  cases h
  refine .runCommand (fun b s => ?_) s
  split
  · exact .refl s
  · split
    · exact .refl s
    · exact .createFor ..
  · split
    · exact .refl s
    · exact .createFor ..

theorem ClockKept.execLivePageBegin {s t : State} (h : execLivePageBegin s = .next t) : ClockKept s t := by
  cases h
  refine .runCommand (fun b s => ?_) s
  split
  · exact .refl s
  · split
    · exact .refl s
    · split
      · exact .refl s
      · simp only
        split
        · next hc => exact ((ClockKept.drawFree s).trans (Inner.createRecord hc).clockKept).trans ⟨rfl, rfl⟩
        · exact .refl s

theorem ClockKept.execLivePageEnd {s t : State} (h : execLivePageEnd s = .next t) : ClockKept s t := by
  cases h
  refine .runCommand (fun b s => ?_) s
  split
  · exact .refl s
  · split
    · exact .refl s
    · simp only [reply]
      split
      · exact (Inner.completeRecord ..).clockKept
      · exact (Inner.endRecord ..).clockKept

theorem ClockKept.execEmergencyBegin {s t : State} (h : execEmergencyBegin s = .next t) : ClockKept s t := by
  cases h
  refine .runCommand (fun b s => ?_) s
  split
  · exact .refl s
  · split
    · exact .refl s
    · simp only
      split
      · next hc =>
        exact ((Inner.makeRoom s).clockKept.trans (.drawFree _)).trans (Inner.createRecord hc).clockKept
      · exact .count ..

theorem ClockKept.execEmergencyEnd {s t : State} (h : execEmergencyEnd s = .next t) : ClockKept s t := by
  cases h
  refine .runCommand (fun b s => ?_) s
  split
  · exact (Inner.endEmergencies ..).clockKept
  · split
    · exact .refl s
    · split
      · exact (Inner.endEmergencies ..).clockKept
      · exact .refl s

theorem ClockKept.execWithdraw {s t : State} (h : execWithdraw s = .next t) : ClockKept s t := by
  cases h
  refine .runCommand (fun b s => ?_) s
  split
  · exact .refl s
  · exact (Inner.endAnn ..).clockKept

/-! ### Commands that read -/

theorem ClockKept.execReadCall {s t : State} (h : execReadCall s = .next t) : ClockKept s t := by
  cases h
  refine .runCommand (fun b s => ?_) s
  split
  · split
    · exact .refl s
    · split <;> exact .refl s
  · split
    · exact .refl s
    · split <;> exact .refl s
  · exact .refl s

/-! ### Phrase memory (R145 to R151) -/

theorem ClockKept.execWritePhrase {s t : State} (h : execWritePhrase s = .next t) : ClockKept s t := by
  unfold Machine.execWritePhrase at h
  split at h
  · cases h; exact .refl s
  · split at h
    · cases h; exact .finish ..
    · split at h
      · cases h; exact .finish ..
      · cases h
        unfold beginWrite
        simp only
        split
        · exact .finish ..
        · split
          · exact .finish ..
          · split
            · exact .finish ..
            · exact .onPmc ..

theorem ClockKept.finishHead (st : Status) (s : State) : ClockKept s (finishHead st s) := by
  unfold Machine.finishHead
  split
  · exact .finish ..
  · exact .refl s

theorem ClockKept.execPhraseWriteStart {s t : State} (h : execPhraseWriteStart s = .next t) : ClockKept s t := by
  unfold Machine.execPhraseWriteStart at h
  split at h
  · split at h
    · split at h
      · cases h; exact (ClockKept.onPmc ..).trans (.finishHead ..)
      · cases h; exact .onPmc ..
    · cases h; exact .refl s
  · cases h; exact .refl s

theorem ClockKept.execPhraseWriteComplete {s t : State} (h : execPhraseWriteComplete s = .next t) :
    ClockKept s t := by
  unfold Machine.execPhraseWriteComplete at h
  split at h
  · split at h
    · cases h; exact (ClockKept.onPmc ..).trans (.finishHead ..)
    · cases h; exact .refl s
  · cases h; exact .refl s

theorem ClockKept.grantFetch (s : State) : ClockKept s (grantFetch s) := by
  unfold Machine.grantFetch
  split
  · exact ⟨rfl, rfl⟩
  · split <;> exact ⟨rfl, rfl⟩

/-! ### Channels (R143, R144, R147) -/

theorem ClockKept.execChannelEnd {c : Nat} {first : Bool} {s t : State} (h : execChannelEnd c first s = .next t) :
    ClockKept s t := by
  unfold Machine.execChannelEnd at h
  simp only at h
  split at h
  · split at h
    · cases h; exact (Inner.updChannel ..).clockKept
    · cases h; exact (Inner.endChannel ..).clockKept
  · cases h; exact .refl s

theorem ClockKept.execUnderrunAbort {c : Nat} {s t : State} (h : execUnderrunAbort c s = .next t) :
    ClockKept s t := by
  unfold Machine.execUnderrunAbort at h
  simp only at h
  split at h
  · split at h
    · cases h; exact (Inner.endAnn ..).clockKept
    · cases h; exact .refl s
  · cases h; exact .refl s

/-! ### Events and changes of T -/

theorem ClockKept.execRetention {slot : Nat} {s t : State} (h : execRetention slot s = .next t) : ClockKept s t := by
  unfold Machine.execRetention at h
  split at h
  · split at h
    · cases h; exact (Inner.removeCall ..).clockKept
    · cases h; exact .onCrg ..
  · cases h; exact .refl s

theorem ClockKept.takeEventOf (kind : TriggerEvent → Bool) (slot : Nat) (s : State) :
    ClockKept s (takeEventOf kind slot s) := by
  unfold Machine.takeEventOf
  split
  · split
    · exact (ClockKept.onTru ..).trans (Inner.takeTriggerEvent ..).clockKept
    · exact .refl s
  · exact .refl s

theorem ClockKept.takePoolEvent {act : CallEvent PoolEvent → State → State} (h : ∀ e s, ClockKept s (act e s))
    (kind : PoolEvent → Bool) (slot : Nat) (s : State) : ClockKept s (takePoolEvent kind act slot s) := by
  unfold Machine.takePoolEvent
  split
  · split
    · exact (ClockKept.onApl ..).trans (h ..)
    · exact .refl s
  · exact .refl s

/-! ### The zone link and the trunk -/

theorem ClockKept.setLink (z : Nat) (st : LinkState) (s : State) : ClockKept s (setLink z st s) := by
  unfold Machine.setLink
  simp only
  split
  · exact .onZli ..
  · exact (ClockKept.onZli ..).trans (Inner.judgeAvailability ..).clockKept

theorem ClockKept.followSensor (z : Nat) (a : Ambient) (line : LinkState) (s : State) :
    ClockKept s (followSensor z a line s) := by
  unfold Machine.followSensor
  simp only
  split
  · exact .refl s
  · exact (ClockKept.onZli ..).trans (.raise ..)

theorem ClockKept.takeReport (z : Nat) (line : LinkState) (a : Ambient) (first : Bool) (s : State) :
    ClockKept s (takeReport z line a first s) := by
  have taken : ClockKept s (((Machine.count (.reportsReceived z) s).updLink z fun l =>
      { l with age := 0, lastLine := some line, lastAmbient := some a }).onLmu
      fun l => { l with readings := l.readings ++ [(z, a)] }) := ⟨rfl, rfl⟩
  unfold Machine.takeReport
  simp only
  split
  · exact taken.trans ((ClockKept.setLink ..).trans (.followSensor ..))
  · exact taken.trans ((ClockKept.followSensor ..).trans (.setLink ..))

theorem ClockKept.execZoneReport {report : ZoneReport} {s t : State} (h : execZoneReport report s = .next t) :
    ClockKept s t := by
  unfold Machine.execZoneReport at h
  split at h
  · cases h; exact .refl s
  · split at h
    · split at h
      · cases h; exact .takeReport ..
      · cases h; exact .count ..
    · cases h; exact .count ..

theorem ClockKept.execAmbientReading {z : Nat} {s t : State} (h : execAmbientReading z s = .next t) :
    ClockKept s t := by
  unfold Machine.execAmbientReading at h
  split at h
  · cases h
    unfold applyAmbient
    split
    · exact ⟨rfl, rfl⟩
    · split <;> exact ⟨rfl, rfl⟩
  · cases h; exact .refl s

theorem ClockKept.execStreamLost {n : Nat} {s t : State} (h : execStreamLost n s = .next t) : ClockKept s t := by
  unfold Machine.execStreamLost at h
  simp only at h
  split at h
  · split at h
    · cases h; exact (ClockKept.onTki ..).trans (Inner.endAnn ..).clockKept
    · cases h; exact .onTki ..
  · cases h; exact .refl s

theorem ClockKept.sendUpstream (s : State) : ClockKept s (sendUpstream s) := by
  have hm : ∀ message k u, ClockKept u (sendManagement message k u) := fun _ _ _ => ⟨rfl, rfl⟩
  unfold Machine.sendUpstream
  split
  · exact ⟨rfl, rfl⟩
  · split
    · exact ⟨rfl, rfl⟩
    · split
      · unfold sendResponse
        simp only
        split <;> exact (hm ..).trans (.onTki ..)
      · split
        · exact (ClockKept.onNotices ..).trans (hm ..)
        · exact .refl s

theorem ClockKept.appendCell (n seq : Nat) (samples : List Sample) (s : State) :
    ClockKept s (appendCell n seq samples s) := by
  unfold Machine.appendCell
  split <;> exact ⟨rfl, rfl⟩

theorem ClockKept.takeAudio (n seq : Nat) (samples : List Sample) (s : State) :
    ClockKept s (takeAudio n seq samples s) := by
  have taken : ClockKept s (Machine.count (.cells n) (s.updStream n fun b => { b with age := 0 })) := ⟨rfl, rfl⟩
  unfold Machine.takeAudio
  simp only
  split
  · exact taken.trans (.appendCell ..)
  · split
    · exact taken.trans (.appendCell ..)
    · split
      · refine taken.trans (ClockKept.trans ?_ (.appendCell ..))
        exact ⟨rfl, rfl⟩
      · exact taken.trans (.count ..)

theorem ClockKept.discardPartial (s : State) : ClockKept s (discardPartial s) := by
  unfold Machine.discardPartial
  split <;> exact ⟨rfl, rfl⟩

theorem ClockKept.offerMessage (m : Message) (s : State) : ClockKept s (offerMessage m s) := by
  unfold Machine.offerMessage
  split
  · simp only
    split <;> exact ⟨rfl, rfl⟩
  · exact (ClockKept.count ..).trans (.raise ..)

theorem ClockKept.completeMessage (broadcast : Bool) (data : List Byte) (s : State) :
    ClockKept s (completeMessage broadcast data s) := by
  unfold Machine.completeMessage
  simp only
  split
  · split
    · exact .offerMessage ..
    · exact .count ..
  · exact .count ..

theorem ClockKept.takeManagement (segment seq : Nat) (broadcast : Bool) (payload : List Byte) (s : State) :
    ClockKept s (takeManagement segment seq broadcast payload s) := by
  unfold Machine.takeManagement
  split
  · exact (ClockKept.discardPartial s).trans (.completeMessage ..)
  · exact (ClockKept.discardPartial s).trans (.onTki ..)
  · split
    · exact .count ..
    · split
      · split
        · exact (ClockKept.onTki ..).trans (.completeMessage ..)
        · exact .onTki ..
      · exact .discardPartial s

/-! ### Single rows -/

theorem ClockKept.execFreeCall {s t : State} (h : execFreeCall s = .next t) : ClockKept s t := by
  cases h
  refine .runCommand (fun b s => ?_) s
  split
  · exact .refl s
  · split
    · exact .refl s
    · split
      · exact .refl s
      · split
        · exact .refl s
        · exact (Inner.removeCall ..).clockKept

theorem ClockKept.execMonitor {s t : State} (h : execMonitor s = .next t) : ClockKept s t := by
  cases h
  refine .runCommand (fun b s => ?_) s
  split
  · exact ⟨rfl, rfl⟩
  · split
    · exact .refl s
    · exact ⟨rfl, rfl⟩

theorem ClockKept.readRange (first count hi : Nat) (body : List Byte) (s : State) :
    ClockKept s (readRange first count hi body s).state := by
  rw [readRange_state]
  exact .refl s

theorem ClockKept.execReassemblyTimeout {s t : State} (h : execReassemblyTimeout s = .next t) : ClockKept s t := by
  unfold Machine.execReassemblyTimeout at h
  split at h
  · split at h
    · cases h; exact .discardPartial s
    · cases h; exact .refl s
  · cases h; exact .refl s

theorem ClockKept.execCallRegisterTimeChange {s t : State} (h : execCallRegisterTimeChange s = .next t) :
    ClockKept s t := by
  unfold Machine.execCallRegisterTimeChange at h
  split at h
  · cases h; exact (ClockKept.onCrg ..).trans (Inner.dueChecks ..).clockKept
  · cases h; exact .refl s

theorem ClockKept.execTriggerEvaluation {s t : State} (h : execTriggerEvaluation s = .next t) : ClockKept s t := by
  unfold Machine.execTriggerEvaluation at h
  split at h
  · cases h
    exact (ClockKept.onTru ..).trans ((Inner.cleanRetry ..).trans (Inner.evaluateAll ..)).clockKept
  · cases h; exact .refl s

theorem ClockKept.execCompleted {s t : State} (h : execCompleted s = .next t) : ClockKept s t := by
  unfold Machine.execCompleted at h
  split at h
  · cases h; exact (ClockKept.onTru ..).trans (Inner.takeCompletion ..).clockKept
  · cases h; exact .refl s

theorem ClockKept.execPoolJudgement {s t : State} (h : execPoolJudgement s = .next t) : ClockKept s t := by
  unfold Machine.execPoolJudgement at h
  split at h
  · cases h; exact (ClockKept.onApl ..).trans (Inner.leaveQueuedAll ..).clockKept
  · cases h; exact .refl s

theorem ClockKept.execHoldTimeout {id : Nat} {s t : State} (h : execHoldTimeout id s = .next t) : ClockKept s t := by
  unfold Machine.execHoldTimeout at h
  split at h
  · cases h; exact (ClockKept.onApl ..).trans (Inner.timeOutHold ..).clockKept
  · cases h; exact .refl s

theorem ClockKept.execExpiry {id : Nat} {s t : State} (h : execExpiry id s = .next t) : ClockKept s t := by
  unfold Machine.execExpiry at h
  split at h
  · cases h; exact (ClockKept.onApl ..).trans (Inner.expireAnn ..).clockKept
  · cases h; exact .refl s

theorem ClockKept.execFetchGrant {s t : State} (h : execFetchGrant s = .next t) : ClockKept s t := by
  unfold Machine.execFetchGrant at h
  split at h
  · cases h; exact .grantFetch s
  · cases h; exact .refl s

theorem ClockKept.execBurstCompletion {s t : State} (h : execBurstCompletion s = .next t) : ClockKept s t := by
  unfold Machine.execBurstCompletion at h
  split at h
  · cases h; exact ⟨rfl, rfl⟩
  · cases h; exact .refl s

theorem ClockKept.execGapEnd {c : Nat} {s t : State} (h : execGapEnd c s = .next t) : ClockKept s t := by
  unfold Machine.execGapEnd at h
  simp only at h
  split at h
  · cases h; exact (Inner.updChannel ..).clockKept
  · cases h; exact .refl s

theorem ClockKept.execBlock {s t : State} (h : execBlock s = .next t) : ClockKept s t := by
  unfold Machine.execBlock at h
  split at h
  · cases h; exact .refl s
  · cases h; exact ⟨rfl, rfl⟩

theorem ClockKept.execLinkLost {z : Nat} {s t : State} (h : execLinkLost z s = .next t) : ClockKept s t := by
  unfold Machine.execLinkLost at h
  split at h
  · cases h; exact .setLink ..
  · cases h; exact .refl s

end Sys2Proof.Machine
end

section
/-! SUPPORT. The rows that write the clock: what each leaves of it and of the part state. -/

namespace Sys2Proof.Machine

/-! ### Updates of the clock pass through notices, counters and changes of T -/

theorem count_onSck (c : Counter) (f : Clock → Clock) (s : State) : count c (s.onSck f) = (count c s).onSck f := rfl

theorem raise_onSck (n : Notice) (f : Clock → Clock) (s : State) : raise n (s.onSck f) = (raise n s).onSck f := by
  by_cases hq : noticeEnabled s.notices.mask n = true
  · by_cases hd : (offerNotice s.notices.fifo n).2 = true <;> simp only [raise, onSck_notices, hq, hd, if_true] <;> rfl
  · rw [raise, if_neg (by exact hq), raise, if_neg hq]

@[simp] theorem handOn_sck (ch : TimeChange) (s : State) : (handOn ch s).sck = s.sck := rfl

@[simp] theorem raise_mgi (n : Notice) (s : State) : (raise n s).mgi = s.mgi := (Inner.raise n s).mgi

/-- The change of T from the clock's to another value, of the kind that its direction gives (R4). -/
def changeTo (m : Nat) (s : State) : TimeChange := ⟨if s.sck.time < m then .forward else .backward, s.sck.time, m⟩

/-- T set to a value: the clock holds it, and a change is handed on (R4). -/
theorem setTime_eq (m : Nat) (s : State) : setTime m s =
    (if m = s.sck.time then s else handOn (changeTo m s) s).onSck fun c => { c with time := m } := by
  unfold setTime
  split
  · next h => subst h; rfl
  · rfl

/-! ### The rows that write the clock -/

theorem resetBlocks_sck (straps : Byte) (cause : ResetCause) (keep : Bool) (s : State) :
    (resetBlocks straps cause keep s).sck = Clock.reset := rfl

theorem resetBlocks_partState (straps : Byte) (cause : ResetCause) (keep : Bool) (s : State) :
    (resetBlocks straps cause keep s).mgi.partState = .selfCheck := rfl

theorem partReset_eq (straps : Byte) (option : ResetOption) (s : State) :
    ∃ cause keep, partReset straps option s = resetBlocks straps cause keep s := by
  cases option <;> exact ⟨_, _, rfl⟩

theorem endSelfCheck_sck (r : SelfCheckResult) (s : State) :
    (endSelfCheck r s).sck = { s.sck with phase := 0 } := by
  unfold endSelfCheck
  simp only [raise_sck]
  rfl

theorem reportOf_passed (cause : ResetCause) (r : SelfCheckResult) : (reportOf cause r).passed = decide (r = .pass) := by
  cases r <;> rfl

theorem endSelfCheck_partState (r : SelfCheckResult) (s : State) :
    (endSelfCheck r s).mgi.partState = if r = .pass then .standby else .failed := by
  unfold endSelfCheck
  simp only [raise_mgi, onSck_mgi, onMgi_mgi, reportOf_passed, decide_eq_true_eq]

/-- The clock after freewheel has been entered, if a second has called for it (R8). -/
theorem enterFreewheel_sck (s : State) : (enterFreewheel s).sck =
    { s.sck with freewheel := s.sck.freewheel || s.sck.entering.isSome, entering := none } := by
  cases h : s.sck.entering with
  | none =>
    rw [enterFreewheel_none h]
    generalize s.sck = c at h
    cases c
    simp_all
  | some e => rw [enterFreewheel_some h]; simp

theorem enterFreewheel_mgi (s : State) : (enterFreewheel s).mgi = s.mgi := by
  obtain ⟨_, _, _, h⟩ := enterFreewheel_shape s
  rw [h]

/-- Freewheel entered once is entered. -/
theorem enterFreewheel_idem (s : State) : enterFreewheel (enterFreewheel s) = enterFreewheel s :=
  enterFreewheel_none (by rw [enterFreewheel_sck])

/-- One sample period moves the second phase, and nothing else of the clock or the interpreter (R2). -/
theorem runSample_sck (s : State) : (runSample s).sck = { s.sck with phase := min (s.sck.phase + 1) 15999 } ∧
    (runSample s).mgi = s.mgi := by
  have hin := (Inner.channelOutputs (List.range 6) (deliverStreams s)).trans
    (Inner.mixZones ((List.range 6).map fun n => (s.stream n).out)
      (channelOutputs (List.range 6) (deliverStreams s)).1 (List.range 32) _)
  have hsend : ∀ outputs u, (sendOutputs outputs u).sck = u.sck ∧ (sendOutputs outputs u).mgi = u.mgi := by
    intro outputs u
    unfold sendOutputs gatherMonitor
    split
    · exact ⟨rfl, rfl⟩
    · simp only
      split
      · exact ⟨rfl, rfl⟩
      · unfold handMonitor
        split <;> exact ⟨rfl, rfl⟩
  unfold runSample
  simp only
  exact ⟨(hsend ..).1.trans hin.sck, (hsend ..).2.trans hin.mgi⟩

end Sys2Proof.Machine
end

section
/-! SUPPORT. Time marks, OPEN_DAY and CLOSE_DAY: each as one equation over the blocks it writes. -/

namespace Sys2Proof.Machine

/-! ### Time marks (R5, R6, R8) -/

/-- What a mark of an instant reports of a step of 3 s or more (R6). -/
def noteStep (m : Nat) (s u : State) : State :=
  if s.sck.time + 3 ≤ m ∨ m + 3 ≤ s.sck.time then
    count .clockSteps (raise (.clockStep s.sck.dayNumber s.sck.time m) u)
  else u

/-- What a mark of an instant reports of the end of freewheel (R8). -/
def noteLeave (m : Nat) (s u : State) : State :=
  if s.sck.freewheel then raise (.freewheel false m s.sck.markAge s.sck.dayNumber) u else u

/-- What a mark of an instant hands on (R4). -/
def noteChange (m : Nat) (s : State) : State := if m = s.sck.time then s else handOn (changeTo m s) s

/-- The clock that a mark of a day and an instant leaves (R6, R8). -/
def Clock.marked (day m : Nat) (c : Clock) : Clock :=
  { c with time := m, phase := 0, markAge := 0, markDay := some day, freewheel := false }

theorem noteStep_onSck (m : Nat) (s u : State) (f : Clock → Clock) :
    noteStep m s (u.onSck f) = (noteStep m s u).onSck f := by
  unfold noteStep
  split
  · rw [raise_onSck, count_onSck]
  · rfl

/-- What a mark reports of a step changes the notices and the counters, and nothing else. -/
theorem noteStep_shape (m : Nat) (s u : State) : ∃ f c, noteStep m s u = { u with notices := f, stats := c } := by
  unfold noteStep
  split
  · obtain ⟨f, c, h⟩ := raise_shape (.clockStep s.sck.dayNumber s.sck.time m) u
    rw [h]
    exact ⟨f, _, rfl⟩
  · exact ⟨_, _, rfl⟩

/-- What a mark reports of freewheel changes the notices and the counters, and nothing else. -/
theorem noteLeave_shape (m : Nat) (s u : State) : ∃ f c, noteLeave m s u = { u with notices := f, stats := c } := by
  unfold noteLeave
  split
  · exact raise_shape ..
  · exact ⟨_, _, rfl⟩

theorem noteChange_sck (m : Nat) (s : State) : (noteChange m s).sck = s.sck := by
  unfold noteChange
  split <;> rfl

theorem noteChange_mgi (m : Nat) (s : State) : (noteChange m s).mgi = s.mgi := by
  unfold noteChange
  split <;> rfl

theorem noteStep_sck (m : Nat) (s u : State) : (noteStep m s u).sck = u.sck := by
  obtain ⟨_, _, h⟩ := noteStep_shape m s u
  rw [h]

/-- A mark taken with no freewheel to be entered: the change handed on, the notices raised, and the clock's fields. -/
theorem applyMark_eq {s : State} (h : s.sck.entering = none) (day m : Nat) : applyMark day m s =
    count .marksTaken ((noteLeave m s (noteStep m s (noteChange m s))).onSck fun _ => s.sck.marked day m) := by
  have hsck : (noteStep m s (noteChange m s)).sck = s.sck := by rw [noteStep_sck, noteChange_sck]
  unfold applyMark
  simp only [enterFreewheel_none h, setTime_eq]
  change count _ (State.onSck _ (if s.sck.freewheel = true then
    raise _ (State.onSck _ (noteStep m s ((noteChange m s).onSck fun c => { c with time := m })))
    else noteStep m s ((noteChange m s).onSck fun c => { c with time := m }))) = _
  rw [noteStep_onSck]
  generalize noteStep m s (noteChange m s) = u at hsck ⊢
  unfold noteLeave Clock.marked
  split
  · rw [raise_onSck, raise_onSck]
    simp only [State.onSck, raise_sck, hsck]
  · next hf => simp only [State.onSck, hsck, Bool.eq_false_iff.2 hf]

/-- A mark is taken as if freewheel, where a second has called for it, had been entered before (R8, log 13). -/
theorem applyMark_enterFreewheel (day m : Nat) (s : State) :
    applyMark day m (enterFreewheel s) = applyMark day m s := by
  unfold applyMark
  rw [enterFreewheel_idem]

theorem applyMark_sck (day m : Nat) (s : State) :
    (applyMark day m s).sck = { s.sck.marked day m with entering := none } := by
  rw [← applyMark_enterFreewheel, applyMark_eq (by rw [enterFreewheel_sck]), count_sck, onSck_sck, enterFreewheel_sck]
  rfl

/-- A mark leaves every block but the clock, the notices and the counters as handing on its change of T does. -/
theorem applyMark_shape (day m : Nat) (s : State) :
    ∃ k f c, applyMark day m s = { noteChange m s with sck := k, notices := f, stats := c } := by
  have unentered : ∀ u : State, u.sck.entering = none →
      ∃ k f c, applyMark day m u = { noteChange m u with sck := k, notices := f, stats := c } := by
    intro u hu
    obtain ⟨f₁, c₁, h₁⟩ := noteStep_shape m u (noteChange m u)
    obtain ⟨f₂, c₂, h₂⟩ := noteLeave_shape m u (noteStep m u (noteChange m u))
    rw [applyMark_eq hu, h₂, h₁]
    exact ⟨_, f₂, _, rfl⟩
  obtain ⟨k, f, c, h⟩ := unentered (enterFreewheel s) (by rw [enterFreewheel_sck])
  obtain ⟨flag, f₀, c₀, he⟩ := enterFreewheel_shape s
  rw [← applyMark_enterFreewheel, h, he]
  refine ⟨k, f, c, ?_⟩
  unfold noteChange
  by_cases hm : m = s.sck.time
  · simp only [hm, if_true]
  · simp only [hm, if_false]
    rfl

/-! ### Opening and closing the day (R9, R10) -/

/-- The clock that OPEN_DAY leaves (R9). -/
def Clock.opening (day hour t : Nat) (c : Clock) : Clock :=
  { c with day := .opened, dayNumber := some day, originHour := hour, overrun := false, time := t }

/-- OPEN_DAY writes the clock and the part state, and hands on a change of T (R9). -/
theorem openDay_eq (day hour t : Nat) (s : State) : openDay day hour t s =
    ((noteChange t s).onSck (Clock.opening day hour t)).onMgi fun g => { g with partState := .running } := by
  unfold openDay noteChange
  change State.onMgi _ (setTime t (s.onSck _)) = _
  by_cases hm : t = s.sck.time
  · rw [setTime_eq, if_pos (by exact hm), if_pos hm]
    rfl
  · rw [setTime_eq, if_neg (by exact hm), if_neg hm]
    rfl

theorem openDay_sck (day hour t : Nat) (s : State) : (openDay day hour t s).sck = s.sck.opening day hour t := by
  rw [openDay_eq, onMgi_sck, onSck_sck, noteChange_sck]

theorem openDay_mgi (day hour t : Nat) (s : State) :
    (openDay day hour t s).mgi = { s.mgi with partState := .running } := by
  rw [openDay_eq, onMgi_mgi, onSck_mgi, noteChange_mgi]

/-- CLOSE_DAY before the pool's records of calls end (R10, R40, R64). -/
def closedDay (s : State) : State :=
  { s with
    sck := { s.sck with day := .noDay, dayNumber := none }
    mgi := { s.mgi with partState := .standby }
    crg := { s.crg with calls := [], retentionDue := [] }
    tru := { s.tru with retry := [], events := [], completions := [] }
    apl := { s.apl with events := [] } }

theorem closeDay_eq (s : State) : closeDay s =
    endRecords .withdrawn .dayClosed (s.annIds fun r => r.ask.call.isSome) (closedDay s) := rfl

/-- The pool's records end within the inner frame (R109). -/
theorem closeDay_inner (s : State) : Inner (closedDay s) (closeDay s) := Inner.endRecords ..

end Sys2Proof.Machine
end

section
/-! SUPPORT. What every row of the table does to the clock and the part state, said once. -/

namespace Sys2Proof.Machine

/-! ### Every step -/

/-- What a row of the table does to the clock and the part state, one case for each way in which it can write either. -/
inductive ClockChange : Instr → State → State → Prop
  /-- The step leaves both as they were. -/
  | kept {i : Instr} {s t : State} (h : ClockKept s t) : ClockChange i s t
  /-- A reset (R11, R186, R188). -/
  | reset {i : Instr} {s t : State} (straps : Byte) (hi : i = .powerOnReset straps ∨ i = .resetAfterResponse straps)
      (hsck : t.sck = Clock.reset) (hpart : t.mgi.partState = .selfCheck) : ClockChange i s t
  /-- The end of self-check (R187). -/
  | checked {s : State} (r : SelfCheckResult) (hpart : s.mgi.partState = .selfCheck) :
      ClockChange (.selfCheckEnd r) s (endSelfCheck r s)
  /-- A second of the local timebase (R3). -/
  | second {s : State} : ClockChange .secondElapses s (elapseSecond s)
  /-- The flag of R8 set (log 13). -/
  | freewheel {s : State} : ClockChange .freewheelEntered s (enterFreewheel s)
  /-- A sample period, which moves the second phase (R2, log 14). -/
  | sample {s : State} : ClockChange .samplePeriod s (runSample s)
  /-- A time mark in range, taken (R5, R6). -/
  | mark {s : State} (cell : List Byte) (day m : Nat) (hday : 1 ≤ day ∧ day ≤ 65535) (hm : m ≤ Config.maxTime) :
      ClockChange (.downstreamCell cell) s (applyMark day m s)
  /-- OPEN_DAY taken in STANDBY with its operands in range (R9). -/
  | opened {s : State} (c : Message) (day hour start : Nat) (hpart : s.mgi.partState = .standby)
      (hday : 1 ≤ day ∧ day ≤ 65535) (hhour : hour ≤ 23) (hstart : start ≤ Config.maxTime) :
      ClockChange .openDay s (finish c .ok [] (openDay day hour start s))
  /-- CLOSE_DAY taken in RUNNING (R10). -/
  | closed {s : State} (c : Message) (hpart : s.mgi.partState = .running) :
      ClockChange .closeDay s (finish c .ok [] (closeDay s))

theorem byteAt_le (b : List Byte) (i : Nat) : byteAt b i ≤ 255 := by
  have := (b.getD i 0).isLt
  unfold byteAt
  omega

theorem be16_le (b : List Byte) (i : Nat) : be16 b i ≤ 65535 := by
  have h0 := byteAt_le b i
  have h1 := byteAt_le b (i + 1)
  unfold be16
  omega

/-- A cell writes the clock only as a mark in range, and the part state never (R5, R177). -/
theorem takeCell_clockChange (cell : List Byte) (s : State) : ClockChange (.downstreamCell cell) s (takeCell cell s) := by
  unfold takeCell
  split
  · exact .kept (.count ..)
  · split
    · exact .kept (.count ..)
    · split
      · exact .kept (.refl s)
      · simp only
        split
        · split
          · exact .kept (.takeAudio ..)
          · exact .kept (.count ..)
        · split
          · exact .kept (.takeManagement ..)
          · exact .kept (.count ..)
        · unfold takeMark
          split
          · exact .kept (.count ..)
          · next hr =>
            split
            · exact .kept (.count ..)
            · exact .mark cell _ _ ⟨by omega, be16_le ..⟩ (by omega)
        · exact .kept (.count ..)

/-- A row that is executed is not in SELF_CHECK. -/
theorem headFor_notSelfCheck {row : Row} {s : State} {m : Message} (h : headFor row s = some m) :
    s.mgi.partState ≠ .selfCheck := by
  obtain ⟨_, hc, _, _⟩ := headFor_head h
  intro he
  simp [canExecute, he] at hc

theorem openDay_clockChange {s t : State} (h : execOpenDay s = .next t) : ClockChange .openDay s t := by
  cases h
  rcases runCommand_cases { code := 0x10, fits := fixed 7 } _ s with
    ⟨_, e⟩ | ⟨m, hm, ⟨_, _, e⟩ | ⟨_, _, e⟩ | ⟨hf, _, e⟩⟩ <;> rw [e]
  · exact .kept (.refl s)
  · exact .kept (.finish ..)
  · exact .kept (.finish ..)
  · split
    · exact .kept (.finish ..)
    · next hrun =>
      split
      · exact .kept (.finish ..)
      · next hv =>
        refine .opened m _ _ _ ?_ ⟨by omega, be16_le ..⟩ (by omega) (by omega)
        have hself := headFor_notSelfCheck hm
        cases hp : s.mgi.partState <;> simp_all

theorem closeDay_clockChange {s t : State} (h : execCloseDay s = .next t) : ClockChange .closeDay s t := by
  cases h
  rcases runCommand_cases { code := 0x11, fits := fixed 0 } _ s with
    ⟨_, e⟩ | ⟨m, hm, ⟨_, _, e⟩ | ⟨_, _, e⟩ | ⟨hf, _, e⟩⟩ <;> rw [e]
  · exact .kept (.refl s)
  · exact .kept (.finish ..)
  · exact .kept (.finish ..)
  · split
    · next hrun => exact .closed m hrun
    · exact .kept (.finish ..)

/-- The rows that can write the clock or the part state. -/
def writesClock : Instr → Bool
  | .powerOnReset _ | .resetAfterResponse _ | .selfCheckEnd _ | .secondElapses | .freewheelEntered | .samplePeriod
  | .downstreamCell _ | .openDay | .closeDay => true
  | _ => false

/-- Every command but OPEN_DAY and CLOSE_DAY keeps the clock and the part state. -/
theorem ClockKept.ofCommand {i : Instr} {s t : State} (hc : isCommand i = true) (hw : writesClock i = false)
    (h : exec i s = .next t) : ClockKept s t := by
  cases i with
  | unknownCommandCode =>
    simp only [exec, execUnknownCommandCode] at h
    split at h
    · split at h
      · cases h; exact .finish ..
      · cases h; exact .refl s
    · cases h; exact .refl s
  | readStatus => cases h; exact .runCommand (fun _ s => .refl s) s
  | readStats => cases h; exact .runCommand (fun b s => by simp only [reply]; split <;> exact ⟨rfl, rfl⟩) s
  | setNoticeMask => cases h; exact .runCommand (fun _ _ => ⟨rfl, rfl⟩) s
  | resetPartFull => cases h; exact .runCommand (fun _ _ => ⟨rfl, rfl⟩) s
  | resetPartKeepPhrases => cases h; exact .runCommand (fun _ _ => ⟨rfl, rfl⟩) s
  | resetPartBadOption => cases h; exact .runCommand (fun _ s => .refl s) s
  | openDay => cases hw
  | closeDay => cases hw
  | loadCalls =>
    cases h
    refine .runCommand (fun b s => ?_) s
    split
    · exact .refl s
    · exact .loadCommand ClockKept.takeCallEntry ..
  | updateCallArrived => cases h; exact .runCommand (ClockKept.updateCall ClockKept.arrive) s
  | updateCallDeparting => cases h; exact .runCommand (ClockKept.updateCall ClockKept.depart) s
  | updateCallGone => cases h; exact .runCommand (ClockKept.updateCall ClockKept.gone) s
  | updateCallCancel => cases h; exact .runCommand (ClockKept.updateCall ClockKept.cancel) s
  | updateCallDelay => cases h; exact .runCommand (ClockKept.updateCall ClockKept.changeDelay) s
  | updateCallPlatform => cases h; exact .runCommand (ClockKept.updateCall ClockKept.changePlatform) s
  | updateCallBadUpdate => cases h; exact .runCommand (ClockKept.updateCall fun _ _ _ s => .refl s) s
  | freeCall => exact .execFreeCall h
  | readCall => exact .execReadCall h
  | loadPatterns => cases h; exact .runCommand (fun _ _ => .loadCommand (.takeParsed fun _ _ _ => .onCrg ..) ..) s
  | readPattern => cases h; exact .runCommand (fun _ s => .refl s) s
  | loadPlans => cases h; exact .runCommand (fun _ _ => .loadCommand (.takeParsed fun _ _ _ => .onTru ..) ..) s
  | readPlan => cases h; exact .runCommand (fun b s => by split <;> exact .refl s) s
  | loadScripts => cases h; exact .runCommand (fun _ _ => .loadCommand (.takeParsed fun _ _ _ => .onSxe ..) ..) s
  | loadNumbers => cases h; exact .runCommand (fun _ _ => .loadCommand (.takeParsed fun _ _ _ => .onSxe ..) ..) s
  | loadFragments => cases h; exact .runCommand (fun _ _ => .loadCommand (.takeParsed fun _ _ _ => .onSxe ..) ..) s
  | readScript => cases h; exact .runCommand (fun _ s => .refl s) s
  | readNumbers => cases h; exact .runCommand (fun _ _ => .readRange ..) s
  | readFragments => cases h; exact .runCommand (fun _ _ => .readRange ..) s
  | announce => exact .execAnnounce h
  | livePageBegin => exact .execLivePageBegin h
  | livePageEnd => exact .execLivePageEnd h
  | emergencyBegin => exact .execEmergencyBegin h
  | emergencyEnd => exact .execEmergencyEnd h
  | confirm => cases h; exact .runCommand (.answerHeld fun _ _ => (Inner.enterReady ..).clockKept) s
  | reject => cases h; exact .runCommand (.answerHeld fun _ _ => (Inner.endRecord ..).clockKept) s
  | withdraw => exact .execWithdraw h
  | clearAnnouncements => cases h; exact .runCommand (fun _ _ => (Inner.endRecords ..).clockKept) s
  | readAnnouncement => cases h; exact .runCommand (fun b s => by split <;> exact .refl s) s
  | readPool => cases h; exact .runCommand (fun _ s => .refl s) s
  | loadZones =>
    cases h
    refine .runCommand (fun b s => .passAfterLoad ?_) s
    exact (ClockKept.loadCommand ClockKept.takeZoneEntry ..).trans (Inner.judgeEnabled ..).clockKept
  | loadPlatformMap =>
    cases h
    exact .runCommand (fun _ _ => .passAfterLoad (.loadCommand (.takeParsed fun _ _ _ => .onZar ..) ..)) s
  | loadGroups =>
    cases h
    exact .runCommand (fun _ _ => .passAfterLoad (.loadCommand (.takeParsed fun _ _ _ => .onZar ..) ..)) s
  | readZones => cases h; exact .runCommand (fun _ _ => .readRange ..) s
  | readMaps => cases h; exact .runCommand (fun _ s => .refl s) s
  | writePhrase => exact .execWritePhrase h
  | readChannel => cases h; exact .runCommand (fun b s => by split <;> exact .refl s) s
  | monitor => exact .execMonitor h
  | readLevels => cases h; exact .runCommand (fun _ _ => .readRange ..) s
  | readLink => cases h; exact .runCommand (fun _ _ => .readRange ..) s
  | _ => cases hc

/-- Every row that is no command and does not write the clock keeps the clock and the part state. -/
theorem ClockKept.ofEvent {i : Instr} {s t : State} (hc : isCommand i = false) (hw : writesClock i = false)
    (h : exec i s = .next t) : ClockKept s t := by
  cases i with
  | reassemblyTimeout => exact .execReassemblyTimeout h
  | upstreamSend => cases h; exact .sendUpstream s
  | callRegisterTimeChange => exact .execCallRegisterTimeChange h
  | retention => exact .execRetention h
  | triggerEvaluation => exact .execTriggerEvaluation h
  | loaded => cases h; exact .takeEventOf ..
  | stateEntry => cases h; exact .takeEventOf ..
  | delayChange => cases h; exact .takeEventOf ..
  | platformSet => cases h; exact .takeEventOf ..
  | platformChange => cases h; exact .takeEventOf ..
  | platformCleared => cases h; exact .takeEventOf ..
  | completed => exact .execCompleted h
  | poolJudgement => exact .execPoolJudgement h
  | platformMoved => cases h; exact .takePoolEvent (fun _ _ => (Inner.movePlatform ..).clockKept) ..
  | cancelled => cases h; exact .takePoolEvent (fun _ _ => (Inner.endAnns ..).clockKept) ..
  | provisionalCleared => cases h; exact .takePoolEvent (fun _ _ => (Inner.enterReadyAll ..).clockKept) ..
  | callRemoved => cases h; exact .takePoolEvent (fun _ _ => (Inner.endAnns ..).clockKept) ..
  | holdTimeout => exact .execHoldTimeout h
  | expiry => exact .execExpiry h
  | arbitrationPass => cases h; exact (Inner.passChain ..).clockKept
  | fetchGrant => exact .execFetchGrant h
  | burstCompletion => exact .execBurstCompletion h
  | phraseWriteStart => exact .execPhraseWriteStart h
  | phraseWriteComplete => exact .execPhraseWriteComplete h
  | channelEnd => exact .execChannelEnd h
  | gapEnd => exact .execGapEnd h
  | underrunAbort => exact .execUnderrunAbort h
  | block => exact .execBlock h
  | streamLost => exact .execStreamLost h
  | zoneReport => exact .execZoneReport h
  | ambientReading => exact .execAmbientReading h
  | linkLost => exact .execLinkLost h
  | powerOnReset => cases hw
  | resetAfterResponse => cases hw
  | selfCheckEnd => cases hw
  | secondElapses => cases hw
  | freewheelEntered => cases hw
  | samplePeriod => cases hw
  | downstreamCell => cases hw
  | _ => cases hc

/-- Every row changes the clock and the part state in one of the ways listed. -/
theorem exec_clockChange {i : Instr} {s t : State} (h : exec i s = .next t) : ClockChange i s t := by
  cases hw : writesClock i with
  | false =>
    cases hc : isCommand i with
    | false => exact .kept (.ofEvent hc hw h)
    | true => exact .kept (.ofCommand hc hw h)
  | true =>
    cases i with
    | powerOnReset straps => cases h; exact .reset straps (.inl rfl) (resetBlocks_sck ..) (resetBlocks_partState ..)
    | resetAfterResponse straps =>
      simp only [exec, execResetAfterResponse] at h
      split at h
      · next option _ =>
        split at h
        · cases h
          obtain ⟨cause, keep, e⟩ := partReset_eq straps option s
          rw [e]
          exact .reset straps (.inr rfl) (resetBlocks_sck ..) (resetBlocks_partState ..)
        · cases h; exact .kept (.refl s)
      · cases h; exact .kept (.refl s)
    | selfCheckEnd r =>
      simp only [exec, execSelfCheckEnd] at h
      split at h
      · next hp => cases h; exact .checked r hp.1
      · cases h; exact .kept (.refl s)
    | secondElapses =>
      simp only [exec, execSecondElapses] at h
      split at h
      · cases h; exact .kept (.refl s)
      · cases h; exact .second
    | freewheelEntered =>
      simp only [exec, execFreewheelEntered] at h
      split at h
      · cases h; exact .kept (.refl s)
      · cases h; exact .freewheel
    | samplePeriod =>
      simp only [exec, execSamplePeriod] at h
      split at h
      · cases h; exact .kept (.onZli ..)
      · injection h with h
        exact h ▸ .sample
    | downstreamCell cell => cases h; exact takeCell_clockChange cell s
    | openDay => exact openDay_clockChange h
    | closeDay => exact closeDay_clockChange h
    | _ => cases hw

end Sys2Proof.Machine
end

section
/-! The clock's invariant and the changes of T (R1, R3, R4), from what every row does to the clock. -/

namespace Sys2Proof.Machine

/-! ### Seconds (R2, R3, R8) -/

/-- The T that an elapsed second leaves (R3). -/
def Clock.nextTime (c : Clock) : Nat := if c.time < 107999 then c.time + 1 else c.time

/-- The clock that an elapsed second leaves, but for the overrun flag (R2, R3, R8). -/
def Clock.ticked (c : Clock) : Clock :=
  { c with
    phase := 0, markAge := min (c.markAge + 1) 65535, time := c.nextTime
    entering := if c.markAge = 59 ∧ c.freewheel = false then some (c.nextTime, c.dayNumber) else c.entering }

/-- The freewheel rule judges the mark age that the second has left (R8). -/
theorem noteFreewheel_ticked (c : Clock) :
    ({ c with phase := 0, markAge := min (c.markAge + 1) 65535, time := c.nextTime } : Clock).noteFreewheel =
      c.ticked := by
  have hage : min (c.markAge + 1) 65535 = 60 ↔ c.markAge = 59 := by omega
  unfold Clock.noteFreewheel Clock.ticked
  simp only [hage]
  split <;> rfl

theorem noteFreewheel_setOverrun (c : Clock) :
    ({ c with overrun := true } : Clock).noteFreewheel = { c.noteFreewheel with overrun := true } := by
  unfold Clock.noteFreewheel
  dsimp only
  split <;> rfl

/-- A second below the last of the day (R3). -/
theorem elapseSecond_below {s : State} (h : s.sck.time < 107999) : elapseSecond s =
    handOn ⟨.advance, s.sck.time, s.sck.nextTime⟩ { s with sck := s.sck.ticked } := by
  have hn : s.sck.nextTime = s.sck.time + 1 := if_pos h
  rw [← noteFreewheel_ticked, hn]
  unfold elapseSecond
  exact if_pos h

/-- A second at the end of the day: T holds, and the first such second of an open day is noticed (R3). -/
theorem elapseSecond_last {s : State} (h : ¬s.sck.time < 107999) : elapseSecond s =
    handOn ⟨.advance, s.sck.time, s.sck.nextTime⟩ (if s.sck.day = .opened ∧ s.sck.overrun = false then
        raise (.dayOverrun s.sck.dayNumber s.sck.time) { s with sck := { s.sck.ticked with overrun := true } }
      else { s with sck := s.sck.ticked }) := by
  have hn : s.sck.nextTime = s.sck.time := if_neg h
  rw [← noteFreewheel_ticked, hn]
  unfold elapseSecond
  refine (if_neg h).trans ?_
  change handOn _ (State.onSck _ (if s.sck.day = .opened ∧ s.sck.overrun = false then _ else _)) = _
  split
  · rw [← raise_onSck]
    exact congrArg (fun c => handOn _ (raise _ { s with sck := c })) (noteFreewheel_setOverrun _)
  · rfl

theorem elapseSecond_sck (s : State) : ∃ o, (elapseSecond s).sck = { s.sck.ticked with overrun := o } := by
  by_cases h : s.sck.time < 107999
  · rw [elapseSecond_below h]
    exact ⟨s.sck.overrun, rfl⟩
  · rw [elapseSecond_last h, handOn_sck]
    split
    · rw [raise_sck]
      exact ⟨true, rfl⟩
    · exact ⟨s.sck.overrun, rfl⟩

/-- A second hands on its change of T and leaves the interpreter alone (R4). -/
theorem elapseSecond_shape (s : State) : ∃ k f c, elapseSecond s =
    { handOn ⟨.advance, s.sck.time, s.sck.nextTime⟩ s with sck := k, notices := f, stats := c } := by
  by_cases h : s.sck.time < 107999
  · rw [elapseSecond_below h]
    exact ⟨_, s.notices, s.stats, rfl⟩
  · rw [elapseSecond_last h]
    split
    · obtain ⟨f, c, hr⟩ := raise_shape (.dayOverrun s.sck.dayNumber s.sck.time)
        { s with sck := { s.sck.ticked with overrun := true } }
      rw [hr]
      exact ⟨_, f, c, rfl⟩
    · exact ⟨_, s.notices, s.stats, rfl⟩

/-! ### The clock's ranges (R1) -/

/-- The soundness of the clock is a matter of the clock and the part state. -/
theorem ClockSound.of {s t : State} (h : ClockSound s) (hk : ClockKept s t) : ClockSound t := by
  unfold ClockSound
  rw [hk.sck, hk.partState]
  exact h

theorem ClockSound.ofReset {t : State} (hsck : t.sck = Clock.reset) (hpart : t.mgi.partState = .selfCheck) :
    ClockSound t := by
  unfold ClockSound
  rw [hsck, hpart]
  simp [Clock.reset]

theorem ClockSound.second {s : State} (h : ClockSound s) : ClockSound (elapseSecond s) := by
  obtain ⟨htime, hage, hphase, hhour, hday, hmark, hentering, hopen, hrun⟩ := h
  obtain ⟨o, hsck⟩ := elapseSecond_sck s
  obtain ⟨_, _, _, hshape⟩ := elapseSecond_shape s
  have hmgi : (elapseSecond s).mgi = s.mgi := by rw [hshape]; rfl
  have hnext : s.sck.nextTime ≤ 107999 := by
    unfold Clock.nextTime
    split
    · omega
    · exact htime
  unfold ClockSound
  rw [hsck, hmgi]
  refine ⟨hnext, Nat.min_le_right .., Nat.zero_le _, hhour, hday, hmark, fun e he => ?_, hopen, hrun⟩
  simp only [Clock.ticked] at he
  split at he
  · cases he
    exact ⟨hnext, hday⟩
  · exact hentering e he

theorem ClockSound.enterFreewheel {s : State} (h : ClockSound s) : ClockSound (enterFreewheel s) := by
  obtain ⟨htime, hage, hphase, hhour, hday, hmark, _, hopen, hrun⟩ := h
  unfold ClockSound
  rw [enterFreewheel_sck, enterFreewheel_mgi]
  exact ⟨htime, hage, hphase, hhour, hday, hmark, nofun, hopen, hrun⟩

theorem ClockSound.sample {s : State} (h : ClockSound s) : ClockSound (runSample s) := by
  obtain ⟨htime, hage, _, hhour, hday, hmark, hentering, hopen, hrun⟩ := h
  unfold ClockSound
  rw [(runSample_sck s).1, (runSample_sck s).2]
  exact ⟨htime, hage, Nat.min_le_right .., hhour, hday, hmark, hentering, hopen, hrun⟩

theorem ClockSound.endSelfCheck {s : State} (h : ClockSound s) (hp : s.mgi.partState = .selfCheck)
    (r : SelfCheckResult) : ClockSound (endSelfCheck r s) := by
  obtain ⟨htime, hage, _, hhour, hday, hmark, hentering, hopen, hrun⟩ := h
  have hclosed : s.sck.day ≠ .opened := fun ho => by simp [hrun.1 ho] at hp
  unfold ClockSound
  rw [endSelfCheck_sck, endSelfCheck_partState]
  refine ⟨htime, hage, Nat.zero_le _, hhour, hday, hmark, hentering, hopen, fun ho => absurd ho hclosed, fun hr => ?_⟩
  split at hr <;> cases hr

theorem ClockSound.mark {s : State} (h : ClockSound s) {day m : Nat} (hd : 1 ≤ day ∧ day ≤ 65535)
    (hm : m ≤ Config.maxTime) : ClockSound (applyMark day m s) := by
  obtain ⟨_, _, _, hhour, hday, _, _, hopen, hrun⟩ := h
  obtain ⟨_, _, _, hshape⟩ := applyMark_shape day m s
  have hmgi : (applyMark day m s).mgi = s.mgi := by rw [hshape]; exact noteChange_mgi m s
  unfold ClockSound
  rw [applyMark_sck, hmgi]
  exact ⟨hm, Nat.zero_le _, Nat.zero_le _, hhour, hday, fun _ he => by cases he; exact hd, nofun,
    hopen, hrun⟩

theorem ClockSound.opened {s : State} (h : ClockSound s) {day hour start : Nat} (hd : 1 ≤ day ∧ day ≤ 65535)
    (hh : hour ≤ 23) (hs : start ≤ Config.maxTime) : ClockSound (openDay day hour start s) := by
  obtain ⟨_, hage, hphase, _, _, hmark, hentering, _, _⟩ := h
  unfold ClockSound
  rw [openDay_sck, openDay_mgi]
  exact ⟨hs, hage, hphase, hh, fun _ he => by cases he; exact hd, hmark, hentering, by simp [Clock.opening],
    by simp [Clock.opening]⟩

theorem ClockSound.closed {s : State} (h : ClockSound s) : ClockSound (closeDay s) := by
  obtain ⟨htime, hage, hphase, hhour, _, hmark, hentering, _, _⟩ := h
  have hclosed : ClockSound (closedDay s) :=
    ⟨htime, hage, hphase, hhour, nofun, hmark, hentering, by simp [closedDay], by simp [closedDay]⟩
  exact hclosed.of (closeDay_inner s).clockKept

/-- Every row of the table keeps the clock in its ranges and the day open exactly in RUNNING (R1). -/
theorem ClockChange.sound {i : Instr} {s t : State} (h : ClockChange i s t) (hs : ClockSound s) : ClockSound t := by
  cases h with
  | kept hk => exact hs.of hk
  | reset straps hi hsck hpart => exact .ofReset hsck hpart
  | checked r hpart => exact hs.endSelfCheck hpart r
  | second => exact hs.second
  | freewheel => exact hs.enterFreewheel
  | sample => exact hs.sample
  | mark cell day m hday hm => exact hs.mark hday hm
  | opened c day hour start hpart hday hhour hstart => exact (hs.opened hday hhour hstart).of (.finish ..)
  | closed c hpart => exact hs.closed.of (.finish ..)

/-! ### Changes of T handed on (R4) -/

/-- A change of T waits at the Call Register, the Trigger Unit and the Announcement Pool. -/
def HandedOn (ch : TimeChange) (s t : State) : Prop :=
  t.crg.changes = s.crg.changes ++ [ch] ∧ t.tru.changes = s.tru.changes ++ [ch] ∧ t.apl.changes = s.apl.changes ++ [ch]

theorem handOn_handedOn (ch : TimeChange) (s : State) : HandedOn ch s (handOn ch s) := ⟨rfl, rfl, rfl⟩

/-- What a mark or OPEN_DAY hands on for a T that differs from the clock's. -/
theorem noteChange_handedOn {m : Nat} {s : State} (h : m ≠ s.sck.time) : HandedOn (changeTo m s) s (noteChange m s) := by
  unfold noteChange
  rw [if_neg h]
  exact handOn_handedOn ..

/-- The kind of a change follows its direction (R4). -/
theorem changeTo_kind {m : Nat} {s : State} (h : m ≠ s.sck.time) :
    ((changeTo m s).kind = .forward ∧ s.sck.time < m) ∨ ((changeTo m s).kind = .backward ∧ m < s.sck.time) := by
  unfold changeTo
  rcases Nat.lt_or_gt_of_ne h with hlt | hgt
  · exact .inr ⟨if_neg (by omega), hlt⟩
  · exact .inl ⟨if_pos hgt, hgt⟩

theorem finish_handedOn {ch : TimeChange} {s u : State} (h : HandedOn ch s u) (m : Message) (st : Status)
    (body : List Byte) : HandedOn ch s (finish m st body u) := by
  unfold finish leaveQueue answer
  simp only
  split <;> split <;> exact h

end Sys2Proof.Machine

open Sys2Proof Sys2Proof.Machine

/-- Settles O4, by the ways in which a row can change the clock and the part state. -/
theorem stepKeepsClock : Obligations.StepKeepsClock := by
  unfold Obligations.StepKeepsClock
  intro s t hs h
  unfold step at h
  split at h
  · cases h; exact hs
  · exact (exec_clockChange h).sound hs

/-- Settles O11, by the ways in which a row can change the clock and the part state. -/
theorem changesOfTimeAreHandedOn : Obligations.ChangesOfTimeAreHandedOn := by
  unfold Obligations.ChangesOfTimeAreHandedOn
  intro i s t h hne
  cases exec_clockChange h with
  | kept hk => exact absurd (congrArg Clock.time hk.sck) hne
  | reset straps hi _ _ => exact .inl ⟨straps, hi⟩
  | checked r _ => exact absurd (congrArg Clock.time (endSelfCheck_sck r s)) hne
  | freewheel => exact absurd (congrArg Clock.time (enterFreewheel_sck s)) hne
  | sample => exact absurd (congrArg Clock.time (runSample_sck s).1) hne
  | closed c _ =>
    exact absurd (congrArg Clock.time ((finish_sck c .ok [] _).trans (closeDay_inner s).sck)) hne
  | second =>
    obtain ⟨o, hsck⟩ := elapseSecond_sck s
    obtain ⟨k, f, c, hshape⟩ := elapseSecond_shape s
    have htime : (elapseSecond s).sck.time = s.sck.nextTime := congrArg Clock.time hsck
    have hnext : s.sck.nextTime = s.sck.time + 1 := by
      rw [htime] at hne
      unfold Clock.nextTime at hne ⊢
      split at hne
      · next hlt => exact if_pos hlt
      · exact absurd rfl hne
    refine .inr ⟨⟨.advance, s.sck.time, s.sck.nextTime⟩, rfl, htime.symm, ?_, ?_, ?_, .inl ⟨rfl, rfl, hnext⟩⟩ <;>
      rw [hshape] <;> rfl
  | mark cell day m hday hm =>
    have htime : (applyMark day m s).sck.time = m := congrArg Clock.time (applyMark_sck day m s)
    rw [htime] at hne
    obtain ⟨k, f, c, hshape⟩ := applyMark_shape day m s
    obtain ⟨hcrg, htru, hapl⟩ := noteChange_handedOn hne
    refine .inr ⟨changeTo m s, rfl, htime.symm, ?_, ?_, ?_, .inr ⟨.inr ⟨cell, rfl⟩, changeTo_kind hne⟩⟩ <;>
      rw [hshape]
    · exact hcrg
    · exact htru
    · exact hapl
  | opened c day hour start _ _ _ _ =>
    have htime : (finish c .ok [] (openDay day hour start s)).sck.time = start :=
      congrArg Clock.time ((finish_sck ..).trans (openDay_sck ..))
    rw [htime] at hne
    have hopen : HandedOn (changeTo start s) s (openDay day hour start s) := by
      rw [openDay_eq]
      exact noteChange_handedOn hne
    obtain ⟨hcrg, htru, hapl⟩ := finish_handedOn hopen c .ok []
    exact .inr ⟨changeTo start s, rfl, htime.symm, hcrg, htru, hapl, .inr ⟨.inl rfl, changeTo_kind hne⟩⟩
end

section
/-! The settled statements about marks, seconds and the day (R2 to R10). -/

namespace Sys2Proof.Machine

/-! ### Marks (R5) -/

theorem takeMark_taken {day m : Nat} {s : State} (hd : day ≠ 0) (hm : m ≤ 107999)
    (ho : s.sck.day = .opened → s.sck.dayNumber = some day) : takeMark day m s = applyMark day m s := by
  unfold takeMark
  rw [if_neg fun h => h.elim hd fun h => absurd hm (Nat.not_le.2 h), if_neg fun h => h.2 (ho h.1)]

/-! ### What a change of T reaches (R4, R33, R91, R92) -/

theorem mem_addNew {x y : Nat} {l : List Nat} : x ∈ addNew y l ↔ x ∈ l ∨ y = x := by
  unfold addNew
  split
  · next h =>
    have : y ∈ l := by simpa using h
    exact ⟨.inl, fun h => h.elim id fun e => e ▸ this⟩
  · simp [eq_comm]

/-- The values noted of the entries at which a condition holds, besides those already noted. -/
theorem mem_foldl_addNew {α : Type} (cond : α → Bool) (key : α → Nat) (l : List α) (noted : List Nat) (x : Nat) :
    x ∈ l.foldl (fun l p => if cond p then addNew (key p) l else l) noted ↔
      x ∈ noted ∨ ∃ p ∈ l, key p = x ∧ cond p = true := by
  induction l generalizing noted with
  | nil => simp
  | cons p rest ih =>
    rw [List.foldl_cons, ih]
    cases hc : cond p with
    | false => simp [hc]
    | true => simp [hc, mem_addNew, or_assoc]

/-! ### Commands at the head (R182) -/

/-- A command at the head of the queue, whose body fits its row, is answered by the owning rule. -/
theorem runCommand_atHead {row : Row} {act : List Byte → State → Reply} {s : State} {m : Message} {n : Nat}
    (h : AtHead s m row.code n) (hmine : row.mine m.body = true) (hfits : row.fits m.body = true) :
    runCommand row act s = finish m (act m.body s).status (act m.body s).body (act m.body s).state := by
  obtain ⟨⟨hhead, hexec, hfailed, hcode⟩, _⟩ := h
  exact runCommand_taken (headFor_some hhead hexec hcode hmine) (fun hf => absurd hf hfailed) hfits

theorem fixed_length {b : List Byte} {n : Nat} (h : b.length = n) : fixed n b = true := by simp [fixed, h]

/-- What OPEN_DAY's owning rule gives (R9). -/
def openDayReply (b : List Byte) (s : State) : Reply :=
  if s.mgi.partState = .running then reply .badState [] s
  else if be16 b 0 = 0 ∨ 23 < byteAt b 2 ∨ Config.maxTime < be32 b 3 then reply .badValue [] s
  else reply .ok [] (openDay (be16 b 0) (byteAt b 2) (be32 b 3) s)

theorem exec_openDay {s : State} {m : Message} (h : AtHead s m 0x10 7) : exec .openDay s = .next
    (finish m (openDayReply m.body s).status (openDayReply m.body s).body (openDayReply m.body s).state) :=
  congrArg Host.Outcome.next (runCommand_atHead (row := { code := 0x10, fits := fixed 7 }) h rfl (fixed_length h.2))

/-- What CLOSE_DAY's owning rule gives (R10). -/
def closeDayReply (s : State) : Reply :=
  if s.mgi.partState = .running then reply .ok [] (closeDay s) else reply .notRunning [] s

theorem exec_closeDay {s : State} {m : Message} (h : AtHead s m 0x11 0) : exec .closeDay s = .next
    (finish m (closeDayReply s).status (closeDayReply s).body (closeDayReply s).state) :=
  congrArg Host.Outcome.next (runCommand_atHead (row := { code := 0x11, fits := fixed 0 })
    (act := fun _ s => closeDayReply s) h rfl (fixed_length h.2))

/-! ### CLOSE_DAY -/

/-- The records of a sound pool that CLOSE_DAY leaves: those without a call, as they were (R109). -/
theorem closeDay_apl {s : State} (hp : PoolSound s.apl) :
    (closeDay s).apl.records = s.apl.records.filter (fun r => r.ask.call.isNone) ∧
      (closeDay s).apl.lastId = s.apl.lastId ∧ (closeDay s).apl.counter = s.apl.counter := by
  obtain ⟨hrecords, hlast, hcounter, _, _⟩ :=
    endRecords_apl .withdrawn .dayClosed (s.annIds fun r => r.ask.call.isSome) (closedDay s)
  rw [closeDay_eq]
  refine ⟨hrecords.trans ?_, hlast, hcounter⟩
  refine (filter_annIds hp fun r => r.ask.call.isSome).trans ?_
  exact List.filter_congr fun r _ => by simp

end Sys2Proof.Machine

open Sys2Proof Sys2Proof.Machine

/-- Settles O22: the checks of R5 in turn, and the equation of a mark taken. -/
theorem marksSetTheClock : Obligations.MarksSetTheClock := by
  unfold Obligations.MarksSetTheClock
  intro day m s
  refine ⟨fun h => ?_, fun hd hm ho hn => ?_, fun t d hd hm ho he => ?_, fun hd hm ho he => ?_⟩
  · exact if_pos h
  · unfold takeMark
    rw [if_neg fun h => h.elim hd fun h => absurd hm (Nat.not_le.2 h), if_pos ⟨ho, hn⟩]
  · rw [← enterFreewheel_some he, takeMark_taken hd hm ho, takeMark_taken hd hm (by rw [enterFreewheel_sck]; exact ho),
      applyMark_enterFreewheel]
  · intro stepped moved noted left
    rw [takeMark_taken hd hm ho, applyMark_eq he]
    rfl

/-- Settles O25: a second below the end of the day and one at its end, FREEWHEEL_ENTERED, and what a change of T notes. -/
theorem secondsAdvanceTheClock : Obligations.SecondsAdvanceTheClock := by
  unfold Obligations.SecondsAdvanceTheClock
  refine ⟨fun s => ⟨fun hself => ⟨if_pos hself, if_pos hself⟩, fun hself => ?_⟩, fun ch s => ?_⟩
  · have hsecond : exec .secondElapses s = .next (elapseSecond s) := if_neg hself
    have hfree : exec .freewheelEntered s = .next (enterFreewheel s) := if_neg hself
    intro now ticked
    refine ⟨fun hlt => ?_, fun hge => ?_, fun t day he => ?_, fun he => ?_⟩
    · rw [hsecond, elapseSecond_below hlt]
      rfl
    · rw [hsecond, elapseSecond_last (Nat.not_lt.2 hge)]
      rfl
    · rw [hfree, enterFreewheel_some he]
    · rw [hfree, enterFreewheel_none he]
  · refine ⟨_, _, _, rfl, fun slot => ?_, fun id => ?_, fun id => ?_⟩
    · rw [mem_foldl_addNew (fun p : Nat × CallRec => p.2.retained ch.new) Prod.fst]
      refine or_congr_right ⟨?_, ?_⟩
      · rintro ⟨⟨_, c⟩, hm, rfl, hr⟩
        exact ⟨c, hm, hr⟩
      · rintro ⟨c, hm, hr⟩
        exact ⟨(slot, c), hm, rfl, hr⟩
    · exact mem_foldl_addNew (fun r : AnnRec => r.holdOver ch.new) AnnRec.annId ..
    · exact mem_foldl_addNew (fun r : AnnRec => r.expired ch.new) AnnRec.annId ..

/-- Settles O26: the answers of OPEN_DAY and CLOSE_DAY in turn, and what each leaves. -/
theorem theDayOpensAndCloses : Obligations.TheDayOpensAndCloses := by
  unfold Obligations.TheDayOpensAndCloses
  refine ⟨fun s m h => ?_, fun s m h => ?_⟩
  · intro day hour start
    refine ⟨fun hrun => ?_, fun hrun hbad => ?_, fun hrun hday hhour hstart => ?_⟩
    · rw [Answers, exec_openDay h, openDayReply, if_pos hrun]
      rfl
    · rw [Answers, exec_openDay h, openDayReply, if_neg hrun, if_pos hbad]
      rfl
    · intro opened
      have hgood : ¬(be16 m.body 0 = 0 ∨ 23 < byteAt m.body 2 ∨ Config.maxTime < be32 m.body 3) := by
        rintro (hd | hh | hs)
        · exact hday hd
        · exact absurd hhour (Nat.not_le.2 hh)
        · exact absurd hstart (Nat.not_le.2 hs)
      rw [Answers, exec_openDay h, openDayReply, if_neg hrun, if_neg hgood]
      refine congrArg (fun t => Host.Outcome.next (finish m .ok [] t)) ((openDay_eq ..).trans ?_)
      unfold noteChange
      split <;> rfl
  · refine ⟨fun hrun => ?_, fun hrun hp => ⟨closeDay s, ?_, ?_⟩⟩
    · rw [Answers, exec_closeDay h, closeDayReply, if_neg hrun]
      rfl
    · rw [Answers, exec_closeDay h, closeDayReply, if_pos hrun]
      rfl
    · have hin := closeDay_inner s
      obtain ⟨hcrg, htru⟩ :=
        endRecords_blocks .withdrawn .dayClosed (s.annIds fun r => r.ask.call.isSome) (closedDay s)
      rw [← closeDay_eq] at hcrg htru
      refine ⟨hin.sck, hin.mgi, hin.tki, ?_, ?_, ?_, ?_, hin.sxe, hin.pmc, hin.zli, closeDay_apl hp⟩
      · rw [hcrg]; rfl
      · rw [hcrg]; rfl
      · rw [htru]; rfl
      · rw [htru]; rfl
end

section
/-! The items of a script (R12, R73 to R79). -/

namespace Sys2Proof.Machine

/-! ### The clock's reading (R12) -/

theorem readClock_range (hour x : Nat) : (readClock hour x).1 ≤ 23 ∧ (readClock hour x).2 ≤ 59 := by
  unfold readClock
  simp only
  omega

theorem readClock_nextDay (hour x : Nat) : readClock hour (x + 86400) = readClock hour x := by
  unfold readClock
  rw [← Nat.add_assoc, Nat.add_mod_right]

/-! ### The delay spoken (R78) -/

theorem delayMinutes_le (d : Int) : delayMinutes d ≤ 199 := by
  unfold delayMinutes
  split <;> omega

theorem delayMinutes_early {d : Int} (h : d ≤ 0) : delayMinutes d = 0 := if_neg (by omega)

theorem delayMinutes_late {d : Int} (h : 0 < d) : (delayMinutes d : Int) = min ((d + 59) / 60) 199 := by
  unfold delayMinutes
  rw [if_pos h]
  omega

/-! ### The places called (R79) -/

/-- Two places or more: the joiner stands before the last. -/
theorem callingPlaces_joined (init : List Nat) (last : Nat) (h : init ≠ []) : callingPlaces (init ++ [last]) =
    (init.map fun x => .fragment x 1) ++ [.number 201, .fragment last 1] := by
  induction init with
  | nil => exact absurd rfl h
  | cons p rest ih =>
    cases rest with
    | nil => rfl
    | cons q more =>
      have hmore : more ++ [last] ≠ [] := by simp
      have hstep : callingPlaces (p :: q :: (more ++ [last])) =
          .fragment p 1 :: callingPlaces (q :: (more ++ [last])) := by
        obtain ⟨r, rs, e⟩ := List.exists_cons_of_ne_nil hmore
        rw [e]
        rfl
      exact hstep.trans (congrArg (Wanted.fragment p 1 :: ·) (ih (by simp)))

/-- A CALLING item speaks the places of the call's pattern (R79). -/
theorem wantedOf_calling {patterns : Tab (List Nat)} {c : CallRec} {p : Nat} {places : List Nat} (hour : Nat)
    (hp : c.pattern = some p) (hl : tabGet patterns p = some places) :
    wantedOf patterns hour (some c) .calling = callingPlaces places := by
  simp only [wantedOf, hp, hl, Option.getD_some]

end Sys2Proof.Machine

open Sys2Proof Sys2Proof.Machine

/-- Settles O38, item by item. -/
theorem callItemsExpandByTheirRules : Obligations.CallItemsExpandByTheirRules := by
  unfold Obligations.CallItemsExpandByTheirRules
  refine ⟨fun hour x => ⟨rfl, (readClock_range hour x).1, (readClock_range hour x).2, readClock_nextDay hour x⟩,
    fun patterns hour call => ⟨fun _ => rfl, fun _ _ => rfl, fun _ => rfl, ?_, ?_⟩,
    fun patterns hour c => ⟨fun _ => rfl, ?_, ?_, ?_⟩⟩
  · rintro c rfl
    exact ⟨rfl, fun h => if_pos h, fun h => if_neg h⟩
  · rintro rfl item (rfl | rfl | ⟨e, rfl⟩ | rfl | rfl) <;> rfl
  · exact ⟨delayMinutes c.delay, rfl, delayMinutes_le _, delayMinutes_early, delayMinutes_late⟩
  · intro p places hp hl
    rw [wantedOf_calling hour hp hl]
    refine ⟨?_, ?_, ?_⟩
    · rintro rfl
      rfl
    · rintro x rfl
      rfl
    · rintro init last rfl hne
      exact callingPlaces_joined init last hne
  · rintro (hp | ⟨p, hp, hl⟩)
    · simp only [wantedOf, hp]
    · simp only [wantedOf, hp, hl, Option.getD_none]
      rfl
end

section
/-! The reset state and the power-on reset (R186). -/

open Sys2Proof Sys2Proof.Machine

/-- Settles O3, block by block. -/
theorem resetStateIsSound : Obligations.ResetStateIsSound := by
  unfold Obligations.ResetStateIsSound
  refine ⟨.ofReset rfl rfl, ?_, ?_, ?_, ?_, ?_, ?_⟩
  · exact ⟨rfl, nofun⟩
  · simp [FifoSound, State.reset, NoticeFifo.reset]
  · simp [StatsSound, State.reset, tabRising]
  · simp [PoolSound, State.reset, AnnouncementPool.reset]
  · simp [QueuesSound, State.reset, Interpreter.reset, TrunkInterface.reset, PhraseController.reset]
  · simp [CallsSound, State.reset, CallRegister.reset, tabRising]

/-- Settles O17: each block's reset value is the one listed. -/
theorem powerOnResetsEveryBlock : Obligations.PowerOnResetsEveryBlock := by
  unfold Obligations.PowerOnResetsEveryBlock
  intro straps s
  rfl
end

section
/-! SUPPORT. The Call Register's operations (R18 to R33), each said once as the record it writes and the events it
passes. -/

namespace Sys2Proof.Machine

/-! ### A record written, a record removed -/

@[simp] theorem withCall_callAt_same (slot : Nat) (c : CallRec) (es : List TriggerEvent) (ps : List PoolEvent)
    (s : State) : (withCall slot c es ps s).callAt slot = some c := tabGet_tabSet_same ..

theorem withCall_callAt_other {slot other : Nat} (c : CallRec) (es : List TriggerEvent) (ps : List PoolEvent) (s : State)
    (h : other ≠ slot) : (withCall slot c es ps s).callAt other = s.callAt other := tabGet_tabSet_other _ _ h

/-- An event passed to the pool before the record is written is among those passed with it. -/
theorem withCall_passPool {slot ref : Nat} {c : CallRec} (h : c.callRef = ref) (es : List TriggerEvent) (e : PoolEvent)
    (s : State) : withCall slot c es [] (passPool slot ref e s) = withCall slot c es [e] s := by
  subst h
  simp only [withCall, List.map_nil, List.append_nil]
  rfl

/-- An event passed to the pool after the record is written is the last of those passed with it. -/
theorem passPool_withCall {slot ref : Nat} {c : CallRec} (h : c.callRef = ref) (es : List TriggerEvent)
    (ps : List PoolEvent) (e : PoolEvent) (s : State) :
    passPool slot ref e (withCall slot c es ps s) = withCall slot c es (ps ++ [e]) s := by
  subst h
  simp only [withCall, List.map_append, ← List.append_assoc]
  rfl

theorem enterState_eq (slot : Nat) (c : CallRec) (st : CallState) (t : Nat) (es : List TriggerEvent) (s : State) :
    enterState slot c st t es s =
      withCall slot { c with state := st, stateSince := t } (es ++ [.stateEntry st]) [] s := putCall_eq ..

/-- A call found in its slot is removed with its event (R22, R32, R33). -/
theorem removeCall_eq {slot : Nat} {c : CallRec} {s : State} (h : s.callAt slot = some c) :
    removeCall slot s = withoutCall slot c s := by
  unfold removeCall
  rw [h]
  rfl

theorem removeCall_empty {slot : Nat} {s : State} (h : s.callAt slot = none) : removeCall slot s = s := by
  unfold removeCall
  rw [h]

theorem withoutCall_callAt_same {slot : Nat} {c : CallRec} {s : State} (h : tabRising s.crg.calls = true) :
    (withoutCall slot c s).callAt slot = none := tabGet_tabDel_same _ h

theorem withoutCall_callAt_other {slot other : Nat} (c : CallRec) (s : State) (h : other ≠ slot) :
    (withoutCall slot c s).callAt other = s.callAt other := tabGet_tabDel_other _ h

/-! ### The updates (R25 to R31) -/

/-- ARRIVED (R25). -/
theorem arrive_eq (slot : Nat) (c : CallRec) (b : List Byte) (s : State) : arrive slot c b s =
    if c.state = .planned ∨ c.state = .due then
      if c.platform = 0 then (.badState, s)
      else (.ok, withCall slot { c with provisional := false, state := .atPlatform, stateSince := s.sck.time }
        [.stateEntry .atPlatform] (if c.provisional then [.provisionalCleared] else []) s)
    else if c.state = .atPlatform then (.ok, s) else (.badState, s) := by
  have entered : enterState slot { c with provisional := false } .atPlatform s.sck.time []
      (if c.provisional then passPool slot c.callRef .provisionalCleared s else s) =
      withCall slot { c with provisional := false, state := .atPlatform, stateSince := s.sck.time }
        [.stateEntry .atPlatform] (if c.provisional then [.provisionalCleared] else []) s := by
    rw [enterState_eq]
    split
    · exact withCall_passPool rfl ..
    · rfl
  have clock : (if c.provisional then passPool slot c.callRef .provisionalCleared s else s).sck = s.sck := by
    split <;> rfl
  unfold arrive
  rw [← entered, ← clock]
  cases hst : c.state <;> simp only [reduceCtorEq, or_false, or_true, if_true, if_false]

/-- DEPARTING (R26). -/
theorem depart_eq (slot : Nat) (c : CallRec) (b : List Byte) (s : State) : depart slot c b s =
    if c.kind = .arrival then (.badState, s)
    else if c.state = .atPlatform then
      (.ok, withCall slot { c with state := .departing, stateSince := s.sck.time } [.stateEntry .departing] [] s)
    else if c.state = .departing then (.ok, s) else (.badState, s) := by
  unfold depart
  rw [enterState_eq]
  cases hst : c.state <;> simp only [reduceCtorEq, if_true, if_false, List.nil_append]

/-- GONE (R27). -/
theorem gone_eq (slot : Nat) (c : CallRec) (b : List Byte) (s : State) : gone slot c b s =
    if c.state = .atPlatform ∨ c.state = .departing then
      (.ok, withCall slot
        { c with retainUntil := some (retention s.sck.time), state := .finished, stateSince := s.sck.time }
        [.stateEntry .finished] [] s)
    else if c.state = .finished then (.ok, s) else (.badState, s) := by
  unfold gone
  rw [enterState_eq]
  cases hst : c.state <;> simp only [reduceCtorEq, or_false, or_true, if_true, if_false, List.nil_append]

/-- CANCEL (R28). -/
theorem cancel_eq (slot : Nat) (c : CallRec) (b : List Byte) (s : State) : cancel slot c b s =
    if c.state = .finished then (.badState, s)
    else if c.state = .cancelled then (.ok, s)
    else (.ok, withCall slot
      { c with retainUntil := some (retention s.sck.time), state := .cancelled, stateSince := s.sck.time }
      [.stateEntry .cancelled] [.cancelled] s) := by
  unfold cancel
  rw [enterState_eq, withCall_passPool (by rfl)]
  cases hst : c.state <;> simp only [reduceCtorEq, if_true, if_false, List.nil_append]

/-- DELAY (R29). -/
theorem changeDelay_eq (slot : Nat) (c : CallRec) (b : List Byte) (s : State) : changeDelay slot c b s =
    if c.state = .finished ∨ c.state = .cancelled then (.badState, s)
    else if clampDelay (signed32 b 0) = c.delay then (.ok, s)
    else (.ok, putDueChecked slot
      { c with delay := clampDelay (signed32 b 0), expected := expectedTime c.sched (clampDelay (signed32 b 0)) }
      (.delayChange c.expected (expectedTime c.sched (clampDelay (signed32 b 0)))) s) := by
  unfold changeDelay
  cases hst : c.state <;> simp only [reduceCtorEq, or_false, or_true, if_true, if_false]

/-- A platform written, with the events of R31. -/
theorem putPlatformOf_eq (slot : Nat) (c : CallRec) (p : Nat) (flag : Bool) (s : State) : putPlatformOf slot c p flag s =
    withCall slot { c with platform := p, provisional := flag }
      (if p = c.platform then [] else [platformEvent c.platform p])
      ((if p = c.platform then [] else [.platformMoved c.platform p]) ++
        if c.provisional = true ∧ flag = false then [.provisionalCleared] else []) s := by
  unfold putPlatformOf
  simp only [putCall_eq]
  by_cases hp : p = c.platform <;> by_cases hf : c.provisional = true ∧ flag = false <;>
    simp only [hp, hf, if_true, if_false, and_self] <;> repeat rw [passPool_withCall (by rfl)]
  all_goals rfl

/-- PLATFORM (R30, R31). -/
theorem changePlatform_eq (slot : Nat) (c : CallRec) (b : List Byte) (s : State) : changePlatform slot c b s =
    if 40 < byteAt b 0 ∨ (byteAt b 0 = 0 ∧ flagAt b 1 0 = true) then (.badValue, s)
    else if c.state = .planned ∨ c.state = .due then (.ok, putPlatformOf slot c (byteAt b 0) (flagAt b 1 0) s)
    else (.badState, s) := by
  unfold changePlatform
  simp only [Bool.and_eq_true, beq_iff_eq, and_comm (a := flagAt b 1 0 = true)]
  cases hst : c.state <;> simp only [reduceCtorEq, or_false, or_true, if_true, if_false]

/-! ### The call a command names (R18) -/

theorem findRef_mem {t : Tab CallRec} {ref : Nat} {p : Nat × CallRec} (h : findRef t ref = some p) :
    p ∈ t ∧ p.2.callRef = ref := by
  induction t with
  | nil => cases h
  | cons q rest ih =>
    obtain ⟨slot, c⟩ := q
    unfold findRef at h
    split at h
    · next he =>
      cases h
      exact ⟨List.mem_cons_self, he⟩
    · exact ⟨List.mem_cons_of_mem _ (ih h).1, (ih h).2⟩

/-- The record that a call_ref finds stands in its slot. -/
theorem callAt_of_findRef {s : State} {ref slot : Nat} {c : CallRec} (hr : tabRising s.crg.calls = true)
    (h : findRef s.crg.calls ref = some (slot, c)) : s.callAt slot = some c := tabGet_of_mem hr (findRef_mem h).1

/-! ### Call states -/

theorem busy_iff (st : CallState) : st.busy = true ↔ st ≠ .finished ∧ st ≠ .cancelled := by cases st <;> simp [CallState.busy]

theorem isDue_planned {plans : Tab Plan} {t : Nat} {c : CallRec} (h : isDue plans t c = true) : c.state = .planned := by
  unfold isDue at h
  split at h <;> simp_all

end Sys2Proof.Machine
end

section
/-! SUPPORT. The soundness of the notice FIFO, the counters, the pool and the call table kept: the frame of one block's
update, of the execution of a command and of the commands of the Call Register. -/

namespace Sys2Proof.Machine

/-! ### Soundness kept -/

/-- The notice FIFO, the counters, the pool and the call table stay sound. -/
structure SoundKept (s t : State) : Prop where
  fifo : FifoSound s.notices.fifo → FifoSound t.notices.fifo
  stats : StatsSound s.stats → StatsSound t.stats
  pool : PoolSound s.apl → PoolSound t.apl
  calls : CallsSound s.crg.calls → CallsSound t.crg.calls

theorem SoundKept.refl (s : State) : SoundKept s s := ⟨id, id, id, id⟩

theorem SoundKept.trans {s t u : State} (a : SoundKept s t) (b : SoundKept t u) : SoundKept s u :=
  ⟨b.fifo ∘ a.fifo, b.stats ∘ a.stats, b.pool ∘ a.pool, b.calls ∘ a.calls⟩

theorem Inner.soundKept {s t : State} (h : Inner s t) : SoundKept s t := ⟨h.fifo, h.stats, h.pool, h.calls⟩

theorem SoundKept.onTki (f : TrunkInterface → TrunkInterface) (s : State) : SoundKept s (s.onTki f) := ⟨id, id, id, id⟩
theorem SoundKept.onMgi (f : Interpreter → Interpreter) (s : State) : SoundKept s (s.onMgi f) := ⟨id, id, id, id⟩
theorem SoundKept.onSck (f : Clock → Clock) (s : State) : SoundKept s (s.onSck f) := ⟨id, id, id, id⟩
theorem SoundKept.onTru (f : TriggerUnit → TriggerUnit) (s : State) : SoundKept s (s.onTru f) := ⟨id, id, id, id⟩
theorem SoundKept.onSxe (f : ScriptExpander → ScriptExpander) (s : State) : SoundKept s (s.onSxe f) := ⟨id, id, id, id⟩
theorem SoundKept.onZar (f : ZoneArbiter → ZoneArbiter) (s : State) : SoundKept s (s.onZar f) := ⟨id, id, id, id⟩
theorem SoundKept.onPmc (f : PhraseController → PhraseController) (s : State) : SoundKept s (s.onPmc f) :=
  ⟨id, id, id, id⟩
theorem SoundKept.onLmu (f : LevelMix → LevelMix) (s : State) : SoundKept s (s.onLmu f) := ⟨id, id, id, id⟩
theorem SoundKept.onZli (f : LinkInterface → LinkInterface) (s : State) : SoundKept s (s.onZli f) := ⟨id, id, id, id⟩
theorem SoundKept.drawFree (s : State) : SoundKept s s.drawFree := ⟨id, id, id, id⟩

theorem SoundKept.onNotices {f : NoticeFifo → NoticeFifo} {s : State}
    (h : FifoSound s.notices.fifo → FifoSound (f s.notices).fifo) : SoundKept s (s.onNotices f) := ⟨h, id, id, id⟩

theorem SoundKept.onStats {f : Tab Nat → Tab Nat} {s : State} (h : StatsSound s.stats → StatsSound (f s.stats)) :
    SoundKept s (s.onStats f) := ⟨id, h, id, id⟩

/-- A change of the register that leaves the call table as it was. -/
theorem SoundKept.onCrg {f : CallRegister → CallRegister} {s : State} (h : (f s.crg).calls = s.crg.calls) :
    SoundKept s (s.onCrg f) := ⟨id, id, id, fun hc => h ▸ hc⟩

/-- A change of the pool that leaves its records and the last ann_id as they were. -/
theorem SoundKept.onApl {f : AnnouncementPool → AnnouncementPool} {s : State}
    (hr : (f s.apl).records = s.apl.records) (hl : (f s.apl).lastId = s.apl.lastId) : SoundKept s (s.onApl f) :=
  ⟨id, id, fun hp => hp.sameIds (congrArg (List.map fun r => r.annId) hr) hl, id⟩

theorem SoundKept.count (c : Counter) (s : State) : SoundKept s (count c s) := (Inner.count c s).soundKept
theorem SoundKept.countBy (c : Counter) (n : Nat) (s : State) : SoundKept s (countBy c n s) :=
  (Inner.countBy c n s).soundKept
theorem SoundKept.raise (n : Notice) (s : State) : SoundKept s (raise n s) := (Inner.raise n s).soundKept

/-- A state whose four sound parts are at their reset values. -/
theorem SoundKept.ofEmpty {s t : State} (hf : t.notices.fifo = []) (hs : t.stats = [] ∨ t.stats = s.stats)
    (hp : t.apl = AnnouncementPool.reset) (hc : t.crg.calls = []) : SoundKept s t := by
  refine ⟨fun _ => ?_, fun h => ?_, fun _ => ?_, fun _ => ?_⟩
  · rw [hf]
    simp [FifoSound]
  · rcases hs with hs | hs <;> rw [hs]
    · simp [StatsSound, tabRising]
    · exact h
  · rw [hp]
    simp [PoolSound, AnnouncementPool.reset]
  · rw [hc]
    simp [CallsSound, tabRising]

/-! ### Commands (R182) -/

theorem SoundKept.finish (m : Message) (st : Status) (body : List Byte) (s : State) :
    SoundKept s (finish m st body s) := by
  unfold Machine.finish leaveQueue answer
  simp only
  split <;> split <;> exact ⟨id, id, id, id⟩

/-- A command whose owning rule keeps soundness keeps it. -/
theorem SoundKept.runCommand {row : Row} {act : List Byte → State → Reply}
    (h : ∀ b s, SoundKept s (act b s).state) (s : State) : SoundKept s (runCommand row act s) := by
  rcases runCommand_cases row act s with ⟨_, e⟩ | ⟨m, _, ⟨_, _, e⟩ | ⟨_, _, e⟩ | ⟨_, _, e⟩⟩ <;> rw [e]
  · exact .refl s
  · exact .finish _ _ _ s
  · exact .finish _ _ _ s
  · exact (h _ s).trans (.finish ..)

/-- A load keeps what each entry taken at an index up to `hi` keeps, if the entries end there. -/
theorem SoundKept.loadEntries {take : Nat → List Byte → State → Status × State} {hi : Nat}
    (h : ∀ i b s, i ≤ hi → SoundKept s (take i b s).2) (i n : Nat) (entries : List (List Byte)) (s : State)
    (hlen : entries.length ≤ hi + 1 - i) : SoundKept s (loadEntries take i n entries s).2.2 := by
  induction entries generalizing i n s with
  | nil => exact .refl s
  | cons e rest ih =>
    rw [List.length_cons] at hlen
    unfold Machine.loadEntries
    simp only
    split
    · exact (h i e s (by omega)).trans (ih _ _ _ (by omega))
    · exact .refl s

/-- A LOAD command of as many entries as its count says keeps what each entry in range keeps. -/
theorem SoundKept.loadCommand {take : Nat → List Byte → State → Status × State} {lo hi : Nat}
    (h : ∀ i b s, i ≤ hi → SoundKept s (take i b s).2) (first count : Nat) (entries : List (List Byte)) (s : State)
    (hlen : entries.length ≤ count) : SoundKept s (loadCommand first count lo hi entries take s).state := by
  unfold Machine.loadCommand
  split
  · exact .refl s
  · split
    · exact .refl s
    · exact .loadEntries h _ _ _ _ (by omega)

theorem splitEntries_length {size : List Byte → Nat} {n : Nat} {b : List Byte} {l : List (List Byte)}
    (h : splitEntries size n b = some l) : l.length = n := by
  induction n generalizing b l with
  | zero => cases b <;> simp_all [splitEntries]
  | succ n ih =>
    rw [splitEntries] at h
    split at h
    · cases h
    · obtain ⟨rest, hrest, rfl⟩ := Option.map_eq_some_iff.1 h
      rw [List.length_cons, ih hrest]

theorem getD_splitEntries_length (size : List Byte → Nat) (n : Nat) (b : List Byte) :
    ((splitEntries size n b).getD []).length ≤ n := by
  cases h : splitEntries size n b with
  | none => simp
  | some l => simp [splitEntries_length h]

theorem SoundKept.takeParsed {α : Type} {parse : List Byte → Option α} {put : Nat → α → State → State}
    (h : ∀ i v s, SoundKept s (put i v s)) (i : Nat) (b : List Byte) (s : State) :
    SoundKept s (takeParsed parse put i b s).2 := by
  unfold Machine.takeParsed
  split
  · exact h ..
  · exact .refl s

/-- A LOAD command whose entries are parsed and written into a table keeps what the writing keeps. -/
theorem SoundKept.ofEntries {α : Type} {parse : List Byte → Option α} {put : Nat → α → State → State}
    {first n lo hi : Nat} {size : List Byte → Nat} {b : List Byte} {s : State}
    (h : ∀ i v s, SoundKept s (put i v s)) : SoundKept s (Machine.loadCommand first n lo hi
      ((splitEntries size n b).getD []) (Machine.takeParsed parse put) s).state :=
  .loadCommand (fun i b s _ => .takeParsed h i b s) _ _ _ _ (getD_splitEntries_length ..)

/-- A LOAD command of a byte count whose entries are parsed and written into a table keeps what the writing keeps. -/
theorem SoundKept.ofLoad {α : Type} {parse : List Byte → Option α} {put : Nat → α → State → State}
    {row : Row} {first n : List Byte → Nat} {rest : List Byte → List Byte} {lo hi : Nat} {size : List Byte → Nat}
    (h : ∀ i v s, SoundKept s (put i v s)) (s : State) : SoundKept s (Machine.runCommand row (fun b s =>
      Machine.loadCommand (first b) (n b) lo hi ((splitEntries size (n b) (rest b)).getD [])
        (Machine.takeParsed parse put) s) s) :=
  .runCommand (fun _ _ => .ofEntries h) s

/-! ### Sound call records (R15, R17, R20) -/

theorem byteAt_lt (b : List Byte) (i : Nat) : byteAt b i < 256 := Nat.lt_succ_of_le (byteAt_le b i)

theorem be24_lt (b : List Byte) (i : Nat) : be24 b i < 16777216 := by
  have h0 := be16_le b i
  have h1 := byteAt_le b (i + 2)
  unfold be24
  omega

theorem clampDelay_range (d : Int) : -600 ≤ clampDelay d ∧ clampDelay d ≤ 21600 := by
  unfold clampDelay
  omega

/-- The record that a load entry makes, and what check 1 of R20 asks of the entry. -/
theorem parseCallEntry_some {plans : Tab Plan} {t : Nat} {b : List Byte} {c : CallRec}
    (h : parseCallEntry plans t b = some c) :
    ∃ kind, callKindOf (byteAt b 3) = some kind ∧
      (1 ≤ be24 b 0 ∧ (tabGet plans (byteAt b 4)).isSome ∧ byteAt b 5 ≤ 40 ∧
        (flagAt b 6 0 && byteAt b 5 == 0) = false ∧ be32 b 8 ≤ Config.maxTime ∧ be16 b 16 ≤ 4095) ∧
      c = { callRef := be24 b 0, kind := kind, plan := byteAt b 4, platform := byteAt b 5, provisional := flagAt b 6 0,
            sched := be32 b 8, delay := clampDelay (signed32 b 12),
            expected := expectedTime (be32 b 8) (clampDelay (signed32 b 12)), place := be16 b 16,
            pattern := if flagAt b 6 1 then some (byteAt b 7) else none, state := .planned, stateSince := t,
            retainUntil := none,
            steps := List.replicate 8 ⟨.armed, expectedTime (be32 b 8) (clampDelay (signed32 b 12))⟩ } := by
  unfold parseCallEntry at h
  simp only at h
  split at h
  · next kind hk =>
    split at h
    · next hfits => exact ⟨kind, hk, hfits, (Option.some.inj h).symm⟩
    · cases h
  · cases h

theorem parseCallEntry_sound {plans : Tab Plan} {t : Nat} {b : List Byte} {c : CallRec}
    (h : parseCallEntry plans t b = some c) : c.Sound := by
  obtain ⟨kind, _, ⟨href, _, hplatform, hprov, hsched, hplace⟩, rfl⟩ := parseCallEntry_some h
  have hlt := be24_lt b 0
  have hdelay := clampDelay_range (signed32 b 12)
  refine ⟨href, Nat.le_of_lt_succ hlt, hplatform, fun hp hz => ?_, hsched, hdelay.1, hdelay.2, rfl, hplace,
    List.length_replicate, by simp⟩
  simp only at hp hz
  simp [hp, hz] at hprov

/-- A call that is due enters DUE sound. -/
theorem CallRec.Sound.due {c : CallRec} (h : c.Sound) {plans : Tab Plan} {t u : Nat} (hd : isDue plans t c = true) :
    ({ c with state := .due, stateSince := u } : CallRec).Sound := by
  simpa [CallRec.Sound, isDue_planned hd] using h

/-- A record entering a state that keeps its call keeps no retention. -/
theorem CallRec.Sound.enterLive {c : CallRec} (h : c.Sound) (hs : c.state.busy = true) {st : CallState}
    (hst : st.busy = true) (t : Nat) : ({ c with state := st, stateSince := t } : CallRec).Sound := by
  obtain ⟨h1, h2, h3, h4, h5, h6, h7, h8, h9, h10, h11⟩ := h
  have hnone : c.retainUntil.isSome = false := by
    cases hr : c.retainUntil with
    | none => rfl
    | some u => rcases h11.1 (by simp [hr]) with he | he <;> simp [he, CallState.busy] at hs
  refine ⟨h1, h2, h3, h4, h5, h6, h7, h8, h9, h10, ?_⟩
  simp only [hnone]
  cases st <;> simp_all [CallState.busy]

/-- A record that ends has a retention. -/
theorem CallRec.Sound.enterEnded {c : CallRec} (h : c.Sound) {st : CallState} (hst : st.busy = false) (t u : Nat) :
    ({ c with retainUntil := some u, state := st, stateSince := t } : CallRec).Sound := by
  obtain ⟨h1, h2, h3, h4, h5, h6, h7, h8, h9, h10, h11⟩ := h
  refine ⟨h1, h2, h3, h4, h5, h6, h7, h8, h9, h10, ?_⟩
  cases st <;> simp_all [CallState.busy]

/-! ### The Call Register's commands (R18 to R33) -/

/-- A record written into a slot with its due check, sound and of a call_ref that no other slot holds. -/
theorem SoundKept.putDueChecked {slot : Nat} {c : CallRec} {s : State} (e : TriggerEvent) (hslot : slot ≤ 511)
    (hc : c.Sound) (href : CallsSound s.crg.calls → ∀ p ∈ s.crg.calls, p.1 ≠ slot → p.2.callRef ≠ c.callRef) :
    SoundKept s (putDueChecked slot c e s) := by
  rw [putDueChecked_eq]
  split
  · next hd =>
    exact ⟨id, id, fun h => h.sameIds rfl rfl, fun h => h.put (c := { c with state := .due, stateSince := s.sck.time })
      hslot (hc.due hd) (href h)⟩
  · exact ⟨id, id, fun h => h.sameIds rfl rfl, fun h => h.put hslot hc (href h)⟩

theorem SoundKept.takeCallEntry (slot : Nat) (b : List Byte) (s : State) (hslot : slot ≤ 511) :
    SoundKept s (takeCallEntry slot b s).2 := by
  unfold Machine.takeCallEntry
  split
  · exact .refl s
  · next c hparse =>
    split
    · exact .refl s
    · split
      · exact .refl s
      · next href =>
        refine (Inner.removeCall slot s).soundKept.trans
          (.putDueChecked _ hslot (parseCallEntry_sound hparse) fun _ p hp hne he => href ?_)
        have hmem : p ∈ s.crg.calls := by
          unfold Machine.removeCall at hp
          split at hp
          · exact mem_tabDel hp
          · exact hp
        simpa using ⟨p.1, p.2, hmem, hne, he⟩

/-- A record changed in its slot, its call_ref kept, with the events passed for it. -/
theorem SoundKept.withCall {slot : Nat} {old c : CallRec} {es : List TriggerEvent} {ps : List PoolEvent} {s : State}
    (hg : CallsSound s.crg.calls → s.callAt slot = some old) (hr : c.callRef = old.callRef)
    (hc : old.Sound → c.Sound) : SoundKept s (withCall slot c es ps s) :=
  ⟨id, id, fun h => h.sameIds rfl rfl, fun h => h.change (hg h) hr hc⟩

/-- An update of the call in a slot keeps soundness, whatever its operand. -/
def UpdateSound (act : Nat → CallRec → List Byte → State → Status × State) : Prop :=
  ∀ slot c b s, (CallsSound s.crg.calls → s.callAt slot = some c) → SoundKept s (act slot c b s).2

theorem UpdateSound.arrive : UpdateSound arrive := by
  intro slot c b s hg
  rw [arrive_eq]
  split
  · next hst =>
    split
    · exact .refl s
    · refine .withCall hg rfl (fun h => ?_)
      have hn : ({ c with provisional := false } : CallRec).Sound := by
        obtain ⟨h1, h2, h3, _, h5⟩ := h
        exact ⟨h1, h2, h3, nofun, h5⟩
      exact hn.enterLive ((busy_iff _).2 (by rcases hst with h | h <;> simp [h])) rfl _
  · split <;> exact .refl s

theorem UpdateSound.depart : UpdateSound depart := by
  intro slot c b s hg
  rw [depart_eq]
  split
  · exact .refl s
  · split
    · next hst => exact .withCall hg rfl (fun h => h.enterLive (by rw [hst]; rfl) rfl _)
    · split <;> exact .refl s

theorem UpdateSound.gone : UpdateSound gone := by
  intro slot c b s hg
  rw [gone_eq]
  split
  · exact .withCall hg rfl (fun h => h.enterEnded rfl _ _)
  · split <;> exact .refl s

theorem UpdateSound.cancel : UpdateSound cancel := by
  intro slot c b s hg
  rw [cancel_eq]
  split
  · exact .refl s
  · split
    · exact .refl s
    · exact .withCall hg rfl (fun h => h.enterEnded rfl _ _)

theorem UpdateSound.changeDelay : UpdateSound changeDelay := by
  intro slot c b s hg
  rw [changeDelay_eq]
  split
  · exact .refl s
  · split
    · exact .refl s
    · have hd := clampDelay_range (signed32 b 0)
      have hc : c.Sound → ({ c with
          delay := clampDelay (signed32 b 0)
          expected := expectedTime c.sched (clampDelay (signed32 b 0)) } : CallRec).Sound := by
        rintro ⟨h1, h2, h3, h4, h5, _, _, _, h9⟩
        exact ⟨h1, h2, h3, h4, h5, hd.1, hd.2, rfl, h9⟩
      rw [putDueChecked_eq]
      split
      · next hdue => exact .withCall hg rfl (fun h => (hc h).due hdue)
      · exact .withCall hg rfl hc

theorem UpdateSound.changePlatform : UpdateSound changePlatform := by
  intro slot c b s hg
  rw [changePlatform_eq]
  split
  · exact .refl s
  · next hv =>
    split
    · rw [putPlatformOf_eq]
      refine .withCall hg rfl ?_
      rintro ⟨h1, h2, _, _, h5⟩
      have hp : byteAt b 0 ≤ 40 := by omega
      exact ⟨h1, h2, hp, fun hf hp => hv (.inr ⟨hp, hf⟩), h5⟩
    · exact .refl s

/-- UPDATE_CALL keeps what its update keeps. -/
theorem SoundKept.updateCall {act : Nat → CallRec → List Byte → State → Status × State} (h : UpdateSound act)
    (b : List Byte) (s : State) : SoundKept s (updateCall act b s).state := by
  unfold Machine.updateCall
  split
  · exact .refl s
  · split
    · exact .refl s
    · split
      · exact .refl s
      · next hf => exact h _ _ _ _ fun hs => callAt_of_findRef hs.1 hf

end Sys2Proof.Machine
end

section
/-! SUPPORT. The rows of the table that keep the notice FIFO, the counters, the pool and the call table sound: one lemma
for each row or operation that is not kept by the lemmas of the shared operations alone. -/

namespace Sys2Proof.Machine

/-! ### Zones (R112 to R115) -/

theorem SoundKept.takeZoneEntry (z : Nat) (b : List Byte) (s : State) : SoundKept s (takeZoneEntry z b s).2 := by
  unfold Machine.takeZoneEntry
  split <;> exact ⟨id, id, id, id⟩

theorem SoundKept.passAfterLoad {r : Reply} {s : State} (h : SoundKept s r.state) :
    SoundKept s (passAfterLoad r).state := by
  unfold Machine.passAfterLoad
  split
  · exact h
  · exact h.trans (Inner.causePass _).soundKept

/-! ### The Announcement Pool's commands (R90 to R103) -/

theorem SoundKept.createFor (a : Ask) (s : State) : SoundKept s (createFor a s).state := by
  unfold Machine.createFor
  split
  · next h => exact (Inner.createRecord h).soundKept
  · exact .refl s

theorem SoundKept.answerHeld {act : Nat → State → State} (h : ∀ id s, SoundKept s (act id s)) (b : List Byte)
    (s : State) : SoundKept s (answerHeld act b s).state := by
  unfold Machine.answerHeld
  split
  · exact .refl s
  · split
    · exact h ..
    · exact .refl s
    · exact .refl s

theorem SoundKept.execAnnounce {s t : State} (h : execAnnounce s = .next t) : SoundKept s t := by
  cases h
  refine .runCommand (fun b s => ?_) s
  split
  · exact .refl s
  · split
    · exact .refl s
    · exact .createFor ..
  · split
    · exact .refl s
    · exact .createFor ..

theorem SoundKept.execLivePageBegin {s t : State} (h : execLivePageBegin s = .next t) : SoundKept s t := by
  cases h
  refine .runCommand (fun b s => ?_) s
  split
  · exact .refl s
  · split
    · exact .refl s
    · split
      · exact .refl s
      · simp only
        split
        · next hc => exact ((SoundKept.drawFree s).trans (Inner.createRecord hc).soundKept).trans ⟨id, id, id, id⟩
        · exact .refl s

theorem SoundKept.execLivePageEnd {s t : State} (h : execLivePageEnd s = .next t) : SoundKept s t := by
  cases h
  refine .runCommand (fun b s => ?_) s
  split
  · exact .refl s
  · split
    · exact .refl s
    · simp only [reply]
      split
      · exact (Inner.completeRecord ..).soundKept
      · exact (Inner.endRecord ..).soundKept

theorem SoundKept.execEmergencyBegin {s t : State} (h : execEmergencyBegin s = .next t) : SoundKept s t := by
  cases h
  refine .runCommand (fun b s => ?_) s
  split
  · exact .refl s
  · split
    · exact .refl s
    · simp only
      split
      · next hc =>
        exact ((Inner.makeRoom s).soundKept.trans (.drawFree _)).trans (Inner.createRecord hc).soundKept
      · exact .count ..

theorem SoundKept.execEmergencyEnd {s t : State} (h : execEmergencyEnd s = .next t) : SoundKept s t := by
  cases h
  refine .runCommand (fun b s => ?_) s
  split
  · exact (Inner.endEmergencies ..).soundKept
  · split
    · exact .refl s
    · split
      · exact (Inner.endEmergencies ..).soundKept
      · exact .refl s

theorem SoundKept.execWithdraw {s t : State} (h : execWithdraw s = .next t) : SoundKept s t := by
  cases h
  refine .runCommand (fun b s => ?_) s
  split
  · exact .refl s
  · exact (Inner.endAnn ..).soundKept

/-! ### Other commands -/

/-- A command whose owning rule gives the state back keeps soundness. -/
theorem SoundKept.ofRead {act : List Byte → State → Reply} (h : ∀ b s, (act b s).state = s) (row : Row) (s : State) :
    SoundKept s (Machine.runCommand row act s) := .runCommand (fun b s => by rw [h]; exact .refl s) s

theorem SoundKept.execReadCall {s t : State} (h : execReadCall s = .next t) : SoundKept s t := by
  cases h
  refine .runCommand (fun b s => ?_) s
  split
  · split
    · exact .refl s
    · split <;> exact .refl s
  · split
    · exact .refl s
    · split <;> exact .refl s
  · exact .refl s

theorem SoundKept.execFreeCall {s t : State} (h : execFreeCall s = .next t) : SoundKept s t := by
  cases h
  refine .runCommand (fun b s => ?_) s
  split
  · exact .refl s
  · split
    · exact .refl s
    · split
      · exact .refl s
      · split
        · exact .refl s
        · exact (Inner.removeCall ..).soundKept

theorem SoundKept.execMonitor {s t : State} (h : execMonitor s = .next t) : SoundKept s t := by
  cases h
  refine .runCommand (fun b s => ?_) s
  split
  · exact ⟨id, id, id, id⟩
  · split
    · exact .refl s
    · exact ⟨id, id, id, id⟩

/-! ### Phrase memory (R145 to R151) -/

theorem SoundKept.beginWrite (m : Message) (s : State) : SoundKept s (beginWrite m s) := by
  unfold Machine.beginWrite
  simp only
  split
  · exact .finish ..
  · split
    · exact .finish ..
    · split
      · exact .finish ..
      · exact .onPmc ..

theorem SoundKept.execWritePhrase {s t : State} (h : execWritePhrase s = .next t) : SoundKept s t := by
  unfold Machine.execWritePhrase at h
  split at h
  · cases h; exact .refl s
  · split at h
    · cases h; exact .finish ..
    · split at h
      · cases h; exact .finish ..
      · cases h; exact .beginWrite ..

theorem SoundKept.finishHead (st : Status) (s : State) : SoundKept s (finishHead st s) := by
  unfold Machine.finishHead
  split
  · exact .finish ..
  · exact .refl s

theorem SoundKept.execPhraseWriteStart {s t : State} (h : execPhraseWriteStart s = .next t) : SoundKept s t := by
  unfold Machine.execPhraseWriteStart at h
  split at h
  · split at h
    · split at h
      · cases h; exact (SoundKept.onPmc ..).trans (.finishHead ..)
      · cases h; exact .onPmc ..
    · cases h; exact .refl s
  · cases h; exact .refl s

theorem SoundKept.execPhraseWriteComplete {s t : State} (h : execPhraseWriteComplete s = .next t) :
    SoundKept s t := by
  unfold Machine.execPhraseWriteComplete at h
  split at h
  · split at h
    · cases h; exact (SoundKept.onPmc ..).trans (.finishHead ..)
    · cases h; exact .refl s
  · cases h; exact .refl s

theorem SoundKept.grantFetch (s : State) : SoundKept s (grantFetch s) := by
  unfold Machine.grantFetch
  split
  · exact ⟨id, id, id, id⟩
  · split <;> exact ⟨id, id, id, id⟩

theorem SoundKept.execFetchGrant {s t : State} (h : execFetchGrant s = .next t) : SoundKept s t := by
  unfold Machine.execFetchGrant at h
  split at h
  · cases h; exact .grantFetch s
  · cases h; exact .refl s

theorem SoundKept.execBurstCompletion {s t : State} (h : execBurstCompletion s = .next t) : SoundKept s t := by
  unfold Machine.execBurstCompletion at h
  split at h
  · cases h; exact (SoundKept.onPmc ..).trans (Inner.updChannel ..).soundKept
  · cases h; exact .refl s

/-! ### Channels (R143, R144, R147) -/

theorem SoundKept.execChannelEnd {c : Nat} {first : Bool} {s t : State} (h : execChannelEnd c first s = .next t) :
    SoundKept s t := by
  unfold Machine.execChannelEnd at h
  simp only at h
  split at h
  · split at h
    · cases h; exact (Inner.updChannel ..).soundKept
    · cases h; exact (Inner.endChannel ..).soundKept
  · cases h; exact .refl s

theorem SoundKept.execUnderrunAbort {c : Nat} {s t : State} (h : execUnderrunAbort c s = .next t) :
    SoundKept s t := by
  unfold Machine.execUnderrunAbort at h
  simp only at h
  split at h
  · split at h
    · cases h; exact (Inner.endAnn ..).soundKept
    · cases h; exact .refl s
  · cases h; exact .refl s

theorem SoundKept.execGapEnd {c : Nat} {s t : State} (h : execGapEnd c s = .next t) : SoundKept s t := by
  unfold Machine.execGapEnd at h
  simp only at h
  split at h
  · cases h; exact (Inner.updChannel ..).soundKept
  · cases h; exact .refl s

/-! ### Events and changes of T (R4, R34) -/

theorem SoundKept.handOn (ch : TimeChange) (s : State) : SoundKept s (handOn ch s) :=
  ⟨id, id, fun h => h.sameIds rfl rfl, id⟩

theorem SoundKept.noteChange (m : Nat) (s : State) : SoundKept s (noteChange m s) := by
  unfold Machine.noteChange
  split
  · exact .refl s
  · exact .handOn ..

theorem SoundKept.execRetention {slot : Nat} {s t : State} (h : execRetention slot s = .next t) : SoundKept s t := by
  unfold Machine.execRetention at h
  split at h
  · split at h
    · cases h; exact (Inner.removeCall ..).soundKept
    · cases h; exact .onCrg rfl
  · cases h; exact .refl s

theorem SoundKept.takeEventOf (kind : TriggerEvent → Bool) (slot : Nat) (s : State) :
    SoundKept s (takeEventOf kind slot s) := by
  unfold Machine.takeEventOf
  split
  · split
    · exact (SoundKept.onTru ..).trans (Inner.takeTriggerEvent ..).soundKept
    · exact .refl s
  · exact .refl s

theorem SoundKept.takePoolEvent {act : CallEvent PoolEvent → State → State} (h : ∀ e s, Inner s (act e s))
    (kind : PoolEvent → Bool) (slot : Nat) (s : State) : SoundKept s (takePoolEvent kind act slot s) := by
  unfold Machine.takePoolEvent
  split
  · split
    · exact (SoundKept.onApl rfl rfl).trans (h ..).soundKept
    · exact .refl s
  · exact .refl s

theorem SoundKept.execCallRegisterTimeChange {s t : State} (h : execCallRegisterTimeChange s = .next t) :
    SoundKept s t := by
  unfold Machine.execCallRegisterTimeChange at h
  split at h
  · cases h; exact (SoundKept.onCrg rfl).trans (Inner.dueChecks ..).soundKept
  · cases h; exact .refl s

theorem SoundKept.execTriggerEvaluation {s t : State} (h : execTriggerEvaluation s = .next t) : SoundKept s t := by
  unfold Machine.execTriggerEvaluation at h
  split at h
  · cases h
    exact (SoundKept.onTru ..).trans ((Inner.cleanRetry ..).trans (Inner.evaluateAll ..)).soundKept
  · cases h; exact .refl s

theorem SoundKept.execCompleted {s t : State} (h : execCompleted s = .next t) : SoundKept s t := by
  unfold Machine.execCompleted at h
  split at h
  · cases h; exact (SoundKept.onTru ..).trans (Inner.takeCompletion ..).soundKept
  · cases h; exact .refl s

theorem SoundKept.execPoolJudgement {s t : State} (h : execPoolJudgement s = .next t) : SoundKept s t := by
  unfold Machine.execPoolJudgement at h
  split at h
  · cases h; exact (SoundKept.onApl rfl rfl).trans (Inner.leaveQueuedAll ..).soundKept
  · cases h; exact .refl s

theorem SoundKept.execHoldTimeout {id : Nat} {s t : State} (h : execHoldTimeout id s = .next t) : SoundKept s t := by
  unfold Machine.execHoldTimeout at h
  split at h
  · cases h; exact (SoundKept.onApl rfl rfl).trans (Inner.timeOutHold ..).soundKept
  · cases h; exact .refl s

theorem SoundKept.execExpiry {id : Nat} {s t : State} (h : execExpiry id s = .next t) : SoundKept s t := by
  unfold Machine.execExpiry at h
  split at h
  · cases h; exact (SoundKept.onApl rfl rfl).trans (Inner.expireAnn ..).soundKept
  · cases h; exact .refl s

/-! ### The zone link -/

theorem SoundKept.setLink (z : Nat) (st : LinkState) (s : State) : SoundKept s (setLink z st s) := by
  unfold Machine.setLink
  simp only
  split
  · exact .onZli ..
  · exact (SoundKept.onZli ..).trans (Inner.judgeAvailability ..).soundKept

theorem SoundKept.followSensor (z : Nat) (a : Ambient) (line : LinkState) (s : State) :
    SoundKept s (followSensor z a line s) := by
  unfold Machine.followSensor
  simp only
  split
  · exact .refl s
  · exact (SoundKept.onZli ..).trans (.raise ..)

theorem SoundKept.takeReport (z : Nat) (line : LinkState) (a : Ambient) (first : Bool) (s : State) :
    SoundKept s (takeReport z line a first s) := by
  have taken : SoundKept s (((Machine.count (.reportsReceived z) s).updLink z fun l =>
      { l with age := 0, lastLine := some line, lastAmbient := some a }).onLmu
      fun l => { l with readings := l.readings ++ [(z, a)] }) :=
    ((SoundKept.count ..).trans (.onZli ..)).trans (.onLmu ..)
  unfold Machine.takeReport
  simp only
  split
  · exact taken.trans ((SoundKept.setLink ..).trans (.followSensor ..))
  · exact taken.trans ((SoundKept.followSensor ..).trans (.setLink ..))

theorem SoundKept.execZoneReport {report : ZoneReport} {s t : State} (h : execZoneReport report s = .next t) :
    SoundKept s t := by
  unfold Machine.execZoneReport at h
  split at h
  · cases h; exact .refl s
  · split at h
    · split at h
      · cases h; exact .takeReport ..
      · cases h; exact .count ..
    · cases h; exact .count ..

theorem SoundKept.execLinkLost {z : Nat} {s t : State} (h : execLinkLost z s = .next t) : SoundKept s t := by
  unfold Machine.execLinkLost at h
  split at h
  · cases h; exact .setLink ..
  · cases h; exact .refl s

theorem SoundKept.applyAmbient (z : Nat) (a : Ambient) (s : State) : SoundKept s (applyAmbient z a s) := by
  unfold Machine.applyAmbient
  split
  · exact .onLmu ..
  · split
    · exact .count ..
    · exact .onLmu ..

theorem SoundKept.execAmbientReading {z : Nat} {s t : State} (h : execAmbientReading z s = .next t) :
    SoundKept s t := by
  unfold Machine.execAmbientReading at h
  split at h
  · cases h; exact (SoundKept.onLmu ..).trans (.applyAmbient ..)
  · cases h; exact .refl s

theorem SoundKept.execStreamLost {n : Nat} {s t : State} (h : execStreamLost n s = .next t) : SoundKept s t := by
  unfold Machine.execStreamLost at h
  simp only at h
  split at h
  · split at h
    · cases h; exact (SoundKept.onTki ..).trans (Inner.endAnn ..).soundKept
    · cases h; exact .onTki ..
  · cases h; exact .refl s

theorem SoundKept.execBlock {s t : State} (h : execBlock s = .next t) : SoundKept s t := by
  unfold Machine.execBlock at h
  split at h
  · cases h; exact .refl s
  · cases h; exact ⟨id, id, id, id⟩

/-! ### The trunk -/

/-- The oldest notice leaves the FIFO (R183). -/
theorem FifoSound.pop {n : Notice} {rest : List Notice} (h : FifoSound (n :: rest)) : FifoSound rest := by
  obtain ⟨hlen, hlast, _⟩ := h
  rw [List.length_cons] at hlen
  refine ⟨by omega, fun x hx => ?_, fun _ => by omega⟩
  cases rest with
  | nil => cases hx
  | cons y more => exact hlast x (by rw [List.dropLast_cons_cons]; exact List.mem_cons_of_mem _ hx)

theorem SoundKept.sendUpstream (s : State) : SoundKept s (sendUpstream s) := by
  have hm : ∀ message k u, SoundKept u (sendManagement message k u) := fun _ _ _ => ⟨id, id, id, id⟩
  unfold Machine.sendUpstream
  split
  · exact ⟨id, id, id, id⟩
  · split
    · exact ⟨id, id, id, id⟩
    · split
      · unfold sendResponse
        simp only
        split <;> exact (hm ..).trans (.onTki ..)
      · split
        · next hf => exact (SoundKept.onNotices fun h => FifoSound.pop (hf ▸ h)).trans (hm ..)
        · exact .refl s

theorem SoundKept.appendCell (n seq : Nat) (samples : List Sample) (s : State) :
    SoundKept s (appendCell n seq samples s) := by
  unfold Machine.appendCell
  split
  · exact .onTki ..
  · exact (SoundKept.onTki ..).trans (.count ..)

theorem SoundKept.takeAudio (n seq : Nat) (samples : List Sample) (s : State) :
    SoundKept s (takeAudio n seq samples s) := by
  have taken : SoundKept s (Machine.count (.cells n) (s.updStream n fun b => { b with age := 0 })) :=
    (SoundKept.onTki ..).trans (.count ..)
  unfold Machine.takeAudio
  simp only
  split
  · exact taken.trans (.appendCell ..)
  · split
    · exact taken.trans (.appendCell ..)
    · split
      · exact taken.trans ((((SoundKept.count ..).trans (.countBy ..)).trans (.onTki ..)).trans (.appendCell ..))
      · exact taken.trans (.count ..)

theorem SoundKept.discardPartial (s : State) : SoundKept s (discardPartial s) := by
  unfold Machine.discardPartial
  split
  · exact (SoundKept.onTki ..).trans (.count ..)
  · exact .refl s

theorem SoundKept.offerMessage (m : Message) (s : State) : SoundKept s (offerMessage m s) := by
  unfold Machine.offerMessage
  split
  · simp only
    split <;> exact ⟨id, id, id, id⟩
  · exact (SoundKept.count ..).trans (.raise ..)

theorem SoundKept.completeMessage (broadcast : Bool) (data : List Byte) (s : State) :
    SoundKept s (completeMessage broadcast data s) := by
  unfold Machine.completeMessage
  simp only
  split
  · split
    · exact .offerMessage ..
    · exact .count ..
  · exact .count ..

theorem SoundKept.takeManagement (segment seq : Nat) (broadcast : Bool) (payload : List Byte) (s : State) :
    SoundKept s (takeManagement segment seq broadcast payload s) := by
  unfold Machine.takeManagement
  split
  · exact (SoundKept.discardPartial s).trans (.completeMessage ..)
  · exact (SoundKept.discardPartial s).trans (.onTki ..)
  · split
    · exact .count ..
    · split
      · split
        · exact (SoundKept.onTki ..).trans (.completeMessage ..)
        · exact .onTki ..
      · exact .discardPartial s

theorem SoundKept.execReassemblyTimeout {s t : State} (h : execReassemblyTimeout s = .next t) : SoundKept s t := by
  unfold Machine.execReassemblyTimeout at h
  split at h
  · split at h
    · cases h; exact .discardPartial s
    · cases h; exact .refl s
  · cases h; exact .refl s

/-! ### The clock (R3, R5, R8) -/

theorem SoundKept.enterFreewheel (s : State) : SoundKept s (enterFreewheel s) := by
  unfold Machine.enterFreewheel
  split
  · exact (SoundKept.onSck ..).trans (.raise ..)
  · exact .refl s

theorem SoundKept.setTime (m : Nat) (s : State) : SoundKept s (setTime m s) := by
  unfold Machine.setTime
  split
  · exact .refl s
  · exact (SoundKept.onSck ..).trans (.handOn ..)

theorem SoundKept.applyMark (day m : Nat) (s : State) : SoundKept s (applyMark day m s) := by
  have unentered : ∀ u : State, u.sck.entering = none → SoundKept u (Machine.applyMark day m u) := fun u hu => by
    rw [applyMark_eq hu]
    refine ((SoundKept.noteChange m u).trans ?_).trans ((SoundKept.onSck ..).trans (.count ..))
    refine SoundKept.trans (t := noteStep m u (Machine.noteChange m u)) ?_ ?_
    · unfold noteStep
      split
      · exact (SoundKept.raise ..).trans (.count ..)
      · exact .refl _
    · unfold noteLeave
      split
      · exact .raise ..
      · exact .refl _
  rw [← applyMark_enterFreewheel]
  exact (SoundKept.enterFreewheel s).trans (unentered _ (by rw [enterFreewheel_sck]))

theorem SoundKept.elapseSecond (s : State) : SoundKept s (elapseSecond s) := by
  by_cases h : s.sck.time < 107999
  · rw [elapseSecond_below h]
    exact (SoundKept.onSck (fun c => c.ticked) s).trans (.handOn ..)
  · rw [elapseSecond_last h]
    refine SoundKept.trans ?_ (.handOn ..)
    split
    · exact (SoundKept.onSck (fun c => { c.ticked with overrun := true }) s).trans (.raise ..)
    · exact .onSck (fun c => c.ticked) s

theorem SoundKept.openDay (day hour t : Nat) (s : State) : SoundKept s (openDay day hour t s) := by
  rw [openDay_eq]
  exact ((SoundKept.noteChange ..).trans (.onSck ..)).trans (.onMgi ..)

/-- CLOSE_DAY empties the call table and ends records (R10, R40). -/
theorem SoundKept.closeDay (s : State) : SoundKept s (closeDay s) := by
  have hclosed : SoundKept s (closedDay s) :=
    ⟨id, id, fun h => h.sameIds rfl rfl, fun _ => by simp [closedDay, CallsSound, tabRising]⟩
  exact hclosed.trans (closeDay_inner s).soundKept

theorem SoundKept.takeCell (cell : List Byte) (s : State) : SoundKept s (takeCell cell s) := by
  unfold Machine.takeCell
  split
  · exact .count ..
  · split
    · exact .count ..
    · split
      · exact .refl s
      · simp only
        split
        · split
          · exact .takeAudio ..
          · exact .count ..
        · split
          · exact .takeManagement ..
          · exact .count ..
        · unfold takeMark
          split
          · exact .count ..
          · split
            · exact .count ..
            · exact .applyMark ..
        · exact .count ..

theorem SoundKept.runSample (s : State) : SoundKept s (runSample s) := by
  have hhand : ∀ cell u, SoundKept u (handMonitor cell u) := fun cell u => by
    unfold handMonitor
    split
    · exact .onTki ..
    · exact (SoundKept.onTki ..).trans (.count ..)
  have hsend : ∀ outputs u, SoundKept u (sendOutputs outputs u) := fun outputs u => by
    unfold sendOutputs gatherMonitor
    split
    · exact .onZli ..
    · simp only
      split
      · exact (SoundKept.onZli ..).trans (.onLmu ..)
      · refine SoundKept.trans (t := State.onLmu _ (State.onZli _ u)) ⟨id, id, id, id⟩ (hhand ..)
  have hdeliver : SoundKept s (deliverStreams s) := (SoundKept.onSck ..).trans (.onTki ..)
  unfold Machine.runSample
  simp only
  exact (hdeliver.trans ((Inner.channelOutputs ..).trans (Inner.mixZones ..)).soundKept).trans (hsend ..)

/-! ### Resets (R186, R187, R188) -/

theorem SoundKept.resetBlocks (straps : Byte) (cause : ResetCause) (keep : Bool) (s : State) :
    SoundKept s (resetBlocks straps cause keep s) := .ofEmpty rfl (.inl rfl) rfl rfl

theorem SoundKept.endSelfCheck (r : SelfCheckResult) (s : State) : SoundKept s (endSelfCheck r s) := by
  have restored : SoundKept s (restoreStores s) := .ofEmpty rfl (.inr rfl) rfl rfl
  unfold Machine.endSelfCheck
  exact ((restored.trans (.onMgi ..)).trans (.onSck ..)).trans (.raise ..)

/-! ### Every step -/

/-- Every command keeps soundness. -/
theorem SoundKept.ofCommand {i : Instr} {s t : State} (hc : isCommand i = true) (h : exec i s = .next t) :
    SoundKept s t := by
  cases i with
  | unknownCommandCode =>
    simp only [exec, execUnknownCommandCode] at h
    split at h
    · split at h
      · cases h; exact .finish ..
      · cases h; exact .refl s
    · cases h; exact .refl s
  | readStatus => cases h; exact .ofRead (fun _ _ => rfl) _ s
  | readStats =>
    cases h
    refine .runCommand (fun b s => ?_) s
    simp only [reply]
    split
    · exact .onStats fun _ => by simp [StatsSound, tabRising]
    · exact .refl s
  | setNoticeMask => cases h; exact .runCommand (fun _ _ => ⟨id, id, id, id⟩) s
  | resetPartFull => cases h; exact .runCommand (fun _ _ => ⟨id, id, id, id⟩) s
  | resetPartKeepPhrases => cases h; exact .runCommand (fun _ _ => ⟨id, id, id, id⟩) s
  | resetPartBadOption => cases h; exact .ofRead (fun _ _ => rfl) _ s
  | openDay =>
    cases h
    refine .runCommand (fun b s => ?_) s
    split
    · exact .refl s
    · split
      · exact .refl s
      · exact .openDay ..
  | closeDay =>
    cases h
    refine .runCommand (fun b s => ?_) s
    split
    · exact .closeDay s
    · exact .refl s
  | loadCalls =>
    cases h
    refine .runCommand (fun b s => ?_) s
    split
    · exact .refl s
    · exact .loadCommand SoundKept.takeCallEntry _ _ _ _ (getD_splitEntries_length ..)
  | updateCallArrived => cases h; exact .runCommand (.updateCall .arrive) s
  | updateCallDeparting => cases h; exact .runCommand (.updateCall .depart) s
  | updateCallGone => cases h; exact .runCommand (.updateCall .gone) s
  | updateCallCancel => cases h; exact .runCommand (.updateCall .cancel) s
  | updateCallDelay => cases h; exact .runCommand (.updateCall .changeDelay) s
  | updateCallPlatform => cases h; exact .runCommand (.updateCall .changePlatform) s
  | updateCallBadUpdate => cases h; exact .runCommand (.updateCall fun _ _ _ s _ => .refl s) s
  | freeCall => exact .execFreeCall h
  | readCall => exact .execReadCall h
  | loadPatterns => cases h; exact .ofLoad (fun _ _ _ => .onCrg rfl) ..
  | readPattern => cases h; exact .ofRead (fun _ _ => rfl) _ s
  | loadPlans => cases h; exact .ofLoad (fun _ _ _ => .onTru ..) ..
  | readPlan => cases h; exact .ofRead (fun b s => by split <;> rfl) _ s
  | loadScripts => cases h; exact .ofLoad (fun _ _ _ => .onSxe ..) ..
  | loadNumbers => cases h; exact .ofLoad (fun _ _ _ => .onSxe ..) ..
  | loadFragments => cases h; exact .ofLoad (fun _ _ _ => .onSxe ..) ..
  | readScript => cases h; exact .ofRead (fun _ _ => rfl) _ s
  | readNumbers => cases h; exact .ofRead (fun _ _ => readRange_state ..) _ s
  | readFragments => cases h; exact .ofRead (fun _ _ => readRange_state ..) _ s
  | announce => exact .execAnnounce h
  | livePageBegin => exact .execLivePageBegin h
  | livePageEnd => exact .execLivePageEnd h
  | emergencyBegin => exact .execEmergencyBegin h
  | emergencyEnd => exact .execEmergencyEnd h
  | confirm => cases h; exact .runCommand (.answerHeld fun _ _ => (Inner.enterReady ..).soundKept) s
  | reject => cases h; exact .runCommand (.answerHeld fun _ _ => (Inner.endRecord ..).soundKept) s
  | withdraw => exact .execWithdraw h
  | clearAnnouncements => cases h; exact .runCommand (fun _ _ => (Inner.endRecords ..).soundKept) s
  | readAnnouncement => cases h; exact .ofRead (fun b s => by split <;> rfl) _ s
  | readPool => cases h; exact .ofRead (fun _ _ => rfl) _ s
  | loadZones =>
    cases h
    refine .runCommand (fun b s => .passAfterLoad ?_) s
    exact (SoundKept.loadCommand (fun _ _ _ _ => .takeZoneEntry ..) _ _ _ _ (getD_splitEntries_length ..)).trans
      (Inner.judgeEnabled ..).soundKept
  | loadPlatformMap => cases h; exact .runCommand (fun _ _ => .passAfterLoad (.ofEntries fun _ _ _ => .onZar ..)) s
  | loadGroups => cases h; exact .runCommand (fun _ _ => .passAfterLoad (.ofEntries fun _ _ _ => .onZar ..)) s
  | readZones => cases h; exact .ofRead (fun _ _ => readRange_state ..) _ s
  | readMaps => cases h; exact .ofRead (fun _ _ => rfl) _ s
  | writePhrase => exact .execWritePhrase h
  | readChannel => cases h; exact .ofRead (fun b s => by split <;> rfl) _ s
  | monitor => exact .execMonitor h
  | readLevels => cases h; exact .ofRead (fun _ _ => readRange_state ..) _ s
  | readLink => cases h; exact .ofRead (fun _ _ => readRange_state ..) _ s
  | _ => cases hc

/-- Every row that is no command keeps soundness. -/
theorem SoundKept.ofEvent {i : Instr} {s t : State} (hc : isCommand i = false) (h : exec i s = .next t) :
    SoundKept s t := by
  cases i with
  | powerOnReset => cases h; exact .resetBlocks ..
  | resetAfterResponse straps =>
    simp only [exec, execResetAfterResponse] at h
    split at h
    · next option _ =>
      split at h
      · cases h
        obtain ⟨cause, keep, e⟩ := partReset_eq straps option s
        rw [e]
        exact .resetBlocks ..
      · cases h; exact .refl s
    · cases h; exact .refl s
  | selfCheckEnd =>
    simp only [exec, execSelfCheckEnd] at h
    split at h
    · cases h; exact .endSelfCheck ..
    · cases h; exact .refl s
  | secondElapses =>
    simp only [exec, execSecondElapses] at h
    split at h
    · cases h; exact .refl s
    · cases h; exact .elapseSecond s
  | freewheelEntered =>
    simp only [exec, execFreewheelEntered] at h
    split at h
    · cases h; exact .refl s
    · cases h; exact .enterFreewheel s
  | samplePeriod =>
    simp only [exec, execSamplePeriod] at h
    split at h
    · cases h; exact .onZli ..
    · injection h with h
      exact h ▸ .runSample s
  | downstreamCell => cases h; exact .takeCell ..
  | reassemblyTimeout => exact .execReassemblyTimeout h
  | upstreamSend => cases h; exact .sendUpstream s
  | callRegisterTimeChange => exact .execCallRegisterTimeChange h
  | retention => exact .execRetention h
  | triggerEvaluation => exact .execTriggerEvaluation h
  | loaded => cases h; exact .takeEventOf ..
  | stateEntry => cases h; exact .takeEventOf ..
  | delayChange => cases h; exact .takeEventOf ..
  | platformSet => cases h; exact .takeEventOf ..
  | platformChange => cases h; exact .takeEventOf ..
  | platformCleared => cases h; exact .takeEventOf ..
  | completed => exact .execCompleted h
  | poolJudgement => exact .execPoolJudgement h
  | platformMoved => cases h; exact .takePoolEvent (fun _ _ => Inner.movePlatform ..) ..
  | cancelled => cases h; exact .takePoolEvent (fun _ _ => Inner.endAnns ..) ..
  | provisionalCleared => cases h; exact .takePoolEvent (fun _ _ => Inner.enterReadyAll ..) ..
  | callRemoved => cases h; exact .takePoolEvent (fun _ _ => Inner.endAnns ..) ..
  | holdTimeout => exact .execHoldTimeout h
  | expiry => exact .execExpiry h
  | arbitrationPass => cases h; exact (Inner.passChain ..).soundKept
  | fetchGrant => exact .execFetchGrant h
  | burstCompletion => exact .execBurstCompletion h
  | phraseWriteStart => exact .execPhraseWriteStart h
  | phraseWriteComplete => exact .execPhraseWriteComplete h
  | channelEnd => exact .execChannelEnd h
  | gapEnd => exact .execGapEnd h
  | underrunAbort => exact .execUnderrunAbort h
  | block => exact .execBlock h
  | streamLost => exact .execStreamLost h
  | zoneReport => exact .execZoneReport h
  | ambientReading => exact .execAmbientReading h
  | linkLost => exact .execLinkLost h
  | _ => cases hc

/-- Every row keeps the notice FIFO, the counters, the pool and the call table sound. -/
theorem exec_soundKept {i : Instr} {s t : State} (h : exec i s = .next t) : SoundKept s t := by
  cases hc : isCommand i with
  | true => exact .ofCommand hc h
  | false => exact .ofEvent hc h

end Sys2Proof.Machine

open Sys2Proof Sys2Proof.Machine

/-- Settles O9, from what every row keeps sound. -/
theorem stepKeepsCalls : Obligations.StepKeepsCalls := by
  unfold Obligations.StepKeepsCalls
  intro s t hs h
  unfold step at h
  split at h
  · cases h; exact hs
  · exact (exec_soundKept h).calls hs
end

section
/-! SUPPORT. What a row answers to the command at the head of the queue (R182), from what its owning rule gives; and the
bytes of a body behind its first ones (R190). -/

namespace Sys2Proof.Machine

/-! ### Answers (R182) -/

/-- A command of a fixed length is answered as its owning rule gives. -/
theorem answers_atHead {i : Instr} {row : Row} {act : List Byte → State → Reply} {s t : State} {m : Message} {n : Nat}
    {st : Status} {body : List Byte} (hexec : exec i s = .next (runCommand row act s)) (h : AtHead s m row.code n)
    (hmine : row.mine m.body = true) (hfits : row.fits m.body = true) (hact : act m.body s = ⟨st, body, t⟩) :
    Answers i s m st body t := by
  rw [Answers, hexec, runCommand_atHead h hmine hfits, hact]

/-- A command whose length does not fit is answered BAD_LENGTH. -/
theorem answers_badLength {i : Instr} {row : Row} {act : List Byte → State → Reply} {s : State} {m : Message}
    {body : List Byte} (hexec : exec i s = .next (runCommand row act s)) (h : Ready s m row.code)
    (hmine : row.mine m.body = true) (hfits : row.fits m.body = false) (hshort : row.shortBody = body) :
    Answers i s m .badLength body s := by
  obtain ⟨hhead, hready, hfailed, hcode⟩ := h
  subst hshort
  rw [Answers, hexec, runCommand_short (headFor_some hhead hready hcode hmine) (fun hf => absurd hf hfailed) hfits]

/-- A command that reads a range is answered by the checks of the range in turn (R72, R116, R168, R176). -/
theorem answers_range {i : Instr} {row : Row} {act : List Byte → State → Reply} {s : State} {m : Message}
    {n first count hi : Nat} {body : List Byte} (hexec : exec i s = .next (runCommand row act s))
    (h : AtHead s m row.code n) (hmine : row.mine m.body = true) (hfits : row.fits m.body = true)
    (hact : act m.body s = readRange first count hi body s) :
    if count = 0 then Answers i s m .badValue [] s
    else if hi < first + count - 1 then Answers i s m .badIndex [] s
    else Answers i s m .ok body s := by
  unfold readRange at hact
  split
  · next hc => exact answers_atHead hexec h hmine hfits (hact.trans (if_pos hc))
  · next hc =>
    rw [if_neg hc] at hact
    split
    · next hr => exact answers_atHead hexec h hmine hfits (hact.trans (if_pos hr))
    · next hr => exact answers_atHead hexec h hmine hfits (hact.trans (if_neg hr))

/-- What a LOAD command's owning rule gives is the answer of the load (R20). -/
theorem loadCommand_eq (first count lo hi : Nat) (entries : List (List Byte))
    (take : Nat → List Byte → State → Status × State) (s : State) :
    loadCommand first count lo hi entries take s =
      ⟨(loadAnswer first count lo hi entries take s).1, w16 (loadAnswer first count lo hi entries take s).2.1,
        (loadAnswer first count lo hi entries take s).2.2⟩ := by
  unfold loadCommand loadAnswer
  split
  · rfl
  · split <;> rfl

/-! ### Bytes behind the first ones (R190) -/

@[simp] theorem byteAt_drop (b : List Byte) (n i : Nat) : byteAt (b.drop n) i = byteAt b (n + i) := by
  simp [byteAt, List.getD_eq_getElem?_getD]

@[simp] theorem be16_drop (b : List Byte) (n i : Nat) : be16 (b.drop n) i = be16 b (n + i) := by
  simp [be16, Nat.add_assoc]

@[simp] theorem be24_drop (b : List Byte) (n i : Nat) : be24 (b.drop n) i = be24 b (n + i) := by
  simp [be24, Nat.add_assoc]

@[simp] theorem be32_drop (b : List Byte) (n i : Nat) : be32 (b.drop n) i = be32 b (n + i) := by
  simp [be32, Nat.add_assoc]

@[simp] theorem signed32_drop (b : List Byte) (n i : Nat) : signed32 (b.drop n) i = signed32 b (n + i) := by
  simp [signed32]

@[simp] theorem flagAt_drop (b : List Byte) (n i k : Nat) : flagAt (b.drop n) i k = flagAt b (n + i) k := by
  simp [flagAt]

/-! ### The calls that commands name (R18) -/

/-- What UPDATE_CALL answers for a call found: the call as the update leaves it. -/
theorem answers_update {i : Instr} {mine : Nat → Bool} {act : Nat → CallRec → List Byte → State → Status × State}
    {s t : State} {m : Message} {u slot : Nat} {c c' : CallRec} {st : Status}
    (hexec : exec i s = .next (runCommand (updateRow mine) (updateCall act) s)) (h : Names s m u slot c)
    (hmine : mine u = true) (hact : act slot c (m.body.drop 4) s = (st, t)) (hc : t.callAt slot = some c') :
    Answers i s m st (w16 slot ++ w8 c'.state.code ++ w32 c'.expected) t := by
  obtain ⟨hhead, hcode, hrun, href, hfind⟩ := h
  refine answers_atHead hexec hhead (by rw [← hcode] at hmine; exact hmine) (fixed_length hhead.2) ?_
  simp only [updateCall, hrun, ne_eq, not_true, if_false, href, hfind, hact, hc, reply]
  rfl

/-- An update that leaves the state as it was answers the call as it stands. -/
theorem answers_unchanged {i : Instr} {mine : Nat → Bool} {act : Nat → CallRec → List Byte → State → Status × State}
    {s : State} {m : Message} {u slot : Nat} {c : CallRec} {st : Status}
    (hexec : exec i s = .next (runCommand (updateRow mine) (updateCall act) s)) (h : Names s m u slot c)
    (hmine : mine u = true) (hrise : tabRising s.crg.calls = true) (hact : act slot c (m.body.drop 4) s = (st, s)) :
    Answers i s m st (w16 slot ++ w8 c.state.code ++ w32 c.expected) s :=
  answers_update hexec h hmine hact (callAt_of_findRef hrise h.2.2.2.2)

/-- An update that writes the call's record answers the call as written. -/
theorem answers_written {i : Instr} {mine : Nat → Bool} {act : Nat → CallRec → List Byte → State → Status × State}
    {s : State} {m : Message} {u slot : Nat} {c c' : CallRec} {es : List TriggerEvent} {ps : List PoolEvent}
    (hexec : exec i s = .next (runCommand (updateRow mine) (updateCall act) s)) (h : Names s m u slot c)
    (hmine : mine u = true) (hact : act slot c (m.body.drop 4) s = (.ok, withCall slot c' es ps s)) :
    Answers i s m .ok (w16 slot ++ w8 c'.state.code ++ w32 c'.expected) (withCall slot c' es ps s) :=
  answers_update hexec h hmine hact (withCall_callAt_same ..)

end Sys2Proof.Machine
end

section
/-! The settled statements about the calls of the register (R18 to R33). -/

open Sys2Proof Sys2Proof.Machine

/-- Settles O31: each update by its equation, in each call state. -/
theorem callsFollowTheirReports : Obligations.CallsFollowTheirReports := by
  unfold Obligations.CallsFollowTheirReports
  intro s m slot c hrise body until_ same moved
  refine ⟨fun h => ⟨fun hst => ⟨fun hp => ?_, fun hp => ?_⟩, fun hst => ?_, fun hst => ?_⟩,
    fun h => ⟨fun hk hst => ?_, fun hk hst => ?_, fun hst => ?_⟩, fun h => ⟨fun hst => ?_, fun hst => ?_, fun hst => ?_⟩,
    fun h => ⟨fun hf hc => ?_, fun hst => ?_, fun hst => ?_⟩⟩
  · exact answers_unchanged rfl h rfl hrise (by rw [arrive_eq, if_pos hst, if_pos hp])
  · exact answers_written rfl h rfl (by rw [arrive_eq, if_pos hst, if_neg hp])
  · exact answers_unchanged rfl h rfl hrise (by rw [arrive_eq, if_neg (by simp [hst]), if_pos hst])
  · refine answers_unchanged rfl h rfl hrise ?_
    rw [arrive_eq, if_neg, if_neg] <;> rcases hst with hst | hst | hst <;> simp [hst]
  · exact answers_written rfl h rfl (by rw [depart_eq, if_neg hk, if_pos hst])
  · exact answers_unchanged rfl h rfl hrise (by rw [depart_eq, if_neg hk, if_neg (by simp [hst]), if_pos hst])
  · refine answers_unchanged rfl h rfl hrise ?_
    rw [depart_eq]
    rcases hst with hk | ⟨ha, hd⟩
    · rw [if_pos hk]
    · rw [if_neg ha, if_neg hd, ite_self]
  · exact answers_written rfl h rfl (by rw [gone_eq, if_pos hst]; rfl)
  · exact answers_unchanged rfl h rfl hrise (by rw [gone_eq, if_neg (by simp [hst]), if_pos hst])
  · refine answers_unchanged rfl h rfl hrise ?_
    rw [gone_eq, if_neg, if_neg] <;> rcases hst with hst | hst | hst <;> simp [hst]
  · exact answers_written rfl h rfl (by rw [cancel_eq, if_neg hf, if_neg hc]; rfl)
  · exact answers_unchanged rfl h rfl hrise (by rw [cancel_eq, if_neg (by simp [hst]), if_pos hst])
  · exact answers_unchanged rfl h rfl hrise (by rw [cancel_eq, if_pos hst])

/-- Settles O32: DELAY and PLATFORM by their equations. -/
theorem delaysAndPlatformsAreTaken : Obligations.DelaysAndPlatformsAreTaken := by
  unfold Obligations.DelaysAndPlatformsAreTaken
  intro s m slot c hrise body
  refine ⟨fun h => ?_, fun h => ?_⟩
  · intro d e c'
    have hd : clampDelay (signed32 (m.body.drop 4) 0) = d := by rw [signed32_drop]
    refine ⟨fun hst => ?_, fun hf hc heq => ?_, fun hf hc hne => ?_⟩
    · exact answers_unchanged rfl h rfl hrise (by rw [changeDelay_eq, if_pos hst])
    · exact answers_unchanged rfl h rfl hrise (by rw [changeDelay_eq, if_neg (not_or.2 ⟨hf, hc⟩), hd, if_pos heq])
    · have hact : changeDelay slot c (m.body.drop 4) s = (.ok, putDueChecked slot c' (.delayChange c.expected e) s) := by
        rw [changeDelay_eq, if_neg (not_or.2 ⟨hf, hc⟩), hd, if_neg hne]
      rw [putDueChecked_eq] at hact
      split
      · next hdue => exact answers_written rfl h rfl (by rw [hact, if_pos hdue])
      · next hdue => exact answers_written rfl h rfl (by rw [hact, if_neg hdue])
  · intro p flag c'
    have hact : changePlatform slot c (m.body.drop 4) s =
        if 40 < p ∨ (p = 0 ∧ flag = true) then (.badValue, s)
        else if c.state = .planned ∨ c.state = .due then (.ok, putPlatformOf slot c p flag s)
        else (.badState, s) := by rw [changePlatform_eq, byteAt_drop, flagAt_drop]
    have hgood : p ≤ 40 → (p = 0 → flag = false) → ¬(40 < p ∨ (p = 0 ∧ flag = true)) := fun hp hz => by
      rintro (hlt | ⟨h0, hf⟩)
      · omega
      · rw [hz h0] at hf
        cases hf
    refine ⟨fun hbad => ?_, fun hp hz hpl hdue => ?_, fun hp hz hst => ?_⟩
    · exact answers_unchanged rfl h rfl hrise (by rw [hact, if_pos hbad])
    · exact answers_unchanged rfl h rfl hrise (by rw [hact, if_neg (hgood hp hz), if_neg (not_or.2 ⟨hpl, hdue⟩)])
    · refine answers_written rfl h rfl ?_
      rw [hact, if_neg (hgood hp hz), if_pos hst, putPlatformOf_eq]
      congr 2
      split
      · rfl
      · unfold platformEvent
        split
        · rfl
        · split <;> rfl

/-- Settles O33: FREE_CALL's checks in turn, the call removed, and RETENTION judged against T as it stands. -/
theorem endedCallsAreFreed : Obligations.EndedCallsAreFreed := by
  unfold Obligations.EndedCallsAreFreed
  refine ⟨fun s m h => ?_, fun s slot => ⟨fun hn => ?_, fun c hm hc => ⟨fun hr => ?_, fun hr => ?_⟩⟩⟩
  · have answers : ∀ {st body t}, _ → Answers .freeCall s m st body t := fun {st body t} hact =>
      answers_atHead (st := st) (body := body) (t := t) rfl h rfl (fixed_length h.2) hact
    refine ⟨fun hrun => answers ?_, fun hrun href => answers ?_, fun hrun href => ⟨fun hf => answers ?_, ?_⟩⟩
    · simp only [ne_eq, hrun, not_false_eq_true, if_true]
      rfl
    · simp only [hrun, href, ne_eq, not_true, if_true, if_false]
      rfl
    · simp only [hrun, href, hf, ne_eq, not_true, if_false]
      rfl
    · intro slot c hf hrise
      have hcall := callAt_of_findRef hrise hf
      refine ⟨fun hfin hcan => answers ?_, fun hended => ⟨answers ?_, withoutCall_callAt_same hrise, ?_⟩⟩
      · simp only [hrun, href, hf, (busy_iff _).2 ⟨hfin, hcan⟩, ne_eq, not_true, if_true, if_false]
        rfl
      · have hb : c.state.busy = false := by rcases hended with h | h <;> rw [h] <;> rfl
        simp only [hrun, href, hf, hb, ne_eq, not_true, if_false, Bool.false_eq_true, removeCall_eq hcall]
        rfl
      · exact if_neg (by simp [withoutCall])
  · exact if_neg (by simpa using hn)
  · have hm : s.crg.retentionDue.contains slot = true := by simpa using hm
    change execRetention slot s = _
    unfold execRetention
    rw [if_pos hm, if_pos (by simp [hc, hr]), removeCall_eq hc]
  · have hm : s.crg.retentionDue.contains slot = true := by simpa using hm
    change execRetention slot s = _
    unfold execRetention
    rw [if_pos hm, if_neg (by simp [hc, hr])]
    rfl
end

section
/-! The commands that read (R37, R38, R44, R72, R110, R116, R153, R168, R176, R185, R189). -/

namespace Sys2Proof.Machine

/-- What READ_CALL's owning rule gives (R37). -/
def readCallReply (b : List Byte) (s : State) : Reply :=
  if byteAt b 0 = 0 then
    if be24 b 1 = 0 then reply .badValue [] s
    else match findRef s.crg.calls (be24 b 1) with
      | some (_, c) => reply .ok (callBytes c) s
      | none => reply .noSuchCall (w16 65535) s
  else if byteAt b 0 = 1 then
    if 511 < be16 b 2 then reply .badIndex [] s
    else match s.callAt (be16 b 2) with
      | some c => reply .ok (callBytes c) s
      | none => reply .ok [0#8] s
  else reply .badValue [] s

theorem execReadCall_eq (s : State) :
    execReadCall s = .next (runCommand { code := 0x23, fits := fixed 4 } readCallReply s) := by
  unfold execReadCall
  congr 2
  funext b s
  unfold readCallReply
  rcases byteAt b 0 with _ | _ | n <;> rfl

theorem answers_readCall {s : State} {m : Message} {st : Status} {body : List Byte} (h : AtHead s m 0x23 4)
    (hact : readCallReply m.body s = ⟨st, body, s⟩) : Answers .readCall s m st body s :=
  answers_atHead (execReadCall_eq s) h rfl (fixed_length h.2) hact

/-- READ_FRAGMENTS as a command (R72): a count above 64 does not fit. -/
theorem exec_readFragments (s : State) : exec .readFragments s = .next (runCommand
    { code := 0x45, fits := fun b => fixed 4 b && decide (be16 b 2 ≤ 64) }
    (fun b s => readRange (be16 b 0) (be16 b 2) 4095
      ((indexesFrom (be16 b 0) (be16 b 2)).flatMap fun i => dirBytes (dirEntry s.sxe i)) s) s) := rfl

end Sys2Proof.Machine

open Sys2Proof Sys2Proof.Machine

/-- Settles O29: each row that reads, by what its owning rule gives. -/
theorem readsReportAndChangeNothing : Obligations.ReadsReportAndChangeNothing := by
  unfold Obligations.ReadsReportAndChangeNothing
  intro s m
  dsimp only
  refine ⟨fun hhead hexec hcode hlen => ?_, fun h => ?_, fun h => ⟨fun h0 => ?_, fun h1 => ?_, fun hgt => ?_⟩, fun h => ?_,
    fun h => ?_, fun h => ?_, fun h => ?_, fun h => ?_, fun h => ?_, fun h => ?_, fun h => ?_, fun h => ?_, fun h => ?_,
    fun h => ?_, fun h => ?_⟩
  · exact congrArg Host.Outcome.next (runCommand_taken
      (row := { code := 0x01, inFailed := true, fits := fixed 0 }) (act := fun _ s => reply .ok (statusBody s) s)
      (headFor_some hhead hexec hcode rfl) (fun _ => rfl) (fixed_length hlen))
  · exact answers_atHead rfl h rfl (fixed_length h.2) rfl
  · split
    · next href => exact answers_readCall h (by rw [readCallReply, if_pos h0, if_pos href]; rfl)
    · next href =>
      split
      · next hf => exact answers_readCall h (by rw [readCallReply, if_pos h0, if_neg href, hf]; rfl)
      · next hf => exact answers_readCall h (by rw [readCallReply, if_pos h0, if_neg href, hf]; rfl)
  · have h0 : byteAt m.body 0 ≠ 0 := by omega
    split
    · next hr => exact answers_readCall h (by rw [readCallReply, if_neg h0, if_pos h1, if_pos hr]; rfl)
    · next hr =>
      split
      · next hc => exact answers_readCall h (by rw [readCallReply, if_neg h0, if_pos h1, if_neg hr, hc]; rfl)
      · next hc => exact answers_readCall h (by rw [readCallReply, if_neg h0, if_pos h1, if_neg hr, hc]; rfl)
  · exact answers_readCall h (by rw [readCallReply, if_neg (by omega), if_neg (by omega)]; rfl)
  · exact answers_atHead rfl h rfl (fixed_length h.2) rfl
  · split
    · next hr => exact answers_atHead rfl h rfl (fixed_length h.2) (if_pos hr)
    · next hr => exact answers_atHead rfl h rfl (fixed_length h.2) (if_neg hr)
  · exact answers_atHead rfl h rfl (fixed_length h.2) rfl
  · exact answers_range rfl h rfl (fixed_length h.2) rfl
  · split
    · next hc => exact answers_range (exec_readFragments s) h rfl (by simp [fixed_length h.2, hc]) rfl
    · next hc => exact answers_badLength (exec_readFragments s) h.1 rfl (by simp [hc]) rfl
  · split
    · next r hr => exact answers_atHead rfl h rfl (fixed_length h.2) (by rw [hr]; rfl)
    · next hr => exact answers_atHead rfl h rfl (fixed_length h.2) (by rw [hr]; rfl)
  · exact answers_atHead rfl h rfl (fixed_length h.2) rfl
  · exact answers_range rfl h rfl (fixed_length h.2) rfl
  · exact answers_atHead rfl h rfl (fixed_length h.2) rfl
  · split
    · next hr => exact answers_atHead rfl h rfl (fixed_length h.2) (if_pos hr)
    · next hr => exact answers_atHead rfl h rfl (fixed_length h.2) (if_neg hr)
  · exact answers_range rfl h rfl (fixed_length h.2) rfl
  · exact answers_range rfl h rfl (fixed_length h.2) rfl
end

section
/-! Loads entry by entry, and the tables read back (R20, R36, R43, R66 to R71, R114, R115). -/

namespace Sys2Proof.Machine

/-! ### Loads (R20) -/

/-- The entries of a load up to the first that fails: how many are taken, the state they leave, and the status. -/
theorem loadEntries_stops (take : Nat → List Byte → State → Status × State) (i n : Nat) (entries : List (List Byte))
    (s : State) : ∃ k, k ≤ entries.length ∧
      (loadEntries take i n entries s).2 = (n + k, afterEntries take i (entries.take k) s) ∧
      (∀ j, j < k → (take (i + j) (entries.getD j []) (afterEntries take i (entries.take j) s)).1 = .ok) ∧
      (k = entries.length → (loadEntries take i n entries s).1 = .ok) ∧
      (k < entries.length → (loadEntries take i n entries s).1 ≠ .ok ∧
        (take (i + k) (entries.getD k []) (afterEntries take i (entries.take k) s)).1 =
          (loadEntries take i n entries s).1) := by
  induction entries generalizing i n s with
  | nil => exact ⟨0, Nat.le_refl _, rfl, nofun, fun _ => rfl, nofun⟩
  | cons e rest ih =>
    by_cases hok : (take i e s).1 = .ok
    · obtain ⟨k, hle, hstate, htaken, hall, hstop⟩ := ih (i + 1) (n + 1) (take i e s).2
      have hload : loadEntries take i n (e :: rest) s = loadEntries take (i + 1) (n + 1) rest (take i e s).2 :=
        if_pos hok
      rw [hload]
      refine ⟨k + 1, by simpa using hle, ?_, fun j hj => ?_, fun h => hall (by simpa using h), fun h => ?_⟩
      · rw [hstate, List.take_succ_cons, afterEntries]
        congr 1
        omega
      · cases j with
        | zero => exact hok
        | succ j =>
          have := htaken j (by omega)
          rwa [show i + 1 + j = i + (j + 1) by omega] at this
      · have := hstop (by simpa using h)
        rwa [show i + 1 + k = i + (k + 1) by omega] at this
    · have hload : loadEntries take i n (e :: rest) s = ((take i e s).1, n, s) := if_neg hok
      rw [hload]
      exact ⟨0, Nat.zero_le _, rfl, nofun, nofun, fun _ => ⟨hok, rfl⟩⟩

/-- The count of a load is at most the number of its entries. -/
theorem loadEntries_count (take : Nat → List Byte → State → Status × State) (i n : Nat) (entries : List (List Byte))
    (s : State) : (loadEntries take i n entries s).2.1 ≤ n + entries.length := by
  obtain ⟨k, hle, hstate, _⟩ := loadEntries_stops take i n entries s
  rw [hstate]
  exact Nat.add_le_add_left hle n

/-! ### Tables with entries that may be absent -/

/-- An entry written, or made absent, reads back, and every other reads as before. -/
theorem tabGet_tabPut {α : Type} {t : Tab α} (i j : Nat) (v : Option α) (h : tabRising t = true) :
    tabGet (tabPut t i v) j = if j = i then v else tabGet t j := by
  split
  · next e =>
    subst e
    cases v with
    | none => exact tabGet_tabDel_same _ h
    | some x => exact tabGet_tabSet_same ..
  · next hne =>
    cases v with
    | none => exact tabGet_tabDel_other _ hne
    | some x => exact tabGet_tabSet_other _ _ hne

/-- An entry written to a table with a default reads back, and every other reads as before. -/
theorem tabGetD_tabSetD {α : Type} [DecidableEq α] {t : Tab α} (i j : Nat) (d v : α) (h : tabRising t = true) :
    tabGetD (tabSetD t i d v) j d = if j = i then v else tabGetD t j d := by
  split
  · next e =>
    subst e
    exact tabGetD_tabSetD_same _ _ _ h
  · next hne => exact tabGetD_tabSetD_other _ _ _ hne

theorem tabGet_tabSet {α : Type} (t : Tab α) (i j : Nat) (v : α) :
    tabGet (tabSet t i v) j = if j = i then some v else tabGet t j := by
  split
  · next e =>
    subst e
    exact tabGet_tabSet_same ..
  · next hne => exact tabGet_tabSet_other _ _ hne

end Sys2Proof.Machine

open Sys2Proof Sys2Proof.Machine

/-- Settles O27, by induction on the entries, and table by table. -/
theorem takenEntriesReadBack : Obligations.TakenEntriesReadBack := by
  unfold Obligations.TakenEntriesReadBack
  refine ⟨loadEntries_stops, fun s i j => ⟨fun v h => ⟨tabGet_tabPut i j v h, rfl⟩, fun v h => ⟨tabGet_tabPut i j v h, rfl⟩,
    fun v h => ⟨tabGet_tabPut i j v h, rfl⟩, fun v h => ⟨tabGet_tabPut i j v h, rfl⟩,
    fun d h => ⟨tabGetD_tabSetD i j _ d h, rfl⟩, fun zones h => ⟨tabGetD_tabSetD i j _ zones h, rfl⟩,
    fun e => ⟨tabGet_tabSet _ i j e, rfl⟩⟩⟩
end

section
/-! LOAD_CALLS (R18 to R23). -/

namespace Sys2Proof.Machine

/-! ### Call load entries (R20, R21) -/

theorem callKindOf_code {n : Nat} (h : n ≤ 2) : ∃ kind, callKindOf n = some kind ∧ kind.code = n := by
  match n, h with
  | 0, _ => exact ⟨.arrival, rfl, rfl⟩
  | 1, _ => exact ⟨.departure, rfl, rfl⟩
  | 2, _ => exact ⟨.movement, rfl, rfl⟩

theorem callKindOf_bound {n : Nat} {kind : CallKind} (h : callKindOf n = some kind) : n ≤ 2 := by
  match n, h with
  | 0, _ | 1, _ | 2, _ => decide

/-- What check 1 of R20 asks of a load entry. -/
def CallEntryFits (plans : Tab Plan) (b : List Byte) : Prop :=
  1 ≤ be24 b 0 ∧ byteAt b 3 ≤ 2 ∧ (tabGet plans (byteAt b 4)).isSome = true ∧ byteAt b 5 ≤ 40 ∧
    (byteAt b 5 = 0 → flagAt b 6 0 = false) ∧ be32 b 8 ≤ 107999 ∧ be16 b 16 ≤ 4095

theorem parseCallEntry_fits {plans : Tab Plan} {t : Nat} {b : List Byte} {c : CallRec}
    (h : parseCallEntry plans t b = some c) : CallEntryFits plans b := by
  obtain ⟨kind, hk, ⟨href, hplan, hplat, hprov, hsched, hplace⟩, _⟩ := parseCallEntry_some h
  refine ⟨href, callKindOf_bound hk, hplan, hplat, fun h0 => ?_, hsched, hplace⟩
  simpa [h0] using hprov

theorem parseCallEntry_isSome {plans : Tab Plan} {b : List Byte} (t : Nat) (h : CallEntryFits plans b) :
    ∃ c, parseCallEntry plans t b = some c := by
  obtain ⟨href, hkind, hplan, hplat, hprov, hsched, hplace⟩ := h
  obtain ⟨kind, hk, _⟩ := callKindOf_code hkind
  have hprov' : (flagAt b 6 0 && byteAt b 5 == 0) = false := by
    by_cases h0 : byteAt b 5 = 0 <;> simp [h0, hprov]
  unfold parseCallEntry
  simp only [hk]
  exact ⟨_, if_pos ⟨href, hplan, hplat, hprov', hsched, hplace⟩⟩

/-! ### A load entry taken into its slot (R20, R21, R22) -/

/-- The events that the removal of whatever a slot held passes to the pool (R22). -/
def removalOf (slot : Nat) : Option CallRec → List (CallEvent PoolEvent)
  | some old => [⟨slot, old.callRef, .callRemoved⟩]
  | none => []

/-- What a slot removed leaves of the part. -/
theorem removeCall_leaves (slot : Nat) (s : State) :
    ∃ calls due, removeCall slot s =
      { s with
        crg := { s.crg with calls := calls, retentionDue := due }
        apl := { s.apl with events := s.apl.events ++ removalOf slot (s.callAt slot) } } ∧
      ∀ other, other ≠ slot → tabGet calls other = s.callAt other := by
  cases h : s.callAt slot with
  | none =>
    rw [removeCall_empty h]
    exact ⟨s.crg.calls, s.crg.retentionDue, by simp [removalOf], fun _ _ => rfl⟩
  | some old =>
    rw [removeCall_eq h]
    exact ⟨_, _, rfl, fun other hne => tabGet_tabDel_other _ hne⟩

/-- A due check of a record made at T: the state it enters and the events it passes. -/
theorem putDueChecked_fresh {c : CallRec} {s : State} (slot : Nat) (e : TriggerEvent) (h : c.stateSince = s.sck.time) :
    putDueChecked slot c e s = withCall slot (if isDue s.tru.plans s.sck.time c then { c with state := .due } else c)
      (e :: if isDue s.tru.plans s.sck.time c then [.stateEntry .due] else []) [] s := by
  rw [putDueChecked_eq]
  split
  · rw [← h]
  · rfl

theorem takeCallEntry_refused {slot : Nat} {b : List Byte} {s : State}
    (h : parseCallEntry s.tru.plans s.sck.time b = none) : takeCallEntry slot b s = (.badValue, s) := by
  unfold takeCallEntry
  rw [h]

/-- The checks 2 and 3 of R20 on a record that the entry makes, and the record taken. -/
theorem takeCallEntry_parsed {slot : Nat} {b : List Byte} {s : State} {c : CallRec}
    (h : parseCallEntry s.tru.plans s.sck.time b = some c) : takeCallEntry slot b s =
      if (s.callAt slot).any fun old => old.state.busy then (.slotBusy, s)
      else if s.crg.calls.any fun p => p.1 != slot && p.2.callRef == c.callRef then (.duplicateRef, s)
      else (.ok, putDueChecked slot c .loaded (removeCall slot s)) := by
  unfold takeCallEntry
  rw [h]

/-- A slot that is EMPTY or holds an ended call may be loaded. -/
theorem any_busy_false {o : Option CallRec} (h : ∀ old, o = some old → old.state = .finished ∨ old.state = .cancelled) :
    (o.any fun old => old.state.busy) = false := by
  cases o with
  | none => rfl
  | some old => rcases h old rfl with he | he <;> simp [he, CallState.busy]

end Sys2Proof.Machine

open Sys2Proof Sys2Proof.Machine

/-- Settles O30: the command's checks, check 1 of an entry and the record it makes, checks 2 and 3 and the record taken. -/
theorem loadedCallsTakeTheirSlots : Obligations.LoadedCallsTakeTheirSlots := by
  unfold Obligations.LoadedCallsTakeTheirSlots
  refine ⟨fun s m h => ?_, fun plans t b => ⟨fun hno => ?_, fun hfits => ?_⟩, fun slot b s hrise =>
    ⟨fun hno => takeCallEntry_refused hno, fun c hparse => ⟨?_, fun hbusy => ?_, fun hfree => ⟨fun hdup => ?_, fun hnew => ?_⟩⟩⟩⟩
  · split
    · next hfits =>
      split
      · next hrun =>
        refine answers_atHead rfl ⟨h, rfl⟩ rfl hfits ?_
        simp only [hrun, ne_eq, not_true, if_false]
        exact loadCommand_eq ..
      · next hrun =>
        refine answers_atHead rfl ⟨h, rfl⟩ rfl hfits ?_
        simp only [ne_eq, hrun, not_false_eq_true, if_true]
        rfl
    · next hfits => exact answers_badLength rfl h rfl (Bool.eq_false_iff.2 hfits) rfl
  · cases hp : parseCallEntry plans t b with
    | none => rfl
    | some c => exact absurd (parseCallEntry_fits hp) hno
  · obtain ⟨c, hp⟩ := parseCallEntry_isSome t hfits
    obtain ⟨kind, hk, _, rfl⟩ := parseCallEntry_some hp
    obtain ⟨kind', hk', hcode⟩ := callKindOf_code hfits.2.1
    obtain rfl : kind' = kind := Option.some.inj (hk'.symm.trans hk)
    exact ⟨_, hp, rfl, hcode, rfl, rfl, rfl, rfl, rfl, rfl⟩
  · obtain ⟨kind, _, _, rfl⟩ := parseCallEntry_some hparse
    exact ⟨rfl, rfl, rfl, rfl, rfl, rfl, rfl⟩
  · obtain ⟨old, hold, hfin, hcan⟩ := hbusy
    rw [takeCallEntry_parsed hparse, if_pos (by simp [hold, (busy_iff _).2 ⟨hfin, hcan⟩])]
  · obtain ⟨p, hp, hne, he⟩ := hdup
    rw [takeCallEntry_parsed hparse, if_neg (by simp [any_busy_false hfree]), if_pos (List.any_eq_true.2 ⟨p, hp, by simp [hne, he]⟩)]
  · rw [takeCallEntry_parsed hparse, if_neg (by simp [any_busy_false hfree]), if_neg fun hd => by
      obtain ⟨p, hp, hd⟩ := List.any_eq_true.1 hd
      simp only [Bool.and_eq_true, bne_iff_ne, ne_eq, beq_iff_eq] at hd
      exact hnew p hp hd.1 hd.2]
    refine ⟨_, rfl, ?_⟩
    have hsince : c.stateSince = s.sck.time := by
      obtain ⟨kind, _, _, rfl⟩ := parseCallEntry_some hparse
      rfl
    obtain ⟨calls, due, hremoved, hothers⟩ := removeCall_leaves slot s
    rw [putDueChecked_fresh (s := removeCall slot s) slot .loaded (by rw [hremoved]; exact hsince), hremoved]
    dsimp only
    refine ⟨withCall_callAt_same .., fun other hne => (withCall_callAt_other _ _ _ _ hne).trans (hothers other hne),
      ?_, ?_, rfl, rfl⟩
    · cases isDue s.tru.plans s.sck.time c <;> simp [withCall]
    · simp only [withCall, List.map_nil, List.append_nil]
      cases s.callAt slot <;> rfl
end

section
/-! The events and changes of T that the pool takes (R34, R89, R91, R92, R104 to R106). -/

namespace Sys2Proof.Machine

/-! ### Judged for leaving QUEUED (R89) -/

theorem leaveQueued_crg (now id : Nat) (s : State) : (leaveQueued now id s).crg = s.crg := by
  unfold leaveQueued
  split
  · rfl
  · split
    · split
      · simp [State.updAnn]
      · rfl
    · rfl

/-- Whether a request needs confirmation is a matter of the call register. -/
theorem needsConfirmation_congr {s t : State} (h : t.crg = s.crg) (a : Ask) :
    needsConfirmation t a = needsConfirmation s a := by
  simp only [needsConfirmation, State.callOf, State.callAt, h]

/-- The record of an ann_id after its judgement depends on that record and the call register. -/
theorem leaveQueued_ann_congr {s t : State} {id : Nat} (now : Nat) (hann : t.ann id = s.ann id) (hcrg : t.crg = s.crg) :
    (leaveQueued now id t).ann id = (leaveQueued now id s).ann id := by
  simp only [leaveQueued_ann, if_true, hann, needsConfirmation_congr hcrg]

/-- Each record named is judged by itself. -/
theorem leaveQueuedAll_ann (now id : Nat) {ids : List Nat} (hn : ids.Nodup) (s : State) :
    (leaveQueuedAll now ids s).ann id = if id ∈ ids then (leaveQueued now id s).ann id else s.ann id := by
  induction ids generalizing s with
  | nil => rfl
  | cons x rest ih =>
    obtain ⟨hx, hrest⟩ := List.nodup_cons.1 hn
    rw [leaveQueuedAll, ih hrest]
    by_cases he : id = x
    · subst he
      rw [if_neg hx, if_pos List.mem_cons_self]
    · have hother : (leaveQueued now x s).ann id = s.ann id := by rw [leaveQueued_ann, if_neg he]
      rw [leaveQueued_ann_congr now hother (leaveQueued_crg ..), hother]
      simp only [List.mem_cons, he, false_or]

theorem leaveQueued_due {now id : Nat} {s : State} {r : AnnRec} (hr : s.ann id = some r) (hq : r.state = .queued)
    (he : r.ask.earliest ≤ now) : leaveQueued now id s =
      if needsConfirmation s r.ask then
        raise (heldNotice false now r) (s.updAnn id fun x => { x with state := .held, holdStart := some now })
      else enterReady now id s := by
  unfold leaveQueued
  rw [hr]
  exact if_pos ⟨hq, he⟩

theorem leaveQueued_stays {now id : Nat} {s : State} {r : AnnRec} (hr : s.ann id = some r)
    (h : r.state ≠ .queued ∨ now < r.ask.earliest) : leaveQueued now id s = s := by
  unfold leaveQueued
  rw [hr]
  exact if_neg fun hd => h.elim (· hd.1) fun hlt => absurd hd.2 (Nat.not_le.2 hlt)

/-! ### Events of the Call Register (R34) -/

section
variable {kind : PoolEvent → Bool} {act : CallEvent PoolEvent → State → State} {slot : Nat} {s : State}
  {e : CallEvent PoolEvent} {rest : List (CallEvent PoolEvent)}

/-- A row whose kind the oldest event of the slot is takes it. -/
theorem takePoolEvent_taken (h : oldestOf slot s.apl.events = some (e, rest)) (hk : kind e.what = true) :
    takePoolEvent kind act slot s = act e { s with apl := { s.apl with events := rest } } := by
  unfold takePoolEvent
  rw [h]
  exact if_pos hk

/-- A row of another kind than the oldest event of the slot changes nothing. -/
theorem takePoolEvent_other (h : oldestOf slot s.apl.events = some (e, rest)) (hk : kind e.what = false) :
    takePoolEvent kind act slot s = s := by
  unfold takePoolEvent
  rw [h]
  exact if_neg (by simp [hk])

theorem takePoolEvent_none (h : oldestOf slot s.apl.events = none) : takePoolEvent kind act slot s = s := by
  unfold takePoolEvent
  rw [h]

end

/-- The rows of other kinds change nothing. -/
theorem exec_poolRow_other {slot : Nat} {s : State} {e : CallEvent PoolEvent} {rest : List (CallEvent PoolEvent)}
    (h : oldestOf slot s.apl.events = some (e, rest)) {other : PoolEvent}
    (hne : poolRow slot other ≠ poolRow slot e.what) : exec (poolRow slot other) s = .next s := by
  cases other <;>
    (refine congrArg Host.Outcome.next (takePoolEvent_other h (Bool.eq_false_iff.2 fun hk => hne ?_))
     split at hk
     · next he => simp only [he, poolRow]
     · cases hk)

theorem exec_poolRow_none {slot : Nat} {s : State} (h : oldestOf slot s.apl.events = none) (other : PoolEvent) :
    exec (poolRow slot other) s = .next s := by
  cases other <;> exact congrArg Host.Outcome.next (takePoolEvent_none h)

/-! ### Hold timeouts and expiries (R91, R92) -/

theorem timeOutHold_eq {now id : Nat} {s : State} {r : AnnRec} (h : s.ann id = some r) : timeOutHold now id s =
    if r.holdOver now = true then
      if r.ask.timeoutPolicy = .playAnyway then enterReady now id s else endRecord id .discarded .holdTimeout false s
    else s := by
  unfold timeOutHold
  simp only [h]
  cases r.ask.timeoutPolicy <;> rfl

theorem expireAnn_eq {now id : Nat} {s : State} {r : AnnRec} (h : s.ann id = some r) : expireAnn now id s =
    if r.expired now = true then endRecord id .expired .latestPassed false s else s := by
  unfold expireAnn
  rw [h]

end Sys2Proof.Machine

open Sys2Proof Sys2Proof.Machine

/-- Settles O46: a record's judgement, the events by the rows of their kinds, and the changes of T. -/
theorem poolEventsAreTakenInOrder : Obligations.PoolEventsAreTakenInOrder := by
  unfold Obligations.PoolEventsAreTakenInOrder
  refine ⟨fun now id s r hr => ⟨leaveQueued_stays hr, fun hq he => ⟨fun hn => ?_, fun hn => ?_⟩, fun ids hn => ?_⟩,
    fun s => ⟨fun slot e rest h => ⟨fun q p he => ?_, fun he => ?_, fun he => ?_, fun he => ?_,
      fun _ => exec_poolRow_other h⟩, fun slot other h => exec_poolRow_none h other, fun h => ?_, fun ch rest h => ?_,
      fun id h => ?_, fun id h => ?_, fun id r hr => ⟨fun h => ?_, fun h => ?_⟩⟩⟩
  · rw [leaveQueued_due hr hq he, if_pos hn, heldNotice, (mem_of_ann hr).2]
  · rw [leaveQueued_due hr hq he, if_neg (by simp [hn])]
  · rw [leaveQueuedAll_ann now id hn, hr]
  · exact congrArg Host.Outcome.next (takePoolEvent_taken h (by rw [he]))
  · exact congrArg Host.Outcome.next (takePoolEvent_taken h (by rw [he]))
  · exact congrArg Host.Outcome.next (takePoolEvent_taken h (by rw [he]))
  · exact congrArg Host.Outcome.next (takePoolEvent_taken h (by rw [he]))
  · change execPoolJudgement s = _
    unfold execPoolJudgement
    rw [h]
  · change execPoolJudgement s = _
    unfold execPoolJudgement
    rw [h]
    simp only [State.annIds, List.filter_true]
    rfl
  · exact if_neg (by simpa using h)
  · exact if_neg (by simpa using h)
  · exact (if_pos (by simpa using h)).trans (congrArg Host.Outcome.next (timeOutHold_eq hr))
  · exact (if_pos (by simpa using h)).trans (congrArg Host.Outcome.next (expireAnn_eq hr))
end

section
/-! The events, completions and changes of T that the Trigger Unit takes (R34, R48, R61 to R63). -/

namespace Sys2Proof.Machine

/-! ### Events of the Call Register (R34) -/

section
variable {kind : TriggerEvent → Bool} {slot : Nat} {s : State} {e : CallEvent PassedEvent}
  {rest : List (CallEvent PassedEvent)}

/-- A row whose kind the oldest event of the slot is takes it, unless CANCELLED still waits at the pool. -/
theorem takeEventOf_taken (h : oldestOf slot s.tru.events = some (e, rest)) (hk : kind e.what.event = true) :
    takeEventOf kind slot s = if cancelWaits s e then s
      else takeTriggerEvent e { s with tru := { s.tru with events := rest } } := by
  unfold takeEventOf
  rw [h]
  cases hc : cancelWaits s e <;> simp only [hk, hc] <;> rfl

/-- A row of another kind than the oldest event of the slot changes nothing. -/
theorem takeEventOf_other (h : oldestOf slot s.tru.events = some (e, rest)) (hk : kind e.what.event = false) :
    takeEventOf kind slot s = s := by
  unfold takeEventOf
  rw [h]
  exact if_neg (by simp [hk])

theorem takeEventOf_none (h : oldestOf slot s.tru.events = none) : takeEventOf kind slot s = s := by
  unfold takeEventOf
  rw [h]

/-- The row of the event's kind takes it. -/
theorem exec_eventRow (h : oldestOf slot s.tru.events = some (e, rest)) : exec (eventRow slot e.what.event) s =
    .next (if cancelWaits s e then s else takeTriggerEvent e { s with tru := { s.tru with events := rest } }) := by
  cases he : e.what.event <;> exact congrArg Host.Outcome.next (takeEventOf_taken h (by rw [he]))

/-- The rows of other kinds change nothing. -/
theorem exec_eventRow_other (h : oldestOf slot s.tru.events = some (e, rest)) {other : TriggerEvent}
    (hne : eventRow slot other ≠ eventRow slot e.what.event) : exec (eventRow slot other) s = .next s := by
  cases other <;>
    (refine congrArg Host.Outcome.next (takeEventOf_other h (Bool.eq_false_iff.2 fun hk => hne ?_))
     split at hk
     · next he => simp only [he, eventRow]
     · cases hk)

theorem exec_eventRow_none (h : oldestOf slot s.tru.events = none) (other : TriggerEvent) :
    exec (eventRow slot other) s = .next s := by
  cases other <;> exact congrArg Host.Outcome.next (takeEventOf_none h)

end

/-! ### What an event does (R48, R55, R61) -/

/-- The retry entries that an event leaves: at LOADED those of the other slots, otherwise those not stale (R46, R48). -/
theorem dropStaleRetry_eq (e : CallEvent PassedEvent) (s : State) : dropStaleRetry e s = { s with tru := { s.tru with
    retry := if e.what.event = .loaded then s.tru.retry.filter fun x => x.slot != e.slot
      else s.tru.retry.filter fun x => x.slot != e.slot || (s.callOf (some (x.slot, x.callRef))).isSome } } := by
  unfold dropStaleRetry
  split
  · next h => rw [if_pos h]; rfl
  · next h => rw [if_neg h]; rfl

section
variable {e : CallEvent PassedEvent} {s : State} {c : CallRec} {pl : Plan}

/-- An event whose call is gone drops stale retry entries alone. -/
theorem takeTriggerEvent_gone (h : s.callOf (some (e.slot, e.callRef)) = none) :
    takeTriggerEvent e s = dropStaleRetry e s := by
  have hu : (dropStaleRetry e s).callOf (some (e.slot, e.callRef)) = none := by rw [dropStaleRetry_eq]; exact h
  unfold takeTriggerEvent
  simp only [hu]

/-- An event whose call has no loaded plan drops stale retry entries alone. -/
theorem takeTriggerEvent_unplanned (h : s.callOf (some (e.slot, e.callRef)) = some c)
    (hp : tabGet s.tru.plans c.plan = none) : takeTriggerEvent e s = dropStaleRetry e s := by
  have hu : (dropStaleRetry e s).callOf (some (e.slot, e.callRef)) = some c := by rw [dropStaleRetry_eq]; exact h
  have hup : tabGet (dropStaleRetry e s).tru.plans c.plan = none := by rw [dropStaleRetry_eq]; exact hp
  unfold takeTriggerEvent
  simp only [hu, hup]

/-- An event of a call with a loaded plan acts on the record as it was passed. -/
theorem takeTriggerEvent_acts (h : s.callOf (some (e.slot, e.callRef)) = some c)
    (hp : tabGet s.tru.plans c.plan = some pl) :
    takeTriggerEvent e s = actOnEvent e (c.asSeen (some e.what.call)) pl (dropStaleRetry e s) := by
  have hu : (dropStaleRetry e s).callOf (some (e.slot, e.callRef)) = some c := by rw [dropStaleRetry_eq]; exact h
  have hup : tabGet (dropStaleRetry e s).tru.plans c.plan = some pl := by rw [dropStaleRetry_eq]; exact hp
  unfold takeTriggerEvent
  simp only [hu, hup]

end

/-! ### What a COMPLETED event asks for (R62, R63) -/

/-- The call that a slot and call_ref name together. -/
theorem callOf_some {s : State} {slot : Nat} {c : CallRec} (h : s.callAt slot = some c) :
    s.callOf (some (slot, c.callRef)) = some c := by
  simp only [State.callOf, h, if_true]

section
variable {x : Completion} {s : State}

/-- A completed record of no call or no step, or whose call or step is gone, asks for nothing. -/
theorem takeCompletion_none (h : x.ann.ask.call = none ∨ x.ann.ask.step = none ∨ s.callOf x.ann.ask.call = none ∨
    ∀ c pl i, s.callOf x.ann.ask.call = some c → tabGet s.tru.plans c.plan = some pl → x.ann.ask.step = some i →
      pl.steps[i]? = none) : takeCompletion x s = s := by
  unfold takeCompletion
  simp only
  split
  · next slot ref i c hcall hstep hof =>
    rcases h with h | h | h | h
    · rw [hcall] at h; cases h
    · rw [hstep] at h; cases h
    · rw [hof] at h; cases h
    · cases hp : tabGet s.tru.plans c.plan with
      | none => rfl
      | some pl => simp only [Option.bind_some, h c pl i hof hp hstep]
  · rfl

/-- What a completed record of a step of a call's plan asks for. -/
theorem takeCompletion_step {slot i : Nat} {c : CallRec} {pl : Plan} {p : PlanStep}
    (hcall : x.ann.ask.call = some (slot, c.callRef)) (hstep : x.ann.ask.step = some i) (hc : s.callAt slot = some c)
    (hp : tabGet s.tru.plans c.plan = some pl) (hi : pl.steps[i]? = some p) : takeCompletion x s =
      if 0 < x.ann.ask.repeats ∧ x.ann.noRepeat = false ∧ p.validIn c.state = true then
        if s.apl.records.any fun r => r.ofStep slot c.callRef i then s
        else match createRecord (followOnAsk x.ann.ask x.time p.window) s with
          | some (_, t) => t
          | none => raise (.poolFull (some (slot, c.callRef)) (some i) x.ann.ask.cls s.sck.time)
              (count .poolFullAttempts s)
      else s := by
  unfold takeCompletion
  simp only [hcall, hstep, callOf_some hc, hp, Option.bind_some, hi] <;> rfl

end

end Sys2Proof.Machine

open Sys2Proof Sys2Proof.Machine

/-- Settles O35: what is taken by its row, what an event does, and what a completed record asks for. -/
theorem triggerEventsAreTakenInOrder : Obligations.TriggerEventsAreTakenInOrder := by
  unfold Obligations.TriggerEventsAreTakenInOrder
  refine ⟨fun s => ⟨fun slot e rest h => ⟨exec_eventRow h, fun _ => exec_eventRow_other h⟩,
    fun slot other h => exec_eventRow_none h other, fun h => ?_, fun c rest h => ?_, fun h => ?_, fun ch rest h => ?_⟩,
    fun e s => ?_, fun x s => ⟨takeCompletion_none, fun slot ref i c pl p hcall hstep hc href hp hi => ?_⟩⟩
  · change execCompleted s = _
    unfold execCompleted
    rw [h]
  · change execCompleted s = _
    unfold execCompleted
    rw [h]
    rfl
  · change execTriggerEvaluation s = _
    unfold execTriggerEvaluation
    rw [h]
  · change execTriggerEvaluation s = _
    unfold execTriggerEvaluation
    rw [h]
    rfl
  · intro u
    have hu : dropStaleRetry e s = u := dropStaleRetry_eq e s
    refine ⟨fun h => (takeTriggerEvent_gone h).trans hu, fun c h => ⟨fun hp => (takeTriggerEvent_unplanned h hp).trans hu,
      fun pl hp => ?_⟩⟩
    intro v firing fired left
    rw [takeTriggerEvent_acts h hp, hu]
    have hleft : leaveBehind e pl fired = left := by
      unfold leaveBehind
      cases he : e.what.event <;> simp only [left, he]
    change evaluateCall e.slot s.sck.time (some e.what.call) (firing.map fun q => q.2) (leaveBehind e pl fired) = _
    rw [hleft]
  · subst href
    refine ⟨fun hno => ?_, fun hr hn hv hnone => ?_⟩
    · rw [takeCompletion_step hcall hstep hc hp hi]
      split
      · next hall =>
        rcases hno with h | h | h | ⟨r, hr, hstep⟩
        · exact absurd hall.1 (by omega)
        · exact absurd hall.2.1 (by simp [h])
        · exact absurd hall.2.2 (by simp [h])
        · exact if_pos (List.any_eq_true.2 ⟨r, hr, hstep⟩)
      · rfl
    · have hfree : ¬(s.apl.records.any fun r => r.ofStep slot c.callRef i) = true := fun hany => by
        obtain ⟨r, hr, hstep⟩ := List.any_eq_true.1 hany
        rw [hnone r hr] at hstep
        cases hstep
      rw [takeCompletion_step hcall hstep hc hp hi, if_pos ⟨hr, hn, hv⟩, if_neg hfree]
      rfl
end

section
/-! The commands that load tables, and the entries they take (R36, R42, R43, R66 to R71, R114, R115, R117). -/

namespace Sys2Proof.Machine

/-! ### LOAD commands (R20, R182) -/

/-- A LOAD command is answered as its load, if its length fits, and BAD_LENGTH otherwise. -/
theorem answers_load {i : Instr} {code first count lo hi : Nat} {fits : List Byte → Bool} {failed : List Byte}
    {act : List Byte → State → Reply} {entries : List (List Byte)} {take : Nat → List Byte → State → Status × State}
    {s : State} {m : Message} (hexec : exec i s = .next (runCommand (loadRow code fits failed) act s))
    (h : Ready s m code) (hact : act m.body s = loadCommand first count lo hi entries take s) :
    let r := loadAnswer first count lo hi entries take s
    if fits m.body then Answers i s m r.1 (w16 r.2.1) r.2.2 else Answers i s m .badLength (w16 0) s := by
  intro r
  split
  · next hfits => exact answers_atHead hexec ⟨h, rfl⟩ rfl hfits (hact.trans (loadCommand_eq ..))
  · next hfits => exact answers_badLength hexec h rfl (Bool.eq_false_iff.2 hfits) rfl

theorem be16_w16 {n : Nat} (h : n < 65536) : be16 (w16 n) 0 = n := by
  simp only [be16, byteAt, w16, List.getD_cons_zero, List.getD_cons_succ, BitVec.toNat_ofNat]
  omega

/-- The count of a load is at most the number of its entries. -/
theorem loadAnswer_count (first count lo hi : Nat) (entries : List (List Byte))
    (take : Nat → List Byte → State → Status × State) (s : State) :
    (loadAnswer first count lo hi entries take s).2.1 ≤ entries.length := by
  unfold loadAnswer
  split
  · exact Nat.zero_le _
  · split
    · exact Nat.zero_le _
    · exact (loadEntries_count take first 0 entries s).trans (Nat.le_of_eq (Nat.zero_add _))

/-- A load of the zone maps is answered as its load, and causes a pass if an entry has been taken (R114, R115). -/
theorem answers_mapLoad {i : Instr} {code first lo hi : Nat} {size : List Byte → Nat}
    {act : List Byte → State → Reply} {take : Nat → List Byte → State → Status × State}
    {s : State} {m : Message} (hexec : exec i s = .next (runCommand (loadRow code (byteCounted 255 size)) act s))
    (h : Ready s m code) (hact : act m.body s = passAfterLoad
      (loadCommand first (byteAt m.body 1) lo hi (byteEntries size m.body) take s)) :
    let r := loadAnswer first (byteAt m.body 1) lo hi (byteEntries size m.body) take s
    if byteCounted 255 size m.body then
      Answers i s m r.1 (w16 r.2.1) (if r.2.1 = 0 then r.2.2 else causePass r.2.2)
    else Answers i s m .badLength (w16 0) s := by
  intro r
  split
  · next hfits =>
    have hle : r.2.1 < 65536 := by
      have h1 : r.2.1 ≤ _ := loadAnswer_count ..
      have h2 := getD_splitEntries_length size (byteAt m.body 1) (m.body.drop 2)
      have h3 := byteAt_lt m.body 1
      unfold byteEntries at h1
      omega
    refine answers_atHead hexec ⟨h, rfl⟩ rfl hfits (hact.trans ?_)
    rw [loadCommand_eq]
    change passAfterLoad ⟨r.1, w16 r.2.1, r.2.2⟩ = _
    unfold passAfterLoad
    rw [be16_w16 hle]
    split <;> rfl
  · next hfits => exact answers_badLength hexec h rfl (Bool.eq_false_iff.2 hfits) rfl

/-! ### Codes (11.4, 11.5) -/

theorem policyOf_eq_some {n : Nat} {x : Policy} : policyOf n = some x ↔ x.code = n := by
  unfold policyOf
  split
  · cases x <;> simp [Policy.code]
  · cases x <;> simp [Policy.code]
  · next h0 h1 => cases x <;> simp [Policy.code, Ne.symm h0, Ne.symm h1]

theorem confirmOf_eq_some {n : Nat} {x : Confirm} : confirmOf n = some x ↔ x.code = n := by
  unfold confirmOf
  split
  · cases x <;> simp [Confirm.code]
  · cases x <;> simp [Confirm.code]
  · cases x <;> simp [Confirm.code]
  · next h0 h1 h2 => cases x <;> simp [Confirm.code, Ne.symm h0, Ne.symm h1, Ne.symm h2]

theorem timeoutPolicyOf_eq_some {n : Nat} {x : TimeoutPolicy} : timeoutPolicyOf n = some x ↔ x.code = n := by
  unfold timeoutPolicyOf
  split
  · cases x <;> simp [TimeoutPolicy.code]
  · cases x <;> simp [TimeoutPolicy.code]
  · next h0 h1 => cases x <;> simp [TimeoutPolicy.code, Ne.symm h0, Ne.symm h1]

/-! ### Plan steps (R42, R43) -/

/-- The ranges of lead and min_delay that a step's anchor bytes leave (R42). -/
def LeadsFit (code state lead minDelay : Nat) : Prop :=
  (code = 0 ∧ lead ≤ 7200 ∧ minDelay = 0) ∨ (code = 1 ∧ lead ≤ 7200 ∧ minDelay ≤ 21600) ∨
    (code = 2 ∧ 2 ≤ state ∧ state ≤ 6 ∧ lead = 0 ∧ minDelay = 0) ∨
    ((code = 3 ∨ code = 4) ∧ lead = 0 ∧ minDelay = 0) ∨
    (code = 5 ∧ 60 ≤ lead ∧ lead ≤ 1800 ∧ minDelay = 0)

/-- The anchor of a step's first two bytes. -/
structure AnchorOf (code state : Nat) (a : Anchor) : Prop where
  expectedLead : code = 0 → a = .expectedLead
  scheduledLead : code = 1 → a = .scheduledLead
  onState : ∀ st : CallState, code = 2 → st.code = state → a = .onState st
  onPlatformSet : code = 3 → a = .onPlatformSet
  onPlatformChange : code = 4 → a = .onPlatformChange
  onDelayChange : code = 5 → a = .onDelayChange

theorem anchorOf_onState {state : Nat} (h : 2 ≤ state ∧ state ≤ 6) :
    ∃ st : CallState, anchorOf 2 state = some (.onState st) ∧ ∀ x : CallState, x.code = state → x = st := by
  obtain rfl | rfl | rfl | rfl | rfl : state = 2 ∨ state = 3 ∨ state = 4 ∨ state = 5 ∨ state = 6 := by omega
  · exact ⟨.due, rfl, fun x hx => by cases x <;> simp_all [CallState.code]⟩
  · exact ⟨.atPlatform, rfl, fun x hx => by cases x <;> simp_all [CallState.code]⟩
  · exact ⟨.departing, rfl, fun x hx => by cases x <;> simp_all [CallState.code]⟩
  · exact ⟨.finished, rfl, fun x hx => by cases x <;> simp_all [CallState.code]⟩
  · exact ⟨.cancelled, rfl, fun x hx => by cases x <;> simp_all [CallState.code]⟩

/-- Anchor bytes with ranges that fit name an anchor whose ranges those are. -/
theorem anchorOf_fits {code state lead minDelay : Nat} (h : LeadsFit code state lead minDelay) :
    ∃ a, anchorOf code state = some a ∧ leadsFit a lead minDelay = true ∧ AnchorOf code state a := by
  rcases h with ⟨rfl, h1, h2⟩ | ⟨rfl, h1, h2⟩ | ⟨rfl, h1, h2, h3, h4⟩ | ⟨rfl | rfl, h3, h4⟩ | ⟨rfl, h1, h2, h3⟩
  · exact ⟨.expectedLead, rfl, decide_eq_true ⟨h1, h2⟩, ⟨fun _ => rfl, nofun, nofun, nofun, nofun, nofun⟩⟩
  · exact ⟨.scheduledLead, rfl, decide_eq_true ⟨h1, h2⟩, ⟨nofun, fun _ => rfl, nofun, nofun, nofun, nofun⟩⟩
  · obtain ⟨st, ha, hst⟩ := anchorOf_onState ⟨h1, h2⟩
    exact ⟨.onState st, ha, decide_eq_true ⟨h3, h4⟩,
      ⟨nofun, nofun, fun x _ hx => by rw [hst x hx], nofun, nofun, nofun⟩⟩
  · exact ⟨.onPlatformSet, rfl, decide_eq_true ⟨h3, h4⟩, ⟨nofun, nofun, nofun, fun _ => rfl, nofun, nofun⟩⟩
  · exact ⟨.onPlatformChange, rfl, decide_eq_true ⟨h3, h4⟩, ⟨nofun, nofun, nofun, nofun, fun _ => rfl, nofun⟩⟩
  · exact ⟨.onDelayChange, rfl, decide_eq_true ⟨h1, h2, h3⟩, ⟨nofun, nofun, nofun, nofun, nofun, fun _ => rfl⟩⟩

/-- Anchor bytes that name an anchor, with ranges that fit it, fit. -/
theorem leadsFit_of_anchor {code state lead minDelay : Nat} {a : Anchor} (h : anchorOf code state = some a)
    (hl : leadsFit a lead minDelay = true) : LeadsFit code state lead minDelay := by
  unfold LeadsFit
  unfold anchorOf at h
  split at h
  · cases h; simp only [leadsFit, decide_eq_true_eq] at hl; omega
  · cases h; simp only [leadsFit, decide_eq_true_eq] at hl; omega
  · split at h <;> cases h <;> simp only [leadsFit, decide_eq_true_eq] at hl <;> omega
  · cases h; simp only [leadsFit, decide_eq_true_eq] at hl; omega
  · cases h; simp only [leadsFit, decide_eq_true_eq] at hl; omega
  · cases h; simp only [leadsFit, decide_eq_true_eq] at hl; omega
  · cases h

/-- The valid states of a step's byte 7, bit by bit (11.9, log 37). -/
theorem validStates_bit (e : List Byte) {k : Nat} (h : k < 6) :
    (BitVec.ofNat 6 (byteAt e 7)).getLsbD k = flagAt e 7 k := by
  rw [BitVec.getLsbD_ofNat, decide_eq_true h, Bool.true_and, flagAt]

theorem validStates_ne_zero (e : List Byte) :
    BitVec.ofNat 6 (byteAt e 7) ≠ 0#6 ↔ ∃ k, k < 6 ∧ flagAt e 7 k = true := by
  constructor
  · intro hne
    by_contra hno
    refine hne (BitVec.eq_of_getLsbD_eq fun k hk => ?_)
    rw [validStates_bit e hk, BitVec.getLsbD_zero]
    exact Bool.eq_false_iff.2 fun hf => hno ⟨k, hk, hf⟩
  · rintro ⟨k, hk, hf⟩ hz
    rw [← validStates_bit e hk, hz, BitVec.getLsbD_zero] at hf
    cases hf

/-- The checks of R43 on the bytes of a step, but for its selector's (R42). -/
def StepFits (e : List Byte) : Prop :=
  LeadsFit (byteAt e 0) (byteAt e 1) (be16 e 2) (be16 e 4) ∧
    byteAt e 6 ≤ 3 ∧ (∃ k, k < 6 ∧ flagAt e 7 k = true) ∧ 30 ≤ be16 e 8 ∧ be16 e 8 ≤ 1800 ∧ byteAt e 10 ≤ 7 ∧
    60 ≤ be16 e 12 ∧ be16 e 12 ≤ 1800 ∧ byteAt e 15 ≤ 3 ∧ (parseSelector (e.drop 16)).isSome = true ∧
    byteAt e 22 ≤ 1 ∧ byteAt e 23 ≤ 2 ∧ 5 ≤ be16 e 24 ∧ be16 e 24 ≤ 600 ∧ byteAt e 26 ≤ 1

/-- A step that its parser takes meets the checks. -/
theorem stepFits_of_parse {e : List Byte} {p : PlanStep} (h : parseStep e = some p) : StepFits e := by
  unfold parseStep at h
  split at h
  · next a sel pol con tp ha hsel hpol hcon htp =>
    simp only at h
    split at h
    · next hranges =>
      obtain ⟨hleads, hgroup, hvalid, hw1, hw2, hrep, hi1, hi2, hcls, hc1, hc2⟩ := hranges
      have hp := policyOf_eq_some.1 hpol
      have hc := confirmOf_eq_some.1 hcon
      have ht := timeoutPolicyOf_eq_some.1 htp
      refine ⟨leadsFit_of_anchor ha hleads, hgroup, (validStates_ne_zero e).1 hvalid, hw1, hw2, hrep, hi1, hi2, hcls,
        by rw [hsel]; rfl, ?_, ?_, hc1, hc2, ?_⟩
      · rw [← hp]; cases pol <;> decide
      · rw [← hc]; cases con <;> decide
      · rw [← ht]; cases tp <;> decide
    · cases h
  · cases h

theorem exists_policyOf {n : Nat} (h : n ≤ 1) : ∃ x, policyOf n = some x := by
  obtain rfl | rfl : n = 0 ∨ n = 1 := by omega
  · exact ⟨_, rfl⟩
  · exact ⟨_, rfl⟩

theorem exists_confirmOf {n : Nat} (h : n ≤ 2) : ∃ x, confirmOf n = some x := by
  obtain rfl | rfl | rfl : n = 0 ∨ n = 1 ∨ n = 2 := by omega
  · exact ⟨_, rfl⟩
  · exact ⟨_, rfl⟩
  · exact ⟨_, rfl⟩

theorem exists_timeoutPolicyOf {n : Nat} (h : n ≤ 1) : ∃ x, timeoutPolicyOf n = some x := by
  obtain rfl | rfl : n = 0 ∨ n = 1 := by omega
  · exact ⟨_, rfl⟩
  · exact ⟨_, rfl⟩

/-- What the bytes of a step say, field by field (R42, 11.9). -/
structure StepReads (e : List Byte) (p : PlanStep) : Prop where
  anchor : AnchorOf (byteAt e 0) (byteAt e 1) p.anchor
  lead : p.lead = be16 e 2
  minDelay : p.minDelay = be16 e 4
  group : p.group = byteAt e 6
  valid : ∀ k, k < 6 → p.valid.getLsbD k = flagAt e 7 k
  window : p.window = be16 e 8
  repeats : p.repeats = byteAt e 10
  residual : p.residual = flagAt e 11 0
  restartable : p.restartable = flagAt e 11 1
  repeatInterval : p.repeatInterval = be16 e 12
  script : p.script = byteAt e 14
  cls : p.cls = byteAt e 15
  selector : parseSelector (e.drop 16) = some p.selector
  policy : p.policy.code = byteAt e 22
  confirm : p.confirm.code = byteAt e 23
  confirmTimeout : p.confirmTimeout = be16 e 24
  timeoutPolicy : p.timeoutPolicy.code = byteAt e 26

/-- A step that meets the checks is taken as its bytes say. -/
theorem parseStep_reads {e : List Byte} (h : StepFits e) : ∃ p, parseStep e = some p ∧ StepReads e p := by
  obtain ⟨hleads, hgroup, hvalid, hw1, hw2, hrep, hi1, hi2, hcls, hsel, hpol, hcon, hc1, hc2, htp⟩ := h
  obtain ⟨a, ha, hfit, hreads⟩ := anchorOf_fits hleads
  obtain ⟨sel, hsel⟩ := Option.isSome_iff_exists.1 hsel
  obtain ⟨pol, hpol⟩ := exists_policyOf hpol
  obtain ⟨con, hcon⟩ := exists_confirmOf hcon
  obtain ⟨tp, htp⟩ := exists_timeoutPolicyOf htp
  unfold parseStep
  simp only [ha, hsel, hpol, hcon, htp]
  exact ⟨_, if_pos ⟨hfit, hgroup, (validStates_ne_zero e).2 hvalid, hw1, hw2, hrep, hi1, hi2, hcls, hc1, hc2⟩,
    ⟨hreads, rfl, rfl, rfl, fun k hk => validStates_bit e hk, rfl, rfl, rfl, rfl, rfl, rfl, rfl, hsel,
      policyOf_eq_some.1 hpol, confirmOf_eq_some.1 hcon, rfl, timeoutPolicyOf_eq_some.1 htp⟩⟩

/-! ### Selectors, patterns, items, numbers, the directory -/

theorem parsePattern_loaded {e : List Byte} (h : byteAt e 0 = 1) : parsePattern e =
    if byteAt e 1 ≤ 24 ∧ ∀ p ∈ (List.range (byteAt e 1)).map fun k => be16 e (2 + 2 * k), p ≤ 4095 then
      some (some ((List.range (byteAt e 1)).map fun k => be16 e (2 + 2 * k)))
    else none := by
  unfold parsePattern
  simp only [h, be16s_map, List.all_eq_true, decide_eq_true_eq]

theorem parsePattern_other {e : List Byte} (h : 1 < byteAt e 0) : parsePattern e = none := by
  unfold parsePattern
  split
  · omega
  · omega
  · rfl

/-! ### Plans and scripts: entries of parts (R43, R68) -/

/-- The parts of an entry of whole parts of one size behind a head. -/
theorem splitEntries_behind {e : List Byte} {head size n : Nat} (h : e.length = head + size * n) :
    splitEntries (fun _ => size) n (e.drop head) =
      some ((List.range n).map fun k => (e.drop (head + size * k)).take size) := by
  rw [splitEntries_const size n (e.drop head) (by rw [List.length_drop]; omega)]
  simp only [List.drop_drop]

/-- An entry of parts is refused with one of its parts. -/
theorem parseParts_none {α : Type} {parse : List Byte → Option α} {e : List Byte} {head size n : Nat}
    (h : e.length = head + size * n)
    (hx : ∃ x ∈ (List.range n).map fun k => (e.drop (head + size * k)).take size, parse x = none) :
    (splitEntries (fun _ => size) n (e.drop head)).bind (parseAll parse) = none := by
  rw [splitEntries_behind h, Option.bind_some]
  exact (parseAll_none parse _).2 hx

/-- An entry of parts is taken as its parts, in their order. -/
theorem parseParts_some {α : Type} {parse : List Byte → Option α} {e : List Byte} {head size n : Nat} {l : List α}
    (h : e.length = head + size * n)
    (hl : ((List.range n).map fun k => (e.drop (head + size * k)).take size).map parse = l.map some) :
    (splitEntries (fun _ => size) n (e.drop head)).bind (parseAll parse) = some l := by
  rw [splitEntries_behind h, Option.bind_some]
  exact (parseAll_some parse _ _).2 hl

theorem parsePlan_loaded {e : List Byte} (h : byteAt e 0 = 1) : parsePlan e =
    if be16 e 2 ≤ 3600 ∧ 1 ≤ byteAt e 1 ∧ byteAt e 1 ≤ 8 then
      ((splitEntries (fun _ => 28) (byteAt e 1) (e.drop 4)).bind (parseAll parseStep)).map
        fun steps => some ⟨be16 e 2, steps⟩
    else none := by
  unfold parsePlan
  simp only [h]

theorem parsePlan_other {e : List Byte} (h : 1 < byteAt e 0) : parsePlan e = none := by
  unfold parsePlan
  split
  · omega
  · omega
  · rfl

theorem parseScript_loaded {e : List Byte} (h : byteAt e 0 = 1) : parseScript e =
    if 1 ≤ byteAt e 1 ∧ byteAt e 1 ≤ 24 then
      ((splitEntries (fun _ => 4) (byteAt e 1) (e.drop 2)).bind (parseAll parseItem)).map
        fun items => some (scriptOf items)
    else none := by
  unfold parseScript
  simp only [h]

theorem parseScript_other {e : List Byte} (h : 1 < byteAt e 0) : parseScript e = none := by
  unfold parseScript
  split
  · omega
  · omega
  · rfl

/-- The call items (R66, R67). -/
theorem ofCall_iff (x : Item) : x.ofCall = true ↔
    x = .place ∨ x = .platform ∨ (∃ k, x = .time k) ∨ x = .delay ∨ x = .calling := by
  cases x <;> simp [Item.ofCall]

end Sys2Proof.Machine

open Sys2Proof Sys2Proof.Machine

/-- Settles O28: the LOAD commands as loads, and each kind of entry by its parser's branches. -/
theorem tableLoadsAreAnswered : Obligations.TableLoadsAreAnswered := by
  unfold Obligations.TableLoadsAreAnswered
  refine ⟨fun s m => ⟨fun h => ?_, fun h => ?_, fun h => ?_, fun h => ?_, fun h => ?_, fun h => ?_, fun h => ?_⟩,
    fun e => ⟨fun h => ⟨fun hz => ?_, fun hz => ?_⟩, fun h => ?_, fun h => ?_, fun h => ?_, fun h => ?_, fun h => ?_,
      fun h => ?_⟩,
    fun e => ⟨fun h => ?_, fun h hn hp => ?_, fun h => ?_⟩,
    fun e => ⟨fun h => ?_, fun h => ?_⟩,
    fun e => ⟨fun h => ?_, fun h => ?_, fun h h1 h2 h3 hlen => ⟨fun hx => ?_, fun steps hs => ?_⟩⟩,
    fun e => ⟨fun h => ?_, fun h => ?_, fun h => ?_, fun h => ?_, fun h => ?_, fun h => ?_, fun h => ?_, fun h => ?_,
      fun h => ?_⟩,
    fun e => ⟨fun h => ?_, fun h => ?_, fun h h1 h2 hlen => ⟨fun hx => ?_, fun items hs => ?_⟩⟩,
    fun e => ⟨fun h => ?_, fun h => ?_, fun h hne => ?_⟩,
    fun e => ⟨fun h1 h2 h3 h4 h5 => ?_, fun h => ?_⟩⟩
  · exact answers_load rfl h rfl
  · exact answers_load rfl h rfl
  · exact answers_load rfl h rfl
  · exact answers_load rfl h rfl
  · exact answers_load rfl h rfl
  · exact answers_mapLoad rfl h rfl
  · exact answers_mapLoad rfl h rfl
  -- a selector
  · simp only [parseSelector, h, hz, if_true]
  · simp only [parseSelector, h, hz, if_false]
  · simp only [parseSelector, h]
  · simp only [parseSelector, h]
  · simp only [parseSelector, h]
  · simp only [parseSelector, h]
  · simp only [parseSelector, h]
  · unfold parseSelector
    dsimp only
    split
    case h_7 => rfl
    all_goals omega
  -- a pattern
  · simp only [parsePattern, h]
  · exact (parsePattern_loaded h).trans (if_pos ⟨hn, hp⟩)
  · rcases h with h | ⟨h, hbad⟩
    · exact parsePattern_other h
    · refine (parsePattern_loaded h).trans (if_neg fun hgood => ?_)
      rcases hbad with hlen | ⟨p, hp, hlt⟩
      · omega
      · have := hgood.2 p hp
        omega
  -- a plan step
  · cases hp : parseStep e with
    | none => rfl
    | some p => exact absurd (stepFits_of_parse hp) h
  · obtain ⟨p, hp, r⟩ := parseStep_reads h
    exact ⟨p, hp, r.anchor.expectedLead, r.anchor.scheduledLead, r.anchor.onState, r.anchor.onPlatformSet,
      r.anchor.onPlatformChange, r.anchor.onDelayChange, r.lead, r.minDelay, r.group, r.valid, r.window, r.repeats,
      r.residual, r.restartable, r.repeatInterval, r.script, r.cls, r.selector, r.policy, r.confirm, r.confirmTimeout,
      r.timeoutPolicy⟩
  -- a plan
  · simp only [parsePlan, h]
  · rcases h with h | ⟨h, hbad⟩
    · exact parsePlan_other h
    · exact (parsePlan_loaded h).trans (if_neg (by omega))
  · rw [parsePlan_loaded h, if_pos ⟨h3, h1, h2⟩, parseParts_none hlen hx]
    rfl
  · rw [parsePlan_loaded h, if_pos ⟨h3, h1, h2⟩, parseParts_some hlen hs]
    rfl
  -- an item
  · simp only [parseItem, h]
  · simp only [parseItem, h]
  · simp only [parseItem, h]
  · simp only [parseItem, h]
  · simp only [parseItem, h]
  · simp only [parseItem, h]
    rcases hb : byteAt e 1 with _ | _ | n
    · rfl
    · rfl
    · exact (if_neg (by omega)).symm
  · simp only [parseItem, h]
  · simp only [parseItem, h]
  · unfold parseItem
    dsimp only
    split
    case h_9 => rfl
    all_goals omega
  -- a script
  · simp only [parseScript, h]
  · rcases h with h | ⟨h, hbad⟩
    · exact parseScript_other h
    · exact (parseScript_loaded h).trans (if_neg (by omega))
  · rw [parseScript_loaded h, if_pos ⟨h1, h2⟩, parseParts_none hlen hx]
    rfl
  · refine ⟨scriptOf items, ?_, rfl, ?_⟩
    · rw [parseScript_loaded h, if_pos ⟨h1, h2⟩, parseParts_some hlen hs]
      rfl
    · simp only [scriptOf, List.any_eq_true, ofCall_iff]
  -- a number
  · exact (if_neg (by omega)).trans (if_pos h)
  · exact if_pos h
  · exact (if_neg hne).trans (if_neg (by omega))
  -- a directory entry
  · exact if_pos ⟨h1, h2, h4, h5, h3⟩
  · refine if_neg ?_
    rintro ⟨h1, h2, h4, h5, h3⟩
    have hsize : Config.phraseSize = 33554432 := rfl
    omega
end

section
/-! When a plan step is due, which of a collapse group fires, and what one evaluation leaves of a call's steps
(R47 to R58). -/

namespace Sys2Proof.Machine

/-! ### The conditions of a step (R42, R47, R49, R55 to R58) -/

theorem firesOn_stateEntry (c : CallRec) (i : Nat) (p : PlanStep) (st : CallState) :
    firesOn c i p (.stateEntry st) = true ↔
      p.anchor = .onState st ∧ (c.entry i).status = .armed ∧ p.validIn st = true ∧ p.validIn c.state = true := by
  simp [firesOn, and_assoc]

theorem firesOn_platformSet (c : CallRec) (i : Nat) (p : PlanStep) (new : Nat) :
    firesOn c i p (.platformSet new) = true ↔
      p.anchor = .onPlatformSet ∧ (c.entry i).status ≠ .skipped ∧ p.validIn c.state = true := by
  simp [firesOn, and_assoc]

theorem firesOn_platformChange (c : CallRec) (i : Nat) (p : PlanStep) (old new : Nat) :
    firesOn c i p (.platformChange old new) = true ↔
      p.anchor = .onPlatformChange ∧ (c.entry i).status ≠ .skipped ∧ p.validIn c.state = true := by
  simp [firesOn, and_assoc]

/-- A delay change fires a step when the new E lies at least the lead from the E last announced (R58). -/
theorem firesOn_delayChange (c : CallRec) (i : Nat) (p : PlanStep) (old new : Nat) :
    firesOn c i p (.delayChange old new) = true ↔
      p.anchor = .onDelayChange ∧ (c.entry i).status = .armed ∧ p.validIn c.state = true ∧
        ((c.entry i).eAtFire + p.lead ≤ new ∨ new + p.lead ≤ (c.entry i).eAtFire) := by
  have hfar : p.lead ≤ ((new : Int) - (c.entry i).eAtFire).natAbs ↔
      (c.entry i).eAtFire + p.lead ≤ new ∨ new + p.lead ≤ (c.entry i).eAtFire := by omega
  simp [firesOn, and_assoc, hfar]

/-- The fire time and the delay condition together, anchor by anchor (R47). -/
theorem fireTime_delayMet (c : CallRec) (p : PlanStep) (f : Nat) :
    (p.fireTime c = some f ∧ p.delayMet c = true) ↔
      ((p.anchor = .expectedLead ∧ f = c.expected - p.lead) ∨
       (p.anchor = .scheduledLead ∧ f = c.sched - p.lead ∧ (p.minDelay : Int) ≤ c.delay)) := by
  unfold PlanStep.fireTime PlanStep.delayMet
  cases p.anchor <;> simp [eq_comm]

theorem dueTime_eq_some (c : CallRec) (t i : Nat) (p : PlanStep) (f : Nat) :
    dueTime c t i p = some f ↔
      (c.entry i).status = .armed ∧ f ≤ t ∧ p.validIn c.state = true ∧
        ((p.anchor = .expectedLead ∧ f = c.expected - p.lead) ∨
         (p.anchor = .scheduledLead ∧ f = c.sched - p.lead ∧ (p.minDelay : Int) ≤ c.delay)) := by
  rw [← fireTime_delayMet]
  unfold dueTime
  cases hf : p.fireTime c with
  | none => simp
  | some g =>
    simp only [Option.ite_none_right_eq_some, Option.some.injEq]
    constructor
    · rintro ⟨⟨ha, ht, hv, hd⟩, rfl⟩
      exact ⟨ha, ht, hv, rfl, hd⟩
    · rintro ⟨ha, ht, hv, rfl, hd⟩
      exact ⟨⟨ha, ht, hv, hd⟩, rfl⟩

/-- A step that is due is time-anchored, so its firing writes FIRED (R52). -/
theorem firedEntry_of_due {c : CallRec} {t i f : Nat} {p : PlanStep} (h : dueTime c t i p = some f) (old : StepEntry)
    (e : Nat) : firedEntry p old e = ⟨.fired, e⟩ := by
  obtain ⟨-, -, -, ⟨ha, -⟩ | ⟨ha, -⟩⟩ := (dueTime_eq_some c t i p f).1 h <;> simp [firedEntry, ha]

theorem mem_dueSteps {c : CallRec} {pl : Plan} {t : Nat} {l : LiveStep} :
    l ∈ dueSteps c pl t ↔ pl.steps[l.index]? = some l.step ∧ dueTime c t l.index l.step = some l.fire := by
  simp only [dueSteps, List.mem_filterMap, Option.map_eq_some_iff, Prod.exists, List.mem_zipIdx_iff_getElem?]
  constructor
  · rintro ⟨p, i, hp, f, hf, rfl⟩
    exact ⟨hp, hf⟩
  · rintro ⟨hp, hf⟩
    exact ⟨l.step, l.index, hp, l.fire, hf, rfl⟩

/-- The due steps stand in ascending step index. -/
theorem dueSteps_rising (c : CallRec) (pl : Plan) (t : Nat) :
    (dueSteps c pl t).Pairwise fun x y => x.index < y.index := by
  have hidx : pl.steps.zipIdx.Pairwise fun x y => x.2 < y.2 := by
    have h : (pl.steps.zipIdx.map Prod.snd).Pairwise (· < ·) := by
      rw [List.zipIdx_map_snd]; exact List.pairwise_lt_range'
    exact List.pairwise_map.1 h
  refine List.Pairwise.filterMap _ (fun a b hab x hx y hy => ?_) hidx
  obtain ⟨f, -, rfl⟩ := Option.map_eq_some_iff.1 hx
  obtain ⟨g, -, rfl⟩ := Option.map_eq_some_iff.1 hy
  exact hab

/-! ### The step of a group that fires (R51) -/

theorem groupWinner_eq_none (live : List LiveStep) : groupWinner live = none ↔ live = [] := by
  cases live with
  | nil => simp [groupWinner]
  | cons l rest =>
    simp only [groupWinner, List.cons_ne_nil, iff_false]
    split
    · split <;> simp
    · simp

theorem groupWinner_spec {live : List LiveStep} (hr : live.Pairwise fun x y => x.index < y.index) {w : LiveStep}
    (hw : groupWinner live = some w) :
    w ∈ live ∧ ∀ l ∈ live, l.fire < w.fire ∨ (l.fire = w.fire ∧ l.index ≤ w.index) := by
  induction live generalizing w with
  | nil => cases hw
  | cons l rest ih =>
    obtain ⟨hl, hrest⟩ := List.pairwise_cons.1 hr
    unfold groupWinner at hw
    cases hv : groupWinner rest with
    | none =>
      rw [hv] at hw
      obtain rfl := (groupWinner_eq_none rest).1 hv
      obtain rfl := Option.some.inj hw
      simp
    | some v =>
      obtain ⟨hmem, hbest⟩ := ih hrest hv
      simp only [hv] at hw
      split at hw
      · next hlt =>
        obtain rfl := Option.some.inj hw
        refine ⟨List.mem_cons_self .., List.forall_mem_cons.2 ⟨.inr ⟨rfl, le_refl _⟩, fun x hx => .inl ?_⟩⟩
        have := hbest x hx
        omega
      · next hge =>
        obtain rfl := Option.some.inj hw
        refine ⟨List.mem_cons_of_mem _ hmem, List.forall_mem_cons.2 ⟨?_, hbest⟩⟩
        have := hl v hmem
        omega

/-! ### What an evaluation writes (R46, R50 to R54) -/

/-- The status entry of a step of the call in a slot, as it stands. -/
def State.stepStatus (s : State) (slot i : Nat) : Option StepEntry := (s.callAt slot).map fun c => c.entry i

/-- Whether a step of a slot stands in the retry set. -/
def State.inRetry (s : State) (slot i : Nat) : Bool := s.tru.retry.any fun x => x.isFor slot i

/-- A slot whose call can be evaluated: it has its eight status entries, and none of its retry entries waits for an
event-anchored step. -/
structure Evaluable (slot : Nat) (s : State) : Prop where
  sound : PoolSound s.apl
  call : ∃ c, s.callAt slot = some c ∧ c.steps.length = 8
  pending : ∀ x ∈ s.tru.retry, x.slot = slot → x.pendingTime = none

/-- At most the steps listed of the call in a slot have been dealt with: the call is otherwise as it was, and so are the
other slots. -/
structure StepsWritten (slot : Nat) (idx : List Nat) (s t : State) : Prop where
  sound : PoolSound s.apl → PoolSound t.apl
  others : ∀ other, other ≠ slot → t.callAt other = s.callAt other
  record : ∀ c, s.callAt slot = some c →
    ∃ l, t.callAt slot = some { c with steps := l } ∧ l.length = c.steps.length
  status : ∀ i, i ∉ idx → t.stepStatus slot i = s.stepStatus slot i
  inRetry : ∀ i, i ∉ idx → t.inRetry slot i = s.inRetry slot i
  pending : (∀ x ∈ s.tru.retry, x.slot = slot → x.pendingTime = none) →
    ∀ x ∈ t.tru.retry, x.slot = slot → x.pendingTime = none

theorem StepsWritten.evaluable {slot : Nat} {idx : List Nat} {s t : State} (h : StepsWritten slot idx s t)
    (hs : Evaluable slot s) : Evaluable slot t := by
  obtain ⟨c, hc, hlen⟩ := hs.call
  obtain ⟨l, hl, hll⟩ := h.record c hc
  exact ⟨h.sound hs.sound, ⟨_, hl, hll.trans hlen⟩, h.pending hs.pending⟩

/-- Nothing of the call or its retry entries is written where the two blocks stay. -/
theorem StepsWritten.ofBlocks {slot : Nat} {s t : State} (ha : PoolSound s.apl → PoolSound t.apl) (hc : t.crg = s.crg)
    (ht : t.tru = s.tru) : StepsWritten slot [] s t := by
  have hcall : ∀ k, t.callAt k = s.callAt k := fun k => by unfold State.callAt; rw [hc]
  refine ⟨ha, fun k _ => hcall k, fun c h => ⟨c.steps, (hcall slot).trans h, rfl⟩, fun i _ => ?_, fun i _ => ?_, ?_⟩
  · unfold State.stepStatus; rw [hcall]
  · unfold State.inRetry; rw [ht]
  · rw [ht]; exact id

theorem StepsWritten.trans {slot : Nat} {a b : List Nat} {s t u : State} (h : StepsWritten slot a s t)
    (k : StepsWritten slot b t u) : StepsWritten slot (a ++ b) s u := by
  refine ⟨fun hs => k.sound (h.sound hs), fun o ho => (k.others o ho).trans (h.others o ho), fun c hc => ?_,
    fun i hi => ?_, fun i hi => ?_, fun hp => k.pending (h.pending hp)⟩
  · obtain ⟨l, hl, hll⟩ := h.record c hc
    obtain ⟨m, hm, hml⟩ := k.record _ hl
    exact ⟨m, hm, hml.trans hll⟩
  all_goals
    rw [List.mem_append, not_or] at hi
  · exact (k.status i hi.2).trans (h.status i hi.1)
  · exact (k.inRetry i hi.2).trans (h.inRetry i hi.1)

theorem StepsWritten.widen {slot : Nat} {a b : List Nat} {s t : State} (h : StepsWritten slot a s t)
    (hab : ∀ i ∈ a, i ∈ b) : StepsWritten slot b s t :=
  ⟨h.sound, h.others, h.record, fun i hi => h.status i fun ha => hi (hab i ha),
    fun i hi => h.inRetry i fun ha => hi (hab i ha), h.pending⟩

/-! ### One step is written, skipped or put off -/

theorem dropRetry_inRetry (slot i j : Nat) (s : State) :
    (dropRetry slot i s).inRetry slot j = (j != i && s.inRetry slot j) := by
  simp only [dropRetry, State.inRetry, onTru_tru, List.any_filter]
  by_cases h : j = i
  · subst h; simp
  · have hb : ∀ x : RetryEntry, x.isFor slot j = true → x.isFor slot i = false := by
      intro x hx
      simp only [RetryEntry.isFor, Bool.and_eq_true, beq_iff_eq, Bool.and_eq_false_iff, beq_eq_false_iff_ne] at hx ⊢
      exact .inr fun he => h (hx.2.symm.trans he)
    rw [show (j != i) = true by simpa using h, Bool.true_and]
    refine List.any_congr rfl fun x => ?_
    cases hx : x.isFor slot j
    · simp
    · simp [hb x hx]

/-- A step's status is written and its retry entry dropped. -/
theorem StepsWritten.writeEntry {slot i : Nat} {c : CallRec} {s : State} (hc : s.callAt slot = some c) (e : StepEntry) :
    StepsWritten slot [i] s (dropRetry slot i (setEntry slot i e s)) := by
  have hset : setEntry slot i e s = s.setCall slot { c with steps := c.steps.set i e } := by
    unfold setEntry; rw [hc]
  have hcall : (dropRetry slot i (setEntry slot i e s)).callAt slot = some { c with steps := c.steps.set i e } := by
    rw [hset]; exact tabGet_tabSet_same ..
  refine ⟨by rw [hset]; exact id, fun o ho => ?_, fun d hd => ?_, fun j hj => ?_, fun j hj => ?_, fun hp x hx => ?_⟩
  · rw [hset]; exact tabGet_tabSet_other _ _ ho
  · obtain rfl := Option.some.inj (hc.symm.trans hd)
    exact ⟨_, hcall, List.length_set⟩
  · have hji : i ≠ j := fun he => hj (by simp [he])
    simp only [State.stepStatus, hcall, hc, Option.map_some, CallRec.entry, List.getD_eq_getElem?_getD,
      List.getElem?_set_ne hji]
  · rw [dropRetry_inRetry, hset, show (j != i) = true by simpa using hj, Bool.true_and]
    rfl
  · rw [hset] at hx
    exact hp x (List.mem_of_mem_filter hx)

theorem writeEntry_status {slot i : Nat} {c : CallRec} {s : State} (hc : s.callAt slot = some c)
    (hi : i < c.steps.length) (e : StepEntry) :
    (dropRetry slot i (setEntry slot i e s)).stepStatus slot i = some e := by
  have hcall : (dropRetry slot i (setEntry slot i e s)).callAt slot = some { c with steps := c.steps.set i e } := by
    unfold setEntry; rw [hc]; exact tabGet_tabSet_same ..
  simp [State.stepStatus, hcall, CallRec.entry, hi]

theorem dropRetry_gone (slot i : Nat) (s : State) : (dropRetry slot i s).inRetry slot i = false := by
  simp [dropRetry_inRetry]

/-- A creation put off counts its attempt and writes the retry set alone, apart from its notice (R54). -/
theorem retryLater_blocks (slot ref i : Nat) (p : PlanStep) (pending : Option Nat) (s : State) :
    (retryLater slot ref i p pending s).apl = s.apl ∧ (retryLater slot ref i p pending s).crg = s.crg ∧
      (retryLater slot ref i p pending s).tru.retry =
        if s.inRetry slot i then
          s.tru.retry.map fun e => if e.isFor slot i then { e with pendingTime := pending } else e
        else s.tru.retry ++ [⟨slot, ref, i, pending⟩] := by
  unfold retryLater State.inRetry
  dsimp only
  rw [count_tru]
  split <;> simp

/-- A creation put off enters its step in the retry set. -/
theorem retryLater_inRetry (slot ref i j : Nat) (p : PlanStep) (pending : Option Nat) (s : State) :
    (retryLater slot ref i p pending s).inRetry slot j = (s.inRetry slot j || j == i) := by
  show List.any _ _ = _
  rw [(retryLater_blocks ..).2.2]
  split
  · next hi =>
    have hmap : ∀ e : RetryEntry, (if e.isFor slot i then { e with pendingTime := pending } else e).isFor slot j =
        e.isFor slot j := by
      intro e
      split <;> rfl
    simp only [List.any_map, Function.comp_def, hmap]
    show s.inRetry slot j = _
    by_cases hj : j = i
    · subst hj; simp [hi]
    · simp [hj]
  · simp [State.inRetry, RetryEntry.isFor, BEq.comm (a := i)]

theorem retryLater_stepStatus (slot ref i j : Nat) (p : PlanStep) (pending : Option Nat) (s : State) :
    (retryLater slot ref i p pending s).stepStatus slot j = s.stepStatus slot j := by
  unfold State.stepStatus State.callAt
  rw [(retryLater_blocks ..).2.1]

theorem StepsWritten.retryLater (slot ref i : Nat) (p : PlanStep) (s : State) :
    StepsWritten slot [i] s (retryLater slot ref i p none s) := by
  obtain ⟨hapl, hcrg, hretry⟩ := retryLater_blocks slot ref i p none s
  have hcall : ∀ k, (Machine.retryLater slot ref i p none s).callAt k = s.callAt k := fun k => by
    unfold State.callAt; rw [hcrg]
  refine ⟨by rw [hapl]; exact id, fun o _ => hcall o, fun c h => ⟨c.steps, (hcall slot).trans h, rfl⟩,
    fun j _ => retryLater_stepStatus .., fun j hj => ?_, fun hp x hx hslot => ?_⟩
  · rw [retryLater_inRetry]
    simp [show j ≠ i by simpa using hj]
  · rw [hretry] at hx
    split at hx
    · obtain ⟨y, hy, rfl⟩ := List.mem_map.1 hx
      by_cases hf : y.isFor slot i = true
      · rw [if_pos hf]
      · rw [if_neg hf] at hslot ⊢
        exact hp y hy hslot
    · rcases List.mem_append.1 hx with hx | hx
      · exact hp x hx hslot
      · obtain rfl := List.mem_singleton.1 hx
        rfl

/-! ### A step is skipped, or fires -/

/-- From a state to the next, a step of the call has become SKIPPED and left the retry set. -/
def Skipped (slot i : Nat) (s t : State) : Prop :=
  t.stepStatus slot i = (s.stepStatus slot i).map (fun e => { e with status := .skipped }) ∧
    t.inRetry slot i = false

/-- From a state to the next, a step of the call has fired at the E given, or stands in the retry set unfired. -/
def FiredOrPutOff (slot i e : Nat) (s t : State) : Prop :=
  (t.stepStatus slot i = some ⟨.fired, e⟩ ∧ t.inRetry slot i = false) ∨
    (t.stepStatus slot i = s.stepStatus slot i ∧ t.inRetry slot i = true)

theorem stepStatus_eq {s : State} {slot : Nat} {c : CallRec} (h : s.callAt slot = some c) (i : Nat) :
    s.stepStatus slot i = some (c.entry i) := by
  simp [State.stepStatus, h]

theorem StepsWritten.skipStep {slot i : Nat} {s : State} (h : Evaluable slot s) (hi : i < 8) :
    StepsWritten slot [i] s (skipStep slot i s) ∧ Skipped slot i s (Machine.skipStep slot i s) := by
  obtain ⟨c, hc, hlen⟩ := h.call
  unfold Machine.skipStep
  simp only [hc]
  refine ⟨.writeEntry hc _, ?_, dropRetry_gone ..⟩
  rw [writeEntry_status hc (hlen ▸ hi), stepStatus_eq hc]
  rfl

theorem StepsWritten.skipSteps {slot : Nat} (l : List LiveStep) {s : State} (h : Evaluable slot s)
    (hl : ∀ x ∈ l, x.index < 8) :
    StepsWritten slot (l.map LiveStep.index) s (skipSteps slot l s) ∧
      ∀ x ∈ l, Skipped slot x.index s (Machine.skipSteps slot l s) := by
  induction l generalizing s with
  | nil => exact ⟨.ofBlocks id rfl rfl, by simp⟩
  | cons y rest ih =>
    obtain ⟨hy, hrest⟩ := List.forall_mem_cons.1 hl
    obtain ⟨hw, hskip⟩ := StepsWritten.skipStep h hy
    obtain ⟨kw, kskip⟩ := ih (hw.evaluable h) hrest
    have hhead : ∀ i, i ∈ rest.map LiveStep.index → Skipped slot i (Machine.skipStep slot y.index s)
        (Machine.skipSteps slot rest (Machine.skipStep slot y.index s)) := fun i hi => by
      obtain ⟨x, hx, rfl⟩ := List.mem_map.1 hi
      exact kskip x hx
    refine ⟨hw.trans kw, fun x hx => ?_⟩
    have key : x.index = y.index ∨ x ∈ rest := (List.mem_cons.1 hx).imp_left (congrArg _)
    by_cases hin : x.index ∈ rest.map LiveStep.index
    · obtain ⟨hs, hr⟩ := hhead _ hin
      refine ⟨hs.trans ?_, hr⟩
      by_cases he : x.index = y.index
      · rw [he, hskip.1, Option.map_map]; rfl
      · rw [hw.status _ (by simpa using he)]
    · have he : x.index = y.index := key.resolve_right fun hm => hin (List.mem_map_of_mem hm)
      rw [he] at hin ⊢
      exact ⟨(kw.status _ hin).trans hskip.1, (kw.inRetry _ hin).trans hskip.2⟩

/-- A replacement ends pool records and writes neither the calls nor the retry set (R53, R107). -/
theorem StepsWritten.replaceStep (slot ref i : Nat) {s : State} (h : PoolSound s.apl) :
    StepsWritten slot [] s (replaceStep slot ref i s) := by
  have hk : KeptBut _ s (Machine.replaceStep slot ref i s) := KeptBut.endAnns .withdrawn .replaced _ h.2.1
  exact .ofBlocks (Inner.replaceStep slot ref i s).pool hk.crg hk.tru

/-- A due step that fires is FIRED at the E given and out of the retry set, or is put off (R52 to R54). -/
theorem StepsWritten.fireStep {slot i : Nat} {p : PlanStep} {s : State} (h : Evaluable slot s) (hi : i < 8)
    (t latest e : Nat) (hp : ∀ old, firedEntry p old e = ⟨.fired, e⟩) :
    StepsWritten slot [i] s (fireStep slot i p t latest e none s) ∧
      FiredOrPutOff slot i e s (Machine.fireStep slot i p t latest e none s) := by
  obtain ⟨c, hc, hlen⟩ := h.call
  have hreplace := StepsWritten.replaceStep slot c.callRef i h.sound
  have hsound := hreplace.sound h.sound
  unfold Machine.fireStep
  simp only [hc, hp]
  generalize Machine.replaceStep slot c.callRef i s = s1 at *
  cases hcr : createRecord (stepAsk slot c.callRef i p t latest) s1 with
  | none =>
    refine ⟨hreplace.trans (.retryLater slot c.callRef i p s1), .inr ⟨?_, ?_⟩⟩
    · exact (retryLater_stepStatus ..).trans (hreplace.status i (by simp))
    · simp [retryLater_inRetry]
  | some q =>
    obtain ⟨id, s2⟩ := q
    obtain ⟨hcrg, htru, -, -⟩ := createRecord_blocks hcr
    have hcreate : StepsWritten slot [] s1 s2 := .ofBlocks (Inner.createRecord hcr).pool hcrg htru
    obtain ⟨d, hd, hdlen⟩ := ((hreplace.trans hcreate).evaluable h).call
    exact ⟨(hreplace.trans hcreate).trans (.writeEntry hd _),
      .inl ⟨writeEntry_status hd (hdlen ▸ hi) _, dropRetry_gone ..⟩⟩

/-! ### A collapse group, and the four of them (R51) -/

/-- A live due step that comes before another of its group: a later fire time, or the same and a higher index (R51). -/
def LiveStep.Beats (m l : LiveStep) : Prop := l.fire < m.fire ∨ (l.fire = m.fire ∧ l.index < m.index)

/-- What an evaluation makes of a live due step, given the group it stands in. -/
def Resolved (slot e : Nat) (group : List LiveStep) (l : LiveStep) (s t : State) : Prop :=
  ((∃ m ∈ group, m.Beats l) → Skipped slot l.index s t) ∧
    ((∀ m ∈ group, ¬m.Beats l) → FiredOrPutOff slot l.index e s t)

/-- Steps before and after that leave a step alone do not change what has become of it. -/
theorem Resolved.around {slot e : Nat} {group : List LiveStep} {l : LiveStep} {a b : List Nat} {s s' t t' : State}
    (h : Resolved slot e group l s' t) (before : StepsWritten slot a s s') (ha : l.index ∉ a)
    (after : StepsWritten slot b t t') (hb : l.index ∉ b) : Resolved slot e group l s t' := by
  unfold Resolved Skipped FiredOrPutOff at *
  rwa [after.status _ hb, after.inRetry _ hb, ← before.status _ ha]

theorem LiveStep.index_inj {l : List LiveStep} (h : l.Pairwise fun x y => x.index < y.index) {x y : LiveStep}
    (hx : x ∈ l) (hy : y ∈ l) (he : x.index = y.index) : x = y := by
  refine List.inj_on_of_nodup_map (List.pairwise_map.2 (h.imp fun h => Nat.ne_of_lt h)) hx hy he

/-- In a list of rising indexes, a step whose index a filter keeps passes the filter. -/
theorem LiveStep.of_index_mem_filter {l : List LiveStep} (h : l.Pairwise fun x y => x.index < y.index)
    {q : LiveStep → Bool} {x : LiveStep} (hx : x ∈ l) (hm : x.index ∈ (l.filter q).map LiveStep.index) :
    q x = true := by
  obtain ⟨y, hy, he⟩ := List.mem_map.1 hm
  obtain rfl := LiveStep.index_inj h (List.mem_of_mem_filter hy) hx he
  exact (List.mem_filter.1 hy).2

theorem StepsWritten.collapseGroup {slot t e : Nat} {live : List LiveStep} {s : State} (h : Evaluable slot s)
    (hr : live.Pairwise fun x y => x.index < y.index) (hi : ∀ l ∈ live, l.index < 8)
    (hp : ∀ l ∈ live, ∀ old, firedEntry l.step old e = ⟨.fired, e⟩) :
    StepsWritten slot (live.map LiveStep.index) s (collapseGroup slot t e live s) ∧
      ∀ l ∈ live, Resolved slot e live l s (Machine.collapseGroup slot t e live s) := by
  unfold Machine.collapseGroup
  cases hw : groupWinner live with
  | none =>
    obtain rfl := (groupWinner_eq_none live).1 hw
    exact ⟨.ofBlocks id rfl rfl, by simp⟩
  | some w =>
    obtain ⟨hmem, hbest⟩ := groupWinner_spec hr hw
    obtain ⟨hskipw, hskip⟩ := StepsWritten.skipSteps (live.filter fun l => l.index != w.index) h
      fun x hx => hi x (List.mem_of_mem_filter hx)
    obtain ⟨hfirew, hfire⟩ := StepsWritten.fireStep (p := w.step) (hskipw.evaluable h) (hi w hmem) t
      (w.fire + w.step.window) e (hp w hmem)
    refine ⟨(hskipw.trans hfirew).widen fun i hm => ?_, fun l hl => ?_⟩
    · rcases List.mem_append.1 hm with hm | hm
      · exact (List.filter_sublist.map _).subset hm
      · exact List.mem_singleton.1 hm ▸ List.mem_map_of_mem hmem
    · by_cases he : l.index = w.index
      · obtain rfl := LiveStep.index_inj hr hl hmem he
        have hnot : l.index ∉ (live.filter fun x => x.index != l.index).map LiveStep.index := by
          simp only [List.mem_map, List.mem_filter, bne_iff_ne]
          rintro ⟨x, ⟨-, hne⟩, hx⟩
          exact hne hx
        refine ⟨fun ⟨m, hm, hb⟩ => ?_, fun _ => ?_⟩
        · have := hbest m hm
          unfold LiveStep.Beats at hb
          omega
        · unfold FiredOrPutOff at hfire ⊢
          rwa [hskipw.status _ hnot] at hfire
      · refine ⟨fun _ => ?_, fun hall => ?_⟩
        · obtain ⟨hs, hg⟩ := hskip l (List.mem_filter.2 ⟨hl, by simpa using he⟩)
          have hnot : l.index ∉ [w.index] := by simpa using he
          exact ⟨(hfirew.status _ hnot).trans hs, (hfirew.inRetry _ hnot).trans hg⟩
        · refine absurd ?_ (hall w hmem)
          have := hbest l hl
          unfold LiveStep.Beats
          omega

theorem StepsWritten.collapseGroups {slot t e : Nat} {live : List LiveStep} (gs : List Nat) (hn : gs.Nodup) {s : State}
    (h : Evaluable slot s) (hr : live.Pairwise fun x y => x.index < y.index) (hi : ∀ l ∈ live, l.index < 8)
    (hp : ∀ l ∈ live, ∀ old, firedEntry l.step old e = ⟨.fired, e⟩) :
    StepsWritten slot ((live.filter fun l => gs.contains l.step.group).map LiveStep.index) s
        (collapseGroups slot t e live gs s) ∧
      ∀ l ∈ live, l.step.group ∈ gs → Resolved slot e (live.filter fun m => m.step.group == l.step.group) l s
        (Machine.collapseGroups slot t e live gs s) := by
  induction gs generalizing s with
  | nil => exact ⟨(StepsWritten.ofBlocks id rfl rfl).widen (by simp), by simp⟩
  | cons g rest ih =>
    obtain ⟨hg, hrest⟩ := List.nodup_cons.1 hn
    have hsub : ∀ x ∈ live.filter (fun l => l.step.group == g), x ∈ live := fun x hx => List.mem_of_mem_filter hx
    obtain ⟨hw, hres⟩ := StepsWritten.collapseGroup (t := t) h (hr.filter fun l => l.step.group == g)
      (fun l hl => hi l (hsub l hl)) fun l hl => hp l (hsub l hl)
    obtain ⟨kw, kres⟩ := ih hrest (hw.evaluable h)
    refine ⟨(hw.trans kw).widen fun i hm => ?_, fun l hl hgs => ?_⟩
    · rcases List.mem_append.1 hm with hm | hm <;>
      · obtain ⟨x, hx, rfl⟩ := List.mem_map.1 hm
        obtain ⟨hx, hq⟩ := List.mem_filter.1 hx
        exact List.mem_map_of_mem (List.mem_filter.2 ⟨hx, by simp_all⟩)
    · rcases List.mem_cons.1 hgs with rfl | hgr
      · refine (hres l (List.mem_filter.2 ⟨hl, by simp⟩)).around (.ofBlocks id rfl rfl) (by simp) kw fun hm => hg ?_
        simpa using LiveStep.of_index_mem_filter hr hl hm
      · refine (kres l hl hgr).around hw (fun hm => hg ?_) (.ofBlocks id rfl rfl) (by simp)
        have he : l.step.group = g := by simpa using LiveStep.of_index_mem_filter hr hl hm
        exact he ▸ hgr

/-! ### One evaluation (R48, R50, R51, R54) -/

theorem cleanRetry_callAt (q : RetryEntry → Bool) (s : State) (slot : Nat) :
    (cleanRetry q s).callAt slot = s.callAt slot := rfl

theorem Evaluable.cleanRetry {slot : Nat} {s : State} (h : Evaluable slot s) (q : RetryEntry → Bool) :
    Evaluable slot (cleanRetry q s) :=
  ⟨h.sound, h.call, fun x hx => h.pending x (List.mem_of_mem_filter hx)⟩

/-- The live due steps of an evaluation (R50). -/
def liveSteps (c : CallRec) (pl : Plan) (t : Nat) : List LiveStep := (dueSteps c pl t).filter fun l => !l.stale t

theorem mem_liveSteps {c : CallRec} {pl : Plan} {t : Nat} {l : LiveStep} :
    l ∈ liveSteps c pl t ↔ pl.steps[l.index]? = some l.step ∧ dueTime c t l.index l.step = some l.fire ∧
      t ≤ l.fire + l.step.window := by
  simp [liveSteps, LiveStep.stale, mem_dueSteps, and_assoc]

section
variable {slot now : Nat} {seen : Option CallRec} {s : State} {c : CallRec} {pl : Plan}

/-- Where no event-anchored step waits, an evaluation tries no retry entry: it skips the stale due steps and takes the
collapse groups. -/
theorem evaluateCall_noRetries (hc : s.callAt slot = some c) (hpl : tabGet s.tru.plans c.plan = some pl)
    (hpend : ∀ x ∈ (collapseGroups slot now (c.asSeen seen).expected (liveSteps (c.asSeen seen) pl now) [0, 1, 2, 3]
      (skipSteps slot ((dueSteps (c.asSeen seen) pl now).filter fun l => l.stale now)
        (cleanRetry (fun e => e.slot == slot) s))).tru.retry, x.slot = slot → x.pendingTime = none) :
    evaluateCall slot now seen [] s =
      collapseGroups slot now (c.asSeen seen).expected (liveSteps (c.asSeen seen) pl now) [0, 1, 2, 3]
        (skipSteps slot ((dueSteps (c.asSeen seen) pl now).filter fun l => l.stale now)
          (cleanRetry (fun e => e.slot == slot) s)) := by
  have hplan : tabGet (cleanRetry (fun e => e.slot == slot) s).tru.plans (c.asSeen seen).plan = some pl := by
    rw [asSeen_plan]; exact hpl
  unfold evaluateCall
  simp only [cleanRetry_callAt, hc, Option.map_some, hplan]
  rw [List.filter_eq_nil_iff.2]
  · rfl
  · intro x hx hw
    simp only [Bool.and_eq_true, beq_iff_eq] at hw
    have := hpend x hx hw.1.1
    simp [this] at hw

/-- What one evaluation makes of the due steps of a call (R50, R51). -/
theorem evaluateCall_resolves (h : Evaluable slot s) (hc : s.callAt slot = some c)
    (hpl : tabGet s.tru.plans c.plan = some pl) (hsteps : pl.steps.length ≤ 8) (hgroups : ∀ p ∈ pl.steps, p.group ≤ 3) :
    StepsWritten slot ((dueSteps (c.asSeen seen) pl now).map LiveStep.index)
        (cleanRetry (fun e => e.slot == slot) s) (evaluateCall slot now seen [] s) ∧
      (∀ l ∈ dueSteps (c.asSeen seen) pl now, l.stale now = true →
        Skipped slot l.index (cleanRetry (fun e => e.slot == slot) s) (evaluateCall slot now seen [] s)) ∧
      ∀ l ∈ liveSteps (c.asSeen seen) pl now, Resolved slot (c.asSeen seen).expected
        ((liveSteps (c.asSeen seen) pl now).filter fun m => m.step.group == l.step.group) l
        (cleanRetry (fun e => e.slot == slot) s) (evaluateCall slot now seen [] s) := by
  have hrise := dueSteps_rising (c.asSeen seen) pl now
  have hidx : ∀ l ∈ dueSteps (c.asSeen seen) pl now, l.index < 8 := fun l hl => by
    obtain ⟨hlt, -⟩ := List.getElem?_eq_some_iff.1 (mem_dueSteps.1 hl).1
    omega
  have hlive : ∀ l ∈ liveSteps (c.asSeen seen) pl now, l ∈ dueSteps (c.asSeen seen) pl now ∧ l.stale now = false :=
    fun l hl => by simpa [liveSteps] using hl
  obtain ⟨hskipw, hskip⟩ := StepsWritten.skipSteps ((dueSteps (c.asSeen seen) pl now).filter fun l => l.stale now)
    (h.cleanRetry fun e => e.slot == slot) fun l hl => hidx l (List.mem_of_mem_filter hl)
  obtain ⟨hgroupw, hgroup⟩ := StepsWritten.collapseGroups (live := liveSteps (c.asSeen seen) pl now) (t := now)
    (e := (c.asSeen seen).expected) [0, 1, 2, 3]
    (by simp) (hskipw.evaluable (h.cleanRetry _)) (hrise.filter _)
    (fun l hl => hidx l (hlive l hl).1) fun l hl old => firedEntry_of_due (mem_dueSteps.1 (hlive l hl).1).2 old _
  have hpend := (hgroupw.evaluable (hskipw.evaluable (h.cleanRetry _))).pending
  rw [evaluateCall_noRetries hc hpl hpend]
  refine ⟨(hskipw.trans hgroupw).widen fun i hm => ?_, fun l hl hst => ?_, fun l hl => ?_⟩
  · rcases List.mem_append.1 hm with hm | hm
    · exact (List.filter_sublist.map _).subset hm
    · exact ((List.filter_sublist.trans List.filter_sublist).map _).subset hm
  · have hnot : l.index ∉ ((liveSteps (c.asSeen seen) pl now).filter fun l =>
        [0, 1, 2, 3].contains l.step.group).map LiveStep.index := fun hm => by
      have := LiveStep.of_index_mem_filter hrise (q := fun l => !l.stale now) hl ((List.filter_sublist.map _).subset hm)
      simp [hst] at this
    obtain ⟨hs, hr⟩ := hskip l (List.mem_filter.2 ⟨hl, hst⟩)
    exact ⟨(hgroupw.status _ hnot).trans hs, (hgroupw.inRetry _ hnot).trans hr⟩
  · obtain ⟨hdue, hst⟩ := hlive l hl
    have hg3 : l.step.group ≤ 3 := hgroups _ (List.mem_of_getElem? (mem_dueSteps.1 hdue).1)
    refine (hgroup l hl (by simp; omega)).around hskipw (fun hm => ?_) (.ofBlocks id rfl rfl) (by simp)
    have := LiveStep.of_index_mem_filter hrise hdue hm
    simp [hst] at this

end

/-! ### A retry entry at an evaluation (R54) -/

section
variable {slot now : Nat} {seen : Option CallRec} {pl : Plan} {x : RetryEntry} {s : State} {c : CallRec} {p : PlanStep}

theorem retryOne_untried (hx : x.pendingTime = none ∨ p.eventAnchored = false) (hp : pl.steps[x.step]? = some p) :
    retryOne slot now seen pl x s = s := by
  unfold retryOne
  rw [hp]
  rcases hx with hx | hx
  · rw [hx]
    cases (s.callAt slot).map (CallRec.asSeen seen) <;> rfl
  · cases (s.callAt slot).map (CallRec.asSeen seen) <;> cases x.pendingTime <;> simp [hx]

variable {pending : Nat}

/-- Past its window an entry leaves the retry set, and an ON_STATE step is SKIPPED. -/
theorem retryOne_stale (hc : s.callAt slot = some c) (hp : pl.steps[x.step]? = some p)
    (hx : x.pendingTime = some pending) (he : p.eventAnchored = true) (hlt : pending + p.window < now) :
    ((∃ st, p.anchor = .onState st) → retryOne slot now seen pl x s = skipStep slot x.step s) ∧
      ((∀ st, p.anchor ≠ .onState st) → retryOne slot now seen pl x s = dropRetry slot x.step s) := by
  unfold retryOne
  simp only [hc, hp, hx, he, hlt, Option.map_some, if_true]
  cases p.anchor <;> simp

/-- Inside its window an entry's step fires again in a valid state, and waits in another. -/
theorem retryOne_inWindow (hc : s.callAt slot = some c) (hp : pl.steps[x.step]? = some p)
    (hx : x.pendingTime = some pending) (he : p.eventAnchored = true) (hle : now ≤ pending + p.window) :
    retryOne slot now seen pl x s =
      if p.validIn (c.asSeen seen).state then
        fireStep slot x.step p now (pending + p.window) (c.asSeen seen).expected (some pending) s
      else s := by
  unfold retryOne
  simp only [hc, hp, hx, he, Nat.not_lt.2 hle, Option.map_some, if_true, if_false]

end

/-! ### The obligation -/

theorem inRetry_eq_false {s : State} {slot i : Nat} :
    s.inRetry slot i = false ↔ ∀ x ∈ s.tru.retry, x.isFor slot i = false := by
  simp [State.inRetry]

theorem inRetry_eq_true {s : State} {slot i : Nat} :
    s.inRetry slot i = true ↔ ∃ x ∈ s.tru.retry, x.isFor slot i = true := List.any_eq_true

theorem entry_of_stepStatus {s t : State} {slot i : Nat} {c c' : CallRec} (hs : s.callAt slot = some c)
    (ht : t.callAt slot = some c') (h : t.stepStatus slot i = s.stepStatus slot i) : c'.entry i = c.entry i := by
  rw [stepStatus_eq hs, stepStatus_eq ht] at h
  exact Option.some.inj h

theorem Skipped.entry {s t : State} {slot i : Nat} {c c' : CallRec} (h : Skipped slot i s t)
    (hs : s.callAt slot = some c) (ht : t.callAt slot = some c') :
    c'.entry i = { c.entry i with status := .skipped } ∧ ∀ x ∈ t.tru.retry, x.isFor slot i = false := by
  obtain ⟨hst, hr⟩ := h
  rw [stepStatus_eq hs, stepStatus_eq ht] at hst
  exact ⟨Option.some.inj hst, inRetry_eq_false.1 hr⟩

end Sys2Proof.Machine

open Sys2Proof Sys2Proof.Machine

/-- Settles O36: the iff of each condition, and what `evaluateCall` and `retryOne` make of the steps. -/
theorem stepsFireByTheirAnchors : Obligations.StepsFireByTheirAnchors := by
  unfold Obligations.StepsFireByTheirAnchors
  refine ⟨fun c i p => ⟨firesOn_stateEntry c i p, firesOn_platformSet c i p, firesOn_platformChange c i p,
    firesOn_delayChange c i p, rfl, fun _ => rfl⟩, dueTime_eq_some, fun live hr => ⟨groupWinner_eq_none live,
    fun w => groupWinner_spec hr⟩, ?_, ?_⟩
  · intro slot now seen s c pl hsound hc hpl hlen hsteps hgroups hpend t v live
    have hv : v = c.asSeen seen := by cases seen <;> rfl
    clear_value v
    subst hv
    obtain ⟨hw, hstale, hlive⟩ := evaluateCall_resolves (now := now) (seen := seen) ⟨hsound, ⟨c, hc, hlen⟩, hpend⟩ hc
      hpl hsteps hgroups
    have hc0 : (cleanRetry (fun e => e.slot == slot) s).callAt slot = some c := hc
    obtain ⟨l, hl, -⟩ := hw.record c hc0
    have hmem : ∀ i p f, live i p f → (⟨i, p, f⟩ : LiveStep) ∈ liveSteps (c.asSeen seen) pl now :=
      fun i p f h => mem_liveSteps.2 h
    refine ⟨_, hl, rfl, hw.others, fun i hi => entry_of_stepStatus hc0 hl (hw.status i fun hm => ?_), fun i p f hp hf hlt =>
      (hstale ⟨i, p, f⟩ (mem_dueSteps.2 ⟨hp, hf⟩) (decide_eq_true hlt)).entry hc0 hl, ?_, ?_⟩
    · obtain ⟨d, hd, rfl⟩ := List.mem_map.1 hm
      obtain ⟨hp, hf⟩ := mem_dueSteps.1 hd
      simp [hi _ hp] at hf
    · intro i p f j q g hi hj hg hbeat
      exact ((hlive _ (hmem i p f hi)).1 ⟨⟨j, q, g⟩, List.mem_filter.2 ⟨hmem j q g hj, by simpa using hg⟩,
        hbeat⟩).entry hc0 hl
    · intro i p f hi hbest
      have hfire := (hlive _ (hmem i p f hi)).2 fun m hm hb => by
        obtain ⟨hm, hg⟩ := List.mem_filter.1 hm
        have := hbest m.index m.step m.fire (mem_liveSteps.1 hm) (by simpa using hg)
        unfold LiveStep.Beats at hb
        dsimp only at hb
        omega
      rcases hfire with ⟨hs, hr⟩ | ⟨hs, hr⟩
      · rw [stepStatus_eq hl] at hs
        exact .inl ⟨Option.some.inj hs, inRetry_eq_false.1 hr⟩
      · exact .inr ⟨entry_of_stepStatus hc0 hl hs, inRetry_eq_true.1 hr⟩
  · intro slot now seen pl x s c p hc hp v skipped
    have hv : v = c.asSeen seen := by cases seen <;> rfl
    clear_value v
    subst hv
    refine ⟨fun hx => retryOne_untried hx hp, fun pending hx he => ?_⟩
    refine ⟨fun hlt => ⟨fun hst => ?_, fun hst => (retryOne_stale hc hp hx he hlt).2 hst⟩, fun hle hval => ?_,
      fun hle hval => ?_⟩
    · rw [(retryOne_stale hc hp hx he hlt).1 hst]
      unfold skipStep setEntry
      simp only [hc]
      rfl
    · rw [retryOne_inWindow hc hp hx he hle, hval, if_neg (by simp)]
    · rw [retryOne_inWindow hc hp hx he hle, hval, if_pos rfl]

end

section
/-! What a firing step's request does to the pool (R52 to R54, R107): the records of the step end REPLACED, and one is
created in their place or the step is put off; and what STEP_LEFT does to the step's records (R61). -/

namespace Sys2Proof.Machine

/-! ### A creation among the other records (R87, R88) -/

theorem leaveQueued_others (t id : Nat) (s : State) :
    (leaveQueued t id s).apl.records.filter (fun r => r.annId != id) = s.apl.records.filter fun r => r.annId != id := by
  have hupd : ∀ f : AnnRec → AnnRec, (∀ r, (f r).annId = r.annId) →
      (s.updAnn id f).apl.records.filter (fun r => r.annId != id) = s.apl.records.filter fun r => r.annId != id :=
    fun f hf => by simpa [bne, beq_eq_decide] using updAnn_others (l := [id]) (List.mem_singleton_self id) hf s
  unfold leaveQueued
  split
  · rfl
  · split
    · split
      · rw [raise_apl]
        exact hupd _ fun _ => rfl
      · exact hupd _ fun _ => rfl
    · rfl

theorem expireAnn_others (t id : Nat) (s : State) :
    (expireAnn t id s).apl.records.filter (fun r => r.annId != id) = s.apl.records.filter fun r => r.annId != id := by
  unfold expireAnn
  split
  · rfl
  · next r hr =>
    split
    · rw [endRecord_apl hr, List.filter_filter]
      simp only [Bool.and_self]
    · rfl

section
variable {a : Ask} {s t : State} {id : Nat}

/-- Apart from the new record, the pool after a creation is the pool before it. -/
theorem createRecord_others (hp : PoolSound s.apl) (h : createRecord a s = some (id, t)) :
    t.apl.records.filter (fun r => r.annId != id) = s.apl.records := by
  have hfresh := (createRecord_ann hp h).2.1
  unfold createRecord at h
  simp only [Option.ite_none_left_eq_some, Option.some.injEq, Prod.mk.injEq] at h
  obtain ⟨-, hid, rfl⟩ := h
  rw [hid, expireAnn_others, leaveQueued_others, count_apl, onApl_apl, insertBy_filter (by simp [newRecord])]
  exact List.filter_eq_self.2 fun r hr => by simpa using hfresh r hr

/-- The new record, if its judgement has left it in the pool, asks for what was requested, its times clamped (R86). -/
theorem createRecord_ask (hp : PoolSound s.apl) (h : createRecord a s = some (id, t)) {r : AnnRec}
    (hr : r ∈ t.apl.records) (hid : r.annId = id) :
    r.ask = { a with earliest := clampTime a.earliest, latest := a.latest.map clampTime } := by
  have hann := ann_of_mem ((Inner.createRecord h).pool hp) hr
  rw [hid, (createRecord_ann hp h).2.2.2.2.2] at hann
  simp only [Option.ite_none_left_eq_some, Option.some.injEq] at hann
  rw [← hann.2]
  split
  · split <;> rfl
  · rfl

end

/-! ### The records that a request replaces (R53, R107) -/

/-- Whether a record is of a step is read from its request alone. -/
theorem ofStep_of_ask {r x : AnnRec} (h : x.ask = r.ask) (slot ref i : Nat) :
    x.ofStep slot ref i = r.ofStep slot ref i := by
  simp only [AnnRec.ofStep, AnnRec.ofCall, h]

theorem annId_mem_annIds {s : State} (hp : PoolSound s.apl) {r : AnnRec} (hr : r ∈ s.apl.records)
    (q : AnnRec → Bool) : r.annId ∈ s.annIds q ↔ q r = true := by
  simp only [State.annIds, List.mem_map, List.mem_filter]
  constructor
  · rintro ⟨x, ⟨hx, hq⟩, he⟩
    rwa [List.inj_on_of_nodup_map hp.2.1 hx hr he] at hq
  · exact fun hq => ⟨r, ⟨hr, hq⟩, rfl⟩

section
variable {slot ref i : Nat} {s : State}

theorem KeptBut.replaceStep (hp : PoolSound s.apl) :
    KeptBut (s.annIds fun r => r.ofStep slot ref i) s (replaceStep slot ref i s) :=
  .endAnns .withdrawn .replaced _ hp.2.1

theorem PoolSound.replaceStep (hp : PoolSound s.apl) : PoolSound (replaceStep slot ref i s).apl :=
  (Inner.replaceStep slot ref i s).pool hp

theorem replaceStep_noneLeft (hp : PoolSound s.apl) {x : AnnRec} (hx : x ∈ (replaceStep slot ref i s).apl.records) :
    x.ofStep slot ref i = false := by
  obtain ⟨hgone, r, hr, hsame⟩ := (KeptBut.replaceStep hp).old x hx
  rw [hsame.id, annId_mem_annIds hp hr] at hgone
  rw [ofStep_of_ask hsame.ask]
  exact Bool.eq_false_iff.2 hgone

/-- Where the replaced records held no zone, the others stay as they are. -/
theorem replaceStep_quiet (hp : PoolSound s.apl)
    (hheld : ∀ r ∈ s.apl.records, r.ofStep slot ref i = true → r.held = 0#32) :
    (replaceStep slot ref i s).apl.records = s.apl.records.filter fun r => !r.ofStep slot ref i := by
  refine (endAnns_quiet (fun id hid => ?_) _ _).trans (filter_annIds hp _)
  obtain ⟨r, hr, rfl⟩ := List.mem_map.1 hid
  obtain ⟨hr, hold⟩ := List.mem_filter.1 hr
  simp [State.holdsZone, ann_of_mem hp hr, hheld r hr hold]

theorem replaceStep_nothing (hnone : ∀ r ∈ s.apl.records, r.ofStep slot ref i = false) :
    replaceStep slot ref i s = s := by
  have hids : s.annIds (fun r => r.ofStep slot ref i) = [] := by
    simpa [State.annIds, List.filter_eq_nil_iff] using hnone
  unfold replaceStep
  rw [hids]
  rfl

/-- After a replacement a place is free, where one was or where a record was replaced. -/
theorem replaceStep_room (hp : PoolSound s.apl)
    (hroom : s.apl.records.length < 96 ∨ ∃ r ∈ s.apl.records, r.ofStep slot ref i = true) :
    (replaceStep slot ref i s).apl.records.length < Config.poolSize := by
  have hk := KeptBut.replaceStep (slot := slot) (ref := ref) (i := i) hp
  have hle : (replaceStep slot ref i s).apl.records.length ≤ s.apl.records.length := by
    simpa [State.ids] using hk.ids.length_le
  have hsize : s.apl.records.length ≤ 96 := hp.1
  show _ < 96
  rcases hroom with hlt | ⟨r, hr, hold⟩
  · omega
  · refine lt_of_le_of_ne (hle.trans hsize) fun hfull => ?_
    have hsame : (replaceStep slot ref i s).ids = s.ids :=
      hk.ids.eq_of_length_le (by simp only [State.ids, List.length_map]; omega)
    have hmem : r.annId ∈ (replaceStep slot ref i s).ids := hsame ▸ List.mem_map_of_mem hr
    obtain ⟨x, hx, he⟩ := List.mem_map.1 hmem
    exact (hk.old x hx).1 (he ▸ (annId_mem_annIds hp hr _).2 hold)

end

/-! ### A firing step (R52 to R54) -/

section
variable {slot i now latest e : Nat} {p : PlanStep} {pending : Option Nat} {s : State} {c : CallRec}

theorem fireStep_created (hc : s.callAt slot = some c) {id : Nat} {u : State}
    (hu : createRecord (stepAsk slot c.callRef i p now latest) (replaceStep slot c.callRef i s) = some (id, u)) :
    fireStep slot i p now latest e pending s =
      dropRetry slot i (setEntry slot i (firedEntry p (c.entry i) e) u) := by
  unfold fireStep
  simp only [hc, hu]

theorem fireStep_putOff (hc : s.callAt slot = some c)
    (hu : createRecord (stepAsk slot c.callRef i p now latest) (replaceStep slot c.callRef i s) = none) :
    fireStep slot i p now latest e pending s =
      retryLater slot c.callRef i p pending (replaceStep slot c.callRef i s) := by
  unfold fireStep
  simp only [hc, hu]

theorem setEntry_apl (slot i : Nat) (e : StepEntry) (s : State) : (setEntry slot i e s).apl = s.apl := by
  unfold setEntry
  split <;> rfl

/-- A firing adds at most one record to what its replacement left, and that one is of the step. -/
theorem fireStep_records (hp : PoolSound s.apl) (hc : s.callAt slot = some c) :
    ((fireStep slot i p now latest e pending s).apl.records.filter fun r => r.ofStep slot c.callRef i).length ≤ 1 ∧
      ((fireStep slot i p now latest e pending s).apl.records.filter fun r => !r.ofStep slot c.callRef i) =
        (replaceStep slot c.callRef i s).apl.records := by
  have hnone := fun x hx => replaceStep_noneLeft (slot := slot) (ref := c.callRef) (i := i) hp (x := x) hx
  cases hu : createRecord (stepAsk slot c.callRef i p now latest) (replaceStep slot c.callRef i s) with
  | none =>
    rw [fireStep_putOff hc hu, (retryLater_blocks ..).1]
    constructor
    · rw [List.filter_eq_nil_iff.2 fun x hx => by simp [hnone x hx]]
      simp
    · exact List.filter_eq_self.2 fun x hx => by simp [hnone x hx]
  | some q =>
    obtain ⟨id, u⟩ := q
    have hps := PoolSound.replaceStep (slot := slot) (ref := c.callRef) (i := i) hp
    have hothers := createRecord_others hps hu
    have hsplit : ∀ x ∈ u.apl.records, x.ofStep slot c.callRef i = (x.annId == id) := fun x hx => by
      by_cases hid : x.annId = id
      · simp [AnnRec.ofStep, AnnRec.ofCall, createRecord_ask hps hu hx hid, stepAsk, hid]
      · have : x ∈ u.apl.records.filter fun r => r.annId != id := List.mem_filter.2 ⟨hx, by simpa using hid⟩
        rw [hnone x (hothers ▸ this), beq_eq_false_iff_ne.2 hid]
    have hapl : (fireStep slot i p now latest e pending s).apl = u.apl := by
      rw [fireStep_created hc hu]
      exact setEntry_apl ..
    rw [hapl]
    constructor
    · rw [List.filter_congr hsplit]
      have hnodup := ((Inner.createRecord hu).pool hps).2.1.sublist
        (List.filter_sublist (p := fun r => r.annId == id).map _)
      have hsub : (u.apl.records.filter fun r => r.annId == id).map (fun r => r.annId) ⊆ [id] := fun k hk => by
        obtain ⟨x, hx, rfl⟩ := List.mem_map.1 hk
        simpa using (List.mem_filter.1 hx).2
      simpa using (List.subperm_of_subset hnodup hsub).length_le
    · rw [List.filter_congr fun x hx => congrArg _ (hsplit x hx)]
      exact hothers

theorem firedEntry_eq (p : PlanStep) (old : StepEntry) (e : Nat) :
    firedEntry p old e = if p.anchor = .onDelayChange then { old with eAtFire := e } else ⟨.fired, e⟩ := by
  unfold firedEntry
  cases p.anchor <;> simp

/-- With a free place, or one that a replaced record gave up, a firing creates its record and writes its entry. -/
theorem fireStep_room (hp : PoolSound s.apl) (hc : s.callAt slot = some c)
    (hroom : s.apl.records.length < 96 ∨ ∃ r ∈ s.apl.records, r.ofStep slot c.callRef i = true) :
    ∃ id u, createRecord (stepAsk slot c.callRef i p now latest) (replaceStep slot c.callRef i s) = some (id, u) ∧
      u.apl.counter = (s.apl.counter + 1) % 4294967296 ∧
      fireStep slot i p now latest e pending s =
        dropRetry slot i (u.setCall slot { c with steps := c.steps.set i (firedEntry p (c.entry i) e) }) := by
  have hk := KeptBut.replaceStep (slot := slot) (ref := c.callRef) (i := i) hp
  have hsome := (createRecord_isSome (stepAsk slot c.callRef i p now latest) _).2 (replaceStep_room hp hroom)
  obtain ⟨⟨id, u⟩, hu⟩ := Option.isSome_iff_exists.1 hsome
  obtain ⟨hcrg, -, -, hcounter⟩ := createRecord_blocks hu
  have hcu : u.callAt slot = some c := by
    unfold State.callAt
    rw [hcrg, hk.crg]
    exact hc
  refine ⟨id, u, hu, by rw [hcounter, hk.counter], ?_⟩
  rw [fireStep_created hc hu, setEntry, hcu]

/-- In a full pool that holds no record of the step, a firing is put off. -/
theorem fireStep_full (hc : s.callAt slot = some c) (hfull : 96 ≤ s.apl.records.length)
    (hnone : ∀ r ∈ s.apl.records, r.ofStep slot c.callRef i = false) :
    fireStep slot i p now latest e pending s = retryLater slot c.callRef i p pending s := by
  have hquiet := replaceStep_nothing hnone
  have hu : createRecord (stepAsk slot c.callRef i p now latest) (replaceStep slot c.callRef i s) = none := by
    rw [hquiet, ← Option.not_isSome_iff_eq_none, createRecord_isSome]
    exact Nat.not_lt.2 hfull
  rw [fireStep_putOff hc hu, hquiet]

end

/-! ### STEP_LEFT (R61, R107) -/

theorem stepLeft_records {slot ref i : Nat} {s : State} (hp : PoolSound s.apl) :
    (stepLeft slot ref i s).apl.records =
      (s.apl.records.filter fun r => !(r.ofStep slot ref i && r.state != .playing)).map fun r =>
        if r.ofStep slot ref i then { r with noRepeat := true } else r := by
  unfold stepLeft
  simp only [onApl_apl, (endRecords_apl ..).1, filter_annIds hp]
  refine List.map_congr_left fun r hr => ?_
  have hstays := (List.mem_filter.1 hr).2
  cases hof : r.ofStep slot ref i
  · simp
  · have hplays : r.state = .playing := by simpa [hof] using hstays
    simp [hplays]

end Sys2Proof.Machine

open Sys2Proof Sys2Proof.Machine

/-- Settles O37: what a replacement leaves, the one record a firing adds to it, and the records STEP_LEFT reaches. -/
theorem firingReplacesItsOldRecord : Obligations.FiringReplacesItsOldRecord := by
  unfold Obligations.FiringReplacesItsOldRecord
  constructor
  · intro slot i p now latest e pending s c hp hc t old freed fired
    have hk : KeptBut (s.annIds old) s (replaceStep slot c.callRef i s) := KeptBut.replaceStep hp
    obtain ⟨hone, hothers⟩ : (t.apl.records.filter old).length ≤ 1 ∧
        (t.apl.records.filter fun r => !old r) = (replaceStep slot c.callRef i s).apl.records := fireStep_records hp hc
    refine ⟨hone, fun r hr hnew => ?_, fun r hr hnew hwait => ?_, fun hheld => ?_, fun hroom => ?_,
      fun hfull hnone => ?_⟩
    · have hleft : r ∈ (replaceStep slot c.callRef i s).apl.records :=
        hothers ▸ List.mem_filter.2 ⟨hr, by simpa using hnew⟩
      obtain ⟨-, x, hx, hsame⟩ := hk.old r hleft
      exact ⟨x, hx, hsame.id.symm, hsame.ask.symm⟩
    · have hw : r.waits = true := by simpa [AnnRec.waits] using hwait
      obtain ⟨x, hx, hsame⟩ := hk.waiting r hr (fun hm => by simp [(annId_mem_annIds hp hr old).1 hm] at hnew) hw
      exact ⟨x, List.mem_of_mem_filter (hothers ▸ hx), hsame.id, hsame.before hw, hsame.ask⟩
    · exact hothers.trans (replaceStep_quiet hp hheld)
    · obtain ⟨id, u, hu, hcounter, ht⟩ := fireStep_room (p := p) (now := now) (latest := latest) (e := e)
        (pending := pending) hp hc hroom
      rw [firedEntry_eq] at ht
      change t = _ at ht
      rw [ht]
      refine ⟨id, u, hu, rfl, hcounter, tabGet_tabSet_same .., fun x hx => ?_⟩
      simpa using (List.mem_filter.1 hx).2
    · exact fireStep_full hc hfull hnone
  · intro slot ref i s hp t left ended
    obtain ⟨-, hlast, hcounter, -⟩ := endRecords_apl .withdrawn .stateLeft (s.annIds left) s
    obtain ⟨hcrg, htru⟩ := endRecords_blocks .withdrawn .stateLeft (s.annIds left) s
    exact ⟨stepLeft_records hp, rfl, hlast, hcounter, hcrg, htru⟩
end

section
/-! SUPPORT. The recordings of the part: phrase memory and the fragment directory, and the shared operations, commands
and rows that leave both as they were. -/

namespace Sys2Proof.Machine

/-! ### The recordings kept -/

/-- The recordings of the part (R70, R152): the samples written to phrase memory, and the fragment directory. -/
def State.recordings (s : State) : Tab Sample × Tab DirEntry := (s.pmc.memory, s.sxe.directory)

theorem recordings_eq {s t : State} (hm : t.pmc.memory = s.pmc.memory) (hd : t.sxe.directory = s.sxe.directory) :
    t.recordings = s.recordings := Prod.ext hm hd

/-- An inner operation keeps the recordings. -/
theorem Inner.recordings {s t : State} (h : Inner s t) : t.recordings = s.recordings :=
  recordings_eq (by rw [h.pmc]) (by rw [h.sxe])

section Operations
variable (s : State)

@[simp] theorem onZli_recordings (f : LinkInterface → LinkInterface) : (s.onZli f).recordings = s.recordings := rfl
@[simp] theorem drawFree_recordings : s.drawFree.recordings = s.recordings := rfl

@[simp] theorem count_recordings (c : Counter) : (count c s).recordings = s.recordings := rfl
@[simp] theorem raise_recordings (n : Notice) : (raise n s).recordings = s.recordings := (Inner.raise n s).recordings
@[simp] theorem updStream_recordings (n : Nat) (f : StreamBuffer → StreamBuffer) :
    (s.updStream n f).recordings = s.recordings := rfl
@[simp] theorem updLink_recordings (z : Nat) (f : ZoneLink → ZoneLink) : (s.updLink z f).recordings = s.recordings :=
  rfl
@[simp] theorem removeCall_recordings (slot : Nat) : (removeCall slot s).recordings = s.recordings :=
  (Inner.removeCall slot s).recordings
@[simp] theorem putDueChecked_recordings (slot : Nat) (c : CallRec) (e : TriggerEvent) :
    (putDueChecked slot c e s).recordings = s.recordings := by
  rw [putDueChecked_eq]
  split <;> rfl
@[simp] theorem judgeAvailability_recordings (z : Nat) (cause : ZoneCause) :
    (judgeAvailability z cause s).recordings = s.recordings := (Inner.judgeAvailability z cause s).recordings
@[simp] theorem enterReady_recordings (t id : Nat) : (enterReady t id s).recordings = s.recordings :=
  (Inner.enterReady t id s).recordings
@[simp] theorem endRecord_recordings (id : Nat) (o : AnnOutcome) (why : Reason) (ended : Bool) :
    (endRecord id o why ended s).recordings = s.recordings := (Inner.endRecord id o why ended s).recordings
@[simp] theorem endAnn_recordings (id : Nat) (o : AnnOutcome) (why : Reason) (ended : Bool) :
    (endAnn id o why ended s).recordings = s.recordings := (Inner.endAnn id o why ended s).recordings
@[simp] theorem endEmergencies_recordings (ids : List Nat) : (endEmergencies ids s).recordings = s.recordings :=
  (Inner.endEmergencies ids s).recordings
@[simp] theorem completeRecord_recordings (id : Nat) (why : Reason) (first : Bool) :
    (completeRecord id why first s).recordings = s.recordings := (Inner.completeRecord id why first s).recordings
@[simp] theorem makeRoom_recordings : (makeRoom s).recordings = s.recordings := (Inner.makeRoom s).recordings

theorem createRecord_recordings {a : Ask} {s t : State} {id : Nat} (h : createRecord a s = some (id, t)) :
    t.recordings = s.recordings := (Inner.createRecord h).recordings

@[simp] theorem finish_recordings (m : Message) (st : Status) (body : List Byte) :
    (finish m st body s).recordings = s.recordings := by
  unfold finish leaveQueue answer
  simp only
  split <;> split <;> rfl

end Operations

/-! ### Commands (R182) -/

/-- A command whose owning rule keeps the recordings keeps them. -/
theorem runCommand_recordings {row : Row} {act : List Byte → State → Reply}
    (h : ∀ b s, (act b s).state.recordings = s.recordings) (s : State) :
    (runCommand row act s).recordings = s.recordings := by
  rcases runCommand_cases row act s with ⟨_, e⟩ | ⟨m, _, ⟨_, _, e⟩ | ⟨_, _, e⟩ | ⟨_, _, e⟩⟩ <;> rw [e]
  · exact finish_recordings ..
  · exact finish_recordings ..
  · exact (finish_recordings ..).trans (h ..)

/-- A block that each entry taken leaves as it was, a LOAD command leaves as it was. -/
theorem loadEntries_keeps {β : Type} (view : State → β) {take : Nat → List Byte → State → Status × State}
    (h : ∀ i b s, view (take i b s).2 = view s) (i n : Nat) (entries : List (List Byte)) (s : State) :
    view (loadEntries take i n entries s).2.2 = view s := by
  induction entries generalizing i n s with
  | nil => rfl
  | cons e rest ih =>
    unfold loadEntries
    simp only
    split
    · exact (ih ..).trans (h i e s)
    · rfl

theorem loadCommand_keeps {β : Type} (view : State → β) {take : Nat → List Byte → State → Status × State}
    (h : ∀ i b s, view (take i b s).2 = view s) (first count lo hi : Nat) (entries : List (List Byte)) (s : State) :
    view (loadCommand first count lo hi entries take s).state = view s := by
  unfold loadCommand
  split
  · rfl
  · split
    · rfl
    · exact loadEntries_keeps view h ..

theorem takeParsed_keeps {α β : Type} (view : State → β) {parse : List Byte → Option α}
    {put : Nat → α → State → State} (h : ∀ i v s, view (put i v s) = view s) (i : Nat) (b : List Byte) (s : State) :
    view (takeParsed parse put i b s).2 = view s := by
  unfold takeParsed
  split
  · exact h ..
  · rfl

/-- A LOAD command that writes its parsed entries into a table other than the directory keeps the recordings. -/
theorem loadTable_recordings {α : Type} {parse : List Byte → Option α} {put : Nat → α → State → State}
    (h : ∀ i v s, (put i v s).recordings = s.recordings) (first count lo hi : Nat) (entries : List (List Byte))
    (s : State) : (loadCommand first count lo hi entries (takeParsed parse put) s).state.recordings = s.recordings :=
  loadCommand_keeps State.recordings (takeParsed_keeps State.recordings h) ..

theorem readRange_recordings (first count hi : Nat) (body : List Byte) (s : State) :
    (readRange first count hi body s).state.recordings = s.recordings := by rw [readRange_state]

theorem passAfterLoad_recordings (r : Reply) : (passAfterLoad r).state.recordings = r.state.recordings := by
  unfold passAfterLoad
  split <;> rfl

theorem updateCall_recordings {act : Nat → CallRec → List Byte → State → Status × State}
    (h : ∀ slot c b s, (act slot c b s).2.recordings = s.recordings) (b : List Byte) (s : State) :
    (updateCall act b s).state.recordings = s.recordings := by
  unfold updateCall
  split
  · rfl
  · split
    · rfl
    · split
      · rfl
      · exact h ..

theorem answerHeld_recordings {act : Nat → State → State} (h : ∀ id s, (act id s).recordings = s.recordings)
    (b : List Byte) (s : State) : (answerHeld act b s).state.recordings = s.recordings := by
  unfold answerHeld
  split
  · rfl
  · split
    · exact h ..
    · rfl
    · rfl

theorem createFor_recordings (a : Ask) (s : State) : (createFor a s).state.recordings = s.recordings := by
  unfold createFor
  split
  · next h => exact createRecord_recordings h
  · rfl

end Sys2Proof.Machine
end

section
/-! SUPPORT. What each row of the table does to the recordings. -/

namespace Sys2Proof.Machine

/-! ### The Call Register's updates (R21 to R31) -/

theorem takeCallEntry_recordings (slot : Nat) (b : List Byte) (s : State) :
    (takeCallEntry slot b s).2.recordings = s.recordings := by
  unfold takeCallEntry
  split
  · rfl
  · split
    · rfl
    · split
      · rfl
      · simp

theorem arrive_recordings (slot : Nat) (c : CallRec) (b : List Byte) (s : State) :
    (arrive slot c b s).2.recordings = s.recordings := by
  unfold arrive
  split
  · split
    · rfl
    · split <;> rfl
  · split
    · rfl
    · split <;> rfl
  · rfl
  · rfl

theorem depart_recordings (slot : Nat) (c : CallRec) (b : List Byte) (s : State) :
    (depart slot c b s).2.recordings = s.recordings := by
  unfold depart
  split
  · rfl
  · split <;> rfl

theorem gone_recordings (slot : Nat) (c : CallRec) (b : List Byte) (s : State) :
    (gone slot c b s).2.recordings = s.recordings := by
  unfold gone
  split <;> rfl

theorem cancel_recordings (slot : Nat) (c : CallRec) (b : List Byte) (s : State) :
    (cancel slot c b s).2.recordings = s.recordings := by
  unfold cancel
  split <;> rfl

theorem changeDelay_recordings (slot : Nat) (c : CallRec) (b : List Byte) (s : State) :
    (changeDelay slot c b s).2.recordings = s.recordings := by
  unfold changeDelay
  simp only
  split
  · rfl
  · rfl
  · split <;> simp

theorem putPlatformOf_recordings (slot : Nat) (c : CallRec) (p : Nat) (provisional : Bool) (s : State) :
    (putPlatformOf slot c p provisional s).recordings = s.recordings := by
  unfold putPlatformOf
  simp only
  split <;> split <;> rfl

theorem changePlatform_recordings (slot : Nat) (c : CallRec) (b : List Byte) (s : State) :
    (changePlatform slot c b s).2.recordings = s.recordings := by
  unfold changePlatform
  simp only
  split
  · rfl
  · split
    · exact putPlatformOf_recordings ..
    · exact putPlatformOf_recordings ..
    · rfl

/-! ### Tables, zones, the day, the phrase port -/

theorem putScript_recordings (id : Nat) (sc : Option Script) (s : State) :
    (putScript id sc s).recordings = s.recordings := rfl

theorem putNumber_recordings (i : Nat) (n : Option Nat) (s : State) : (putNumber i n s).recordings = s.recordings := rfl

theorem putPattern_recordings (p : Nat) (places : Option (List Nat)) (s : State) :
    (putPattern p places s).recordings = s.recordings := rfl

theorem putPlan_recordings (p : Nat) (plan : Option Plan) (s : State) :
    (putPlan p plan s).recordings = s.recordings := rfl

theorem putPlatform_recordings (p : Nat) (zones : ZoneSet) (s : State) :
    (putPlatform p zones s).recordings = s.recordings := rfl

theorem putGroup_recordings (g : Nat) (e : GroupEntry) (s : State) : (putGroup g e s).recordings = s.recordings := rfl

theorem takeZoneEntry_recordings (z : Nat) (b : List Byte) (s : State) :
    (takeZoneEntry z b s).2.recordings = s.recordings := by
  unfold takeZoneEntry
  split <;> rfl

theorem openDay_recordings (day hour t : Nat) (s : State) : (openDay day hour t s).recordings = s.recordings := by
  rw [openDay_eq, noteChange]
  split <;> rfl

theorem closeDay_recordings (s : State) : (closeDay s).recordings = s.recordings := (closeDay_inner s).recordings

theorem beginWrite_recordings (m : Message) (s : State) : (beginWrite m s).recordings = s.recordings := by
  unfold beginWrite
  simp only
  split
  · simp
  · split
    · simp
    · split
      · simp
      · rfl

theorem finishHead_recordings (st : Status) (s : State) : (finishHead st s).recordings = s.recordings := by
  unfold finishHead
  split <;> simp

theorem grantFetch_recordings (s : State) : (grantFetch s).recordings = s.recordings := by
  unfold grantFetch
  split
  · rfl
  · split <;> rfl

/-! ### The trunk -/

theorem sendUpstream_recordings (s : State) : (sendUpstream s).recordings = s.recordings := by
  unfold sendUpstream
  split
  · rfl
  · split
    · rfl
    · split
      · unfold sendResponse
        simp only
        split <;> rfl
      · split <;> rfl

theorem appendCell_recordings (n seq : Nat) (samples : List Sample) (s : State) :
    (appendCell n seq samples s).recordings = s.recordings := by
  unfold appendCell
  split <;> rfl

theorem takeAudio_recordings (n seq : Nat) (samples : List Sample) (s : State) :
    (takeAudio n seq samples s).recordings = s.recordings := by
  unfold takeAudio
  simp only
  split
  · exact appendCell_recordings ..
  · split
    · exact appendCell_recordings ..
    · split
      · exact appendCell_recordings ..
      · rfl

theorem discardPartial_recordings (s : State) : (discardPartial s).recordings = s.recordings := by
  unfold discardPartial
  split <;> rfl

theorem completeMessage_recordings (broadcast : Bool) (data : List Byte) (s : State) :
    (completeMessage broadcast data s).recordings = s.recordings := by
  have offered : ∀ m, (offerMessage m s).recordings = s.recordings := fun m => by
    unfold offerMessage
    split
    · simp only
      split <;> rfl
    · simp
  unfold completeMessage
  simp only
  split
  · split
    · exact offered _
    · rfl
  · rfl

theorem takeManagement_recordings (segment seq : Nat) (broadcast : Bool) (payload : List Byte) (s : State) :
    (takeManagement segment seq broadcast payload s).recordings = s.recordings := by
  unfold takeManagement
  split
  · exact (completeMessage_recordings ..).trans (discardPartial_recordings s)
  · exact discardPartial_recordings s
  · split
    · rfl
    · split
      · split
        · exact completeMessage_recordings ..
        · rfl
      · exact discardPartial_recordings s

theorem applyMark_recordings (day m : Nat) (s : State) : (applyMark day m s).recordings = s.recordings := by
  obtain ⟨_, _, _, h⟩ := applyMark_shape day m s
  rw [h, noteChange]
  split <;> rfl

theorem takeCell_recordings (cell : List Byte) (s : State) : (takeCell cell s).recordings = s.recordings := by
  unfold takeCell
  split
  · rfl
  · split
    · rfl
    · split
      · rfl
      · simp only
        split
        · split
          · exact takeAudio_recordings ..
          · rfl
        · split
          · exact takeManagement_recordings ..
          · rfl
        · unfold takeMark
          split
          · rfl
          · split
            · rfl
            · exact applyMark_recordings ..
        · rfl

/-! ### Seconds, sample periods, the zone link -/

theorem elapseSecond_recordings (s : State) : (elapseSecond s).recordings = s.recordings := by
  obtain ⟨_, _, _, h⟩ := elapseSecond_shape s
  rw [h]
  rfl

theorem enterFreewheel_recordings (s : State) : (enterFreewheel s).recordings = s.recordings := by
  obtain ⟨_, _, _, h⟩ := enterFreewheel_shape s
  rw [h]
  rfl

theorem runSample_recordings (s : State) : (runSample s).recordings = s.recordings := by
  have sent : ∀ outputs u, (sendOutputs outputs u).recordings = u.recordings := fun outputs u => by
    unfold sendOutputs gatherMonitor
    split
    · rfl
    · simp only
      split
      · rfl
      · unfold handMonitor
        split <;> rfl
  have mixed := (Inner.channelOutputs (List.range 6) (deliverStreams s)).trans (Inner.mixZones
    ((List.range 6).map fun n => (s.stream n).out) (channelOutputs (List.range 6) (deliverStreams s)).1
    (List.range 32) _)
  exact (sent ..).trans mixed.recordings

theorem setLink_recordings (z : Nat) (st : LinkState) (s : State) : (setLink z st s).recordings = s.recordings := by
  unfold setLink
  simp only
  split <;> simp

theorem followSensor_recordings (z : Nat) (a : Ambient) (line : LinkState) (s : State) :
    (followSensor z a line s).recordings = s.recordings := by
  unfold followSensor
  simp only
  split <;> simp

theorem takeReport_recordings (z : Nat) (line : LinkState) (a : Ambient) (first : Bool) (s : State) :
    (takeReport z line a first s).recordings = s.recordings := by
  unfold takeReport
  simp only
  split
  · rw [followSensor_recordings, setLink_recordings]
    rfl
  · rw [setLink_recordings, followSensor_recordings]
    rfl

theorem applyAmbient_recordings (z : Nat) (a : Ambient) (s : State) :
    (applyAmbient z a s).recordings = s.recordings := by
  unfold applyAmbient
  split
  · rfl
  · split <;> rfl

/-! ### Events (R34) -/

theorem takeEventOf_recordings (kind : TriggerEvent → Bool) (slot : Nat) (s : State) :
    (takeEventOf kind slot s).recordings = s.recordings := by
  unfold takeEventOf
  split
  · split
    · exact (Inner.takeTriggerEvent ..).recordings
    · rfl
  · rfl

theorem takePoolEvent_recordings {act : CallEvent PoolEvent → State → State} (h : ∀ e s, Inner s (act e s))
    (kind : PoolEvent → Bool) (slot : Nat) (s : State) : (takePoolEvent kind act slot s).recordings = s.recordings := by
  unfold takePoolEvent
  split
  · split
    · exact (h ..).recordings
    · rfl
  · rfl

/-! ### Commands of the pool and the register -/

theorem execFreeCall_recordings {s t : State} (h : execFreeCall s = .next t) : t.recordings = s.recordings := by
  cases h
  refine runCommand_recordings (fun b s => ?_) s
  split
  · rfl
  · split
    · rfl
    · split
      · rfl
      · split
        · rfl
        · exact removeCall_recordings ..

theorem execReadCall_recordings {s t : State} (h : execReadCall s = .next t) : t.recordings = s.recordings := by
  cases h
  refine runCommand_recordings (fun b s => ?_) s
  split
  · split
    · rfl
    · split <;> rfl
  · split
    · rfl
    · split <;> rfl
  · rfl

theorem execAnnounce_recordings {s t : State} (h : execAnnounce s = .next t) : t.recordings = s.recordings := by
  cases h
  refine runCommand_recordings (fun b s => ?_) s
  split
  · rfl
  · split
    · rfl
    · exact createFor_recordings ..
  · split
    · rfl
    · exact createFor_recordings ..

theorem execLivePageBegin_recordings {s t : State} (h : execLivePageBegin s = .next t) :
    t.recordings = s.recordings := by
  cases h
  refine runCommand_recordings (fun b s => ?_) s
  split
  · rfl
  · split
    · rfl
    · split
      · rfl
      · simp only
        split
        · next hc => exact (updStream_recordings ..).trans ((createRecord_recordings hc).trans (drawFree_recordings s))
        · rfl

theorem execLivePageEnd_recordings {s t : State} (h : execLivePageEnd s = .next t) : t.recordings = s.recordings := by
  cases h
  refine runCommand_recordings (fun b s => ?_) s
  split
  · rfl
  · split
    · rfl
    · simp only [reply]
      split <;> simp

theorem execEmergencyBegin_recordings {s t : State} (h : execEmergencyBegin s = .next t) :
    t.recordings = s.recordings := by
  cases h
  refine runCommand_recordings (fun b s => ?_) s
  split
  · rfl
  · split
    · rfl
    · simp only
      split
      · next hc =>
        exact (createRecord_recordings hc).trans ((drawFree_recordings _).trans (makeRoom_recordings s))
      · exact count_recordings ..

theorem execEmergencyEnd_recordings {s t : State} (h : execEmergencyEnd s = .next t) : t.recordings = s.recordings := by
  cases h
  refine runCommand_recordings (fun b s => ?_) s
  split
  · exact endEmergencies_recordings ..
  · split
    · rfl
    · split
      · exact endEmergencies_recordings ..
      · rfl

/-! ### Every row -/

/-- The rows that can write a recording. -/
def writesRecordings : Instr → Bool
  | .powerOnReset _ | .resetAfterResponse _ | .selfCheckEnd _ | .phraseWriteComplete | .loadFragments => true
  | _ => false

/-- Every command but LOAD_FRAGMENTS keeps the recordings. -/
theorem exec_recordings_command {i : Instr} {s t : State} (hc : isCommand i = true) (hw : writesRecordings i = false)
    (h : exec i s = .next t) : t.recordings = s.recordings := by
  cases i with
  | unknownCommandCode =>
    simp only [exec, execUnknownCommandCode] at h
    split at h
    · split at h
      · cases h; simp
      · cases h; rfl
    · cases h; rfl
  | readStatus => cases h; exact runCommand_recordings (fun _ _ => rfl) s
  | readStats =>
    cases h
    refine runCommand_recordings (fun b s => ?_) s
    simp only [reply]
    split <;> rfl
  | setNoticeMask => cases h; exact runCommand_recordings (fun _ _ => rfl) s
  | resetPartFull => cases h; exact runCommand_recordings (fun _ _ => rfl) s
  | resetPartKeepPhrases => cases h; exact runCommand_recordings (fun _ _ => rfl) s
  | resetPartBadOption => cases h; exact runCommand_recordings (fun _ _ => rfl) s
  | openDay =>
    cases h
    refine runCommand_recordings (fun b s => ?_) s
    split
    · rfl
    · split
      · rfl
      · exact openDay_recordings ..
  | closeDay =>
    cases h
    refine runCommand_recordings (fun b s => ?_) s
    split
    · exact closeDay_recordings s
    · rfl
  | loadCalls =>
    cases h
    refine runCommand_recordings (fun b s => ?_) s
    split
    · rfl
    · exact loadCommand_keeps State.recordings takeCallEntry_recordings ..
  | updateCallArrived => cases h; exact runCommand_recordings (updateCall_recordings arrive_recordings) s
  | updateCallDeparting => cases h; exact runCommand_recordings (updateCall_recordings depart_recordings) s
  | updateCallGone => cases h; exact runCommand_recordings (updateCall_recordings gone_recordings) s
  | updateCallCancel => cases h; exact runCommand_recordings (updateCall_recordings cancel_recordings) s
  | updateCallDelay => cases h; exact runCommand_recordings (updateCall_recordings changeDelay_recordings) s
  | updateCallPlatform => cases h; exact runCommand_recordings (updateCall_recordings changePlatform_recordings) s
  | updateCallBadUpdate => cases h; exact runCommand_recordings (updateCall_recordings fun _ _ _ _ => rfl) s
  | freeCall => exact execFreeCall_recordings h
  | readCall => exact execReadCall_recordings h
  | loadPatterns => cases h; exact runCommand_recordings (fun _ _ => loadTable_recordings putPattern_recordings ..) s
  | readPattern => cases h; exact runCommand_recordings (fun _ _ => rfl) s
  | loadPlans => cases h; exact runCommand_recordings (fun _ _ => loadTable_recordings putPlan_recordings ..) s
  | readPlan => cases h; exact runCommand_recordings (fun b s => by split <;> rfl) s
  | loadScripts => cases h; exact runCommand_recordings (fun _ _ => loadTable_recordings putScript_recordings ..) s
  | loadNumbers => cases h; exact runCommand_recordings (fun _ _ => loadTable_recordings putNumber_recordings ..) s
  | loadFragments => cases hw
  | readScript => cases h; exact runCommand_recordings (fun _ _ => rfl) s
  | readNumbers => cases h; exact runCommand_recordings (fun _ _ => readRange_recordings ..) s
  | readFragments => cases h; exact runCommand_recordings (fun _ _ => readRange_recordings ..) s
  | announce => exact execAnnounce_recordings h
  | livePageBegin => exact execLivePageBegin_recordings h
  | livePageEnd => exact execLivePageEnd_recordings h
  | emergencyBegin => exact execEmergencyBegin_recordings h
  | emergencyEnd => exact execEmergencyEnd_recordings h
  | confirm => cases h; exact runCommand_recordings (answerHeld_recordings fun _ _ => enterReady_recordings ..) s
  | reject => cases h; exact runCommand_recordings (answerHeld_recordings fun _ _ => endRecord_recordings ..) s
  | withdraw =>
    cases h
    refine runCommand_recordings (fun b s => ?_) s
    split
    · rfl
    · exact endAnn_recordings ..
  | clearAnnouncements => cases h; exact runCommand_recordings (fun _ _ => (Inner.endRecords ..).recordings) s
  | readAnnouncement => cases h; exact runCommand_recordings (fun b s => by split <;> rfl) s
  | readPool => cases h; exact runCommand_recordings (fun _ _ => rfl) s
  | loadZones =>
    cases h
    refine runCommand_recordings (fun b s => (passAfterLoad_recordings _).trans ?_) s
    exact (Inner.judgeEnabled ..).recordings.trans (loadCommand_keeps State.recordings takeZoneEntry_recordings ..)
  | loadPlatformMap =>
    cases h
    exact runCommand_recordings (fun _ _ => (passAfterLoad_recordings _).trans
      (loadTable_recordings putPlatform_recordings ..)) s
  | loadGroups =>
    cases h
    exact runCommand_recordings (fun _ _ => (passAfterLoad_recordings _).trans
      (loadTable_recordings putGroup_recordings ..)) s
  | readZones => cases h; exact runCommand_recordings (fun _ _ => readRange_recordings ..) s
  | readMaps => cases h; exact runCommand_recordings (fun _ _ => rfl) s
  | writePhrase =>
    simp only [exec, execWritePhrase] at h
    split at h
    · cases h; rfl
    · split at h
      · cases h; simp
      · split at h
        · cases h; simp
        · cases h; exact beginWrite_recordings ..
  | readChannel => cases h; exact runCommand_recordings (fun b s => by split <;> rfl) s
  | monitor =>
    cases h
    refine runCommand_recordings (fun b s => ?_) s
    split
    · rfl
    · split <;> rfl
  | readLevels => cases h; exact runCommand_recordings (fun _ _ => readRange_recordings ..) s
  | readLink => cases h; exact runCommand_recordings (fun _ _ => readRange_recordings ..) s
  | _ => cases hc

/-- Every row that is no command keeps the recordings, but for the resets, the end of self-check and the completion of a
phrase write. -/
theorem exec_recordings_event {i : Instr} {s t : State} (hc : isCommand i = false) (hw : writesRecordings i = false)
    (h : exec i s = .next t) : t.recordings = s.recordings := by
  cases i with
  | secondElapses =>
    simp only [exec, execSecondElapses] at h
    split at h
    · cases h; rfl
    · cases h; exact elapseSecond_recordings s
  | freewheelEntered =>
    simp only [exec, execFreewheelEntered] at h
    split at h
    · cases h; rfl
    · cases h; exact enterFreewheel_recordings s
  | samplePeriod =>
    simp only [exec, execSamplePeriod] at h
    split at h
    · rw [← Host.Outcome.next.inj h]
      exact onZli_recordings ..
    · rw [← Host.Outcome.next.inj h]
      exact runSample_recordings s
  | downstreamCell => cases h; exact takeCell_recordings ..
  | reassemblyTimeout =>
    simp only [exec, execReassemblyTimeout] at h
    split at h
    · split at h
      · cases h; exact discardPartial_recordings s
      · cases h; rfl
    · cases h; rfl
  | upstreamSend => cases h; exact sendUpstream_recordings s
  | callRegisterTimeChange =>
    simp only [exec, execCallRegisterTimeChange] at h
    split at h
    · cases h; exact (Inner.dueChecks ..).recordings
    · cases h; rfl
  | retention =>
    simp only [exec, execRetention] at h
    split at h
    · split at h
      · cases h; simp
      · cases h; rfl
    · cases h; rfl
  | triggerEvaluation =>
    simp only [exec, execTriggerEvaluation] at h
    split at h
    · cases h; exact ((Inner.cleanRetry ..).trans (Inner.evaluateAll ..)).recordings
    · cases h; rfl
  | loaded => cases h; exact takeEventOf_recordings ..
  | stateEntry => cases h; exact takeEventOf_recordings ..
  | delayChange => cases h; exact takeEventOf_recordings ..
  | platformSet => cases h; exact takeEventOf_recordings ..
  | platformChange => cases h; exact takeEventOf_recordings ..
  | platformCleared => cases h; exact takeEventOf_recordings ..
  | completed =>
    simp only [exec, execCompleted] at h
    split at h
    · cases h; exact (Inner.takeCompletion ..).recordings
    · cases h; rfl
  | poolJudgement =>
    simp only [exec, execPoolJudgement] at h
    split at h
    · cases h; exact (Inner.leaveQueuedAll ..).recordings
    · cases h; rfl
  | platformMoved => cases h; exact takePoolEvent_recordings (fun _ _ => Inner.movePlatform ..) ..
  | cancelled => cases h; exact takePoolEvent_recordings (fun _ _ => Inner.endAnns ..) ..
  | provisionalCleared => cases h; exact takePoolEvent_recordings (fun _ _ => Inner.enterReadyAll ..) ..
  | callRemoved => cases h; exact takePoolEvent_recordings (fun _ _ => Inner.endAnns ..) ..
  | holdTimeout =>
    simp only [exec, execHoldTimeout] at h
    split at h
    · cases h; exact (Inner.timeOutHold ..).recordings
    · cases h; rfl
  | expiry =>
    simp only [exec, execExpiry] at h
    split at h
    · cases h; exact (Inner.expireAnn ..).recordings
    · cases h; rfl
  | arbitrationPass => cases h; exact (Inner.passChain ..).recordings
  | fetchGrant =>
    simp only [exec, execFetchGrant] at h
    split at h
    · cases h; exact grantFetch_recordings s
    · cases h; rfl
  | burstCompletion =>
    simp only [exec, execBurstCompletion] at h
    split at h <;> cases h <;> rfl
  | phraseWriteStart =>
    simp only [exec, execPhraseWriteStart] at h
    split at h
    · split at h
      · split at h
        · cases h; exact finishHead_recordings ..
        · cases h; rfl
      · cases h; rfl
    · cases h; rfl
  | channelEnd =>
    simp only [exec, execChannelEnd] at h
    split at h
    · split at h
      · cases h; rfl
      · cases h; exact (Inner.endChannel ..).recordings
    · cases h; rfl
  | gapEnd =>
    simp only [exec, execGapEnd] at h
    split at h <;> cases h <;> rfl
  | underrunAbort =>
    simp only [exec, execUnderrunAbort] at h
    split at h
    · split at h
      · cases h; simp
      · cases h; rfl
    · cases h; rfl
  | block =>
    simp only [exec, execBlock] at h
    split at h <;> cases h <;> rfl
  | streamLost =>
    simp only [exec, execStreamLost] at h
    split at h
    · split at h
      · cases h; simp
      · cases h; rfl
    · cases h; rfl
  | zoneReport =>
    simp only [exec, execZoneReport] at h
    split at h
    · cases h; rfl
    · split at h
      · split at h
        · cases h; exact takeReport_recordings ..
        · cases h; rfl
      · cases h; rfl
  | ambientReading =>
    simp only [exec, execAmbientReading] at h
    split at h
    · cases h; exact applyAmbient_recordings ..
    · cases h; rfl
  | linkLost =>
    simp only [exec, execLinkLost] at h
    split at h
    · cases h; exact setLink_recordings ..
    · cases h; rfl
  | powerOnReset => cases hw
  | resetAfterResponse => cases hw
  | selfCheckEnd => cases hw
  | phraseWriteComplete => cases hw
  | _ => cases hc

/-- Every row that writes no recording keeps both. -/
theorem exec_recordings {i : Instr} {s t : State} (hw : writesRecordings i = false) (h : exec i s = .next t) :
    t.recordings = s.recordings := by
  cases hc : isCommand i with
  | true => exact exec_recordings_command hc hw h
  | false => exact exec_recordings_event hc hw h

/-! ### The rows that write one recording -/

theorem memory_of_recordings {s t : State} (h : t.recordings = s.recordings) : t.pmc.memory = s.pmc.memory :=
  congrArg Prod.fst h

theorem directory_of_recordings {s t : State} (h : t.recordings = s.recordings) : t.sxe.directory = s.sxe.directory :=
  congrArg Prod.snd h

theorem putDir_memory (id : Nat) (d : DirEntry) (s : State) : (putDir id d s).pmc.memory = s.pmc.memory := rfl

/-- LOAD_FRAGMENTS leaves phrase memory as it was (R71). -/
theorem execLoadFragments_memory {s t : State} (h : execLoadFragments s = .next t) : t.pmc.memory = s.pmc.memory := by
  cases h
  rcases runCommand_cases (loadRow 0x42 (wordCounted 64 12)) _ s with
    ⟨_, e⟩ | ⟨m, _, ⟨_, _, e⟩ | ⟨_, _, e⟩ | ⟨_, _, e⟩⟩ <;> rw [e]
  · exact memory_of_recordings (finish_recordings ..)
  · exact memory_of_recordings (finish_recordings ..)
  · have loaded := loadCommand_keeps (fun u => u.pmc.memory) (takeParsed_keeps (parse := parseDir)
      (fun u => u.pmc.memory) putDir_memory) (be16 m.body 0) (be16 m.body 2) 0 4095 (wordEntries 12 m.body) s
    exact (memory_of_recordings (finish_recordings ..)).trans loaded

/-- The end of self-check leaves phrase memory as it was (R187). -/
theorem endSelfCheck_memory (r : SelfCheckResult) (s : State) : (endSelfCheck r s).pmc.memory = s.pmc.memory := by
  unfold endSelfCheck
  exact congrArg PhraseController.memory (Inner.raise ..).pmc

/-- The completion of a phrase write leaves the directory as it was (R151). -/
theorem execPhraseWriteComplete_directory {s t : State} (h : execPhraseWriteComplete s = .next t) :
    t.sxe.directory = s.sxe.directory := by
  unfold execPhraseWriteComplete at h
  split at h
  · split at h
    · cases h; exact (directory_of_recordings (finishHead_recordings ..)).trans rfl
    · cases h; rfl
  · cases h; rfl

/-- RESET_PART KEEP_PHRASES keeps what every address of phrase memory reads as, and the directory (R70, R152, R188). -/
theorem resetBlocks_keepPhrases (straps : Byte) (cause : ResetCause) (s : State) :
    (∀ a, readPhrase (resetBlocks straps cause true s).pmc a = readPhrase s.pmc a) ∧
      (resetBlocks straps cause true s).sxe.directory = s.sxe.directory := ⟨fun _ => rfl, rfl⟩

end Sys2Proof.Machine

open Sys2Proof Sys2Proof.Machine

/-- Settles O12: every row but the resets and three others keeps both recordings; of those three, LOAD_FRAGMENTS and the
end of self-check keep phrase memory, and a completed write keeps the directory. -/
theorem recordingsChangeOnlyBy : Obligations.RecordingsChangeOnlyBy := by
  unfold Obligations.RecordingsChangeOnlyBy
  refine ⟨fun i s t h hreset => ?_, fun straps s t hw h => ?_⟩
  · cases hw : writesRecordings i with
    | false =>
      have hkept := exec_recordings hw h
      exact ⟨fun _ => memory_of_recordings hkept, fun _ _ => directory_of_recordings hkept⟩
    | true =>
      cases i with
      | powerOnReset straps => exact absurd rfl (hreset straps).1
      | resetAfterResponse straps => exact absurd rfl (hreset straps).2
      | selfCheckEnd r =>
        refine ⟨fun _ => ?_, fun _ hne => absurd rfl (hne r)⟩
        simp only [exec, execSelfCheckEnd] at h
        split at h
        · cases h; exact endSelfCheck_memory r s
        · cases h; rfl
      | phraseWriteComplete => exact ⟨fun hne => absurd rfl hne, fun _ _ => execPhraseWriteComplete_directory h⟩
      | loadFragments => exact ⟨fun _ => execLoadFragments_memory h, fun hne => absurd rfl hne⟩
      | _ => cases hw
  · simp only [exec, execResetAfterResponse, hw] at h
    split at h
    · cases h; exact resetBlocks_keepPhrases ..
    · cases h; exact ⟨fun _ => rfl, rfl⟩
end

section
/-! SUPPORT. What an expansion gives (R73, R74, R80, R81): the wanted elements as one list with their items' indexes,
and the two ways in which appending them can end. -/

namespace Sys2Proof.Machine

/-! ### What is wanted, found and missing -/

/-- The elements wanted by the items in order, each with its item's index. -/
theorem wantedList_eq (patterns : Tab (List Nat)) (hour : Nat) (call : Option CallRec) (i : Nat) (items : List Item) :
    wantedList patterns hour call i items =
      (items.zipIdx i).flatMap fun q => (wantedOf patterns hour call q.1).map fun w => (q.2, w) := by
  induction items generalizing i with
  | nil => rfl
  | cons item rest ih => rw [wantedList, ih, List.zipIdx_cons, List.flatMap_cons]

/-- The element that a wanted one is found as, if it is there. -/
def foundOf (x : ScriptExpander) (w : Wanted) : Option Element := (resolveWanted x w).getLeft?

/-- What is reported of a wanted element that is missing. -/
def missingOf (x : ScriptExpander) (w : Wanted) : Option Missing := (resolveWanted x w).getRight?

/-- The elements found of those wanted, in order. -/
def foundIn (x : ScriptExpander) (l : List (Nat × Wanted)) : List Element := l.filterMap fun q => foundOf x q.2

/-- A fragment element found carries the directory entry of its id, which is loaded. -/
theorem fragmentElement_found {x : ScriptExpander} {i k : Nat} {el : Element} (h : fragmentElement x i k = .inl el) :
    el = .fragment i k (dirEntry x i).address (dirEntry x i).length (dirEntry x i).trim ∧
      (dirEntry x i).length ≠ 0 := by
  unfold fragmentElement at h
  simp only at h
  split at h
  · cases h
  · next hl => exact ⟨(Sum.inl.inj h).symm, hl⟩

/-- A fragment found is a copy of the directory entry of its id, which is loaded (R74). -/
theorem foundOf_fragment {x : ScriptExpander} {w : Wanted} {id loops address length : Nat} {trim : Int}
    (h : foundOf x w = some (.fragment id loops address length trim)) :
    length ≠ 0 ∧ dirEntry x id = ⟨address, length, trim⟩ := by
  have copied : ∀ i k, fragmentElement x i k = .inl (.fragment id loops address length trim) →
      length ≠ 0 ∧ dirEntry x id = ⟨address, length, trim⟩ := by
    intro i k he
    obtain ⟨hel, hl⟩ := fragmentElement_found he
    cases hel
    exact ⟨hl, rfl⟩
  unfold foundOf at h
  rw [Sum.getLeft?_eq_some_iff] at h
  cases w with
  | fragment i k => exact copied i k h
  | number n =>
    simp only [resolveWanted] at h
    split at h
    · exact copied _ _ h
    · cases h
  | silence ms => cases h

/-! ### The two ways an expansion ends (R80, R81) -/

/-- Whether a list of wanted elements can be appended behind `n` elements: each of them finds fewer than 64 there. -/
def Fits (x : ScriptExpander) (n : Nat) (l : List (Nat × Wanted)) : Prop :=
  ∀ k, k < l.length → n + (foundIn x (l.take k)).length < 64

/-- An expansion with wanted elements appended that all fit. -/
def Expansion.extend (e : Expansion) (x : ScriptExpander) (l : List (Nat × Wanted)) : Expansion :=
  { e with
    elements := e.elements ++ foundIn x l
    missing := e.missing + (l.length - (foundIn x l).length)
    firstMissing := e.firstMissing.or (l.findSome? fun q => missingOf x q.2) }

theorem foundIn_length_le (x : ScriptExpander) (l : List (Nat × Wanted)) : (foundIn x l).length ≤ l.length :=
  List.length_filterMap_le ..

/-- Wanted elements that fit are appended, and what follows them goes on from there. -/
theorem appendWanted_append {x : ScriptExpander} {l rest : List (Nat × Wanted)} {e : Expansion}
    (h : Fits x e.elements.length l) :
    appendWanted x (l ++ rest) e = appendWanted x rest (e.extend x l) := by
  induction l generalizing e with
  | nil => simp [Expansion.extend, foundIn]
  | cons q l ih =>
    obtain ⟨item, w⟩ := q
    have hroom : ¬64 ≤ e.elements.length := by
      have := h 0 (by simp)
      simp only [List.take_zero, foundIn, List.filterMap_nil, List.length_nil] at this
      omega
    have hle := foundIn_length_le x l
    rw [List.cons_append, appendWanted, if_neg hroom]
    cases hw : resolveWanted x w with
    | inl el =>
      have hcons : ∀ m, foundIn x ((item, w) :: m) = el :: foundIn x m := fun m => by simp [foundIn, foundOf, hw]
      simp only
      rw [ih fun k hk => ?_]
      · congr 1
        simp [Expansion.extend, hcons, missingOf, hw]
      · have := h (k + 1) (by simpa using hk)
        rw [List.take_succ_cons, hcons, List.length_cons] at this
        simp only [List.length_append, List.length_singleton]
        omega
    | inr m =>
      have hcons : ∀ l, foundIn x ((item, w) :: l) = foundIn x l := fun l => by simp [foundIn, foundOf, hw]
      simp only
      rw [ih fun k hk => ?_]
      · congr 1
        simp only [Expansion.extend, hcons, missingOf, hw, List.findSome?_cons, Expansion.mk.injEq, true_and,
          List.length_cons, Sum.getRight?_inr, and_true]
        refine ⟨by omega, ?_⟩
        cases e.firstMissing <;> rfl
      · have := h (k + 1) (by simpa using hk)
        rwa [List.take_succ_cons, hcons] at this

/-- Where all the wanted elements fit, the expansion is not cut. -/
theorem appendWanted_fits {x : ScriptExpander} {l : List (Nat × Wanted)} {e : Expansion}
    (h : Fits x e.elements.length l) : appendWanted x l e = e.extend x l := by
  simpa [appendWanted] using appendWanted_append (rest := []) h

/-- An element wanted when 64 are there cuts the expansion short at its item (R81). -/
theorem appendWanted_cut {x : ScriptExpander} {l rest : List (Nat × Wanted)} {item : Nat} {w : Wanted} {e : Expansion}
    (h : Fits x e.elements.length l) (hfull : (e.elements ++ foundIn x l).length = 64) :
    appendWanted x (l ++ (item, w) :: rest) e = { e.extend x l with truncatedAt := some item } := by
  rw [appendWanted_append h, appendWanted, if_pos (by exact hfull.ge)]

/-- Of wanted elements that fit, at most 64 are found. -/
theorem Fits.foundIn_length {x : ScriptExpander} {l : List (Nat × Wanted)} (h : Fits x 0 l) :
    (foundIn x l).length ≤ 64 := by
  rcases List.eq_nil_or_concat l with rfl | ⟨init, last, rfl⟩
  · simp [foundIn]
  · have hinit := h init.length (by simp)
    have hlast := foundIn_length_le x [last]
    simp only [List.concat_eq_append, List.take_left, foundIn, List.filterMap_append, List.length_append,
      List.length_singleton] at hinit hlast ⊢
    omega

/-- Wanted elements all fit, or one of them finds 64 there that were found before it. -/
theorem fits_or_cut (x : ScriptExpander) (l : List (Nat × Wanted)) :
    Fits x 0 l ∨ ∃ pre item w rest, l = pre ++ (item, w) :: rest ∧ Fits x 0 pre ∧ (foundIn x pre).length = 64 := by
  induction l using List.reverseRecOn with
  | nil => exact .inl fun k hk => by simp at hk
  | append_singleton l q ih =>
    obtain hfits | ⟨pre, item, w, rest, rfl, hpre, hfull⟩ := ih
    · have hle := hfits.foundIn_length
      by_cases hfull : (foundIn x l).length = 64
      · exact .inr ⟨l, q.1, q.2, [], rfl, hfits, hfull⟩
      · refine .inl fun k hk => ?_
        rcases Nat.lt_or_eq_of_le (Nat.le_of_lt_succ (by simpa using hk) : k ≤ l.length) with hk | rfl
        · rw [List.take_append_of_le_length hk.le]
          exact hfits k hk
        · rw [List.take_left]
          omega
    · exact .inr ⟨pre, item, w, rest ++ [q], by simp, hpre, hfull⟩

/-- The expansion before any element is wanted. -/
def Expansion.start : Expansion := ⟨[], 0, none, none⟩

/-- The expansion of a loaded script: the wanted elements all fit, or it is cut at the first that finds 64. -/
theorem expandScript_cases {x : ScriptExpander} {script : Nat} {sc : Script} (patterns : Tab (List Nat)) (hour : Nat)
    (call : Option CallRec) (h : tabGet x.scripts script = some sc) :
    (Fits x 0 (wantedList patterns hour call 0 sc.items) ∧ expandScript x patterns hour call script =
      Expansion.start.extend x (wantedList patterns hour call 0 sc.items)) ∨
    ∃ pre item w rest, wantedList patterns hour call 0 sc.items = pre ++ (item, w) :: rest ∧ Fits x 0 pre ∧
      (foundIn x pre).length = 64 ∧ expandScript x patterns hour call script =
        { Expansion.start.extend x pre with truncatedAt := some item } := by
  unfold expandScript
  rw [h]
  obtain hfits | ⟨pre, item, w, rest, hl, hpre, hfull⟩ := fits_or_cut x (wantedList patterns hour call 0 sc.items)
  · exact .inl ⟨hfits, appendWanted_fits hfits⟩
  · refine .inr ⟨pre, item, w, rest, hl, hpre, hfull, ?_⟩
    simp only [hl]
    exact appendWanted_cut hpre hfull

/-- What the expansion of a loaded script holds, and which of its wanted elements it counts: all of them where none
finds 64, and otherwise those before the first that does (R81). -/
theorem expandScript_loaded {x : ScriptExpander} {script : Nat} {sc : Script} (patterns : Tab (List Nat)) (hour : Nat)
    (call : Option CallRec) (h : tabGet x.scripts script = some sc) :
    let l := wantedList patterns hour call 0 sc.items
    let e := expandScript x patterns hour call script
    e.elements = (foundIn x l).take 64 ∧
      ((∀ k, k < l.length → (foundIn x (l.take k)).length < 64) → e = Expansion.start.extend x l) ∧
      ∀ k item w, l[k]? = some (item, w) → (foundIn x (l.take k)).length = 64 →
        (∀ j, j < k → (foundIn x (l.take j)).length < 64) →
        e = { Expansion.start.extend x (l.take k) with truncatedAt := some item } := by
  intro l e
  obtain ⟨hfits, he⟩ | ⟨pre, item, w, rest, hl, hpre, hfull, he⟩ := expandScript_cases patterns hour call h <;>
    change e = _ at he
  · refine ⟨?_, fun _ => he, fun k item w hk hfull => ?_⟩
    · rw [he, List.take_of_length_le hfits.foundIn_length]
      rfl
    · have : 0 + (foundIn x (l.take k)).length < 64 := hfits k (List.getElem?_eq_some_iff.1 hk).1
      omega
  · change l = _ at hl
    have hat : l.take pre.length = pre := by rw [hl, List.take_left]
    refine ⟨?_, fun hall => ?_, fun k i v hk hfull' hbelow => ?_⟩
    · rw [he, hl]
      simp only [foundIn, List.filterMap_append] at hfull ⊢
      rw [← hfull, List.take_left]
      rfl
    · have := hall pre.length (by rw [hl]; simp)
      rw [hat] at this
      omega
    · obtain hlt | rfl | hgt := Nat.lt_trichotomy k pre.length
      · have := hpre k hlt
        rw [← hat, List.take_take, Nat.min_eq_left hlt.le] at this
        omega
      · have hv : l[pre.length]? = some (item, w) := by rw [hl]; simp
        obtain ⟨rfl, rfl⟩ := Prod.mk.inj (Option.some.inj (hk.symm.trans hv))
        rw [hat, he]
      · have := hbelow pre.length hgt
        rw [hat] at this
        omega

/-- Something is reported missing exactly where fewer elements are found than are wanted (R80). -/
theorem findSome?_missing_isSome (x : ScriptExpander) (l : List (Nat × Wanted)) :
    (l.findSome? fun q => missingOf x q.2).isSome = true ↔ (foundIn x l).length < l.length := by
  induction l with
  | nil => simp [foundIn]
  | cons q l ih =>
    have hle := foundIn_length_le x l
    cases hw : resolveWanted x q.2 with
    | inl el =>
      rw [List.findSome?_cons, missingOf, hw]
      simpa [foundIn, foundOf, hw] using ih
    | inr m =>
      rw [List.findSome?_cons, missingOf, hw]
      simp only [foundIn, foundOf] at hle
      simpa [foundIn, foundOf, hw] using hle

/-- The first value given to an entry at which a condition holds. -/
theorem findSome?_ite {α β : Type} (p : α → Bool) (f : α → β) (l : List α) :
    (l.findSome? fun a => if p a then some (f a) else none) = (l.find? p).map f := by
  induction l with
  | nil => rfl
  | cons a l ih => cases h : p a <;> simp [h, ih]

/-- An expansion holds what is found among some wanted elements, and counts and reports what is missing among them. -/
theorem expandScript_shape (x : ScriptExpander) (patterns : Tab (List Nat)) (hour : Nat) (call : Option CallRec)
    (script : Nat) : ∃ l cut, expandScript x patterns hour call script =
        { Expansion.start.extend x l with truncatedAt := cut } ∧ (foundIn x l).length ≤ 64 ∧
      (cut.isSome = true → (foundIn x l).length = 64) := by
  cases h : tabGet x.scripts script with
  | none =>
    refine ⟨[], none, ?_, by simp [foundIn], nofun⟩
    simp [expandScript, h, Expansion.start, Expansion.extend, foundIn]
  | some sc =>
    obtain ⟨hfits, he⟩ | ⟨pre, item, w, rest, _, _, hfull, he⟩ := expandScript_cases patterns hour call h
    · exact ⟨_, none, he, hfits.foundIn_length, nofun⟩
    · exact ⟨pre, some item, he, hfull.le, fun _ => hfull⟩

end Sys2Proof.Machine

open Sys2Proof Sys2Proof.Machine

/-- Settles O39: an expansion is its wanted elements appended, all of them or those before the first that finds 64. -/
theorem expansionsStopAtSixtyFour : Obligations.ExpansionsStopAtSixtyFour := by
  unfold Obligations.ExpansionsStopAtSixtyFour
  intro x patterns hour call script e part find lack
  have hresolve : ∀ w, foundOf x w = find w ∧ missingOf x w = if (find w).isNone then some (lack w) else none := by
    have hpart : ∀ id loops, (fragmentElement x id loops).getLeft? = part id loops ∧
        (fragmentElement x id loops).getRight? = if (part id loops).isNone then some (.fragmentId id) else none := by
      intro id loops
      simp only [fragmentElement, part]
      split <;> exact ⟨rfl, rfl⟩
    intro w
    cases w with
    | fragment id loops => exact hpart id loops
    | number n =>
      simp only [foundOf, missingOf, resolveWanted, find, lack]
      cases tabGet x.numbers n with
      | none => exact ⟨rfl, rfl⟩
      | some id => exact hpart id 1
    | silence ms => exact ⟨rfl, rfl⟩
  have hfound : ∀ l : List (Nat × Wanted), foundIn x l = l.filterMap fun q => find q.2 := fun l =>
    congrArg (l.filterMap ·) (funext fun q => (hresolve q.2).1)
  have hfirst : ∀ l : List (Nat × Wanted), (l.findSome? fun q => missingOf x q.2) =
      (l.find? fun q => (find q.2).isNone).map fun q => lack q.2 := fun l => by
    rw [← findSome?_ite]
    exact congrArg (l.findSome? ·) (funext fun q => (hresolve q.2).2)
  obtain ⟨l, cut, he, hle, hcut⟩ := expandScript_shape x patterns hour call script
  change e = _ at he
  refine ⟨?_, ?_, ?_, ?_, ?_, ?_⟩
  · rw [he]; exact hle
  · rw [he]; exact hcut
  · rw [he]
    have := findSome?_missing_isSome x l
    simp only [Expansion.start, Expansion.extend, Option.none_or, Nat.zero_add]
    rw [this]
    omega
  · intro id loops address length trim hm
    rw [he] at hm
    obtain ⟨q, _, hq⟩ := List.mem_filterMap.1 (show _ ∈ foundIn x l from hm)
    exact foundOf_fragment hq
  · intro h
    simp [e, expandScript, h]
  · intro sc h wanted found reports
    have hwanted : wantedList patterns hour call 0 sc.items = wanted := wantedList_eq ..
    have hreports : ∀ m cut, e = { Expansion.start.extend x m with truncatedAt := cut } → reports m := by
      intro m cut he
      simp only [reports, he, Expansion.start, Expansion.extend, Option.none_or, hfirst]
      simp
    obtain ⟨htake, hwhole, hshort⟩ := expandScript_loaded patterns hour call h
    rw [hwanted] at htake hwhole hshort
    simp only [hfound] at htake hwhole hshort
    refine ⟨htake, fun hall => ?_, fun k item w hk hfull hbelow => ?_⟩
    · have he := hwhole hall
      exact ⟨congrArg Expansion.truncatedAt he, hreports wanted none he⟩
    · have he := hshort k item w hk hfull hbelow
      exact ⟨congrArg Expansion.truncatedAt he, hreports (wanted.take k) _ he⟩
end

section
/-! SUPPORT. What becomes of the pool's records at a start (R96, R128, R129): the restart rule, the records that lose
zones, and the victim of a steal, each said once of a record found by its ann_id. -/

namespace Sys2Proof.Machine

/-! ### The restart rule (R96) -/

/-- Whether a restart request returns a record to READY at an instant (R96). -/
def AnnRec.mayRestart (r : AnnRec) (now : Nat) : Bool :=
  r.ask.restartable && decide (r.restartCount < 2) && r.ask.latest.all fun l => decide (now ≤ l)

theorem AnnRec.mayRestart_iff (r : AnnRec) (now : Nat) : r.mayRestart now = true ↔
    r.ask.restartable = true ∧ r.restartCount < 2 ∧ ∀ l, r.ask.latest = some l → now ≤ l := by
  unfold AnnRec.mayRestart
  cases r.ask.latest <;> simp [and_assoc]

/-- A record that a restart request has returned to READY: its sets and channel cleared, one restart more (R96). -/
def AnnRec.returned (r : AnnRec) : AnnRec :=
  { r with
    state := .ready, held := 0#32, missed := 0#32, lost := 0#32, channel := none, platformSpoken := false
    restartCount := r.restartCount + 1 }

/-- What a restart request leaves of a record (R96). -/
def AnnRec.afterRestart (now : Nat) (r : AnnRec) : Option AnnRec := if r.mayRestart now then some r.returned else none

/-- A stop and a release leave the pool, the clock, the notices and the counters alone (R132, R148). -/
theorem release_shape (r : AnnRec) (s : State) : ∃ v c z w, releaseZones r.held (stopSource r s) = { s with
    lmu := { s.lmu with levels := v }, pbc := c, zar := { s.zar with zones := z, passPending := w } } := by
  obtain ⟨v, c, w, h⟩ := stopSource_shape r s
  obtain ⟨v', z, w', h'⟩ := releaseZones_shape r.held (stopSource r s)
  rw [h', h]
  exact ⟨v', c, z, w', rfl⟩

theorem restartOrPreempt_returns {why : Reason} {id : Nat} {s : State} {r : AnnRec} (h : s.ann id = some r)
    (hm : r.mayRestart s.sck.time = true) : restartOrPreempt why id s =
      (causePass ((releaseZones r.held (stopSource r s)).updAnn id fun x => { x with
        state := .ready, held := 0#32, missed := 0#32, lost := 0#32, channel := none, platformSpoken := false })).updAnn
          id fun x => { x with restartCount := x.restartCount + 1 } := by
  unfold restartOrPreempt returnToReady
  simp only [h]
  rw [if_pos (by simpa [AnnRec.mayRestart, and_assoc] using hm)]

theorem restartOrPreempt_ends {why : Reason} {id : Nat} {s : State} {r : AnnRec} (h : s.ann id = some r)
    (hm : r.mayRestart s.sck.time = false) : restartOrPreempt why id s = endRecord id .preempted why false s := by
  unfold restartOrPreempt
  simp only [h]
  rw [if_neg (by simpa [AnnRec.mayRestart, and_assoc] using hm)]

/-- The record that ends is found no more, and every other as it was (R94). -/
theorem endRecord_ann (id : Nat) (o : AnnOutcome) (why : Reason) (ended : Bool) (s : State) (other : Nat) :
    (endRecord id o why ended s).ann other = if other = id then none else s.ann other := by
  cases h : s.ann id with
  | none =>
    rw [endRecord_none h]
    split
    · next he => rw [he, h]
    · rfl
  | some r =>
    rw [← dropAnn_ann]
    simp only [State.ann, endRecord_apl h]
    rfl

/-- What a restart request does to the pool: the record named is returned or gone, and every other stays. -/
theorem restartOrPreempt_ann (why : Reason) (id : Nat) (s : State) (other : Nat) :
    (restartOrPreempt why id s).ann other =
      if other = id then (s.ann id).bind (AnnRec.afterRestart s.sck.time) else s.ann other := by
  cases h : s.ann id with
  | none =>
    unfold restartOrPreempt
    simp only [h]
    split
    · next he => rw [he, h]; rfl
    · rfl
  | some r =>
    cases hm : r.mayRestart s.sck.time with
    | true =>
      obtain ⟨v, c, z, w, hs⟩ := release_shape r s
      rw [restartOrPreempt_returns h hm, updAnn_ann (by intro _; rfl), hs]
      have hcause : ∀ u : State, ∀ x, (causePass u).ann x = u.ann x := fun _ _ => rfl
      simp only [hcause]
      rw [updAnn_ann (by intro _; rfl), updAnn_ann (by intro _; rfl)]
      change (if other = id then ((if id = id then (s.ann id).map _ else s.ann id).map _) else
        if other = id then (s.ann id).map _ else s.ann other) = _
      simp only [if_true, h, Option.map_some, Option.bind_some, AnnRec.afterRestart, hm]
      split <;> rfl
    | false =>
      rw [restartOrPreempt_ends h hm, endRecord_ann]
      simp [AnnRec.afterRestart, hm]

/-! ### The records that lose their zones (R129) -/

/-- What a start leaves of a record that lost zones to it: one that plays on no zone any more is asked to restart. -/
def AnnRec.afterLoss (now : Nat) (r : AnnRec) : Option AnnRec :=
  if r.state = .playing ∧ r.held = 0#32 then r.afterRestart now else some r

/-- A record dealt with once is not dealt with again. -/
theorem AnnRec.afterLoss_idem {now : Nat} {r x : AnnRec} (h : r.afterLoss now = some x) : x.afterLoss now = some x := by
  unfold AnnRec.afterLoss at h
  split at h
  · unfold AnnRec.afterRestart at h
    split at h
    · cases h
      simp [AnnRec.afterLoss, AnnRec.returned]
    · cases h
  · next hn =>
    cases h
    exact if_neg hn

theorem dealWithLosers_ann (l : List Nat) (s : State) (other : Nat) : (dealWithLosers l s).ann other =
    if other ∈ l then (s.ann other).bind (AnnRec.afterLoss s.sck.time) else s.ann other := by
  induction l generalizing s with
  | nil => rfl
  | cons id rest ih =>
    have hstep : ∃ t, dealWithLosers (id :: rest) s = dealWithLosers rest t ∧ t.sck = s.sck ∧ t.ann other =
        if other = id then (s.ann id).bind (AnnRec.afterLoss s.sck.time) else s.ann other := by
      rw [dealWithLosers]
      cases h : s.ann id with
      | none =>
        refine ⟨s, rfl, rfl, ?_⟩
        split
        · next he => rw [he, h]; rfl
        · rfl
      | some r =>
        simp only [Option.bind_some, AnnRec.afterLoss]
        split
        · refine ⟨_, rfl, (Inner.restartOrPreempt ..).sck, ?_⟩
          rw [restartOrPreempt_ann, h]
          rfl
        · refine ⟨s, rfl, rfl, ?_⟩
          split
          · next he => rw [he, h]
          · rfl
    obtain ⟨t, he, hsck, hann⟩ := hstep
    rw [he, ih, hsck, hann]
    by_cases hid : other = id
    · subst hid
      simp only [if_true, List.mem_cons, true_or]
      split
      · cases h : (s.ann other).bind (AnnRec.afterLoss s.sck.time) with
        | none => rfl
        | some x =>
          obtain ⟨r, _, hr⟩ := Option.bind_eq_some_iff.1 h
          exact AnnRec.afterLoss_idem hr
      · rfl
    · simp [hid]

/-! ### The zones seized (R128) -/

/-- The zones of a list that a record holds. -/
def seizedFrom (s : State) (id : Nat) (l : List Nat) : ZoneSet :=
  zoneSetOf (l.filter fun z => (s.zone z).holder == some id)

/-- A record that has lost zones: they leave its held set and join its lost set (R128). -/
def AnnRec.robbed (zones : ZoneSet) (r : AnnRec) : AnnRec :=
  { r with held := r.held &&& ~~~zones, lost := r.lost ||| zones }

theorem AnnRec.robbed_none (r : AnnRec) : r.robbed 0#32 = r := by
  rw [AnnRec.robbed, BitVec.not_zero, BitVec.and_allOnes, BitVec.or_zero]

theorem AnnRec.robbed_robbed (a b : ZoneSet) (r : AnnRec) : (r.robbed a).robbed b = r.robbed (a ||| b) := by
  simp only [AnnRec.robbed, AnnRec.mk.injEq, true_and, and_true]
  exact ⟨by rw [BitVec.not_or, BitVec.and_assoc], by rw [BitVec.or_assoc]⟩

/-- The zones seized leave each record that held some of them. -/
theorem seizeZones_ann (id cls : Nat) (l : List Nat) (hn : l.Nodup) (s : State) (other : Nat) :
    (seizeZones id cls l s).ann other = (s.ann other).map (AnnRec.robbed (seizedFrom s other l)) := by
  induction l generalizing s with
  | nil =>
    show s.ann other = (s.ann other).map (AnnRec.robbed 0#32)
    cases s.ann other <;> simp [AnnRec.robbed_none]
  | cons z rest ih =>
    obtain ⟨hz, hrest⟩ := List.nodup_cons.1 hn
    have hstep : ∃ t, seizeZones id cls (z :: rest) s = seizeZones id cls rest t ∧
        (∀ y, y ≠ z → t.zone y = s.zone y) ∧ t.ann other =
          (s.ann other).map (AnnRec.robbed (seizedFrom s other [z])) := by
      rw [seizeZones]
      refine ⟨_, rfl, fun y hy => ?_, ?_⟩
      · rw [show ∀ u : State, (takeAtt cls 0 z u).zone y = u.zone y from fun _ => rfl, updZone_zone, if_neg hy]
        split <;> rfl
      · rw [show ∀ u : State, (takeAtt cls 0 z (u.updZone z fun e => { e with holder := some id })).ann other =
          u.ann other from fun _ => rfl]
        cases hh : (s.zone z).holder with
        | none => cases s.ann other <;> simp [seizedFrom, hh, zoneSetOf, AnnRec.robbed_none]
        | some h =>
          simp only
          rw [updAnn_ann (by intro _; rfl)]
          by_cases ho : other = h
          · subst ho
            simp only [if_true, seizedFrom, hh, List.filter_cons, List.filter_nil, beq_self_eq_true, zoneSetOf,
              BitVec.or_zero]
            rfl
          · cases s.ann other <;> simp [seizedFrom, hh, zoneSetOf, AnnRec.robbed_none, ho, Ne.symm ho]
    obtain ⟨t, he, hzone, hann⟩ := hstep
    have hsame : seizedFrom t other rest = seizedFrom s other rest := by
      unfold seizedFrom
      congr 1
      refine List.filter_congr fun y hy => ?_
      rw [hzone y fun h => hz (h ▸ hy)]
    have hcons : seizedFrom s other (z :: rest) = seizedFrom s other [z] ||| seizedFrom s other rest := by
      unfold seizedFrom
      by_cases hh : (s.zone z).holder == some other <;> simp [hh, zoneSetOf]
    rw [he, ih hrest, hann, hsame, hcons]
    cases s.ann other <;> simp [AnnRec.robbed_robbed]

theorem mem_holdersOf {s : State} {l : List Nat} {h : Nat} :
    h ∈ holdersOf s l ↔ ∃ z ∈ l, (s.zone z).holder = some h := by
  induction l with
  | nil => simp [holdersOf]
  | cons z rest ih =>
    unfold holdersOf
    simp only [List.mem_cons, exists_eq_or_imp, ← ih]
    cases hz : (s.zone z).holder with
    | none => simp
    | some k =>
      by_cases hk : k ∈ holdersOf s rest
      · simp only [List.contains_eq_mem, hk, decide_true, if_true, Option.some.injEq]
        exact ⟨.inr, fun h => h.elim (fun e => e ▸ hk) id⟩
      · simp only [List.contains_eq_mem, hk, decide_false, Bool.false_eq_true, if_false, List.mem_cons,
          Option.some.injEq, eq_comm]

/-- A record loses zones of a set when it holds one of them. -/
theorem seizedFrom_ne_zero {s : State} {id : Nat} {taken : ZoneSet} :
    seizedFrom s id (zonesOf taken) ≠ 0#32 ↔ ∃ z ∈ zonesOf taken, (s.zone z).holder = some id := by
  constructor
  · intro h
    by_contra hnone
    refine h ?_
    have : (zonesOf taken).filter (fun z => (s.zone z).holder == some id) = [] :=
      List.filter_eq_nil_iff.2 fun z hz he => hnone ⟨z, hz, by simpa using he⟩
    rw [seizedFrom, this]
    rfl
  · rintro ⟨z, hz, hh⟩ h0
    have hlt : z < 32 := BitVec.lt_of_getLsbD (mem_zonesOf.1 hz)
    have hget := zoneSetOf_get ((zonesOf taken).filter fun z => (s.zone z).holder == some id) z hlt
    rw [show zoneSetOf _ = 0#32 from h0] at hget
    simp [hz, hh] at hget

/-! ### A start (R128) -/

/-- The records that lose zones to a start, in the order in which they are dealt with (R129, log 18). -/
def losersOf (r : AnnRec) (taken : ZoneSet) (s : State) : List Nat :=
  (sortBy (fun x y => decide (x ≤ y)) (holdersOf s (zonesOf taken))).filter (· != r.annId)

theorem mem_losersOf {r : AnnRec} {taken : ZoneSet} {s : State} {id : Nat} :
    id ∈ losersOf r taken s ↔ id ≠ r.annId ∧ seizedFrom s id (zonesOf taken) ≠ 0#32 := by
  rw [seizedFrom_ne_zero, ← mem_holdersOf, losersOf, List.mem_filter, mem_sortBy, bne_iff_ne, and_comm]

/-- The channel of a source, if it gives one, passes to the starting record (R126, R138). -/
def Source.give (src : Source) (r : AnnRec) (list : List Element) (s : State) : State :=
  match src.channel with
  | some c => giveChannel c r list s
  | none => s

/-- A record as it starts (R93, R128). -/
def AnnRec.begun (src : Source) (u taken : ZoneSet) (spoken : Bool) (r : AnnRec) : AnnRec :=
  { r with
    state := .playing, held := taken, missed := u &&& ~~~taken, lost := 0#32, channel := src.channel
    platformSpoken := spoken }

/-- A start up to its count, before the victim and the losers are dealt with (R128, steps 2 to 6). -/
def seated (r : AnnRec) (src : Source) (u taken : ZoneSet) (list : List Element) (s : State) : State :=
  let robbed := takeStolen src s
  let caused := if (losersOf r taken robbed).isEmpty then robbed else causePass robbed
  count (.started r.ask.cls) (State.updAnn r.annId (AnnRec.begun src u taken (speaksPlatform s r))
    (src.give r list (seizeZones r.annId r.ask.cls (zonesOf taken) caused)))

theorem startRecord_eq (r : AnnRec) (src : Source) (u taken : ZoneSet) (list : List Element) (s : State) :
    startRecord r src u taken list s =
      dealWithLosers (losersOf r taken (takeStolen src s)) (dealWithVictim src (seated r src u taken list s)) := rfl

theorem takeStolen_zar (src : Source) (s : State) : (takeStolen src s).zar = s.zar := by
  unfold takeStolen
  split
  · next c v =>
    split
    · next a _ =>
      obtain ⟨w, h⟩ := placeTails_shape (.samples (s.channel c).tailSamples) (zonesOf a.held) s
      unfold fadeChannel
      rw [h]
      rfl
    · rfl
  · rfl

/-- The victim of a steal has no channel any more, and every other record stays as it was (R128, step 2). -/
theorem takeStolen_ann (src : Source) (s : State) (other : Nat) :
    ((∀ c v, src = .steal c v → v ≠ other) → (takeStolen src s).ann other = s.ann other) ∧
      ∀ c, src = .steal c other → (takeStolen src s).ann other =
        (s.ann other).map fun x => { x with channel := none } := by
  have hsteal : ∀ c v, (takeStolen (.steal c v) s).ann other =
      if other = v then (s.ann v).map fun x => { x with channel := none } else s.ann other := by
    intro c v
    unfold takeStolen
    cases h : s.ann v with
    | none =>
      simp only [h]
      split
      · next he => rw [he, h]; rfl
      · rfl
    | some a =>
      obtain ⟨w, hs⟩ := placeTails_shape (.samples (s.channel c).tailSamples) (zonesOf a.held) s
      simp only [h]
      unfold fadeChannel
      rw [updAnn_ann (by intro _; rfl), hs, ← h]
      rfl
  constructor
  · intro hne
    cases src with
    | stream => rfl
    | idle c => rfl
    | steal c v => rw [hsteal, if_neg (hne c v rfl).symm]
  · rintro c rfl
    rw [hsteal, if_pos rfl]

theorem Inner.seated (r : AnnRec) (src : Source) (u taken : ZoneSet) (list : List Element) (s : State) :
    Inner s (seated r src u taken list s) :=
  ((((Inner.takeStolen src s).trans (Inner.causePassIf _ _)).trans (Inner.seizeZones _ _ _ _)).trans
    (Inner.giveSource src r list _)).trans ((Inner.updAnn (by intro _; rfl) _).trans (Inner.count _ _))

/-- The records at a start, before the victim and the losers are dealt with. -/
theorem seated_ann (r : AnnRec) (src : Source) (u taken : ZoneSet) (list : List Element) (s : State) (other : Nat) :
    (seated r src u taken list s).ann other =
      if other = r.annId then ((takeStolen src s).ann other).map (AnnRec.begun src u taken (speaksPlatform s r))
      else ((takeStolen src s).ann other).map (AnnRec.robbed (seizedFrom s other (zonesOf taken))) := by
  have hgive : ∀ (t : State) x, (src.give r list t).ann x = t.ann x := fun t x => by
    unfold Source.give
    split <;> rfl
  have hcaused : ∀ (b : Bool) (t : State) x, (if b then t else causePass t).ann x = t.ann x := fun b t x => by
    cases b <;> rfl
  have hzone : ∀ (b : Bool) y, (if b then takeStolen src s else causePass (takeStolen src s)).zone y = s.zone y := by
    intro b y
    refine Eq.trans ?_ (congrArg (fun a : ZoneArbiter => tabGetD a.zones y ZoneEntry.reset) (takeStolen_zar src s))
    cases b <;> rfl
  unfold seated
  rw [show ∀ (c : Counter) (t : State), (count c t).ann other = t.ann other from fun _ _ => rfl,
    updAnn_ann (by intro _; rfl)]
  simp only [hgive, seizeZones_ann _ _ _ (zonesOf_nodup taken), hcaused, seizedFrom, hzone]
  split
  · next he =>
    subst he
    cases (takeStolen src s).ann r.annId <;> rfl
  · rfl

/-- The starting record holds what it took, and misses the rest of its usable zones (R128). -/
theorem startRecord_ann_self {r : AnnRec} {src : Source} {s : State} (u taken : ZoneSet) (list : List Element)
    (hv : ∀ c v, src = .steal c v → v ≠ r.annId) : (startRecord r src u taken list s).ann r.annId =
      (s.ann r.annId).map (AnnRec.begun src u taken (speaksPlatform s r)) := by
  have hvictim : (dealWithVictim src (seated r src u taken list s)).ann r.annId =
      (seated r src u taken list s).ann r.annId := by
    unfold dealWithVictim
    split
    · next c v => rw [restartOrPreempt_ann, if_neg (hv c v rfl).symm]
    · rfl
  rw [startRecord_eq, dealWithLosers_ann, if_neg (fun h => (mem_losersOf.1 h).1 rfl), hvictim, seated_ann, if_pos rfl,
    (takeStolen_ann src s r.annId).1 hv]

/-- A record that is neither the starting one nor a stolen channel's: it stays, or loses the zones taken from it and is
dealt with (R128, R129). -/
theorem startRecord_ann_other {r : AnnRec} {src : Source} {s : State} {other : Nat} (u taken : ZoneSet)
    (list : List Element) (hne : other ≠ r.annId) (hv : ∀ c v, src = .steal c v → v ≠ other) :
    (startRecord r src u taken list s).ann other =
      if seizedFrom s other (zonesOf taken) = 0#32 then s.ann other
      else (s.ann other).bind fun x => (x.robbed (seizedFrom s other (zonesOf taken))).afterLoss s.sck.time := by
  have hzone : seizedFrom (takeStolen src s) other (zonesOf taken) = seizedFrom s other (zonesOf taken) := by
    simp only [seizedFrom, State.zone, takeStolen_zar]
  have hvictim : (dealWithVictim src (seated r src u taken list s)).ann other =
      (s.ann other).map (AnnRec.robbed (seizedFrom s other (zonesOf taken))) := by
    have hseated := seated_ann r src u taken list s other
    rw [if_neg hne, (takeStolen_ann src s other).1 hv] at hseated
    unfold dealWithVictim
    split
    · next c v => rw [restartOrPreempt_ann, if_neg (hv c v rfl).symm, hseated]
    · exact hseated
  have hsck : (dealWithVictim src (seated r src u taken list s)).sck = s.sck :=
    ((Inner.seated r src u taken list s).trans (Inner.dealWithVictim ..)).sck
  rw [startRecord_eq, dealWithLosers_ann, hvictim, hsck]
  simp only [mem_losersOf, hzone, hne, ne_eq, not_false_eq_true, true_and]
  by_cases h0 : seizedFrom s other (zonesOf taken) = 0#32
  · rw [if_neg (fun h => h h0), if_pos h0, h0]
    cases s.ann other <;> simp [AnnRec.robbed_none]
  · rw [if_pos h0, if_neg h0]
    cases s.ann other <;> rfl

/-- The record whose channel was stolen is returned to READY, or gone (R127, R129). -/
theorem startRecord_ann_victim {r : AnnRec} {c v : Nat} {s : State} (u taken : ZoneSet) (list : List Element)
    (hne : v ≠ r.annId) : (startRecord r (.steal c v) u taken list s).ann v =
      (s.ann v).bind (AnnRec.afterRestart s.sck.time) := by
  have hsck : (dealWithVictim (.steal c v) (seated r (.steal c v) u taken list s)).sck = s.sck :=
    ((Inner.seated r (.steal c v) u taken list s).trans (Inner.dealWithVictim ..)).sck
  have hrestarted : (dealWithVictim (.steal c v) (seated r (.steal c v) u taken list s)).ann v =
      (s.ann v).bind (AnnRec.afterRestart s.sck.time) := by
    show (restartOrPreempt .channelTaken v (seated r (.steal c v) u taken list s)).ann v = _
    rw [restartOrPreempt_ann, if_pos rfl, seated_ann, if_neg hne, (takeStolen_ann _ s v).2 c rfl,
      (Inner.seated r (.steal c v) u taken list s).sck]
    cases s.ann v <;> rfl
  rw [startRecord_eq, dealWithLosers_ann, hsck, hrestarted]
  split
  · cases h : (s.ann v).bind (AnnRec.afterRestart s.sck.time) with
    | none => rfl
    | some x =>
      obtain ⟨y, _, hy⟩ := Option.bind_eq_some_iff.1 h
      unfold AnnRec.afterRestart at hy
      split at hy
      · cases hy
        simp [AnnRec.afterLoss, AnnRec.returned]
      · cases hy
  · rfl

end Sys2Proof.Machine
end

section
/-! SUPPORT. An expansion's counts and notices, the start of a lone record, and a pass with one record ready (R80
to R82, R120 to R128). -/

namespace Sys2Proof.Machine

/-! ### Counters (R185) -/

theorem counter_countBy_same {s : State} (h : StatsSound s.stats) (c : Counter) (n : Nat) :
    counter (countBy c n s) c = min (counter s c + n) 4294967295 :=
  tabGetD_tabSetD_same _ _ _ h.1

theorem counter_countBy_other {c d : Counter} (h : c.index ≠ d.index) (n : Nat) (s : State) :
    counter (countBy d n s) c = counter s c := tabGetD_tabSetD_other _ _ _ h

/-- A notice counts nothing but its own loss (R184). -/
theorem counter_raise {c : Counter} (h : c.index ≠ 170) (n : Notice) (s : State) :
    counter (raise n s) c = counter s c := by
  unfold raise
  split
  · simp only
    split
    · exact counter_countBy_other h 1 _
    · rfl
  · rfl

/-! ### The counts and notices of an expansion (R80, R81) -/

/-- An expansion's counts and notices change the notices and the counters, and nothing else. -/
theorem noteExpansion_shape (r : AnnRec) (e : Expansion) (s : State) :
    ∃ f c, noteExpansion r e s = { s with notices := f, stats := c } := by
  have hraise : ∀ n t, (∃ f c, t = { s with notices := f, stats := c }) →
      ∃ f c, raise n t = { s with notices := f, stats := c } := by
    rintro n _ ⟨f, c, rfl⟩
    exact raise_shape n { s with notices := f, stats := c }
  have hcount : ∀ k n t, (∃ f c, t = { s with notices := f, stats := c }) →
      ∃ f c, countBy k n t = { s with notices := f, stats := c } := by
    rintro k n _ ⟨f, c, rfl⟩
    exact ⟨f, _, rfl⟩
  have hmissing := hcount .missingFragments e.missing s ⟨s.notices, s.stats, rfl⟩
  unfold noteExpansion
  cases e.firstMissing <;> cases e.truncatedAt
  · exact hmissing
  · exact hraise _ _ (hcount _ 1 _ hmissing)
  · exact hraise _ _ hmissing
  · exact hraise _ _ (hcount _ 1 _ (hraise _ _ hmissing))

theorem counter_emptyLists_noteExpansion (r : AnnRec) (e : Expansion) (s : State) :
    counter (noteExpansion r e s) .emptyLists = counter s .emptyLists := by
  have hraise : ∀ n t, counter (raise n t) .emptyLists = counter t .emptyLists := counter_raise (by decide)
  have hcount : ∀ k n t, Counter.emptyLists.index ≠ Counter.index k →
      counter (countBy k n t) .emptyLists = counter t .emptyLists := fun k n t h => counter_countBy_other h n t
  unfold noteExpansion count
  cases e.firstMissing <;> cases e.truncatedAt <;>
    simp only [hraise, hcount .missingFragments _ _ (by decide), hcount .truncatedLists _ _ (by decide)]

/-! ### An empty list (R82) -/

/-- A record that waits and holds no zone ends without touching zones, channels or levels (R94). -/
theorem endRecord_waiting {id : Nat} {s : State} {r : AnnRec} (h : s.ann id = some r) (hs : r.state ≠ .playing)
    (hh : r.held = 0#32) (o : AnnOutcome) (why : Reason) :
    (endRecord id o why false s).zar = s.zar ∧ (endRecord id o why false s).pbc = s.pbc ∧
      (endRecord id o why false s).lmu = s.lmu ∧
      (endRecord id o why false s).apl.records = s.apl.records.filter (fun x => x.annId != id) := by
  have hstop : stopSource r s = s := by
    unfold stopSource
    split
    · next hp _ => exact absurd hp hs
    · next hp _ _ => exact absurd hp hs
    · rfl
  obtain ⟨_, _, hzar, hlmu, hpbc⟩ := closeAnn_blocks id o why (letGo id false s)
  have hlet : letGo id false s = s.updAnn id
      fun r => { r with held := 0#32, missed := 0#32, lost := 0#32, channel := none } := by
    unfold letGo
    simp only [h, Bool.false_eq_true, if_false, hstop, releaseZones, hh, if_true]
  refine ⟨?_, ?_, ?_, by rw [endRecord_apl h]⟩
  · exact hzar.trans (by rw [hlet]; rfl)
  · exact hpbc.trans (by rw [hlet]; rfl)
  · exact hlmu.trans (by rw [hlet]; rfl)

theorem counter_emptyLists_endRecord {id : Nat} {s : State} {r : AnnRec} (h : s.ann id = some r) (why : Reason) :
    counter (endRecord id .aborted why false s) .emptyLists = counter s .emptyLists := by
  have hlet : counter (letGo id false s) .emptyLists = counter s .emptyLists := by
    obtain ⟨_, _, _, _, hs⟩ := letGo_shape h false
    rw [hs]
    rfl
  have hended : ∀ cls, Counter.emptyLists.index ≠ (Counter.ended cls .aborted).index := fun cls => by
    simp only [Counter.index]
    omega
  unfold endRecord closeAnn
  split
  · exact hlet
  · exact (counter_countBy_other (hended _) 1 _).trans ((counter_raise (by decide) ..).trans hlet)

/-! ### A start on free zones -/

/-- A record that takes free zones and steals no channel has no loser and no victim (R128). -/
theorem startRecord_free {r : AnnRec} {src : Source} {s : State} (u taken : ZoneSet) (list : List Element)
    (hsrc : ∀ c v, src ≠ .steal c v) (hfree : ∀ z ∈ zonesOf taken, (s.zone z).holder = none) :
    startRecord r src u taken list s =
      count (.started r.ask.cls) (State.updAnn r.annId (AnnRec.begun src u taken (speaksPlatform s r))
        (src.give r list (seizeZones r.annId r.ask.cls (zonesOf taken) s))) := by
  have hstolen : takeStolen src s = s := by
    cases src with
    | steal c v => exact absurd rfl (hsrc c v)
    | stream => rfl
    | idle c => rfl
  have hnone : losersOf r taken s = [] := by rw [losersOf, holdersOf_free s _ hfree]; rfl
  have hvictim : ∀ t, dealWithVictim src t = t := fun t => by
    cases src with
    | steal c v => exact absurd rfl (hsrc c v)
    | stream => rfl
    | idle c => rfl
  rw [startRecord_eq, hstolen, hnone, hvictim]
  simp only [seated, hstolen, hnone, dealWithLosers]
  rfl

/-- What giving a channel leaves alone: the pool, the levels, the zones and the wait for a pass. -/
theorem give_blocks (src : Source) (r : AnnRec) (list : List Element) (s : State) :
    (src.give r list s).apl = s.apl ∧ (src.give r list s).lmu = s.lmu ∧ (src.give r list s).stats = s.stats ∧
      (src.give r list s).zar.zones = s.zar.zones ∧ (src.give r list s).zar.passPending = s.zar.passPending := by
  unfold Source.give
  split <;> exact ⟨rfl, rfl, rfl, rfl, rfl⟩

/-- A lone record that starts on free zones holds them, each with a G taken for its class, and causes no pass (R128,
R158). -/
theorem startRecord_lone {r : AnnRec} {src : Source} {s : State} {u : ZoneSet} (list : List Element)
    (hsrc : ∀ c v, src ≠ .steal c v) (hr : s.apl.records = [r])
    (hzones : ∀ z, z < 32 → (tabGet s.zar.zones z).isSome = true ∧ (tabGet s.lmu.levels z).isSome = true)
    (hfree : ∀ z, z < 32 → u.getLsbD z = true → (s.zone z).holder = none) :
    let t := startRecord r src u u list s
    t.apl.records = [{ r with
      state := .playing, held := u, missed := 0#32, lost := 0#32, channel := src.channel
      platformSpoken := speaksPlatform s r }] ∧
    (∀ z, z < 32 → (t.zone z).holder = if u.getLsbD z then some r.annId else (s.zone z).holder) ∧
    (∀ z, z < 32 → u.getLsbD z = true →
      (t.level z).att = some (attFor (s.zone z) (s.level z).ambient r.ask.cls 0)) ∧
    t.zar.passPending = s.zar.passPending := by
  intro t
  have hfree' : ∀ z ∈ zonesOf u, (s.zone z).holder = none := fun z hz =>
    hfree z (BitVec.lt_of_getLsbD (mem_zonesOf.1 hz)) (mem_zonesOf.1 hz)
  obtain ⟨⟨v, w, hshape⟩, hholder, hatt, -⟩ := seizeZones_free r.annId r.ask.cls _ (zonesOf_nodup u) s hfree'
  obtain ⟨hapl, hlmu, -, hzs, hpass⟩ :=
    give_blocks src r list (seizeZones r.annId r.ask.cls (zonesOf u) s)
  have ht : t = _ := startRecord_free u u list hsrc hfree'
  have hzone : ∀ z, t.zone z = (seizeZones r.annId r.ask.cls (zonesOf u) s).zone z := fun z => by
    rw [ht]
    exact congrArg (fun zs => tabGetD zs z ZoneEntry.reset) hzs
  have hlevel : ∀ z, t.level z = (seizeZones r.annId r.ask.cls (zonesOf u) s).level z := fun z => by
    rw [ht]
    exact congrArg (fun l : LevelMix => tabGetD l.levels z ZoneLevel.reset) hlmu
  refine ⟨?_, fun z hz => ?_, fun z hz hu => ?_, ?_⟩
  · rw [ht]
    have hrecords : (src.give r list (seizeZones r.annId r.ask.cls (zonesOf u) s)).apl.records = [r] := by
      rw [hapl, hshape]
      exact hr
    simp only [count_apl, State.updAnn, onApl_apl, hrecords, List.map_cons, List.map_nil, if_true, AnnRec.begun]
    rw [BitVec.and_not_self]
    rfl
  · rw [hzone, hholder z (hzones z hz).1]
    simp only [mem_zonesOf]
  · rw [hlevel, hatt z (mem_zonesOf.2 hu) (hzones z hz).1 (hzones z hz).2]
  · rw [ht]
    exact hpass.trans (by rw [hshape])

/-- A live page that starts on free zones takes no channel, and is counted (R126, R128). -/
theorem startRecord_free_stream {r : AnnRec} {s : State} {u : ZoneSet}
    (hfree : ∀ z ∈ zonesOf u, (s.zone z).holder = none) (hstats : StatsSound s.stats) :
    (startRecord r .stream u u [] s).pbc = s.pbc ∧ counter (startRecord r .stream u u [] s) (.started r.ask.cls) =
      min (counter s (.started r.ask.cls) + 1) 4294967295 := by
  obtain ⟨⟨v, w, hshape⟩, -⟩ := seizeZones_free r.annId r.ask.cls _ (zonesOf_nodup u) s hfree
  rw [startRecord_free (src := .stream) u u [] nofun hfree, hshape]
  exact ⟨rfl, counter_countBy_same hstats _ 1⟩

/-- A scripted record that starts on free zones is given its IDLE channel with its list and the next grant value (R126,
R138). -/
theorem startRecord_free_idle {r : AnnRec} {s : State} {u : ZoneSet} {c : Nat} (list : List Element)
    (hfree : ∀ z ∈ zonesOf u, (s.zone z).holder = none) (hc : (tabGet s.pbc c).isSome = true) :
    let t := startRecord r (.idle c) u u list s
    let grant := (s.zar.grantCounter + 1) % 4294967296
    t.channel c = (s.channel c).start r.annId r.ask.cls r.ask.latched list grant ∧ t.grantOf c = grant ∧
      t.zar.grantCounter = grant := by
  intro t grant
  obtain ⟨⟨v, w, hshape⟩, -⟩ := seizeZones_free r.annId r.ask.cls _ (zonesOf_nodup u) s hfree
  obtain ⟨ch, hch⟩ := Option.isSome_iff_exists.1 hc
  have ht : t = _ := startRecord_free u u list nofun hfree
  rw [hshape] at ht
  have hpbc : t.pbc = tabUpd s.pbc c (Channel.start r.annId r.ask.cls r.ask.latched list grant) := by rw [ht]; rfl
  have hgrants : t.zar.grants = tabSet s.zar.grants c grant := by rw [ht]; rfl
  refine ⟨?_, ?_, by rw [ht]; rfl⟩
  · simp [State.channel, hpbc, tabGetD, tabGet_tabUpd, hch]
  · simp [State.grantOf, hgrants, tabGetD, tabGet_tabSet_same]

/-! ### The start of a record (R128) -/

theorem tryStart_stream {r : AnnRec} {n : Nat} (h : r.ask.stream = some n) (src : Source) (u taken : ZoneSet)
    (s : State) : tryStart r src u taken s = startRecord r src u taken [] s := by
  unfold tryStart
  simp only [h]

theorem tryStart_listed {r : AnnRec} {s : State} (h : r.ask.stream = none) (hne : (expandFor r s).elements ≠ [])
    (src : Source) (u taken : ZoneSet) : tryStart r src u taken s =
      startRecord r src u taken (expandFor r s).elements (noteExpansion r (expandFor r s) s) := by
  unfold tryStart
  simp only [h]
  rw [if_neg (by simpa using hne)]

theorem tryStart_empty {r : AnnRec} {s : State} (h : r.ask.stream = none) (he : (expandFor r s).elements = [])
    (src : Source) (u taken : ZoneSet) : tryStart r src u taken s =
      endRecord r.annId .aborted .emptyList false (count .emptyLists (noteExpansion r (expandFor r s) s)) := by
  unfold tryStart
  simp only [h]
  rw [if_pos (by simpa using he)]

/-- A READY record with an empty list is gone and counted, and no zone, channel or level changes (R82). -/
theorem endRecord_emptyList {r : AnnRec} {s : State} (e : Expansion) (h : s.ann r.annId = some r)
    (hs : r.state = .ready) (hh : r.held = 0#32) (hstats : StatsSound s.stats) :
    let t := endRecord r.annId .aborted .emptyList false (count .emptyLists (noteExpansion r e s))
    t.zar = s.zar ∧ t.pbc = s.pbc ∧ t.lmu = s.lmu ∧
      t.apl.records = s.apl.records.filter (fun x => x.annId != r.annId) ∧
      counter t .emptyLists = min (counter s .emptyLists + 1) 4294967295 := by
  intro t
  have hstats' : StatsSound (noteExpansion r e s).stats := (Inner.noteExpansion r e s).stats hstats
  have hann : (count .emptyLists (noteExpansion r e s)).ann r.annId = some r :=
    (noteExpansion_ann r e s r.annId).trans h
  obtain ⟨hzar, hpbc, hlmu, hrecords⟩ :=
    endRecord_waiting hann (fun hp => by rw [hs] at hp; cases hp) hh .aborted .emptyList
  have hcounted : counter t .emptyLists = min (counter s .emptyLists + 1) 4294967295 := by
    rw [← counter_emptyLists_noteExpansion r e s, ← counter_countBy_same hstats' .emptyLists 1]
    exact counter_emptyLists_endRecord hann .emptyList
  obtain ⟨f, c, hshape⟩ := noteExpansion_shape r e s
  refine ⟨hzar.trans ?_, hpbc.trans ?_, hlmu.trans ?_, hrecords.trans ?_, hcounted⟩ <;> rw [hshape] <;> rfl

/-! ### A restart request (R96) -/

/-- A record returned to READY causes a pass; its zones and its source are let go as at an end, and nothing is noticed
or counted (R96). -/
theorem restartOrPreempt_returned {why : Reason} {id : Nat} {s : State} {r : AnnRec} (h : s.ann id = some r)
    (hm : r.mayRestart s.sck.time = true) :
    let t := restartOrPreempt why id s
    let ended := endRecord id .preempted why false s
    t.zar.passPending = true ∧ t.zar.zones = ended.zar.zones ∧ t.lmu = ended.lmu ∧ t.pbc = ended.pbc ∧
      t.notices = s.notices ∧ t.stats = s.stats := by
  intro t ended
  have ht : t = _ := restartOrPreempt_returns h hm
  obtain ⟨hzar', hlmu', hpbc'⟩ : (letGo id false s).zar = (releaseZones r.held (stopSource r s)).zar ∧
      (letGo id false s).lmu = (releaseZones r.held (stopSource r s)).lmu ∧
      (letGo id false s).pbc = (releaseZones r.held (stopSource r s)).pbc := by
    unfold letGo
    simp only [h]
    exact ⟨rfl, rfl, rfl⟩
  obtain ⟨_, _, hzar, hlmu, hpbc⟩ := closeAnn_blocks id .preempted why (letGo id false s)
  have hquiet : (releaseZones r.held (stopSource r s)).notices = s.notices ∧
      (releaseZones r.held (stopSource r s)).stats = s.stats := by
    obtain ⟨_, _, _, _, hshape⟩ := release_shape r s
    rw [hshape]
    exact ⟨rfl, rfl⟩
  rw [ht]
  exact ⟨rfl, (congrArg ZoneArbiter.zones (hzar.trans hzar')).symm, (hlmu.trans hlmu').symm,
    (hpbc.trans hpbc').symm, hquiet⟩

/-! ### A pass with one record ready (R120 to R126) -/

/-- Usable zones that are free can all be taken when none is reserved (R123). -/
theorem takeable_free {s : State} {u : ZoneSet} (cls : Nat)
    (h : ∀ z, z < 32 → u.getLsbD z = true → (s.zone z).holder = none) : takeable s cls 0#32 u = u := by
  have hall : (zonesOf u).filter (fun z => zoneFree s z || zonePreemptible s cls z) = zonesOf u := by
    refine List.filter_eq_self.2 fun z hz => ?_
    have hu := mem_zonesOf.1 hz
    simp [zoneFree, h z (BitVec.lt_of_getLsbD hu) hu]
  rw [takeable, BitVec.not_zero, BitVec.and_allOnes, hall]
  refine BitVec.eq_of_getLsbD_eq fun z hz => ?_
  rw [zoneSetOf_get _ _ hz, Bool.eq_iff_iff, List.contains_iff_mem, mem_zonesOf]

/-- A READY record whose usable zones are all free tries to start on them, with either policy (R124 to R126). -/
theorem takeTurn_free {s : State} {r : AnnRec} {src : Source} (hann : s.ann r.annId = some r)
    (hready : r.state = .ready) (hu : resolveZones s r.ask &&& availableZones s ≠ 0#32)
    (hfree : ∀ z, z < 32 → (resolveZones s r.ask &&& availableZones s).getLsbD z = true → (s.zone z).holder = none)
    (hsrc : sourceFor s r = some src) : (takeTurn r.annId 0#32 s).2 =
      tryStart r src (resolveZones s r.ask &&& availableZones s) (resolveZones s r.ask &&& availableZones s) s := by
  unfold takeTurn
  simp only [hann, hready, ne_eq, not_true_eq_false, if_false, hu, takeable_free r.ask.cls hfree, if_true, hsrc]
  cases r.ask.policy <;> rfl

theorem passChain_settled {s : State} (h : s.zar.passPending = false) (k : Nat) : passChain k s = s := by
  cases k with
  | zero => rfl
  | succ k => rw [passChain, if_neg (by simp [h])]

/-- A state whose waiting causes of a pass have been taken (R120). -/
def State.causesTaken (s : State) : State := s.onZar fun a => { a with passPending := false }

/-- ARBITRATION_PASS with a lone record that is READY on free zones: the record tries to start, and further passes are
made while causes arise (R120, R121). -/
theorem exec_arbitrationPass_lone {s : State} {r : AnnRec} {src : Source} (hp : s.zar.passPending = true)
    (hr : s.apl.records = [r]) (hready : r.state = .ready) (hu : resolveZones s r.ask &&& availableZones s ≠ 0#32)
    (hfree : ∀ z, z < 32 → (resolveZones s r.ask &&& availableZones s).getLsbD z = true → (s.zone z).holder = none)
    (hsrc : sourceFor s r = some src) : exec .arbitrationPass s = .next (passChain 289
      (tryStart r src (resolveZones s r.ask &&& availableZones s) (resolveZones s r.ask &&& availableZones s)
        s.causesTaken)) := by
  have horder : passOrder s.causesTaken = [r.annId] := by
    have : s.causesTaken.apl.records = [r] := hr
    simp [passOrder, this, hready, sortBy, insertBy]
  have hann : s.causesTaken.ann r.annId = some r := by
    have : s.causesTaken.apl.records = [r] := hr
    simp [State.ann, this]
  have hturn := takeTurn_free (s := s.causesTaken) hann hready hu hfree hsrc
  have hpass : onePass s.causesTaken = (takeTurn r.annId 0#32 s.causesTaken).2 := by
    rw [onePass, horder]
    rfl
  show Host.Outcome.next (passChain (289 + 1) s) = _
  rw [passChain, if_pos hp]
  change Host.Outcome.next (passChain 289 (onePass s.causesTaken)) = _
  rw [hpass, hturn]
  rfl

/-- A scripted record finds the IDLE channel with the lowest number (R126). -/
theorem sourceFor_idle {s : State} {r : AnnRec} {c : Nat} (hstream : r.ask.stream = none) (hc : c < 6)
    (hidle : (s.channel c).state = .idle) (hfirst : ∀ d, d < c → (s.channel d).state ≠ .idle) :
    sourceFor s r = some (.idle c) := by
  have : idleChannel s = some c := by
    rw [idleChannel, List.find?_range_eq_some]
    exact ⟨by simp [hidle], by simpa using hc, fun d hd => by simpa using hfirst d hd⟩
  unfold sourceFor
  simp only [hstream, this]

end Sys2Proof.Machine

open Sys2Proof Sys2Proof.Machine

/-- Settles O51: the pass of a lone record, then an expansion's notices, a start, the records at a start, and a restart
request, each from its own lemmas. -/
theorem aLoneRecordStarts : Obligations.ALoneRecordStarts := by
  unfold Obligations.ALoneRecordStarts
  refine ⟨fun s => ⟨fun hp => ?_, fun r hp hr hready hstats => ?_⟩, fun s r e => ?_, fun s r src u taken => ?_,
    fun s r src u taken list hann hv => ?_, fun why id s r hann => ?_⟩
  · exact congrArg Host.Outcome.next (passChain_settled hp 290)
  · intro u hu hzones hfree started
    have hfree' : ∀ z ∈ zonesOf u, (s.zone z).holder = none := fun z hz =>
      hfree z (BitVec.lt_of_getLsbD (mem_zonesOf.1 hz)) (mem_zonesOf.1 hz)
    refine ⟨fun n hn => ?_, fun c hn hc6 hc hidle hfirst hne => ?_⟩
    · have hsrc : sourceFor s r = some .stream := by unfold sourceFor; simp only [hn]
      obtain ⟨hrecords, hholder, hatt, hpass⟩ := startRecord_lone (s := s.causesTaken) (src := .stream) (u := u) []
        nofun hr hzones hfree
      obtain ⟨hpbc, hcount⟩ := startRecord_free_stream (r := r) (s := s.causesTaken) hfree' hstats
      refine ⟨startRecord r .stream u u [] s.causesTaken, ?_, ⟨hrecords, hholder, hatt, hpass⟩, hpbc, hcount⟩
      rw [exec_arbitrationPass_lone hp hr hready hu hfree hsrc, tryStart_stream hn]
      exact congrArg Host.Outcome.next (passChain_settled hpass 289)
    · have hsrc : sourceFor s r = some (.idle c) := sourceFor_idle hn hc6 hidle hfirst
      obtain ⟨f, k, hshape⟩ := noteExpansion_shape r (expandFor r s) s.causesTaken
      have hlisted := tryStart_listed (s := s.causesTaken) hn hne (.idle c) u u
      change _ = startRecord r (.idle c) u u (expandFor r s).elements
        (noteExpansion r (expandFor r s) s.causesTaken) at hlisted
      rw [hshape] at hlisted
      obtain ⟨hrecords, hholder, hatt, hpass⟩ := startRecord_lone
        (s := { s.causesTaken with notices := f, stats := k }) (src := .idle c) (u := u) (expandFor r s).elements
        nofun hr hzones hfree
      obtain ⟨hchannel, hgrant, hcounter⟩ := startRecord_free_idle (r := r)
        (s := { s.causesTaken with notices := f, stats := k }) (expandFor r s).elements hfree' hc
      refine ⟨_, ?_, ⟨hrecords, hholder, hatt, hpass⟩, hchannel, hgrant, hcounter⟩
      rw [exec_arbitrationPass_lone hp hr hready hu hfree hsrc, hlisted]
      exact congrArg Host.Outcome.next (passChain_settled hpass 289)
  · intro script counted lacking cut
    refine ⟨fun h1 h2 => ?_, fun m h1 h2 => ?_, fun i h1 h2 => ?_, fun m i h1 h2 => ?_⟩ <;>
      simp only [noteExpansion, h1, h2] <;> rfl
  · intro e noted t
    refine ⟨fun n hn => tryStart_stream hn .., fun hn hne => tryStart_listed hn hne .., fun hn he => ?_⟩
    have ht : t = _ := tryStart_empty hn he src u taken
    refine ⟨ht, fun hann hready hheld hstats => ?_⟩
    rw [ht]
    exact endRecord_emptyList e hann hready hheld hstats
  · intro t again returned seized
    have hagain : ∀ x : AnnRec, (again x → x.afterRestart s.sck.time = some (returned x)) ∧
        (¬again x → x.afterRestart s.sck.time = none) := fun x =>
      ⟨fun h => if_pos ((x.mayRestart_iff _).2 h), fun h => if_neg (mt (x.mayRestart_iff _).1 h)⟩
    refine ⟨?_, fun c v x hsrc hx => ?_, fun other x hne hvo hx => ?_⟩
    · refine (startRecord_ann_self u taken list hv).trans ?_
      rw [hann]
      cases src <;> rfl
    · subst hsrc
      have hvictim : t.ann v = x.afterRestart s.sck.time :=
        (startRecord_ann_victim u taken list (hv c v rfl)).trans (by rw [hx]; rfl)
      rw [hvictim]
      exact hagain x
    · have hother := startRecord_ann_other (r := r) (s := s) u taken list hne hvo
      rw [hx] at hother
      change t.ann other =
        if seized other = 0#32 then some x else (x.robbed (seized other)).afterLoss s.sck.time at hother
      refine ⟨fun h0 => hother.trans (if_pos h0), fun h0 hkeeps => ?_, fun h0 hplays hlost => ?_⟩
      · rw [hother, if_neg h0]
        exact if_neg fun h => hkeeps.elim (fun hs => hs h.1) fun hh => hh h.2
      · have hdealt : t.ann other = x.afterRestart s.sck.time := by
          rw [hother, if_neg h0, AnnRec.afterLoss, if_pos ⟨hplays, hlost⟩]
          rfl
        rw [hdealt]
        exact hagain x
  · intro t ended
    exact ⟨fun h => restartOrPreempt_returned hann ((r.mayRestart_iff _).2 h), fun h =>
      restartOrPreempt_ends hann (Bool.eq_false_iff.2 (mt (r.mayRestart_iff _).1 h))⟩
end

section
/-! The pool kept sound, and the creation of a record (R86 to R89, R92). -/

namespace Sys2Proof.Machine

/-! ### The next ann_id (R87) -/

/-- The search for a free ann_id counts on from the last assigned, past values in use alone. -/
theorem nextId_eq_iterate {used : List Nat} {fuel last : Nat} (hfuel : 0 < fuel)
    (hfree : nextId used fuel last ∉ used) :
    ∃ k, k < fuel ∧ nextId used fuel last = nextValue^[k + 1] last ∧ ∀ j, j < k → nextValue^[j + 1] last ∈ used := by
  induction fuel generalizing last with
  | zero => exact absurd hfuel (Nat.lt_irrefl 0)
  | succ n ih =>
    have hstep : nextId used (n + 1) last =
        if used.contains (nextValue last) then nextId used n (nextValue last) else nextValue last := rfl
    rw [hstep] at hfree ⊢
    by_cases hused : nextValue last ∈ used
    · rw [if_pos (by simpa using hused)] at hfree ⊢
      have hn : 0 < n := Nat.pos_of_ne_zero fun h0 => by subst h0; exact hfree hused
      obtain ⟨k, hk, hid, hpast⟩ := ih hn hfree
      refine ⟨k + 1, Nat.succ_lt_succ hk, hid, fun j hj => ?_⟩
      cases j with
      | zero => exact hused
      | succ j => exact hpast j (Nat.lt_of_succ_lt_succ hj)
    · rw [if_neg (by simpa using hused)]
      exact ⟨0, Nat.succ_pos n, rfl, fun j hj => absurd hj (Nat.not_lt_zero j)⟩

/-! ### A creation as its record written and its two judgements (R88, R89, R92) -/

/-- The state in which a record of an ann_id has been written as asked and counted (R87, R88). -/
def withNew (a : Ask) (id : Nat) (s : State) : State :=
  count (.created a.cls) (s.onApl fun p => { p with
    records := insertBy (fun x y => decide (x.seq ≤ y.seq)) (newRecord a id p.counter) p.records
    lastId := id
    counter := (p.counter + 1) % 4294967296 })

section
variable {a : Ask} {s t : State} {id : Nat}

theorem createRecord_eq (h : createRecord a s = some (id, t)) :
    t = expireAnn s.sck.time id (leaveQueued s.sck.time id (withNew a id s)) := by
  unfold createRecord at h
  simp only [Option.ite_none_left_eq_some, Option.some.injEq, Prod.mk.injEq] at h
  obtain ⟨-, hid, ht⟩ := h
  rw [hid] at ht
  exact ht.symm

theorem withNew_ann (hfresh : ∀ r ∈ s.apl.records, r.annId ≠ id) :
    (withNew a id s).ann id = some (newRecord a id s.apl.counter) :=
  (insertBy_find (r := newRecord a id s.apl.counter) id hfresh).trans (if_pos rfl)

theorem counter_withNew (h : StatsSound s.stats) (a : Ask) (id : Nat) :
    counter (withNew a id s) (.created a.cls) = min (counter s (.created a.cls) + 1) 4294967295 :=
  counter_countBy_same (s := s.onApl _) h _ 1

/-- Where the new record's latest has not passed, a creation is its record written and judged for leaving QUEUED. -/
theorem createRecord_alive (hp : PoolSound s.apl) (h : createRecord a s = some (id, t))
    (hlatest : ∀ l, a.latest = some l → s.sck.time ≤ min l 107999) :
    t = leaveQueued s.sck.time id (withNew a id s) := by
  obtain ⟨-, hfresh, -⟩ := createRecord_ann hp h
  rw [createRecord_eq h, expireAnn]
  cases hr : (leaveQueued s.sck.time id (withNew a id s)).ann id with
  | none => rfl
  | some r =>
    rw [leaveQueued_ann, if_pos rfl, withNew_ann hfresh, Option.map_some, Option.some.injEq] at hr
    have hask : r.ask.latest = a.latest.map clampTime := by
      rw [← hr]
      split
      · split <;> rfl
      · rfl
    refine if_neg ?_
    unfold AnnRec.expired
    rw [hask]
    cases hl : a.latest with
    | none => simp
    | some l => simpa [clampTime, Config.maxTime] using fun _ => hlatest l hl

end

/-! ### What the judgements count and notice (R89, R92, R185) -/

/-- A notice raised depends on the notices alone. -/
theorem raise_notices_congr {s t : State} (h : t.notices = s.notices) (n : Notice) :
    (raise n t).notices = (raise n s).notices := by
  unfold raise
  rw [h]
  split
  · simp only
    split <;> simp only [count_notices, onNotices_notices, h]
  · exact h

theorem letGo_quiet (id : Nat) (ended : Bool) (s : State) :
    (letGo id ended s).notices = s.notices ∧ (letGo id ended s).stats = s.stats := by
  cases h : s.ann id with
  | none => rw [letGo_none h]; exact ⟨rfl, rfl⟩
  | some r =>
    obtain ⟨_, _, _, _, hs⟩ := letGo_shape h ended
    rw [hs]
    exact ⟨rfl, rfl⟩

/-- An end counts no creation. -/
theorem counter_created_endRecord (cls id : Nat) (o : AnnOutcome) (why : Reason) (ended : Bool) (s : State)
    (hcls : cls ≤ 3) : counter (endRecord id o why ended s) (.created cls) = counter s (.created cls) := by
  have hlet : counter (letGo id ended s) (.created cls) = counter s (.created cls) := by
    unfold counter
    rw [(letGo_quiet id ended s).2]
  have hother : ∀ c, (Counter.created cls).index ≠ (Counter.ended c o).index := fun c => by
    cases o <;> simp only [Counter.index] <;> omega
  unfold endRecord closeAnn
  split
  · exact hlet
  · exact (counter_countBy_other (hother _) 1 _).trans
      ((counter_raise (by simp only [Counter.index]; omega) ..).trans hlet)

theorem counter_created_leaveQueued {cls : Nat} (hcls : cls ≤ 3) (now id : Nat) (s : State) :
    counter (leaveQueued now id s) (.created cls) = counter s (.created cls) := by
  unfold leaveQueued
  split
  · rfl
  · split
    · split
      · exact counter_raise (by simp only [Counter.index]; omega) ..
      · rfl
    · rfl

theorem counter_created_expireAnn {cls : Nat} (hcls : cls ≤ 3) (now id : Nat) (s : State) :
    counter (expireAnn now id s) (.created cls) = counter s (.created cls) := by
  unfold expireAnn
  split
  · rfl
  · split
    · exact counter_created_endRecord cls _ _ _ _ _ hcls
    · rfl

theorem needsConfirmation_iff (s : State) (a : Ask) : needsConfirmation s a = true ↔
    a.confirm = .always ∨ (a.confirm = .ifProvisional ∧ ∃ c, s.callOf a.call = some c ∧ c.provisional = true) := by
  unfold needsConfirmation
  cases a.confirm <;> cases s.callOf a.call <;> simp

end Sys2Proof.Machine

open Sys2Proof Sys2Proof.Machine

/-- Settles O8, from what every row keeps sound. -/
theorem stepKeepsPool : Obligations.StepKeepsPool := by
  unfold Obligations.StepKeepsPool
  intro s t hs h
  unfold step at h
  split at h
  · cases h; exact hs
  · exact (exec_soundKept h).pool hs

/-- Settles O40: the search for an ann_id, and what a creation and a reset make of the pool's counts. -/
theorem newRecordsTakeTheNextFreeId : Obligations.NewRecordsTakeTheNextFreeId := by
  unfold Obligations.NewRecordsTakeTheNextFreeId
  refine ⟨fun a s t id hp h => ?_, fun straps cause keep s => ⟨rfl, rfl⟩⟩
  obtain ⟨hid, hfresh, hlo, hhi, -, hann⟩ := createRecord_ann hp h
  obtain ⟨-, -, hlast, hcounter⟩ := createRecord_blocks h
  have hroom : s.apl.records.length < 96 := (createRecord_isSome a s).1 (by simp [h])
  have hunused : id ∉ s.apl.records.map fun r => r.annId := by simpa using hfresh
  rw [hid] at hunused
  obtain ⟨k, hk, heq, hpast⟩ := nextId_eq_iterate (Nat.succ_pos _) hunused
  refine ⟨⟨k, by omega, hid.trans heq, hfresh, fun j hj => ?_⟩, hlo, hhi, hlast, hcounter, fun r hr => ?_⟩
  · obtain ⟨r, hr, he⟩ := List.mem_map.1 (hpast j hj)
    exact ⟨r, hr, he⟩
  · rw [hann] at hr
    simp only [Option.ite_none_left_eq_some, Option.some.injEq] at hr
    rw [← hr.2]
    split
    · split <;> rfl
    · rfl

/-- Settles O41: a creation is its record written, judged for leaving QUEUED, and judged for expiry. -/
theorem createdRecordsAreJudgedAtOnce : Obligations.CreatedRecordsAreJudgedAtOnce := by
  unfold Obligations.CreatedRecordsAreJudgedAtOnce
  intro a s hp
  constructor
  · rw [← Option.not_isSome_iff_eq_none, createRecord_isSome]
    exact Nat.not_lt
  · intro id t h fresh
    obtain ⟨-, hfresh, -, -, hothers, hann⟩ := createRecord_ann hp h
    obtain ⟨hcrg, htru, -, -⟩ := createRecord_blocks h
    have hwritten : (withNew a id s).ann id = some fresh := withNew_ann hfresh
    have hneeds : needsConfirmation (withNew a id s) fresh.ask = needsConfirmation s a := rfl
    refine ⟨hothers, hcrg, htru, (Inner.createRecord h).sck, fun hstats hcls => ?_, needsConfirmation_iff s a,
      fun ⟨l, hl, hpassed⟩ => ?_, fun hlatest => ⟨fun hearly => ?_, fun hdue hn => ?_, fun hdue hn => ?_⟩⟩
    · rw [createRecord_eq h, counter_created_expireAnn hcls, counter_created_leaveQueued hcls, counter_withNew hstats]
    · rw [hann]
      refine if_pos ?_
      have hpast : clampTime l < s.sck.time := hpassed
      split
      · split <;> simp [AnnRec.expired, newRecord, hl, hpast]
      · simp [AnnRec.expired, newRecord, hl, hpast]
    · have ht := (createRecord_alive hp h hlatest).trans (leaveQueued_stays hwritten (.inr hearly))
      rw [ht]
      exact ⟨hwritten, rfl⟩
    · have ht := (createRecord_alive hp h hlatest).trans (leaveQueued_due hwritten rfl hdue)
      rw [hneeds, if_pos hn] at ht
      rw [ht]
      refine ⟨?_, raise_notices_congr (s := s) (by rfl) _⟩
      rw [State.ann, raise_apl]
      exact (updAnn_ann (by intro _; rfl) id).trans ((if_pos rfl).trans (by rw [hwritten]; rfl))
    · have ht := (createRecord_alive hp h hlatest).trans (leaveQueued_due hwritten rfl hdue)
      rw [hneeds, if_neg (by simp [hn])] at ht
      rw [ht]
      refine ⟨?_, rfl, rfl⟩
      exact (updAnn_ann (by intro _; rfl) id).trans ((if_pos rfl).trans (by rw [hwritten]; rfl))
end

section
/-! SUPPORT. What the end of a record does to its source, its zones and their levels (R94, R132, R148, R158, R160). -/

namespace Sys2Proof.Machine

/-! ### Levels of listed zones -/

theorem updLevel_level_listed {s : State} {z : Nat} (hl : (tabGet s.lmu.levels z).isSome = true) (x : Nat)
    (f : ZoneLevel → ZoneLevel) : (s.updLevel x f).level z = if z = x then f (s.level z) else s.level z := by
  rw [updLevel_level]
  obtain ⟨v, hv⟩ := Option.isSome_iff_exists.1 hl
  split
  · next he =>
    subst he
    rw [hv, level_of_listed hv]
    rfl
  · rfl

theorem updLevel_listed (x z : Nat) (f : ZoneLevel → ZoneLevel) (s : State) :
    (tabGet (s.updLevel x f).lmu.levels z).isSome = (tabGet s.lmu.levels z).isSome := tabUpd_isSome ..

/-- A change of levels that keeps each G keeps the attenuations applied. -/
theorem appliedAtt_updLevel {s : State} {z : Nat} (hl : (tabGet s.lmu.levels z).isSome = true) (x : Nat)
    {f : ZoneLevel → ZoneLevel} (hf : ∀ l, (f l).att = l.att) : appliedAtt (s.updLevel x f) z = appliedAtt s z := by
  have hatt : ((s.updLevel x f).level z).att = (s.level z).att := by
    rw [updLevel_level_listed hl]
    split
    · exact hf _
    · rfl
  unfold appliedAtt
  rw [hatt]
  rfl

/-- A tail stands in each zone it is placed in, at the attenuation that the zone was heard at (R160). -/
theorem placeTails_level (src : TailSource) (l : List Nat) {s : State} {z : Nat}
    (hl : (tabGet s.lmu.levels z).isSome = true) : (placeTails src l s).level z =
      if z ∈ l then { s.level z with tail := some ⟨src, appliedAtt s z, 0⟩ } else s.level z := by
  induction l generalizing s with
  | nil => rfl
  | cons x rest ih =>
    rw [placeTails, ih ((updLevel_listed ..).trans hl), appliedAtt_updLevel hl x (by intro _; rfl),
      updLevel_level_listed hl]
    by_cases hx : z = x
    · subst hx
      simp only [if_true, List.mem_cons, true_or]
      split <;> rfl
    · simp only [hx, if_false, List.mem_cons, false_or]

theorem placeTails_listed (src : TailSource) (l : List Nat) (s : State) (z : Nat) :
    (tabGet (placeTails src l s).lmu.levels z).isSome = (tabGet s.lmu.levels z).isSome := by
  induction l generalizing s with
  | nil => rfl
  | cons x rest ih => exact (ih _).trans (updLevel_listed ..)

/-- G and the release age of a zone whose holder becomes none start afresh, and its other values stay (R132, R156). -/
theorem clearHolders_level_eq (l : List Nat) {s : State} {z : Nat} (hl : (tabGet s.lmu.levels z).isSome = true) :
    (clearHolders l s).level z =
      if z ∈ l then { s.level z with att := none, releaseAge := 0 } else s.level z := by
  induction l generalizing s with
  | nil => rfl
  | cons x rest ih =>
    have hl' : (tabGet (s.updZone x fun e => { e with holder := none }).lmu.levels z).isSome = true := hl
    rw [clearHolders, ih ((updLevel_listed ..).trans hl'), updLevel_level_listed hl']
    by_cases hx : z = x
    · subst hx
      simp only [if_true, List.mem_cons, true_or]
      split <;> rfl
    · simp only [hx, if_false, List.mem_cons, false_or]
      rfl

/-! ### Zones released (R132) -/

theorem releaseZones_eq {zones : ZoneSet} (h : zones ≠ 0#32) (s : State) :
    releaseZones zones s = causePass (clearHolders (zonesOf zones) s) := if_neg h

theorem releaseZones_level (zones : ZoneSet) {s : State} {z : Nat} (hl : (tabGet s.lmu.levels z).isSome = true) :
    (releaseZones zones s).level z =
      if zones.getLsbD z then { s.level z with att := none, releaseAge := 0 } else s.level z := by
  by_cases h0 : zones = 0#32
  · subst h0
    simp [releaseZones]
  · rw [releaseZones_eq h0]
    refine (clearHolders_level_eq (zonesOf zones) hl).trans ?_
    simp only [mem_zonesOf]

theorem releaseZones_holder {zones : ZoneSet} {z : Nat} (h : zones.getLsbD z = true) (s : State) :
    ((releaseZones zones s).zone z).holder = none := by
  have h0 : zones ≠ 0#32 := fun h0 => by simp [h0] at h
  rw [releaseZones_eq h0]
  exact (clearHolders_zone (zonesOf zones) s z).1 (mem_zonesOf.2 h)

theorem releaseZones_zone {zones : ZoneSet} {z : Nat} (h : zones.getLsbD z = false) (s : State) :
    (releaseZones zones s).zone z = s.zone z := by
  unfold releaseZones
  split
  · rfl
  · exact (clearHolders_zone (zonesOf zones) s z).2.1 (by simp [mem_zonesOf, h])

theorem releaseZones_pass {zones : ZoneSet} (h : zones ≠ 0#32) (s : State) :
    (releaseZones zones s).zar.passPending = true := by
  rw [releaseZones_eq h]
  rfl

theorem releaseZones_pass_keeps {s : State} (h : s.zar.passPending = true) (zones : ZoneSet) :
    (releaseZones zones s).zar.passPending = true := by
  by_cases h0 : zones = 0#32
  · simpa [releaseZones, h0] using h
  · exact releaseZones_pass h0 s

theorem releaseZones_pbc (zones : ZoneSet) (s : State) : (releaseZones zones s).pbc = s.pbc := by
  obtain ⟨_, _, _, h⟩ := releaseZones_shape zones s
  rw [h]

/-! ### Sources stopped (R148, R160) -/

section
variable {r : AnnRec} {s : State}

theorem stopSource_waiting (h : r.state ≠ .playing) (s : State) : stopSource r s = s := by
  unfold stopSource
  split
  · next hp _ => exact absurd hp h
  · next hp _ _ => exact absurd hp h
  · rfl

theorem stopSource_stream {n : Nat} (hp : r.state = .playing) (hn : r.ask.stream = some n) (s : State) :
    stopSource r s = causePass (placeTails (.stream n 256) (zonesOf r.held) s) := by
  simp only [stopSource, hp, hn]

theorem stopSource_channel {c : Nat} (hp : r.state = .playing) (hn : r.ask.stream = none) (hc : r.channel = some c)
    (s : State) : stopSource r s = causePass (fadeChannel c r.held s) := by
  simp only [stopSource, hp, hn, hc]

theorem stopSource_zone (r : AnnRec) (s : State) (z : Nat) : (stopSource r s).zone z = s.zone z := by
  obtain ⟨_, _, _, h⟩ := stopSource_shape r s
  rw [h]
  rfl

theorem stopSource_listed (r : AnnRec) (s : State) (z : Nat) :
    (tabGet (stopSource r s).lmu.levels z).isSome = (tabGet s.lmu.levels z).isSome := by
  unfold stopSource
  split
  · exact placeTails_listed ..
  · exact placeTails_listed ..
  · rfl

theorem stopSource_pass_keeps (h : s.zar.passPending = true) (r : AnnRec) :
    (stopSource r s).zar.passPending = true := by
  unfold stopSource
  split
  · rfl
  · rfl
  · exact h

theorem fadeChannel_level (c : Nat) (zones : ZoneSet) {z : Nat} (hl : (tabGet s.lmu.levels z).isSome = true) :
    (fadeChannel c zones s).level z = if zones.getLsbD z then
      { s.level z with tail := some ⟨.samples (s.channel c).tailSamples, appliedAtt s z, 0⟩ } else s.level z := by
  refine (placeTails_level (.samples (s.channel c).tailSamples) (zonesOf zones) hl).trans ?_
  simp only [mem_zonesOf]

theorem updChannel_channel {c : Nat} {ch : Channel} (h : tabGet s.pbc c = some ch) (f : Channel → Channel) (d : Nat) :
    (s.updChannel c f).channel d = if d = c then f ch else s.channel d := by
  simp only [State.channel, State.updChannel, onPbc_pbc, tabGetD, tabGet_tabUpd, h]
  split <;> rfl

theorem channel_of_listed {c : Nat} {ch : Channel} (h : tabGet s.pbc c = some ch) : s.channel c = ch := by
  simp [State.channel, tabGetD, h]

theorem fadeChannel_channel {c : Nat} {ch : Channel} (h : tabGet s.pbc c = some ch) (zones : ZoneSet) (d : Nat) :
    (fadeChannel c zones s).channel d = if d = c then ch.toIdle else s.channel d := by
  obtain ⟨v, hs⟩ := placeTails_shape (.samples (s.channel c).tailSamples) (zonesOf zones) s
  unfold fadeChannel
  rw [hs]
  exact updChannel_channel (s := { s with lmu := { s.lmu with levels := v } }) h _ d

/-- The samples that a channel hands over at a stop (R148). -/
theorem tailSamples_eq (ch : Channel) : ch.tailSamples =
    if ch.state = .prefill ∨ ch.state = .gap then List.replicate 256 0
    else ((ch.fifo.take 256).map fun x => x.sample) ++ List.replicate (256 - ch.fifo.length) 0 := by
  have hpad : 256 - min 256 ch.fifo.length = 256 - ch.fifo.length := by omega
  unfold Channel.tailSamples
  cases ch.state <;> simp [padSamples, hpad]

end

/-! ### The end of a record as a release and a close (R94) -/

/-- A record's source stopped, unless it has ended, and its zones released (R94, steps 1 and 2). -/
def released (r : AnnRec) (sourceEnded : Bool) (s : State) : State :=
  releaseZones r.held (if sourceEnded then s else stopSource r s)

section
variable {id : Nat} {s : State} {r : AnnRec}

theorem letGo_eq (h : s.ann id = some r) (ended : Bool) : letGo id ended s = (released r ended s).updAnn id
    fun r => { r with held := 0#32, missed := 0#32, lost := 0#32, channel := none } := by
  unfold letGo
  simp only [h]
  rfl

theorem closeAnn_eq (h : s.ann id = some r) (o : AnnOutcome) (why : Reason) : closeAnn id o why s =
    State.dropAnn id (count (.ended r.ask.cls o)
      (raise (.outcome id o why (r.ask.call.map Prod.snd) r.ask.cls) s)) := by
  unfold closeAnn
  rw [h]

theorem letGo_ann_self (h : s.ann id = some r) (ended : Bool) : (letGo id ended s).ann id =
    some { r with held := 0#32, missed := 0#32, lost := 0#32, channel := none } := by
  rw [letGo_ann h, if_pos rfl]

theorem endRecord_eq (h : s.ann id = some r) (o : AnnOutcome) (why : Reason) (ended : Bool) :
    endRecord id o why ended s = State.dropAnn id (count (.ended r.ask.cls o)
      (raise (.outcome id o why (r.ask.call.map Prod.snd) r.ask.cls) (letGo id ended s))) :=
  closeAnn_eq (letGo_ann_self h ended) o why

/-- The zones, levels and channels after an end are those after its release. -/
theorem endRecord_released (h : s.ann id = some r) (o : AnnOutcome) (why : Reason) (ended : Bool) :
    (endRecord id o why ended s).zar = (released r ended s).zar ∧
      (endRecord id o why ended s).lmu = (released r ended s).lmu ∧
      (endRecord id o why ended s).pbc = (released r ended s).pbc := by
  obtain ⟨-, -, hzar, hlmu, hpbc⟩ := closeAnn_blocks id o why (letGo id ended s)
  rw [letGo_eq h] at hzar hlmu hpbc
  unfold endRecord
  rw [letGo_eq h]
  exact ⟨hzar, hlmu, hpbc⟩

theorem endRecord_zone (h : s.ann id = some r) (o : AnnOutcome) (why : Reason) (ended : Bool) (z : Nat) :
    (endRecord id o why ended s).zone z = (released r ended s).zone z :=
  congrArg (fun a : ZoneArbiter => tabGetD a.zones z ZoneEntry.reset) (endRecord_released h o why ended).1

theorem endRecord_level (h : s.ann id = some r) (o : AnnOutcome) (why : Reason) (ended : Bool) (z : Nat) :
    (endRecord id o why ended s).level z = (released r ended s).level z :=
  congrArg (fun l : LevelMix => tabGetD l.levels z ZoneLevel.reset) (endRecord_released h o why ended).2.1

theorem endRecord_channel (h : s.ann id = some r) (o : AnnOutcome) (why : Reason) (ended : Bool) (c : Nat) :
    (endRecord id o why ended s).channel c = (released r ended s).channel c :=
  congrArg (fun t : Tab Channel => tabGetD t c Channel.reset) (endRecord_released h o why ended).2.2

/-! ### Its zones, levels and channels -/

theorem released_holder (ended : Bool) {z : Nat} (hz : r.held.getLsbD z = true) (s : State) :
    ((released r ended s).zone z).holder = none := releaseZones_holder hz _

theorem released_zone (ended : Bool) {z : Nat} (hz : r.held.getLsbD z = false) (s : State) :
    (released r ended s).zone z = s.zone z := by
  unfold released
  rw [releaseZones_zone hz]
  split
  · rfl
  · exact stopSource_zone r s z

theorem released_pass (ended : Bool) (hheld : r.held ≠ 0#32) (s : State) :
    (released r ended s).zar.passPending = true := releaseZones_pass hheld _

theorem released_pass_keeps (h : s.zar.passPending = true) (r : AnnRec) (ended : Bool) :
    (released r ended s).zar.passPending = true := by
  refine releaseZones_pass_keeps ?_ _
  split
  · exact h
  · exact stopSource_pass_keeps h r

/-- A zone's level after a release: G and the release age afresh where it was held, and a tail where the stop of the
source placed one. -/
theorem released_level (ended : Bool) {z : Nat} (hl : (tabGet s.lmu.levels z).isSome = true) :
    (released r ended s).level z =
      let stopped := (if ended then s else stopSource r s).level z
      if r.held.getLsbD z then { stopped with att := none, releaseAge := 0 } else stopped := by
  refine releaseZones_level r.held ?_
  split
  · exact hl
  · exact (stopSource_listed r s z).trans hl

theorem released_tail (ended : Bool) {z : Nat} (hl : (tabGet s.lmu.levels z).isSome = true) :
    ((released r ended s).level z).tail = ((if ended then s else stopSource r s).level z).tail := by
  rw [released_level ended hl]
  dsimp only
  split <;> rfl

/-- The tails that a stopped live page leaves (R148, R160). -/
theorem released_tail_stream {n z : Nat} (hp : r.state = .playing) (hn : r.ask.stream = some n)
    (hl : (tabGet s.lmu.levels z).isSome = true) : ((released r false s).level z).tail =
      if r.held.getLsbD z then some ⟨.stream n 256, appliedAtt s z, 0⟩ else (s.level z).tail := by
  have hlevel : (stopSource r s).level z = (placeTails (.stream n 256) (zonesOf r.held) s).level z := by
    rw [stopSource_stream hp hn]
    rfl
  rw [released_tail false hl, if_neg (by decide), hlevel, placeTails_level _ _ hl]
  simp only [mem_zonesOf]
  split <;> rfl

/-- The tails that a stopped channel leaves (R148, R160). -/
theorem released_tail_channel {c z : Nat} (hp : r.state = .playing) (hn : r.ask.stream = none) (hc : r.channel = some c)
    (hl : (tabGet s.lmu.levels z).isSome = true) : ((released r false s).level z).tail =
      if r.held.getLsbD z then some ⟨.samples (s.channel c).tailSamples, appliedAtt s z, 0⟩ else (s.level z).tail := by
  have hlevel : (stopSource r s).level z = (fadeChannel c r.held s).level z := by
    rw [stopSource_channel hp hn hc]
    rfl
  rw [released_tail false hl, if_neg (by decide), hlevel, fadeChannel_level _ _ hl]
  split <;> rfl

/-- The channels after a stop of one: it is IDLE with its burst still in flight, and the others stay (R148). -/
theorem released_channel {c : Nat} {ch : Channel} (hp : r.state = .playing) (hn : r.ask.stream = none)
    (hc : r.channel = some c) (hch : tabGet s.pbc c = some ch) (d : Nat) :
    (released r false s).channel d = if d = c then ch.toIdle else s.channel d := by
  have hpbc : (released r false s).pbc = (fadeChannel c r.held s).pbc := by
    rw [released, releaseZones_pbc, if_neg (by decide), stopSource_channel hp hn hc]
    rfl
  rw [← fadeChannel_channel hch r.held d]
  exact congrArg (fun t : Tab Channel => tabGetD t d Channel.reset) hpbc

/-- A stop of a source is a cause of a pass (R120). -/
theorem released_pass_playing (hp : r.state = .playing) (hsrc : r.ask.stream = none → r.channel ≠ none) (s : State) :
    (released r false s).zar.passPending = true := by
  refine releaseZones_pass_keeps ?_ _
  rw [if_neg (by decide)]
  cases hn : r.ask.stream with
  | some n => rw [stopSource_stream hp hn]; rfl
  | none =>
    obtain ⟨c, hc⟩ := Option.ne_none_iff_exists'.1 (hsrc hn)
    rw [stopSource_channel hp hn hc]
    rfl

/-! ### Its notice and its counter (R94, R184, R185) -/

theorem raise_stats_congr {t : State} (hn : t.notices = s.notices) (hs : t.stats = s.stats) (n : Notice) :
    (raise n t).stats = (raise n s).stats := by
  unfold raise
  rw [hn]
  split
  · simp only
    split <;> simp only [count, countBy, onStats_stats, onNotices_stats, hs]
  · exact hs

/-- A notice that is not disabled joins an empty FIFO, and nothing is counted (R184). -/
theorem raise_empty {n : Notice} (hfifo : s.notices.fifo = []) (hen : noticeEnabled s.notices.mask n = true) :
    raise n s = s.onNotices fun f => { f with fifo := [n] } := by
  simp [raise, hen, hfifo, offerNotice, markerOf, Config.noticeSize]

theorem endRecord_notices (h : s.ann id = some r) (o : AnnOutcome) (why : Reason) (ended : Bool) :
    (endRecord id o why ended s).notices =
      (raise (.outcome id o why (r.ask.call.map Prod.snd) r.ask.cls) s).notices := by
  rw [endRecord_eq h]
  exact raise_notices_congr (letGo_quiet id ended s).1 _

/-- The outcome of an end is counted, where its notice counts nothing against the same counter. -/
theorem counter_endRecord (h : s.ann id = some r) (hstats : StatsSound s.stats) (o : AnnOutcome) (why : Reason)
    (ended : Bool) (hraise : counter (raise (.outcome id o why (r.ask.call.map Prod.snd) r.ask.cls) s)
      (.ended r.ask.cls o) = counter s (.ended r.ask.cls o)) :
    counter (endRecord id o why ended s) (.ended r.ask.cls o) =
      min (counter s (.ended r.ask.cls o) + 1) 4294967295 := by
  obtain ⟨hnotices, hstats'⟩ := letGo_quiet id ended s
  have hsame := raise_stats_congr hnotices hstats' (.outcome id o why (r.ask.call.map Prod.snd) r.ask.cls)
  rw [endRecord_eq h]
  refine (counter_countBy_same ?_ _ 1).trans ?_
  · rw [hsame]
    exact (Inner.raise _ s).stats hstats
  · rw [← hraise]
    unfold counter
    rw [hsame]

end

/-! ### A record that has let go stands aside in the pass (R94) -/

/-- A PLAYING record that was the holder of no zone but its own stands aside once it has let go. -/
theorem Aside.ofLetGo {id : Nat} {s : State} {r : AnnRec} (h : s.ann id = some r) (hp : r.state = .playing)
    (hz : ∀ z, (s.zone z).holder = some id → r.held.getLsbD z = true) (ended : Bool) :
    Aside id { r with held := 0#32, missed := 0#32, lost := 0#32, channel := none } (letGo id ended s) := by
  refine ⟨letGo_ann_self h ended, hp, rfl, fun z => ?_⟩
  have hzone : (letGo id ended s).zone z = (released r ended s).zone z := by rw [letGo_eq h]; rfl
  rw [hzone]
  cases hheld : r.held.getLsbD z with
  | true =>
    rw [released_holder ended hheld]
    exact nofun
  | false =>
    rw [released_zone ended hheld]
    exact fun hh => by simp [hz z hh] at hheld

/-- After its end no record holds the ann_id. -/
theorem closeAnn_ann_self (id : Nat) (o : AnnOutcome) (why : Reason) (s : State) :
    (closeAnn id o why s).ann id = none := by
  rw [State.ann, closeAnn_apl]
  simp [List.find?_eq_none]

theorem endAnn_passed {id : Nat} {s : State} {r : AnnRec} (h : s.ann id = some r) (hheld : r.held ≠ 0#32)
    (o : AnnOutcome) (why : Reason) (ended : Bool) :
    endAnn id o why ended s = closeAnn id o why (passChain 290 (letGo id ended s)) := by
  unfold endAnn letGoAndPass
  simp only [h, hheld, if_false]

theorem Kept.ids_nodup {s t : State} (h : Kept s t) (hn : s.ids.Nodup) : t.ids.Nodup := hn.sublist (h hn).ids

end Sys2Proof.Machine
end

section
/-! The end of a record (R94, R132, R148, R156, R158, R160). -/

open Sys2Proof Sys2Proof.Machine

/-- Settles O42: what the release of a record leaves of its zones and its source, and the pass between the release and
the notice. -/
theorem endedRecordsReleaseTheirZones : Obligations.EndedRecordsReleaseTheirZones := by
  unfold Obligations.EndedRecordsReleaseTheirZones
  refine ⟨fun id o why ended s r h hstats => ?_, fun id o why s r h => ?_, fun id o why ended s r h => ?_⟩
  · intro t notice
    have hinner := Inner.endRecord id o why ended s
    obtain ⟨hcrg, htru⟩ := endRecord_blocks id o why ended s
    refine ⟨by rw [endRecord_apl h], fun z _ hz => ⟨?_, fun hl => ?_⟩, fun z hz => ?_, fun hheld => ?_,
      endRecord_notices h o why ended, fun hfifo hmask => ?_, fun hcls => ?_, hinner.sck, hcrg, htru⟩
    · rw [endRecord_zone h]
      exact released_holder ended hz s
    · rw [endRecord_level h, released_level ended hl]
      simp only [hz, if_true, and_self]
    · rw [endRecord_zone h]
      exact released_zone ended hz s
    · rw [(endRecord_released h o why ended).1]
      exact released_pass ended hheld s
    · have hraise : raise notice s = s.onNotices fun f => { f with fifo := [notice] } :=
        raise_empty hfifo (by rw [hmask]; rfl)
      refine ⟨?_, counter_endRecord h hstats o why ended ?_⟩
      · rw [endRecord_notices h, hraise]
        rfl
      · rw [hraise]
        rfl
    · refine counter_endRecord h hstats o why ended (counter_raise ?_ _ s)
      cases o <;> simp only [Counter.index] <;> omega
  · intro stopped silent faded
    refine ⟨?_, fun z hl => ?_, fun hs => ?_, fun n hp hn => ⟨?_, fun z _ hl => ?_, ?_⟩,
      fun c ch hp hn hc hch => ⟨?_, fun d hd => ?_, ?_, fun z _ hl => ?_⟩⟩
    · exact (endRecord_released h o why true).2.2.trans (releaseZones_pbc ..)
    · rw [endRecord_level h, released_tail true hl, if_pos rfl]
    · simp only [stopped, silent, endRecord, letGo_eq h, released, stopSource_waiting hs, ite_self]
    · rw [(endRecord_released h o why false).2.2, released, releaseZones_pbc, if_neg (by decide),
        stopSource_stream hp hn]
      obtain ⟨v, hs⟩ := placeTails_shape (.stream n 256) (zonesOf r.held) s
      rw [hs]
      rfl
    · rw [endRecord_level h]
      exact released_tail_stream hp hn hl
    · rw [(endRecord_released h o why false).1]
      exact released_pass_playing hp (fun h0 => by simp [hn] at h0) s
    · rw [endRecord_channel h, released_channel hp hn hc hch, if_pos rfl, Channel.toIdle]
    · rw [endRecord_channel h, released_channel hp hn hc hch, if_neg hd]
    · rw [(endRecord_released h o why false).1]
      exact released_pass_playing hp (fun _ => by simp [hc]) s
    · rw [endRecord_level h, released_tail_channel hp hn hc hl, channel_of_listed hch, tailSamples_eq]
      rfl
  · intro letting closed
    obtain ⟨v, z, w, c, hshape⟩ := letGo_shape h ended
    refine ⟨letGo_ann_self h ended, fun other ho => by rw [letGo_ann h, if_neg ho], ?_, ?_, endRecord_eq h o why ended,
      fun h0 => ?_, fun hheld => ⟨?_, passChain 290 letting, rfl, endAnn_passed h hheld o why ended, ?_,
        fun hpool hp hz => ?_⟩⟩
    · simp only [letting, hshape]
      rfl
    · simp only [letting, hshape]
      rfl
    · rw [endAnn_quiet (fun x hx => by rw [h] at hx; cases hx; exact h0)]
      exact endRecord_eq h o why ended
    · simp only [letting, letGo_eq h]
      exact released_pass ended hheld s
    · rw [endAnn_passed h hheld]
      exact closeAnn_ann_self ..
    · have haside := (Aside.ofLetGo h hp hz ended).passChain 290 ((Kept.letGo id ended s).ids_nodup hpool.2.1)
      refine ⟨haside.ann, ?_⟩
      rw [endAnn_passed h hheld]
      exact closeAnn_eq haside.ann o why
end

section
/-! SUPPORT. What commands answer for the records they name, and the ends that several records make together (R90, R94,
R99, R103, R104, R106). -/

namespace Sys2Proof.Machine

/-! ### The record a command names (R90, R103) -/

theorem named_none {s : State} {id : Nat} (h : id = 0 ∨ s.ann id = none) : s.named id = none := by
  unfold State.named
  split
  · rfl
  · next h0 => exact h.resolve_left h0

theorem named_some {s : State} {id : Nat} {r : AnnRec} (h0 : id ≠ 0) (h : s.ann id = some r) : s.named id = some r := by
  rw [State.named, if_neg h0, h]

section
variable {act : Nat → State → State} {b : List Byte} {s : State} {r : AnnRec}

theorem answerHeld_none (h : be16 b 0 = 0 ∨ s.ann (be16 b 0) = none) : answerHeld act b s = reply .noSuchAnn [] s := by
  unfold answerHeld
  rw [named_none h]

theorem answerHeld_held (h0 : be16 b 0 ≠ 0) (h : s.ann (be16 b 0) = some r) (hs : r.state = .held) :
    answerHeld act b s = reply .ok [] (act (be16 b 0) s) := by
  unfold answerHeld
  simp only [named_some h0 h, hs]

theorem answerHeld_queued (h0 : be16 b 0 ≠ 0) (h : s.ann (be16 b 0) = some r) (hs : r.state = .queued) :
    answerHeld act b s = reply .badState [] s := by
  unfold answerHeld
  simp only [named_some h0 h, hs]

theorem answerHeld_late (h0 : be16 b 0 ≠ 0) (h : s.ann (be16 b 0) = some r)
    (hs : r.state = .ready ∨ r.state = .playing) : answerHeld act b s = reply .tooLate [] s := by
  unfold answerHeld
  rcases hs with hs | hs <;> simp only [named_some h0 h, hs]

/-- What CONFIRM and REJECT answer, each with its own act on a HELD record (R90). -/
theorem answers_held {i : Instr} {m : Message} {code : Nat}
    (hexec : exec i s = .next (runCommand { code := code, fits := fixed 2 } (answerHeld act) s))
    (h : AtHead s m code 2) :
    (be16 m.body 0 = 0 ∨ s.ann (be16 m.body 0) = none → Answers i s m .noSuchAnn [] s) ∧
    ∀ r, be16 m.body 0 ≠ 0 → s.ann (be16 m.body 0) = some r →
      (r.state = .ready ∨ r.state = .playing → Answers i s m .tooLate [] s) ∧
      (r.state = .queued → Answers i s m .badState [] s) ∧
      (r.state = .held → Answers i s m .ok [] (act (be16 m.body 0) s)) :=
  have answered {st : Status} {t : State} (hact : answerHeld act m.body s = ⟨st, [], t⟩) : Answers i s m st [] t :=
    answers_atHead hexec h rfl (fixed_length h.2) hact
  ⟨fun h0 => answered (answerHeld_none h0), fun _ h0 hr => ⟨fun hs => answered (answerHeld_late h0 hr hs),
    fun hs => answered (answerHeld_queued h0 hr hs), fun hs => answered (answerHeld_held h0 hr hs)⟩⟩

end

/-! ### Into READY (R89) -/

theorem enterReady_ann {s : State} {id : Nat} {r : AnnRec} (h : s.ann id = some r) (now other : Nat) :
    (enterReady now id s).ann other = if other = id then
      some { r with state := .ready, holdStart := none, eligibleSince := some (r.eligibleSince.getD now) }
    else s.ann other := by
  refine (updAnn_ann (by intro _; rfl) other).trans ?_
  rw [h]
  rfl

/-! ### Causes of a pass that ends leave waiting (R103, R120) -/

theorem endRecord_pass_keeps {s : State} (hw : s.zar.passPending = true) (id : Nat) (o : AnnOutcome) (why : Reason)
    (ended : Bool) : (endRecord id o why ended s).zar.passPending = true := by
  cases h : s.ann id with
  | none => rwa [endRecord_none h]
  | some r =>
    rw [(endRecord_released h o why ended).1]
    exact released_pass_keeps hw r ended

theorem endRecords_pass_keeps {s : State} (hw : s.zar.passPending = true) (o : AnnOutcome) (why : Reason)
    (l : List Nat) : (endRecords o why l s).zar.passPending = true := by
  induction l generalizing s with
  | nil => exact hw
  | cons id rest ih => exact ih (endRecord_pass_keeps hw id o why false)

/-- A record that holds a zone, among those that end, causes a pass. -/
theorem endRecords_pass {s : State} {id : Nat} {r : AnnRec} {l : List Nat} (hl : id ∈ l) (h : s.ann id = some r)
    (hheld : r.held ≠ 0#32) (o : AnnOutcome) (why : Reason) : (endRecords o why l s).zar.passPending = true := by
  induction l generalizing s with
  | nil => exact absurd hl List.not_mem_nil
  | cons x rest ih =>
    by_cases hx : id = x
    · subst hx
      refine endRecords_pass_keeps ?_ o why rest
      rw [(endRecord_released h o why false).1]
      exact released_pass false hheld s
    · refine ih ((List.mem_cons.1 hl).resolve_left hx) ?_
      rw [endRecord_ann, if_neg hx, h]

end Sys2Proof.Machine
end

section
/-! The commands that answer a held record and those that end records (R90, R99, R103). -/

open Sys2Proof Sys2Proof.Machine

/-- Settles O44, from what CONFIRM and REJECT answer alike, and what becomes of a record that enters READY. -/
theorem heldRecordsAreAnswered : Obligations.HeldRecordsAreAnswered := by
  unfold Obligations.HeldRecordsAreAnswered
  refine ⟨fun s m i hi => ?_, fun now id s r hr => ⟨?_, rfl, fun other ho => ?_, rfl⟩⟩
  · rcases hi with ⟨rfl, hhead⟩ | ⟨rfl, hhead⟩
    · obtain ⟨hnone, hsome⟩ := answers_held (i := .confirm) rfl hhead
      refine ⟨hnone, fun r h0 hr => ?_⟩
      obtain ⟨hlate, hqueued, hheld⟩ := hsome r h0 hr
      exact ⟨hlate, hqueued, fun hs _ => hheld hs, nofun⟩
    · obtain ⟨hnone, hsome⟩ := answers_held (i := .reject) rfl hhead
      refine ⟨hnone, fun r h0 hr => ?_⟩
      obtain ⟨hlate, hqueued, hheld⟩ := hsome r h0 hr
      exact ⟨hlate, hqueued, nofun, fun hs _ => hheld hs⟩
  · rw [enterReady_ann hr, if_pos rfl]
  · rw [enterReady_ann hr, if_neg ho]

/-- Settles O45: each command by its checks in turn, and CLEAR_ANNOUNCEMENTS by what the ends of all records leave. -/
theorem endingCommandsAreAnswered : Obligations.EndingCommandsAreAnswered := by
  unfold Obligations.EndingCommandsAreAnswered
  intro s m b
  refine ⟨fun h => ?_, fun h => ?_, fun h => ?_⟩
  · have answered {st : Status} {body : List Byte} {t : State} (hact : _ = (⟨st, body, t⟩ : Reply)) :
        Answers .livePageEnd s m st body t := answers_atHead rfl h rfl (fixed_length h.2) hact
    refine ⟨fun hbad => answered (if_pos hbad), fun hok hnone => answered ?_, fun r hok hr => ⟨fun hp => answered ?_,
      fun hp => answered ?_⟩⟩
    · rw [if_neg (Nat.not_lt.2 hok), hnone]
      rfl
    · rw [if_neg (Nat.not_lt.2 hok), hr]
      simp only [hp, if_true]
      rfl
    · rw [if_neg (Nat.not_lt.2 hok), hr]
      simp only [hp, if_false]
      rfl
  · have answered {st : Status} {body : List Byte} {t : State} (hact : _ = (⟨st, body, t⟩ : Reply)) :
        Answers .withdraw s m st body t := answers_atHead rfl h rfl (fixed_length h.2) hact
    refine ⟨fun h0 => answered ?_, fun r h0 hr => answered ?_⟩
    · rw [named_none h0]
      rfl
    · rw [named_some h0 hr]
      exact congrArg (fun id => reply .ok [] (endAnn id .withdrawn .command false s)) (mem_of_ann hr).2
  · intro t
    have hall : (s.annIds fun _ => true) = s.apl.records.map fun r => r.annId := by
      rw [State.annIds, List.filter_true]
    have hinner := Inner.endRecords .withdrawn .cleared (s.apl.records.map fun r => r.annId) s
    obtain ⟨hrecords, hlast, hcounter, -⟩ :=
      endRecords_apl .withdrawn .cleared (s.apl.records.map fun r => r.annId) s
    obtain ⟨hcrg, htru⟩ := endRecords_blocks .withdrawn .cleared (s.apl.records.map fun r => r.annId) s
    refine ⟨answers_atHead rfl h rfl (fixed_length h.2) (by rw [hall]; rfl), fun hpool ⟨r, hr, hheld⟩ => ?_, ?_, hlast,
      hcounter, hcrg, htru, hinner.sck, hinner.sxe, hinner.pmc⟩
    · exact endRecords_pass (List.mem_map_of_mem hr) (ann_of_mem hpool hr) hheld .withdrawn .cleared
    · refine hrecords.trans (List.filter_eq_nil_iff.2 fun r hr => ?_)
      simpa using ⟨r, hr, rfl⟩
end

section
/-! SUPPORT. What PLATFORM_MOVED makes of a record, and several ends that one event makes (R94, R104, R106, log 30). -/

namespace Sys2Proof.Machine

/-! ### PLATFORM_MOVED (R104) -/

/-- A PLAYING record as it returns to READY (R96). -/
def AnnRec.toReady (r : AnnRec) : AnnRec :=
  { r with state := .ready, held := 0#32, missed := 0#32, lost := 0#32, channel := none, platformSpoken := false }

theorem returnToReady_ann {id : Nat} {s : State} {r : AnnRec} (h : s.ann id = some r) (other : Nat) :
    (returnToReady id s).ann other = if other = id then some r.toReady else s.ann other := by
  obtain ⟨_, _, _, _, hs⟩ := release_shape r s
  unfold returnToReady
  simp only [h]
  rw [hs]
  refine (updAnn_ann (by intro _; rfl) other).trans ?_
  change (if other = id then (s.ann id).map AnnRec.toReady else s.ann other) = _
  rw [h]
  rfl

theorem followsPlatform_iff (r : AnnRec) : r.followsPlatform = true ↔
    r.platformSpoken = true ∨ r.ask.selector = .callPlatform ∨ ∃ g, r.ask.selector = .callPlatformAndGroup g := by
  unfold AnnRec.followsPlatform
  cases r.ask.selector <;> simp

theorem followsPlatform_eq (r : AnnRec) : r.followsPlatform = (r.platformSpoken || r.ask.selector.needsCall) := by
  unfold AnnRec.followsPlatform Selector.needsCall
  cases r.ask.selector <;> rfl

/-- A record of the call as PLATFORM_MOVED leaves it, if it does not end it (R104). -/
def AnnRec.moved (now : Nat) (r : AnnRec) : AnnRec :=
  match r.state with
  | .held => { r with holdStart := some now }
  | .playing => if r.followsPlatform ∧ r.ask.restartable then r.toReady else r
  | _ => r

section
variable {id : Nat} {s : State} {r : AnnRec}

theorem platformMovedOne_held (h : s.ann id = some r) (hs : r.state = .held) : platformMovedOne id s =
    raise (.held true id (r.ask.call.map Prod.snd) r.ask.step r.ask.cls s.sck.time r.ask.confirmTimeout)
      (s.updAnn id fun x => { x with holdStart := some s.sck.time }) := by
  unfold platformMovedOne
  simp only [h, hs, heldNotice, (mem_of_ann h).2]

theorem platformMovedOne_playing (h : s.ann id = some r) (hs : r.state = .playing) : platformMovedOne id s =
    if r.followsPlatform ∧ r.ask.restartable then returnToReady id s else s := by
  unfold platformMovedOne
  simp only [h, hs]

theorem platformMovedOne_other (h : s.ann id = some r) (hs : r.state = .queued ∨ r.state = .ready) :
    platformMovedOne id s = s := by
  unfold platformMovedOne
  rcases hs with hs | hs <;> simp only [h, hs]

theorem platformMovedOne_ann (id : Nat) (s : State) (other : Nat) : (platformMovedOne id s).ann other =
    if other = id then (s.ann id).map (AnnRec.moved s.sck.time) else s.ann other := by
  cases h : s.ann id with
  | none =>
    unfold platformMovedOne
    simp only [h, Option.map_none]
    split
    · next he => rw [he, h]
    · rfl
  | some r =>
    have hsame : s.ann other = if other = id then some r else s.ann other := by
      split
      · next he => rw [he, h]
      · rfl
    unfold AnnRec.moved
    cases hs : r.state with
    | held =>
      rw [platformMovedOne_held h hs, State.ann, raise_apl]
      refine (updAnn_ann (by intro _; rfl) other).trans ?_
      simp only [h, Option.map_some, hs]
    | playing =>
      rw [platformMovedOne_playing h hs]
      simp only [Option.map_some, hs]
      split
      · exact returnToReady_ann h other
      · exact hsame
    | queued =>
      rw [platformMovedOne_other h (.inl hs)]
      simpa only [Option.map_some, hs] using hsame
    | ready =>
      rw [platformMovedOne_other h (.inr hs)]
      simpa only [Option.map_some, hs] using hsame

/-- Each record named is dealt with by itself. -/
theorem platformMovedAll_ann {ids : List Nat} (hn : ids.Nodup) (id : Nat) (s : State) :
    (platformMovedAll ids s).ann id = if id ∈ ids then (platformMovedOne id s).ann id else s.ann id := by
  induction ids generalizing s with
  | nil => rfl
  | cons x rest ih =>
    obtain ⟨hx, hrest⟩ := List.nodup_cons.1 hn
    rw [platformMovedAll, ih hrest]
    simp only [platformMovedOne_ann, (Inner.platformMovedOne x s).sck]
    by_cases he : id = x
    · subst he
      simp [hx]
    · simp [he]

theorem superseded_waiting (hs : r.state ≠ .playing) : r.superseded = false := by simp [AnnRec.superseded, hs]

end

/-! ### Several ends at one event (R94, log 30) -/

section
variable {id : Nat} {s : State}

theorem letGo_holder {x : Nat} (ended : Bool) {z : Nat} (h : ((letGo x ended s).zone z).holder = some id) :
    (s.zone z).holder = some id := by
  cases hx : s.ann x with
  | none => rwa [letGo_none hx] at h
  | some r =>
    have hzone : (letGo x ended s).zone z = (released r ended s).zone z := by rw [letGo_eq hx]; rfl
    rw [hzone] at h
    cases hheld : r.held.getLsbD z with
    | true =>
      rw [released_holder ended hheld] at h
      cases h
    | false => rwa [released_zone ended hheld] at h

theorem letGo_ann_other {x : Nat} (hx : id ≠ x) (ended : Bool) (s : State) :
    (letGo x ended s).ann id = s.ann id := by
  cases h : s.ann x with
  | none => rw [letGo_none h]
  | some r => rw [letGo_ann h, if_neg hx]

theorem endRecord_holder {x : Nat} {o : AnnOutcome} {why : Reason} {ended : Bool} {z : Nat}
    (h : ((endRecord x o why ended s).zone z).holder = some id) : (s.zone z).holder = some id := by
  obtain ⟨-, -, hzar, -, -⟩ := closeAnn_blocks x o why (letGo x ended s)
  have hzone : (endRecord x o why ended s).zone z = (letGo x ended s).zone z :=
    congrArg (fun a : ZoneArbiter => tabGetD a.zones z ZoneEntry.reset) hzar
  exact letGo_holder ended (hzone ▸ h)

theorem endRecords_holder {o : AnnOutcome} {why : Reason} {l : List Nat} {z : Nat}
    (h : ((endRecords o why l s).zone z).holder = some id) : (s.zone z).holder = some id := by
  induction l generalizing s with
  | nil => exact h
  | cons x rest ih => exact endRecord_holder (ih h)

theorem endRecords_ann_other {l : List Nat} (hid : id ∉ l) (o : AnnOutcome) (why : Reason) (s : State) :
    (endRecords o why l s).ann id = s.ann id := by
  induction l generalizing s with
  | nil => rfl
  | cons x rest ih =>
    rw [List.mem_cons, not_or] at hid
    refine (ih hid.2 _).trans ?_
    rw [endRecord_ann, if_neg hid.1]

theorem Aside.letGo {x : AnnRec} {other : Nat} (h : Aside id x s) (ho : other ≠ id) (ended : Bool) :
    Aside id x (letGo other ended s) :=
  ⟨(letGo_ann_other ho.symm ended s).trans h.ann, h.state, h.channel, fun z hz => h.zones z (letGo_holder ended hz)⟩

theorem Aside.letGoAll {x : AnnRec} {l : List Nat} (hid : id ∉ l) (h : Aside id x s) : Aside id x (letGoAll l s) := by
  induction l generalizing s with
  | nil => exact h
  | cons other rest ih =>
    rw [List.mem_cons, not_or] at hid
    exact ih hid.2 (h.letGo (Ne.symm hid.1) false)

/-- Each of several PLAYING records stands aside once all have let go. -/
theorem Aside.ofLetGoAll {r : AnnRec} {l : List Nat} (hl : l.Nodup) (hid : id ∈ l) (h : s.ann id = some r)
    (hp : r.state = .playing) (hz : ∀ z, (s.zone z).holder = some id → r.held.getLsbD z = true) :
    Aside id { r with held := 0#32, missed := 0#32, lost := 0#32, channel := none } (Machine.letGoAll l s) := by
  induction l generalizing s with
  | nil => exact absurd hid List.not_mem_nil
  | cons other rest ih =>
    obtain ⟨hother, hrest⟩ := List.nodup_cons.1 hl
    by_cases he : id = other
    · subst he
      exact Aside.letGoAll (l := rest) hother (Aside.ofLetGo h hp hz false)
    · exact ih hrest ((List.mem_cons.1 hid).resolve_left he) ((letGo_ann_other he false s).trans h)
        fun z hh => hz z (letGo_holder false hh)

theorem any_holdsZone {l : List Nat} : l.any s.holdsZone = true ↔ ∃ id ∈ l, ∃ r, s.ann id = some r ∧ r.held ≠ 0#32 := by
  simp only [List.any_eq_true, State.holdsZone, Option.any_eq_true, bne_iff_ne]

theorem endAnns_unheld {l : List Nat} (h : (l.filter s.plays).any s.holdsZone = false) (o : AnnOutcome) (why : Reason) :
    endAnns o why l s = closeAnns o why (l.filter s.plays)
      (letGoAll (l.filter s.plays) (endRecords o why (l.filter fun id => !s.plays id) s)) := by
  simp only [endAnns, h, Bool.false_eq_true, if_false]

theorem endAnns_passed {l : List Nat} (h : (l.filter s.plays).any s.holdsZone = true) (o : AnnOutcome) (why : Reason) :
    endAnns o why l s = closeAnns o why (l.filter s.plays)
      (passChain 290 (letGoAll (l.filter s.plays) (endRecords o why (l.filter fun id => !s.plays id) s))) := by
  simp only [endAnns, h, if_true]

/-- A PLAYING record among several that end stands aside in their pass. -/
theorem Aside.ofEndAnns {r : AnnRec} {l : List Nat} (hn : s.ids.Nodup) (hl : l.Nodup) (hid : id ∈ l.filter s.plays)
    (h : s.ann id = some r) (hz : ∀ z, (s.zone z).holder = some id → r.held.getLsbD z = true) (o : AnnOutcome)
    (why : Reason) : Aside id { r with held := 0#32, missed := 0#32, lost := 0#32, channel := none }
      (Machine.passChain 290 (Machine.letGoAll (l.filter s.plays)
        (endRecords o why (l.filter fun id => !s.plays id) s))) := by
  have hplays : s.plays id = true := (List.mem_filter.1 hid).2
  have hp : r.state = .playing := by simpa [State.plays, h] using hplays
  have hwaiting : id ∉ l.filter fun id => !s.plays id := by simp [hplays]
  have hended := KeptBut.endRecords o why (l.filter fun id => !s.plays id) hn
  refine Aside.passChain 290 ((Kept.letGoAll _ _).ids_nodup (hn.sublist hended.ids)) ?_
  exact .ofLetGoAll (hl.filter _) hid ((endRecords_ann_other hwaiting o why s).trans h) hp
    fun z hh => hz z (endRecords_holder hh)

end

/-! ### A call that is cancelled or removed (R106) -/

/-- The state in which the pool has taken an event, with the events that are left (R34). -/
def State.poolTook (rest : List (CallEvent PoolEvent)) (s : State) : State :=
  { s with apl := { s.apl with events := rest } }

/-- What the ends of the records of a call leave of the pool (R94, R106). -/
theorem endAnns_ofCall {slot ref : Nat} {s : State} (hp : PoolSound s.apl) (o : AnnOutcome) (why : Reason) :
    let t := endAnns o why (s.annIds fun r => r.ofCall slot ref) s
    (∀ r ∈ t.apl.records, r.ask.call ≠ some (slot, ref) ∧ ∃ x ∈ s.apl.records, x.annId = r.annId ∧ x.ask = r.ask) ∧
    (∀ r ∈ s.apl.records, r.ask.call ≠ some (slot, ref) → r.state = .queued ∨ r.state = .held →
      ∃ x ∈ t.apl.records, x.annId = r.annId ∧ x.state = r.state ∧ x.ask = r.ask) ∧
    ((∀ r ∈ s.apl.records, r.ask.call = some (slot, ref) → r.held = 0#32) →
      t.apl.records = s.apl.records.filter fun r => r.ask.call != some (slot, ref)) := by
  intro t
  have hkept : KeptBut (s.annIds fun r => r.ofCall slot ref) s t := .endAnns o why _ hp.2.1
  have hof : ∀ {r : AnnRec}, r.ofCall slot ref = true ↔ r.ask.call = some (slot, ref) := by simp [AnnRec.ofCall]
  refine ⟨fun r hr => ?_, fun r hr hcall hs => ?_, fun hheld => ?_⟩
  · obtain ⟨hgone, x, hx, hsame⟩ := hkept.old r hr
    refine ⟨fun hcall => hgone ?_, x, hx, hsame.id.symm, hsame.ask.symm⟩
    rw [hsame.id, annId_mem_annIds hp hx, hof, ← hsame.ask]
    exact hcall
  · have hw : r.waits = true := by simpa [AnnRec.waits] using hs
    obtain ⟨x, hx, hsame⟩ := hkept.waiting r hr (fun hm => hcall (hof.1 ((annId_mem_annIds hp hr _).1 hm))) hw
    exact ⟨x, hx, hsame.id, hsame.before hw, hsame.ask⟩
  · refine (endAnns_quiet (fun id hid => ?_) o why).trans (filter_annIds hp _)
    obtain ⟨r, hr, rfl⟩ := List.mem_map.1 hid
    obtain ⟨hr, hcall⟩ := List.mem_filter.1 hr
    simp [State.holdsZone, ann_of_mem hp hr, hheld r hr (hof.1 hcall)]

end Sys2Proof.Machine
end

section
/-! The events of a call reach its records (R94, R104, R106). -/

open Sys2Proof Sys2Proof.Machine

/-- Settles O47: the ends of a call's records, what PLATFORM_MOVED makes of one, and the pass that several ends
share. -/
theorem callEventsReachTheirRecords : Obligations.CallEventsReachTheirRecords := by
  unfold Obligations.CallEventsReachTheirRecords
  refine ⟨fun s t slot e rest h hp ht => ?_, fun id s r hr => ?_, fun o why ids s => ?_⟩
  · have htaken : PoolSound (s.poolTook rest).apl := hp.sameIds rfl rfl
    obtain ⟨why, rfl⟩ : ∃ why, t = endAnns .withdrawn why
        ((s.poolTook rest).annIds fun r => r.ofCall e.slot e.callRef) (s.poolTook rest) := by
      rcases ht with ⟨he, ht⟩ | ⟨he, ht⟩
      · exact ⟨.cancelled, (Host.Outcome.next.inj ht).symm.trans (takePoolEvent_taken h (by rw [he]))⟩
      · exact ⟨.callRemoved, (Host.Outcome.next.inj ht).symm.trans (takePoolEvent_taken h (by rw [he]))⟩
    have hkept := KeptBut.endAnns .withdrawn why ((s.poolTook rest).annIds fun r => r.ofCall e.slot e.callRef)
      htaken.2.1
    obtain ⟨hold, hwaiting, hquiet⟩ := endAnns_ofCall (slot := e.slot) (ref := e.callRef) htaken .withdrawn why
    exact ⟨hold, hwaiting, hquiet, hkept.events, hkept.crg, hkept.tru, (Inner.endAnns ..).sck⟩
  · refine ⟨platformMovedOne_held hr, fun hs hf => ?_, fun hs hspoken hsel => ?_, superseded_waiting,
      platformMovedOne_other hr, fun ids hn => ?_⟩
    · have hfollows := (followsPlatform_iff r).2 hf
      refine ⟨fun hrestart => ⟨?_, ?_, fun x hx => ?_⟩, fun hrestart => ⟨?_, ?_⟩⟩
      · simp [AnnRec.superseded, hrestart]
      · rw [platformMovedOne_playing hr hs, if_pos ⟨hfollows, hrestart⟩]
      · rw [returnToReady_ann hr, if_pos rfl] at hx
        exact (Option.some.inj hx).symm
      · simp [AnnRec.superseded, hs, hfollows, hrestart]
      · rw [platformMovedOne_playing hr hs, if_neg (by simp [hrestart])]
    · have hnot : r.followsPlatform = false := by rw [followsPlatform_eq, hspoken, hsel]; rfl
      refine ⟨by simp [AnnRec.superseded, hnot], ?_⟩
      rw [platformMovedOne_playing hr hs, if_neg (by simp [hnot])]
    · rw [platformMovedAll_ann hn, hr]
  · intro playing waiting letting
    refine ⟨fun hnone => endAnns_unheld ?_ o why, fun hsome => ⟨passChain 290 letting, rfl,
      endAnns_passed (any_holdsZone.2 hsome) o why, fun hp hn id hid r hr hz => (Aside.ofEndAnns hp.2.1 hn hid hr hz o
        why).ann⟩⟩
    refine Bool.eq_false_iff.2 fun hany => ?_
    obtain ⟨id, hid, r, hr, hheld⟩ := any_holdsZone.1 hany
    exact hheld (hnone id hid r hr)
end

section
/-! SUPPORT. What a channel's output and a mark that reaches it change (R142, R147, R158), and the tests that a channel
makes afterwards. -/

namespace Sys2Proof.Machine

/-! ### The tests of a channel (R140 to R142) -/

theorem silenceFill_frame (grant k : Nat) (c : Channel) :
    (c.silenceFill grant k).state = c.state ∧ (c.silenceFill grant k).burst = c.burst := by
  induction k generalizing c with
  | zero => exact ⟨rfl, rfl⟩
  | succ k ih =>
    unfold Channel.silenceFill
    split
    · obtain ⟨hstate, hburst⟩ := ih c.fillOnce
      rw [hstate, hburst, fillOnce_frame]
      exact ⟨rfl, rfl⟩
    · exact ⟨rfl, rfl⟩

theorem judgeRequest_frame (grant : Nat) (c : Channel) :
    (c.judgeRequest grant).state = c.state ∧ (c.judgeRequest grant).burst = c.burst := by
  unfold Channel.judgeRequest
  split <;> exact ⟨rfl, rfl⟩

theorem bursting_eq_false {grant : Nat} {c : Channel} :
    c.bursting grant = false ↔ ∀ b, c.burst = some b → b.grant ≠ grant := by
  unfold Channel.bursting
  cases c.burst <;> simp

theorem judgeState_playing {grant : Nat} {c : Channel} (h : c.state = .playing) : c.judgeState grant =
    if c.fetchFinished ∧ c.bursting grant = false then { c with state := .draining } else c := by
  unfold Channel.judgeState
  simp only [h]

/-- After its tests a PLAYING channel is DRAINING exactly when its fetch has finished and no burst of its own is in
flight (R142). -/
theorem settle_playing {grant : Nat} {c : Channel} (h : c.state = .playing) :
    ((c.settle grant).state = .playing ∨ (c.settle grant).state = .draining) ∧
      ((c.settle grant).state = .draining ↔ (c.settle grant).fetchFinished = true ∧
        ∀ b, (c.settle grant).burst = some b → b.grant ≠ grant) := by
  have hstate : ((c.silenceFill grant 257).judgeRequest grant).state = .playing := by
    rw [(judgeRequest_frame ..).1, (silenceFill_frame ..).1, h]
  rw [← bursting_eq_false]
  unfold Channel.settle
  generalize (c.silenceFill grant 257).judgeRequest grant = d at hstate
  rw [judgeState_playing hstate]
  split
  · next hd => exact ⟨.inr rfl, fun _ => hd, fun _ => rfl⟩
  · next hd =>
    have hplays : d.state ≠ .draining := by rw [hstate]; exact nofun
    exact ⟨.inl hstate, fun hdrain => absurd hdrain hplays, fun hfin => absurd hfin hd⟩

/-! ### A channel written -/

/-- The state in which a channel has been written. -/
def withChannel (c : Nat) (ch : Channel) (s : State) : State := { s with pbc := tabSet s.pbc c ch }

theorem updChannel_eq {s : State} {c : Nat} {ch : Channel} (h : tabGet s.pbc c = some ch) (f : Channel → Channel) :
    s.updChannel c f = withChannel c (f ch) s := by
  show { s with pbc := tabUpd s.pbc c f } = _
  rw [tabUpd, h]
  rfl

@[simp] theorem withChannel_updChannel (c : Nat) (ch : Channel) (f : Channel → Channel) (s : State) :
    (withChannel c ch s).updChannel c f = withChannel c (f ch) s := by
  rw [updChannel_eq (tabGet_tabSet_same ..)]
  simp only [withChannel, tabSet_tabSet]

@[simp] theorem withChannel_channel (c : Nat) (ch : Channel) (s : State) : (withChannel c ch s).channel c = ch :=
  channel_of_listed (tabGet_tabSet_same ..)

/-! ### G taken again (R158) -/

theorem takeAtts_shape (cls : Nat) (trim : Int) (l : List Nat) (s : State) :
    ∃ v, takeAtts cls trim l s = { s with lmu := { s.lmu with levels := v } } := by
  induction l generalizing s with
  | nil => exact ⟨_, rfl⟩
  | cons z rest ih =>
    obtain ⟨v, h⟩ := ih (takeAtt cls trim z s)
    exact ⟨v, h⟩

/-- G is taken again in the zones listed, and nothing else of their levels changes. -/
theorem takeAtts_level (cls : Nat) (trim : Int) (l : List Nat) {s : State} {z : Nat}
    (hl : (tabGet s.lmu.levels z).isSome = true) : (takeAtts cls trim l s).level z =
      if z ∈ l then { s.level z with att := some (attFor (s.zone z) (s.level z).ambient cls trim) }
      else s.level z := by
  induction l generalizing s with
  | nil => rfl
  | cons x rest ih =>
    have hlevel : (takeAtt cls trim x s).level z = if z = x then
        { s.level z with att := some (attFor (s.zone x) (s.level z).ambient cls trim) } else s.level z :=
      updLevel_level_listed hl x _
    have hzone : (takeAtt cls trim x s).zone z = s.zone z := rfl
    have hl' : (tabGet (takeAtt cls trim x s).lmu.levels z).isSome = true := (updLevel_listed ..).trans hl
    rw [takeAtts, ih hl', hzone, hlevel]
    by_cases hx : z = x
    · subst hx
      simp only [if_true, List.mem_cons, true_or]
      split <;> rfl
    · simp only [hx, if_false, List.mem_cons, false_or]

/-! ### A mark that reaches the output (R142, R158) -/

/-- A channel as a mark leaves it: its play element, and for a FRAGMENT its current trim. -/
def Channel.atMark (mark : Option Nat) (ch : Channel) : Channel :=
  match mark with
  | none => ch
  | some i => { ch with playElem := i, curTrim := (ch.trimOf i).getD ch.curTrim }

theorem atMark_state (mark : Option Nat) (ch : Channel) : (ch.atMark mark).state = ch.state := by
  cases mark <;> rfl

section
variable {s : State} {c : Nat} {ch : Channel}

/-- A mark of a FRAGMENT sets the play element and the trim, and G is taken again in the owner's zones. -/
theorem startElement_fragment {i : Nat} {trim : Int} (htrim : ch.trimOf i = some trim) :
    startElement c (some i) (withChannel c ch s) =
      match ch.owner.bind s.ann with
      | some r => takeAtts r.ask.cls trim (zonesOf r.held) (withChannel c (ch.atMark (some i)) s)
      | none => withChannel c (ch.atMark (some i)) s := by
  have hmark : ch.atMark (some i) = { ch with playElem := i, curTrim := trim } := by simp [Channel.atMark, htrim]
  have htrim' : Channel.trimOf { ch with playElem := i } i = some trim := htrim
  unfold startElement
  simp only [withChannel_updChannel, withChannel_channel, htrim', hmark]
  rfl

/-- A mark of a SILENCE, or of no element, sets the play element alone. -/
theorem startElement_silence {i : Nat} (htrim : ch.trimOf i = none) :
    startElement c (some i) (withChannel c ch s) = withChannel c (ch.atMark (some i)) s := by
  have hmark : ch.atMark (some i) = { ch with playElem := i } := by simp [Channel.atMark, htrim]
  have htrim' : Channel.trimOf { ch with playElem := i } i = none := htrim
  unfold startElement
  simp only [withChannel_updChannel, withChannel_channel, htrim', hmark]

/-- What a mark changes: its channel, and the levels of the owner's zones. -/
theorem startElement_shape (c : Nat) (mark : Option Nat) (ch : Channel) (s : State) :
    ∃ v, startElement c mark (withChannel c ch s) =
      { withChannel c (ch.atMark mark) s with lmu := { s.lmu with levels := v } } := by
  cases mark with
  | none => exact ⟨s.lmu.levels, rfl⟩
  | some i =>
    cases htrim : ch.trimOf i with
    | none => exact ⟨s.lmu.levels, startElement_silence htrim⟩
    | some trim =>
      rw [startElement_fragment htrim]
      cases ch.owner.bind s.ann with
      | none => exact ⟨s.lmu.levels, rfl⟩
      | some r => exact takeAtts_shape r.ask.cls trim (zonesOf r.held) (withChannel c (ch.atMark (some i)) s)

/-- A mark that reaches the output of an owned channel's FRAGMENT takes G again in each zone that the owner holds. -/
theorem startElement_level {i : Nat} {trim : Int} {r : AnnRec} (htrim : ch.trimOf i = some trim)
    (hr : ch.owner.bind s.ann = some r) {z : Nat} (hl : (tabGet s.lmu.levels z).isSome = true) :
    (startElement c (some i) (withChannel c ch s)).level z = if r.held.getLsbD z then
        { s.level z with att := some (attFor (s.zone z) (s.level z).ambient r.ask.cls trim) }
      else s.level z := by
  rw [startElement_fragment htrim, hr]
  refine (takeAtts_level (s := withChannel c (ch.atMark (some i)) s) r.ask.cls trim (zonesOf r.held) hl).trans ?_
  simp only [mem_zonesOf]
  rfl

/-- Any other mark, or one of a channel without an owner, leaves the levels alone. -/
theorem startElement_lmu {mark : Option Nat}
    (hno : (∀ i, mark = some i → ch.trimOf i = none) ∨ ch.owner.bind s.ann = none) :
    (startElement c mark (withChannel c ch s)).lmu = s.lmu := by
  cases mark with
  | none => rfl
  | some i =>
    cases htrim : ch.trimOf i with
    | none =>
      rw [startElement_silence htrim]
      rfl
    | some trim =>
      have hown : ch.owner.bind s.ann = none := hno.resolve_left fun hall => by simp [hall i rfl] at htrim
      rw [startElement_fragment htrim, hown]
      rfl

end

theorem trimOf_eq_some {ch : Channel} {i : Nat} {trim : Int} : ch.trimOf i = some trim ↔
    ∃ id loops address length, ch.list[i]? = some (.fragment id loops address length trim) := by
  unfold Channel.trimOf
  cases ch.list[i]? with
  | none => simp
  | some e => cases e <;> simp

/-- A mark, element by element (R142). -/
theorem atMark_eq (mark : Option Nat) (ch : Channel) : ch.atMark mark = match mark with
    | none => ch
    | some i => match ch.list[i]? with
      | some (.fragment _ _ _ _ trim) => { ch with playElem := i, curTrim := trim }
      | _ => { ch with playElem := i } := by
  cases mark with
  | none => rfl
  | some i =>
    simp only [Channel.atMark, Channel.trimOf]
    cases ch.list[i]? with
    | none => rfl
    | some e => cases e <;> rfl

/-! ### The output of a channel (R142, R147) -/

/-- A channel that has output the oldest sample of its FIFO. -/
def Channel.advanced (rest : List FifoSample) (ch : Channel) : Channel := { ch with fifo := rest, underrunRun := 0 }

/-- A channel after a sample: the mark it carried, and in PLAYING the tests (R142). -/
def Channel.afterSample (grant : Nat) (x : FifoSample) (rest : List FifoSample) (ch : Channel) : Channel :=
  let sounding := (ch.advanced rest).atMark x.mark
  if ch.state = .playing then sounding.settle grant else sounding

section
variable {s : State} {c : Nat} {ch : Channel}

theorem channelOutput_silent (h : tabGet s.pbc c = some ch)
    (hs : ch.state = .idle ∨ ch.state = .prefill ∨ ch.state = .gap) : channelOutput c s = (0#16, s) := by
  unfold channelOutput
  simp only [channel_of_listed h]
  rcases hs with hs | hs | hs <;> rw [hs] <;> rfl

theorem channelOutput_drained (h : tabGet s.pbc c = some ch) (hs : ch.state = .draining) (hf : ch.fifo = []) :
    channelOutput c s = (0#16, s) := by
  unfold channelOutput
  simp only [channel_of_listed h, hs, hf]
  rfl

theorem channelOutput_empty (h : tabGet s.pbc c = some ch) (hs : ch.state = .playing) (hf : ch.fifo = []) :
    channelOutput c s = (0#16, underrun c s) := by
  unfold channelOutput
  simp only [channel_of_listed h, hs, hf]
  rfl

/-- A sample period in which a channel has nothing to output: the run counts on, and its first period is noticed and
counted (R147). -/
theorem underrun_eq (h : tabGet s.pbc c = some ch) : underrun c s =
    let counted := s.updChannel c fun y => { y with underrunRun := min (ch.underrunRun + 1) 1600 }
    if ch.underrunRun = 0 then count (.underruns (ch.cls.getD 0))
      (raise (.underrun (ch.owner.getD 0) (ch.cls.getD 0) c ch.playElem s.sck.time) counted)
    else counted := by
  unfold underrun
  simp only [channel_of_listed h, updChannel_eq h]
  rfl

/-- A channel that sounds outputs the oldest sample of its FIFO; its mark takes effect, and a PLAYING one makes its
tests. -/
theorem channelOutput_sounds (h : tabGet s.pbc c = some ch) {x : FifoSample} {rest : List FifoSample}
    (hf : ch.fifo = x :: rest) (hs : ch.state = .playing ∨ ch.state = .draining) :
    channelOutput c s = (x.sample, { withChannel c (ch.afterSample (s.grantOf c) x rest) s with
      lmu := (startElement c x.mark (withChannel c (ch.advanced rest) s)).lmu }) := by
  obtain ⟨v, hmark⟩ := startElement_shape c x.mark (ch.advanced rest) s
  have hadvanced : s.updChannel c (Channel.advanced rest) = withChannel c (ch.advanced rest) s := updChannel_eq h _
  rcases hs with hs | hs
  · have hout : channelOutput c s = (x.sample,
        (startElement c x.mark (s.updChannel c (Channel.advanced rest))).updChannel c
          (Channel.settle (s.grantOf c))) := by
      simp only [channelOutput, channel_of_listed h, hs, hf]
      rfl
    have htests := withChannel_updChannel c ((ch.advanced rest).atMark x.mark) (Channel.settle (s.grantOf c))
      { s with lmu := { s.lmu with levels := v } }
    rw [hout, hadvanced, hmark, Channel.afterSample, if_pos hs]
    exact congrArg (Prod.mk x.sample) htests
  · have hout : channelOutput c s =
        (x.sample, startElement c x.mark (s.updChannel c (Channel.advanced rest))) := by
      simp only [channelOutput, channel_of_listed h, hs, hf]
      rfl
    rw [hout, hadvanced, hmark, Channel.afterSample, if_neg (by rw [hs]; exact nofun)]

end

/-! ### The rows of a channel (R143, R144, R147) -/

section
variable {s : State} {c : Nat}

theorem exec_channelEnd_gap {first : Bool} (hs : (s.channel c).state = .draining) (hf : (s.channel c).fifo = [])
    (hl : (s.channel c).latched = true) (he : ownerEnding s (s.channel c) = false) :
    exec (.channelEnd c first) s = .next (s.updChannel c (Channel.enterGap (s.grantOf c))) :=
  (if_pos ⟨hs, hf⟩).trans (if_pos ⟨hl, he⟩)

theorem exec_channelEnd_done {first : Bool} (hs : (s.channel c).state = .draining) (hf : (s.channel c).fifo = [])
    (hend : (s.channel c).latched = false ∨ ownerEnding s (s.channel c) = true) :
    exec (.channelEnd c first) s = .next (endChannel c first s) :=
  (if_pos ⟨hs, hf⟩).trans (if_neg fun ⟨hl, he⟩ => by simp [hl, he] at hend)

theorem endChannel_owned {id : Nat} (ho : (s.channel c).owner = some id) (first : Bool) : endChannel c first s =
    completeRecord id (if (s.channel c).latched then .emergencyEnded else .endOfList) first
      (causePass (s.updChannel c Channel.toIdle)) := by
  unfold endChannel
  simp only [ho]

theorem exec_underrunAbort {id : Nat} (hs : (s.channel c).state = .playing) (hrun : 1600 ≤ (s.channel c).underrunRun)
    (hf : (s.channel c).fifo = []) (ho : (s.channel c).owner = some id) :
    exec (.underrunAbort c) s = .next (endAnn id .aborted .underrun false s) := by
  change execUnderrunAbort c s = _
  unfold execUnderrunAbort
  simp only [hs, hrun, hf, ho, and_self, if_true]

end

/-! ### What a completion asks for (R95, R133, R134) -/

theorem completeRecord_eq {id : Nat} {s : State} {r : AnnRec} (h : s.ann id = some r) (why : Reason)
    (residualFirst : Bool) : completeRecord id why residualFirst s =
      let passed := passCompleted r s.sck.time (endAnn id .completed why (r.ask.origin != .live) s)
      if residualFirst then requestRepeat r s.sck.time (requestResidual r s.sck.time passed)
      else requestResidual r s.sck.time (requestRepeat r s.sck.time passed) := by
  unfold completeRecord
  simp only [h]

section
variable {r : AnnRec} {now : Nat} {s : State}

theorem requestResidual_none (h : r.ask.residual = false ∨ (r.missed ||| r.lost) = 0#32) :
    requestResidual r now s = s :=
  if_neg fun ⟨hres, hleft⟩ => h.elim (fun h => by simp [h] at hres) hleft

theorem requestResidual_asked (hres : r.ask.residual = true) (hleft : (r.missed ||| r.lost) ≠ 0#32) :
    requestResidual r now s = match createRecord (residualAsk r now) s with
      | some (_, t) => t
      | none => countBy .droppedResidualZones (zonesOf (r.missed ||| r.lost)).length s := if_pos ⟨hres, hleft⟩

theorem requestRepeat_none (h : r.ask.origin ≠ .command ∨ r.ask.repeats = 0 ∨
    (r.ask.call ≠ none ∧ s.callOf r.ask.call = none)) : requestRepeat r now s = s := by
  unfold requestRepeat
  split
  · next hcmd =>
    rcases h with h | h | ⟨hcall, hgone⟩
    · exact absurd hcmd.1 h
    · exact absurd hcmd.2 (by omega)
    · exact if_pos ⟨Option.isSome_iff_ne_none.2 hcall, Option.isNone_iff_eq_none.2 hgone⟩
  · rfl

theorem requestRepeat_asked (hcmd : r.ask.origin = .command) (hrep : 0 < r.ask.repeats)
    (hcall : r.ask.call = none ∨ s.callOf r.ask.call ≠ none) :
    requestRepeat r now s = match createRecord (repeatAsk r.ask now) s with
      | some (_, t) => t
      | none => raise (.poolFull r.ask.call none r.ask.cls s.sck.time) (count .poolFullAttempts s) := by
  have hthere : ¬(r.ask.call.isSome = true ∧ (s.callOf r.ask.call).isNone = true) := fun ⟨h1, h2⟩ =>
    hcall.elim (Option.isSome_iff_ne_none.1 h1) fun h => h (Option.isNone_iff_eq_none.1 h2)
  exact (if_pos ⟨hcmd, hrep⟩).trans (if_neg hthere)

end

end Sys2Proof.Machine
end

section
/-! Channels output and end, and what a completion asks for (R94, R95, R133, R134, R142 to R144, R147, R158). -/

open Sys2Proof Sys2Proof.Machine

/-- Settles O54: the output of a channel by its state, the rows that end a list, a gap or a record, and what a
completion asks for. -/
theorem channelsOutputAndEnd : Obligations.ChannelsOutputAndEnd := by
  unfold Obligations.ChannelsOutputAndEnd
  refine ⟨fun s c ch h => ⟨channelOutput_silent h, fun x rest hf hs => ?_, fun hf hs => channelOutput_drained h hs hf,
    fun hf hs => ?_⟩, fun s c first => ?_, fun id why residualFirst s r hr => ?_, fun r now s => ?_⟩
  · intro grant next sounding after t
    have hout := channelOutput_sounds h hf hs
    have ht : t = _ := congrArg Prod.snd hout
    have hsound : sounding = (ch.advanced rest).atMark x.mark := (atMark_eq ..).symm
    have hafter : after = ch.afterSample grant x rest := by
      unfold Channel.afterSample
      rw [← hsound]
    refine ⟨congrArg Prod.fst hout, ?_, fun hp => ?_, ?_, ?_, fun i id loops address length trim r hi hel hr z hl => ?_,
      fun hno => ?_⟩
    · rw [ht, hafter]
      rfl
    · have hplays : sounding.state = .playing := by rw [hsound, atMark_state]; exact hp
      have heq : after = sounding.settle grant := if_pos hp
      rw [heq]
      exact settle_playing hplays
    · rw [ht]
      rfl
    · obtain ⟨v, hmark⟩ := startElement_shape c x.mark (ch.advanced rest) s
      rw [ht, hmark]
    · have htrim : (ch.advanced rest).trimOf i = some trim := trimOf_eq_some.2 ⟨id, loops, address, length, hel⟩
      rw [ht, hi]
      exact startElement_level htrim hr hl
    · rw [ht]
      refine startElement_lmu (ch := ch.advanced rest) (hno.imp (fun hno i hi => ?_) fun hown => hown)
      refine Option.eq_none_iff_forall_ne_some.2 fun trim htrim => ?_
      obtain ⟨id, loops, address, length, hel⟩ := trimOf_eq_some.1 htrim
      exact hno i id loops address length trim hi hel
  · intro counted
    rw [channelOutput_empty h hs hf, underrun_eq h]
  · intro ch ending
    refine ⟨fun hno => ?_, fun hs hf hl he => exec_channelEnd_gap hs hf hl he, fun id hs hf hend ho => ?_,
      fun hno => ?_, fun hs ht => if_pos ⟨hs, ht⟩, fun hno => ?_,
      fun id hs hrun hf ho => exec_underrunAbort hs hrun hf ho⟩
    · exact if_neg fun ⟨hs, hf⟩ => hno.elim (fun h => h hs) fun h => h hf
    · refine (exec_channelEnd_done hs hf hend).trans (congrArg Host.Outcome.next ?_)
      exact endChannel_owned ho first
    · exact if_neg fun ⟨hs, ht⟩ => hno.elim (fun h => h hs) fun h => absurd ht (Nat.not_le.2 h)
    · exact if_neg fun ⟨hs, hrun, hf⟩ =>
        hno.elim (fun h => h hs) fun h => h.elim (fun h => absurd hrun (Nat.not_le.2 h)) fun h => h hf
  · intro now ended passed
    exact completeRecord_eq hr why residualFirst
  · exact ⟨requestResidual_none, requestResidual_asked, requestRepeat_none, requestRepeat_asked⟩
end

section
/-! SUPPORT. What the commands that create records ask for and answer, EMERGENCY_END, and the record that an emergency
evicts (R88, R97, R98, R100 to R102). -/

namespace Sys2Proof.Machine

/-! ### The fields of ANNOUNCE (R97) -/

theorem policyOf_fits {n : Nat} : (policyOf n).isSome = true ↔ n ≤ 1 := by
  rcases n with _ | _ | n <;> simp [policyOf]

theorem confirmOf_fits {n : Nat} : (confirmOf n).isSome = true ↔ n ≤ 2 := by
  rcases n with _ | _ | _ | n <;> simp [confirmOf]

theorem timeoutPolicyOf_fits {n : Nat} : (timeoutPolicyOf n).isSome = true ↔ n ≤ 1 := by
  rcases n with _ | _ | n <;> simp [timeoutPolicyOf]

/-- The call_ref that an ANNOUNCE names, if it names one. -/
def announceRef (b : List Byte) : Option Nat := if flagAt b 1 0 then some (be24 b 2) else none

theorem announceRef_fits {b : List Byte} : announceRef b ≠ some 0 ↔ (flagAt b 1 0 = true → be24 b 2 ≠ 0) := by
  unfold announceRef
  cases flagAt b 1 0 <;> simp

/-- The values of an ANNOUNCE that its check 1 judges by their ranges (R97). -/
def announceInRange (b : List Byte) : Prop :=
  byteAt b 11 ≤ 3 ∧ 5 ≤ be16 b 16 ∧ be16 b 16 ≤ 600 ∧ 30 ≤ be16 b 18 ∧ be16 b 18 ≤ 1800 ∧ byteAt b 15 ≤ 7 ∧
    60 ≤ be16 b 20 ∧ be16 b 20 ≤ 1800 ∧ announceRef b ≠ some 0

/-- What an ANNOUNCE asks for, its four coded fields given. -/
def announced (b : List Byte) (selector : Selector) (policy : Policy) (confirm : Confirm)
    (timeoutPolicy : TimeoutPolicy) : Ask :=
  { origin := .command, call := none, step := none, script := some (byteAt b 0), stream := none,
    cls := byteAt b 11, selector := selector, policy := policy, residual := flagAt b 1 1,
    restartable := flagAt b 1 2, latched := false, confirm := confirm, confirmTimeout := be16 b 16,
    timeoutPolicy := timeoutPolicy, earliest := 0, latest := none, window := some (be16 b 18),
    repeats := byteAt b 15, repeatInterval := be16 b 20 }

theorem parseAnnounce_eq_some {b : List Byte} {q : Option Nat × Ask} : parseAnnounce b = some q ↔
    ∃ sel pol con tim, parseSelector (b.drop 5) = some sel ∧ policyOf (byteAt b 12) = some pol ∧
      confirmOf (byteAt b 13) = some con ∧ timeoutPolicyOf (byteAt b 14) = some tim ∧ announceInRange b ∧
      q = (announceRef b, announced b sel pol con tim) := by
  unfold parseAnnounce
  constructor
  · intro h
    split at h
    · next sel pol con tim hsel hpol hcon htim =>
      simp only [Option.ite_none_right_eq_some, Option.some.injEq] at h
      exact ⟨sel, pol, con, tim, hsel, hpol, hcon, htim, h.1, h.2.symm⟩
    · cases h
  · rintro ⟨sel, pol, con, tim, hsel, hpol, hcon, htim, hrange, rfl⟩
    simp only [hsel, hpol, hcon, htim]
    exact if_pos hrange

/-- A body that fits its check 1 asks for what it carries, field by field (R97). -/
theorem parseAnnounce_fits {b : List Byte} {sel : Selector} (hsel : parseSelector (b.drop 5) = some sel)
    (hpol : byteAt b 12 ≤ 1) (hcon : byteAt b 13 ≤ 2) (htim : byteAt b 14 ≤ 1) (hrange : announceInRange b) :
    ∃ pol con tim, parseAnnounce b = some (announceRef b, announced b sel pol con tim) ∧ pol.code = byteAt b 12 ∧
      con.code = byteAt b 13 ∧ tim.code = byteAt b 14 := by
  obtain ⟨pol, hpol⟩ := Option.isSome_iff_exists.1 (policyOf_fits.2 hpol)
  obtain ⟨con, hcon⟩ := Option.isSome_iff_exists.1 (confirmOf_fits.2 hcon)
  obtain ⟨tim, htim⟩ := Option.isSome_iff_exists.1 (timeoutPolicyOf_fits.2 htim)
  exact ⟨pol, con, tim, parseAnnounce_eq_some.2 ⟨sel, pol, con, tim, hsel, hpol, hcon, htim, hrange, rfl⟩,
    policyOf_eq_some.1 hpol, confirmOf_eq_some.1 hcon, timeoutPolicyOf_eq_some.1 htim⟩

/-! ### A live page and an emergency (R98, R100) -/

/-- The two free values that have a range lie in it (log 9). -/
theorem urgentAsk_range (n : Nat) (origin : Origin) (script stream : Option Nat) (cls : Nat) (sel : Selector)
    (restartable latched : Bool) (t : Nat) :
    let a := urgentAsk n origin script stream cls sel restartable latched t
    5 ≤ a.confirmTimeout ∧ a.confirmTimeout ≤ 600 ∧ 60 ≤ a.repeatInterval ∧ a.repeatInterval ≤ 1800 := by
  have h1 := Nat.mod_lt (Config.unstatedConfirmTimeout n) (y := 596) (by decide)
  have h2 := Nat.mod_lt (Config.unstatedRepeatInterval n) (y := 1741) (by decide)
  simp only [urgentAsk]
  omega

theorem liveOn_isSome {s : State} {n : Nat} : (liveOn s n).isSome = true ↔
    ∃ r ∈ s.apl.records, r.ask.origin = .live ∧ r.ask.stream = some n := by
  simp [liveOn]

/-! ### Answers that carry a new ann_id (R88) -/

/-- A command that ends in a creation is answered with the new ann_id, or POOL_FULL. -/
theorem answers_created {i : Instr} {row : Row} {act : List Byte → State → Reply} {s u : State} {m : Message} {n : Nat}
    {a : Ask} {touch : State → State} (hexec : exec i s = .next (runCommand row act s)) (h : AtHead s m row.code n)
    (hmine : row.mine m.body = true) (hfits : row.fits m.body = true) {full : State}
    (hact : act m.body s = match createRecord a u with
      | some (id, t) => reply .ok (w16 id) (touch t)
      | none => reply .poolFull [] full) :
    match createRecord a u with
    | some (id, t) => Answers i s m .ok (w16 id) (touch t)
    | none => Answers i s m .poolFull [] full := by
  cases hc : createRecord a u with
  | none => exact answers_atHead hexec h hmine hfits (by rw [hact, hc]; rfl)
  | some q => exact answers_atHead hexec h hmine hfits (by rw [hact, hc]; rfl)

/-! ### ANNOUNCE, LIVE_PAGE_BEGIN and EMERGENCY_BEGIN (R97, R98, R100) -/

/-- The answer of a command that ends in a creation: the new ann_id, or POOL_FULL with nothing changed (R88). -/
def AnswersCreation (i : Instr) (s : State) (m : Message) (a : Ask) : Prop :=
  match createRecord a s with
  | some (id, t) => Answers i s m .ok (w16 id) t
  | none => Answers i s m .poolFull [] s

section
variable {s : State} {m : Message}

/-- An ANNOUNCE that names a call. -/
theorem announce_called (h : AtHead s m 0x50 22) {ref : Nat} {a : Ask}
    (hp : parseAnnounce m.body = some (some ref, a)) :
    (findRef s.crg.calls ref = none → Answers .announce s m .noSuchCall [] s) ∧
    ∀ slot c, findRef s.crg.calls ref = some (slot, c) →
      AnswersCreation .announce s m (announceAsk a (some (slot, ref)) s.sck.time) := by
  refine ⟨fun hc => answers_atHead rfl h rfl (fixed_length h.2) ?_, fun slot c hc =>
    answers_created (touch := id) rfl h rfl (fixed_length h.2) ?_⟩ <;>
  · rw [hp]
    simp only [hc]
    rfl

/-- An ANNOUNCE that names no call. -/
theorem announce_uncalled (h : AtHead s m 0x50 22) {a : Ask} (hp : parseAnnounce m.body = some (none, a)) :
    if scriptNeedsCall s a = true ∨ a.selector.needsCall = true then Answers .announce s m .badValue [] s
    else AnswersCreation .announce s m (announceAsk a none s.sck.time) := by
  split
  · next hneeds =>
    refine answers_atHead rfl h rfl (fixed_length h.2) ?_
    rw [hp]
    exact if_pos (by rwa [Bool.or_eq_true])
  · next hneeds =>
    refine answers_created (touch := id) rfl h rfl (fixed_length h.2) ?_
    rw [hp]
    exact if_neg (by rwa [Bool.or_eq_true])

theorem livePageBegin_refused (h : AtHead s m 0x51 8)
    (hbad : parseSelector (m.body.drop 2) = none ∨ 3 < byteAt m.body 0 ∨ 3 < byteAt m.body 1) :
    Answers .livePageBegin s m .badValue [] s := by
  refine answers_atHead rfl h rfl (fixed_length h.2) ?_
  cases hsel : parseSelector (m.body.drop 2) with
  | none => rfl
  | some sel =>
    have hvalue : 3 < byteAt m.body 0 ∨ 3 < byteAt m.body 1 := hbad.resolve_left (by simp [hsel])
    exact if_pos (hvalue.imp_right .inl)

theorem livePageBegin_needsCall (h : AtHead s m 0x51 8) {sel : Selector}
    (hsel : parseSelector (m.body.drop 2) = some sel) (hn : sel.needsCall = true) :
    Answers .livePageBegin s m .badValue [] s := by
  refine answers_atHead rfl h rfl (fixed_length h.2) ?_
  rw [hsel]
  exact if_pos (.inr (.inr hn))

/-- A LIVE_PAGE_BEGIN whose fields pass its checks: the stream may be in use already (R98). -/
theorem livePageBegin_checked (h : AtHead s m 0x51 8) {sel : Selector} (hsel : parseSelector (m.body.drop 2) = some sel)
    (h0 : byteAt m.body 0 ≤ 3) (h1 : byteAt m.body 1 ≤ 3) (hn : sel.needsCall = false) :
    ((liveOn s (byteAt m.body 0)).isSome = true → Answers .livePageBegin s m .inUse [] s) ∧
    (¬(liveOn s (byteAt m.body 0)).isSome = true →
      match createRecord (urgentAsk s.free .live none (some (byteAt m.body 0)) (byteAt m.body 1) sel false false
        s.sck.time) s.drawFree with
      | some (id, t) => Answers .livePageBegin s m .ok (w16 id)
          (t.updStream (byteAt m.body 0) fun x => { x with age := 0 })
      | none => Answers .livePageBegin s m .poolFull [] s) := by
  have hok : ¬(3 < byteAt m.body 0 ∨ 3 < byteAt m.body 1 ∨ sel.needsCall = true) := by
    simp only [hn, Bool.false_eq_true, or_false]
    omega
  refine ⟨fun hlive => answers_atHead rfl h rfl (fixed_length h.2) ?_, fun hlive => answers_created
    (touch := fun t => t.updStream (byteAt m.body 0) fun x => { x with age := 0 }) rfl h rfl (fixed_length h.2) ?_⟩
  · rw [hsel]
    exact (if_neg hok).trans (if_pos hlive)
  · rw [hsel]
    exact (if_neg hok).trans (if_neg hlive)

/-- An eviction draws no free value. -/
theorem drawFree_makeRoom (s : State) : (makeRoom s).drawFree = { makeRoom s with free := s.free + 1 } := by
  rw [State.drawFree, (Inner.makeRoom s).free]

/-- An EMERGENCY_BEGIN with a selector that needs no call makes room and creates its record (R100, R101). -/
theorem emergencyBegin_checked (h : AtHead s m 0x53 8) {sel : Selector}
    (hsel : parseSelector (m.body.drop 2) = some sel) (hn : sel.needsCall = false) :
    match createRecord (urgentAsk s.free .emergency (some (byteAt m.body 0)) none 0 sel true (flagAt m.body 1 0)
      s.sck.time) { makeRoom s with free := s.free + 1 } with
    | some (id, t) => Answers .emergencyBegin s m .ok (w16 id) t
    | none => Answers .emergencyBegin s m .poolFull [] (count .poolFullAttempts s) := by
  refine answers_created (touch := id) rfl h rfl (fixed_length h.2) ?_
  rw [hsel, ← drawFree_makeRoom]
  exact if_neg (Bool.eq_false_iff.1 hn)

theorem emergencyBegin_needsCall (h : AtHead s m 0x53 8) {sel : Selector}
    (hsel : parseSelector (m.body.drop 2) = some sel) (hn : sel.needsCall = true) :
    Answers .emergencyBegin s m .badValue [] s := by
  refine answers_atHead rfl h rfl (fixed_length h.2) ?_
  rw [hsel]
  exact if_pos hn

end

/-! ### EMERGENCY_END (R102, R144) -/

theorem endEmergencies_append (l k : List Nat) (s : State) :
    endEmergencies (l ++ k) s = endEmergencies k (endEmergencies l s) := by
  induction l generalizing s with
  | nil => rfl
  | cons id rest ih =>
    rw [List.cons_append, endEmergencies, endEmergencies]
    split <;> exact ih _

theorem endEmergencies_single {s : State} {id : Nat} {r : AnnRec} (h : s.ann id = some r) :
    endEmergencies [id] s = endEmergency r s := by
  unfold endEmergencies
  rw [h]
  rfl

theorem endEmergency_ready {r : AnnRec} (h : r.state = .ready) (s : State) :
    endEmergency r s = endRecord r.annId .withdrawn .command false s := by
  simp only [endEmergency, h]

theorem endEmergency_waiting {r : AnnRec} (h : r.state = .queued ∨ r.state = .held) (s : State) :
    endEmergency r s = s := by
  rcases h with h | h <;> simp only [endEmergency, h]

section
variable {r : AnnRec} {s : State}

theorem endEmergency_again (h : r.state = .playing) (he : r.endRequested = true) : endEmergency r s = s := by
  simp only [endEmergency, h, he, if_true]

/-- A record that plays a latched list ends in the gap between its passes (R144). -/
theorem endEmergency_gap (h : r.state = .playing) (he : r.endRequested = false) {c : Nat} (hc : r.channel = some c)
    (hl : r.ask.latched = true) (hg : (s.channel c).state = .gap) :
    endEmergency r s = completeRecord r.annId .emergencyEnded false (causePass
      ((s.updAnn r.annId fun x => { x with endRequested := true }).updChannel c Channel.toIdle)) := by
  simp only [endEmergency, h, he, Bool.false_eq_true, if_false, hc]
  exact if_pos ⟨hl, hg⟩

theorem endEmergency_marked (h : r.state = .playing) (he : r.endRequested = false)
    (hno : r.ask.latched = false ∨ ∀ c, r.channel = some c → (s.channel c).state ≠ .gap) :
    endEmergency r s = s.updAnn r.annId fun x => { x with endRequested := true } := by
  simp only [endEmergency, h, he, Bool.false_eq_true, if_false]
  cases hc : r.channel with
  | none => rfl
  | some c => exact if_neg fun ⟨hl, hg⟩ => hno.elim (fun h => by simp [h] at hl) fun h => h c hc hg

end

/-- Of the EMERGENCY records that wait, EMERGENCY_END ends those in READY, one after another, and no other. -/
theorem endEmergencies_waiting {l : List AnnRec} {s : State} (hn : (l.map fun r => r.annId).Nodup)
    (hl : ∀ r ∈ l, s.ann r.annId = some r) :
    endEmergencies ((l.filter fun r => r.ask.origin == .emergency && r.state != .playing).map fun r => r.annId) s =
      endRecords .withdrawn .command
        ((l.filter fun r => r.ask.origin == .emergency && r.state == .ready).map fun r => r.annId) s := by
  induction l generalizing s with
  | nil => rfl
  | cons r rest ih =>
    rw [List.map_cons, List.nodup_cons] at hn
    obtain ⟨hr, hrest⟩ := hn
    have htail := ih hrest fun x hx => hl x (List.mem_cons_of_mem _ hx)
    have hfound : s.ann r.annId = some r := hl r List.mem_cons_self
    cases horigin : r.ask.origin == .emergency with
    | false => simpa only [List.filter_cons, horigin, Bool.false_and, Bool.false_eq_true, if_false] using htail
    | true =>
      cases hs : r.state with
      | playing => simpa [horigin, hs] using htail
      | ready =>
        have hleft : ∀ x ∈ rest, (endRecord r.annId .withdrawn .command false s).ann x.annId = some x := fun x hx => by
          rw [endRecord_ann, if_neg fun he => hr (List.mem_map.2 ⟨x, hx, he⟩)]
          exact hl x (List.mem_cons_of_mem _ hx)
        simpa [horigin, hs, endEmergencies, hfound, endEmergency_ready hs, endRecords] using ih hrest hleft
      | queued => simpa [horigin, hs, endEmergencies, hfound, endEmergency_waiting (.inl hs)] using htail
      | held => simpa [horigin, hs, endEmergencies, hfound, endEmergency_waiting (.inr hs)] using htail

/-- EMERGENCY_END that names one record (R102). -/
theorem emergencyEnd_one {s : State} {m : Message} (h : AtHead s m 0x54 2) (h0 : be16 m.body 0 ≠ 0) :
    (s.ann (be16 m.body 0) = none → Answers .emergencyEnd s m .noSuchAnn [] s) ∧
    ∀ r, s.ann (be16 m.body 0) = some r →
      (r.ask.origin ≠ .emergency → Answers .emergencyEnd s m .badValue [] s) ∧
      (r.ask.origin = .emergency → Answers .emergencyEnd s m .ok (w16 1) (endEmergency r s)) := by
  have answered {st : Status} {body : List Byte} {t : State} (hact : _ = (⟨st, body, t⟩ : Reply)) :
      Answers .emergencyEnd s m st body t :=
    answers_atHead rfl h rfl (fixed_length h.2) ((if_neg h0).trans hact)
  refine ⟨fun hr => answered ?_, fun r hr => ⟨fun ho => answered ?_, fun ho => answered ?_⟩⟩
  · rw [hr]
    rfl
  · rw [hr]
    exact if_neg ho
  · rw [hr, endEmergencies_single hr]
    exact if_pos ho

/-! ### The record that an emergency evicts (R101) -/

theorem evictable_iff {r : AnnRec} : r.evictable = true ↔ r.state = .queued ∨ r.state = .ready := by
  simp [AnnRec.evictable]

theorem evictChoice_none {l : List AnnRec} (h : ∀ x ∈ l, x.evictable = false) : evictChoice l = none := by
  induction l with
  | nil => rfl
  | cons r rest ih =>
    rw [evictChoice, ih fun x hx => h x (List.mem_cons_of_mem _ hx)]
    exact if_neg (by simp [h r List.mem_cons_self])

theorem evictChoice_mem {l : List AnnRec} {r : AnnRec} (h : evictChoice l = some r) : r ∈ l ∧ r.evictable = true := by
  induction l with
  | nil => cases h
  | cons x rest ih =>
    unfold evictChoice at h
    split at h
    · next best hbest =>
      split at h
      · next hx => cases h; exact ⟨List.mem_cons_self, hx.1⟩
      · cases h
        obtain ⟨hm, he⟩ := ih hbest
        exact ⟨List.mem_cons_of_mem _ hm, he⟩
    · split at h
      · next hx => cases h; exact ⟨List.mem_cons_self, hx⟩
      · cases h

/-- Of the records that may be evicted, the choice is the one to be evicted rather than any other. -/
theorem evictChoice_eq {l : List AnnRec} {r : AnnRec} (hr : r ∈ l) (he : r.evictable = true)
    (hlast : ∀ x ∈ l, x.evictable = true → x ≠ r → evictsBefore x r = true ∧ evictsBefore r x = false) :
    evictChoice l = some r := by
  induction l with
  | nil => exact absurd hr List.not_mem_nil
  | cons y rest ih =>
    rw [evictChoice]
    by_cases hrest : r ∈ rest
    · rw [ih hrest fun x hx => hlast x (List.mem_cons_of_mem _ hx)]
      by_cases hy : y = r
      · simp [hy]
      · refine if_neg fun ⟨hye, hyr⟩ => ?_
        simp [(hlast y List.mem_cons_self hye hy).2] at hyr
    · have hy : y = r := ((List.mem_cons.1 hr).resolve_right hrest).symm
      subst hy
      cases hbest : evictChoice rest with
      | none => exact if_pos he
      | some best =>
        obtain ⟨hm, hbe⟩ := evictChoice_mem hbest
        have hne : best ≠ y := fun h => hrest (h ▸ hm)
        exact if_pos ⟨he, (hlast best (List.mem_cons_of_mem _ hm) hbe hne).1⟩

/-- The order of eviction (R101): y goes rather than x. -/
def AnnRec.goesAfter (x y : AnnRec) : Prop :=
  x.ask.cls < y.ask.cls ∨ (x.ask.cls = y.ask.cls ∧
    ((x.state = .ready ∧ y.state = .queued) ∨ (x.state = y.state ∧
      ((y.state = .ready ∧ x.eligibleSince.getD 0 < y.eligibleSince.getD 0) ∨
       ((y.state = .queued ∨ x.eligibleSince.getD 0 = y.eligibleSince.getD 0) ∧ x.seq < y.seq)))))

theorem evictsBefore_of_goesAfter {x y : AnnRec} (h : x.goesAfter y) :
    evictsBefore x y = true ∧ evictsBefore y x = false := by
  unfold evictsBefore
  rcases h with hcls | ⟨hcls, ⟨hx, hy⟩ | ⟨hs, ⟨hy, helig⟩ | ⟨hq | helig, hseq⟩⟩⟩
  · simp [Nat.ne_of_lt hcls, Nat.ne_of_gt hcls, hcls, Nat.le_of_lt hcls]
  · simp [hcls, hx, hy]
  · simp [hcls, hs, hy, Nat.ne_of_lt helig, Nat.ne_of_gt helig, helig, Nat.le_of_lt helig]
  · simp [hcls, hs, hq, hseq, Nat.le_of_lt hseq]
  · simp [hcls, hs, helig, hseq, Nat.le_of_lt hseq]

theorem makeRoom_none {s : State} (h : s.apl.records.length < 96 ∨ ∀ x ∈ s.apl.records, x.evictable = false) :
    makeRoom s = s := by
  unfold makeRoom
  split
  · next hfull =>
    have hfull : 96 ≤ s.apl.records.length := hfull
    rw [evictChoice_none (h.resolve_left (Nat.not_lt.2 hfull))]
  · rfl

theorem makeRoom_evicts {s : State} {r : AnnRec} (hfull : 96 ≤ s.apl.records.length)
    (h : evictChoice s.apl.records = some r) : makeRoom s = endRecord r.annId .withdrawn .evicted false s := by
  unfold makeRoom
  rw [if_pos hfull, h]

end Sys2Proof.Machine
end

section
/-! The commands that create records, and EMERGENCY_END (R88, R97, R98, R100 to R102). -/

open Sys2Proof Sys2Proof.Machine

/-- Settles O43: the fields asked for, each command's checks in turn, EMERGENCY_END record by record, and the record
evicted. -/
theorem creatingCommandsAreAnswered : Obligations.CreatingCommandsAreAnswered := by
  unfold Obligations.CreatingCommandsAreAnswered
  refine ⟨fun b => ?_, fun n origin script stream cls sel restartable latched t => ?_, fun s m => ?_, fun s m => ?_,
    fun r s => ?_, fun s => ?_⟩
  · intro named fits
    refine ⟨fun hno => ?_, fun hfits => ?_⟩
    · refine Option.eq_none_iff_forall_ne_some.2 fun q hq => hno ?_
      obtain ⟨sel, pol, con, tim, hsel, hpol, hcon, htim, hrange, -⟩ := parseAnnounce_eq_some.1 hq
      obtain ⟨hcls, h1, h2, h3, h4, hrep, h5, h6, href⟩ := hrange
      exact ⟨by simp [hsel], hcls, policyOf_fits.1 (by simp [hpol]), confirmOf_fits.1 (by simp [hcon]),
        timeoutPolicyOf_fits.1 (by simp [htim]), hrep, h1, h2, h3, h4, h5, h6, announceRef_fits.1 href⟩
    · obtain ⟨hsel, hcls, hpol, hcon, htim, hrep, h1, h2, h3, h4, h5, h6, href⟩ := hfits
      obtain ⟨sel, hsel⟩ := Option.isSome_iff_exists.1 hsel
      obtain ⟨pol, con, tim, hparse, hpol, hcon, htim⟩ := parseAnnounce_fits hsel hpol hcon htim
        ⟨hcls, h1, h2, h3, h4, hrep, h5, h6, announceRef_fits.2 href⟩
      exact ⟨announced b sel pol con tim, hparse, rfl, rfl, rfl, rfl, rfl, hsel, rfl, hpol, rfl, rfl, hcon, htim, rfl,
        rfl, rfl, rfl⟩
  · obtain ⟨h1, h2, h3, h4⟩ := urgentAsk_range n origin script stream cls sel restartable latched t
    exact ⟨h1, h2, h3, h4, rfl, rfl, rfl, rfl, rfl, rfl, rfl, rfl, rfl, rfl, rfl, rfl, rfl, rfl, rfl, rfl⟩
  · intro b created
    refine ⟨fun h => ⟨fun hp => ?_, fun ref a hp => announce_called h hp, fun a hp => announce_uncalled h hp⟩,
      fun h => ⟨livePageBegin_refused h, fun sel hsel h0 h1 => ⟨livePageBegin_needsCall h hsel, fun hn => ?_⟩⟩,
      fun h => ⟨fun hbad => ?_, fun sel hsel => ⟨emergencyBegin_needsCall h hsel, emergencyBegin_checked h hsel⟩⟩⟩
    · exact answers_atHead rfl h rfl (fixed_length h.2) (by rw [hp]; rfl)
    · obtain ⟨hused, hfree⟩ := livePageBegin_checked h hsel h0 h1 hn
      refine ⟨fun hlive => hused (liveOn_isSome.2 hlive), fun hnone => hfree fun hlive => ?_⟩
      obtain ⟨r, hr, ho, hs⟩ := liveOn_isSome.1 hlive
      exact hnone r hr ho hs
    · exact answers_atHead rfl h rfl (fixed_length h.2) (by rw [hbad]; rfl)
  · intro b h
    refine ⟨fun h0 => ?_, fun h0 => (emergencyEnd_one h h0).1, fun r h0 hr => (emergencyEnd_one h h0).2 r hr⟩
    intro emergencies ids
    refine ⟨answers_atHead rfl h rfl (fixed_length h.2) (if_pos h0), fun hp => ?_⟩
    exact (endEmergencies_append ..).trans (congrArg (endEmergencies _) (endEmergencies_waiting hp.2.1
      fun r hr => ann_of_mem hp hr))
  · intro marked
    exact ⟨fun hs => endEmergency_ready hs s, endEmergency_again, fun hs he =>
      ⟨fun c hc hl hg => endEmergency_gap hs he hc hl hg, endEmergency_marked hs he⟩⟩
  · intro waiting
    refine ⟨fun h => makeRoom_none (h.imp_right fun h x hx => ?_), fun r hr hfull hw hlast => ?_⟩
    · exact Bool.eq_false_iff.2 fun he => h x hx (evictable_iff.1 he)
    · exact makeRoom_evicts hfull (evictChoice_eq hr (evictable_iff.2 hw) fun x hx hxe hne =>
        evictsBefore_of_goesAfter (hlast x hx (evictable_iff.1 hxe) hne))
end

section
/-! SUPPORT. What selectors resolve to and what a judgement of a zone's availability does (R113, R115, R117, R119, R130,
R173). -/

namespace Sys2Proof.Machine

/-! ### Zone sets made by a condition (R115, R117, R119) -/

theorem zoneSetOf_filter (p : Nat → Bool) {z : Nat} (hz : z < 32) :
    (zoneSetOf ((List.range 32).filter p)).getLsbD z = p z := by
  rw [zoneSetOf_get _ _ hz, Bool.eq_iff_iff, List.contains_iff_mem, List.mem_filter, List.mem_range]
  exact and_iff_right hz

theorem groupMembers_get (s : State) (g : Nat) {z : Nat} (hz : z < 32) : (groupMembers s g).getLsbD z =
    ((s.zone z).code &&& (tabGetD s.zar.groups g GroupEntry.reset).mask ==
      (tabGetD s.zar.groups g GroupEntry.reset).value &&& (tabGetD s.zar.groups g GroupEntry.reset).mask) :=
  zoneSetOf_filter _ hz

/-- The platform of a call gives its map entry, and neither an absent call nor an absent platform gives a zone (R117,
R118). -/
theorem callPlatformZones_get (s : State) (call : Option (Nat × Nat)) (z : Nat) :
    (callPlatformZones s call).getLsbD z =
      (s.callOf call).any fun c => c.platform != 0 && (platformZones s c.platform).getLsbD z := by
  unfold callPlatformZones
  cases s.callOf call with
  | none => simp
  | some c => by_cases hp : c.platform = 0 <;> simp [hp]

/-! ### A zone taken from its holder (R130, R173) -/

theorem updZone_updZone (z : Nat) (f g : ZoneEntry → ZoneEntry) (s : State) :
    (s.updZone z f).updZone z g = s.updZone z fun e => g (f e) := by
  simp only [State.updZone, State.onZar, tabUpd_tabUpd]

/-- A zone lost to a fault: it leaves its holder's held set and joins its lost set, has no holder and no G, and a pass
is caused (R120, R130). -/
def zoneLost (z id : Nat) (s : State) : State :=
  causePass (clearHolders [z] (s.updAnn id (AnnRec.robbed (BitVec.twoPow 32 z))))

section
variable {z id : Nat} {s : State} {r : AnnRec}

theorem zoneLost_ann (z : Nat) (h : s.ann id = some r) :
    (zoneLost z id s).ann id = some (r.robbed (BitVec.twoPow 32 z)) := by
  have hann := updAnn_ann (s := s) (id := id) (f := AnnRec.robbed (BitVec.twoPow 32 z)) (by intro _; rfl) id
  rw [if_pos rfl, h] at hann
  exact hann

theorem zoneLost_ann_other (z : Nat) {other : Nat} (h : other ≠ id) (s : State) :
    (zoneLost z id s).ann other = s.ann other := by
  have hann := updAnn_ann (s := s) (id := id) (f := AnnRec.robbed (BitVec.twoPow 32 z)) (by intro _; rfl) other
  rw [if_neg h] at hann
  exact hann

theorem zoneLost_holder (z id : Nat) (s : State) : ((zoneLost z id s).zone z).holder = none :=
  (clearHolders_zone [z] (s.updAnn id (AnnRec.robbed (BitVec.twoPow 32 z))) z).1 (List.mem_singleton.2 rfl)

theorem zoneFault_free (h : (s.zone z).holder = none) : zoneFault z s = s := by
  unfold zoneFault
  rw [h]

/-- The zones that a fault leaves its holder decide whether it plays on (R130). -/
theorem zoneFault_held (h : (s.zone z).holder = some id) : zoneFault z s =
    if ((zoneLost z id s).ann id).any fun r => r.held = 0#32 then
      endRecord id .aborted .noZonesLeft false (zoneLost z id s)
    else zoneLost z id s := by
  unfold zoneFault
  rw [h]
  change (match (zoneLost z id s).ann id with
    | some r => if r.held = 0#32 then endRecord id .aborted .noZonesLeft false (zoneLost z id s) else zoneLost z id s
    | none => zoneLost z id s) = _
  cases (zoneLost z id s).ann id with
  | none => rfl
  | some r => simp

/-- The last zone lost ends its holder; with another zone it plays on (R130). -/
theorem zoneFault_of_holder (h : (s.zone z).holder = some id) (hr : s.ann id = some r) : zoneFault z s =
    if r.held &&& ~~~(BitVec.twoPow 32 z) = 0#32 then
      endRecord id .aborted .noZonesLeft false (zoneLost z id s)
    else zoneLost z id s := by
  rw [zoneFault_held h, zoneLost_ann z hr]
  simp [AnnRec.robbed]

/-! ### The flags of the zones -/

theorem endRecord_flags (id : Nat) (o : AnnOutcome) (why : Reason) (ended : Bool) (s : State) (x : Nat) :
    ((endRecord id o why ended s).zone x).available = (s.zone x).available ∧
      ((endRecord id o why ended s).zone x).enabled = (s.zone x).enabled := by
  cases h : s.ann id with
  | none => rw [endRecord_none h]; exact ⟨rfl, rfl⟩
  | some r =>
    have hstopped : (if ended then s else stopSource r s).zone x = s.zone x := by
      split
      · rfl
      · exact stopSource_zone r s x
    rw [endRecord_zone h, ← hstopped, released, releaseZones]
    split
    · exact ⟨rfl, rfl⟩
    · exact (clearHolders_zone (zonesOf r.held) _ x).2.2

theorem zoneFault_flags (z : Nat) (s : State) (x : Nat) :
    ((zoneFault z s).zone x).available = (s.zone x).available ∧
      ((zoneFault z s).zone x).enabled = (s.zone x).enabled := by
  cases h : (s.zone z).holder with
  | none => rw [zoneFault_free h]; exact ⟨rfl, rfl⟩
  | some id =>
    obtain ⟨ha, he⟩ : ((zoneLost z id s).zone x).available = (s.zone x).available ∧
      ((zoneLost z id s).zone x).enabled = (s.zone x).enabled :=
        (clearHolders_zone [z] (s.updAnn id (AnnRec.robbed (BitVec.twoPow 32 z))) x).2.2
    rw [zoneFault_held h]
    split
    · obtain ⟨ha', he'⟩ := endRecord_flags id .aborted .noZonesLeft false (zoneLost z id s) x
      exact ⟨ha'.trans ha, he'.trans he⟩
    · exact ⟨ha, he⟩

theorem zoneFault_holder (z : Nat) (s : State) : ((zoneFault z s).zone z).holder = none := by
  cases h : (s.zone z).holder with
  | none => rw [zoneFault_free h, h]
  | some id =>
    have hlost := zoneLost_holder z id s
    rw [zoneFault_held h]
    split
    · refine Option.eq_none_iff_forall_ne_some.2 fun x hx => ?_
      rw [endRecord_holder hx] at hlost
      cases hlost
    · exact hlost

/-! ### A judgement (R113, R119, R173) -/

/-- What a judgement finds of a zone: available when its enabled flag is set and its link usable (R119). -/
def State.judged (s : State) (z : Nat) : Bool := (s.zone z).enabled && (s.link z).usable

theorem judgeAvailability_same (h : s.judged z = (s.zone z).available) (cause : ZoneCause) :
    judgeAvailability z cause s = s := if_pos h

theorem judgeAvailability_changed (h : s.judged z ≠ (s.zone z).available) (cause : ZoneCause) :
    judgeAvailability z cause s =
      let now := s.judged z
      let u := s.updZone z fun e => { e with available := now }
      causePass (raise (.zoneState z now cause) (if now then u else zoneFault z u)) := if_neg h

/-- The zone table after a notice and a cause of a pass is the one before them. -/
theorem causePass_raise_zone (n : Notice) (s : State) (x : Nat) : (causePass (raise n s)).zone x = s.zone x := by
  have h : (causePass (raise n s)).zar.zones = s.zar.zones := by
    change (raise n s).zar.zones = s.zar.zones
    rw [raise_zar]
  rw [State.zone, h]
  rfl

/-- A change of zones that keeps a value of each entry keeps that value of every zone. -/
theorem updZone_keeps {β : Type} (view : ZoneEntry → β) {f : ZoneEntry → ZoneEntry} (hf : ∀ e, view (f e) = view e)
    (z : Nat) (s : State) (x : Nat) : view ((s.updZone z f).zone x) = view (s.zone x) := by
  rw [updZone_zone]
  split
  · next hx =>
    subst hx
    rw [State.zone, tabGetD]
    cases tabGet s.zar.zones x with
    | none => rfl
    | some e => exact hf e
  · rfl

/-- A judgement sets no enabled flag and clears none. -/
theorem judgeAvailability_enabled (z : Nat) (cause : ZoneCause) (s : State) (x : Nat) :
    ((judgeAvailability z cause s).zone x).enabled = (s.zone x).enabled := by
  by_cases h : s.judged z = (s.zone z).available
  · rw [judgeAvailability_same h]
  · rw [judgeAvailability_changed h]
    simp only [causePass_raise_zone]
    split
    · exact updZone_keeps ZoneEntry.enabled (by intro _; rfl) z s x
    · exact (zoneFault_flags ..).2.trans (updZone_keeps ZoneEntry.enabled (by intro _; rfl) z s x)

/-- A listed zone is available as its flag and its link say once it is judged (R119). -/
theorem judgeAvailability_available (hz : (tabGet s.zar.zones z).isSome = true) (cause : ZoneCause) :
    ((judgeAvailability z cause s).zone z).available = s.judged z := by
  by_cases h : s.judged z = (s.zone z).available
  · rw [judgeAvailability_same h, h]
  · have hset : ((s.updZone z fun e => { e with available := s.judged z }).zone z).available = s.judged z := by
      obtain ⟨e, he⟩ := Option.isSome_iff_exists.1 hz
      rw [updZone_zone, if_pos rfl, he]
      rfl
    rw [judgeAvailability_changed h]
    simp only [causePass_raise_zone]
    split
    · exact hset
    · exact (zoneFault_flags ..).1.trans hset

/-- A zone that becomes unavailable is taken from its holder before it is noticed (R130, R173). -/
theorem judgeAvailability_lost (h : s.judged z ≠ (s.zone z).available) (hnow : s.judged z = false)
    (cause : ZoneCause) : judgeAvailability z cause s = causePass (raise (.zoneState z false cause)
      (zoneFault z (s.updZone z fun e => { e with available := false }))) := by
  rw [judgeAvailability_changed h, hnow]
  rfl

/-- A zone that is found unavailable is lost as one that leaves its holder in the act in which its flag falls. -/
theorem zoneLost_unavailable (z id : Nat) (s : State) :
    zoneLost z id (s.updZone z fun e => { e with available := false }) =
      causePass (State.updLevel z (fun l => { l with att := none, releaseAge := 0 })
        (State.updZone z (fun e => { e with available := false, holder := none })
          (s.updAnn id (AnnRec.robbed (BitVec.twoPow 32 z))))) :=
  congrArg (fun t => causePass (State.updLevel z (fun l => { l with att := none, releaseAge := 0 }) t))
    (updZone_updZone z (fun e => { e with available := false }) (fun e => { e with holder := none })
      (s.updAnn id (AnnRec.robbed (BitVec.twoPow 32 z))))

end

/-- A zone taken out of a set, and one put into a set (R128, R130). -/
theorem robbed_get (r : AnnRec) (z : Nat) {x : Nat} (hx : x < 32) :
    (r.robbed (BitVec.twoPow 32 z)).held.getLsbD x = (r.held.getLsbD x && x != z) ∧
      (r.robbed (BitVec.twoPow 32 z)).lost.getLsbD x = (r.lost.getLsbD x || x == z) := by
  have hone : (BitVec.twoPow 32 z).getLsbD x = (x == z) := by
    rw [BitVec.getLsbD_twoPow, Bool.eq_iff_iff]
    grind
  simp only [AnnRec.robbed, BitVec.getLsbD_and, BitVec.getLsbD_or, BitVec.getLsbD_not, hone, hx, decide_true,
    Bool.true_and, bne, and_self]

end Sys2Proof.Machine
end

section
/-! Selectors and availability (R113, R115, R117 to R119, R130, R173). -/

open Sys2Proof Sys2Proof.Machine

/-- Settles O49: a selector by its form, and a judgement by what changes and by the holder of the zone. -/
theorem zonesResolveByMapAndLink : Obligations.ZonesResolveByMapAndLink := by
  unfold Obligations.ZonesResolveByMapAndLink
  refine ⟨fun s a z hz => ?_, fun z cause s hz => ?_⟩
  · intro member ofCall
    have hmember : ∀ g, (groupMembers s g).getLsbD z = member g := fun g => groupMembers_get s g hz
    have hcall : (callPlatformZones s a.call).getLsbD z = ofCall := by
      rw [callPlatformZones_get]
      simp only [ofCall]
      cases s.callOf a.call <;> rfl
    unfold resolveZones
    cases a.selector with
    | explicit zones => rfl
    | platform p => rfl
    | callPlatform => exact hcall
    | group g => exact hmember g
    | callPlatformAndGroup g => simp only [BitVec.getLsbD_or, hcall, hmember]
    | all => exact BitVec.getLsbD_allOnes.trans (decide_eq_true hz)
  · intro now t
    refine ⟨judgeAvailability_available hz cause, judgeAvailability_enabled z cause s z,
      fun h => judgeAvailability_same h cause,
      fun h => ⟨?_, fun hfree => ?_, fun hnow => ?_, fun id r hnow hh hr => ?_⟩⟩
    · exact congrArg (fun u : State => u.zar.passPending) (judgeAvailability_changed h cause)
    · refine (judgeAvailability_changed h cause).trans ?_
      have hfault := zoneFault_free ((updZone_keeps ZoneEntry.holder
        (f := fun e => { e with available := now }) (by intro _; rfl) z s z).trans hfree)
      exact congrArg (fun u => causePass (raise (.zoneState z now cause) u)) ((congrArg _ hfault).trans (ite_self _))
    · simp only [t, judgeAvailability_lost h hnow, causePass_raise_zone]
      exact zoneFault_holder ..
    · intro held lost taken
      let u := s.updZone z fun e => { e with available := false }
      have hlost : zoneLost z id u = taken := zoneLost_unavailable z id s
      have ht : t = causePass (raise (.zoneState z false cause) (zoneFault z u)) := judgeAvailability_lost h hnow cause
      have hfault := zoneFault_of_holder (s := u) ((updZone_keeps ZoneEntry.holder (by intro _; rfl) z s z).trans hh) hr
      rw [hlost] at hfault
      refine ⟨fun x hx => robbed_get r z hx, hlost ▸ zoneLost_ann (s := u) z hr,
        fun other ho => hlost ▸ zoneLost_ann_other z ho u, rfl, fun hkeeps => ?_, fun hnone => ?_⟩
      · rw [ht, hfault, if_neg hkeeps]
      · rw [ht, hfault, if_pos hnone]
end

section
/-! SUPPORT. The order of a pass, the zones that may be taken in it, a record's turn and its source (R121 to R127). -/

namespace Sys2Proof.Machine

/-! ### The order of a pass (R121) -/

theorem sortBy_perm {α : Type} (before : α → α → Bool) (l : List α) : (sortBy before l).Perm l := by
  induction l with
  | nil => exact List.Perm.refl _
  | cons x rest ih => exact (insertBy_perm before x _).trans (ih.cons x)

section
variable {α : Type} {before : α → α → Bool}

/-- A list in the order of a total relation is in order once an entry has gone to its place. -/
theorem insertBy_pairwise (htrans : ∀ x y z, before x y = true → before y z = true → before x z = true)
    (htotal : ∀ x y, before x y = false → before y x = true) (x : α) {l : List α}
    (hl : l.Pairwise fun x y => before x y = true) : (insertBy before x l).Pairwise fun x y => before x y = true := by
  induction l with
  | nil => exact List.pairwise_singleton _ x
  | cons y rest ih =>
    obtain ⟨hy, hrest⟩ := List.pairwise_cons.1 hl
    unfold insertBy
    split
    · next hyx =>
      refine List.pairwise_cons.2 ⟨fun w hw => ?_, ih hrest⟩
      rcases (mem_insertBy before x w rest).1 hw with rfl | hw
      · exact hyx
      · exact hy w hw
    · next hyx =>
      have hxy : before x y = true := htotal y x (Bool.eq_false_iff.2 hyx)
      refine List.pairwise_cons.2 ⟨fun w hw => ?_, hl⟩
      rcases List.mem_cons.1 hw with rfl | hw
      · exact hxy
      · exact htrans x y w hxy (hy w hw)

theorem sortBy_pairwise (htrans : ∀ x y z, before x y = true → before y z = true → before x z = true)
    (htotal : ∀ x y, before x y = false → before y x = true) (l : List α) :
    (sortBy before l).Pairwise fun x y => before x y = true := by
  induction l with
  | nil => exact List.Pairwise.nil
  | cons x rest ih => exact insertBy_pairwise htrans htotal x ih

end

theorem passBefore_iff {x y : AnnRec} : passBefore x y = true ↔
    x.ask.cls < y.ask.cls ∨ (x.ask.cls = y.ask.cls ∧ (x.eligibleSince.getD 0 < y.eligibleSince.getD 0 ∨
      (x.eligibleSince.getD 0 = y.eligibleSince.getD 0 ∧ x.seq ≤ y.seq))) := by
  simp only [passBefore, Bool.or_eq_true, Bool.and_eq_true, decide_eq_true_eq, beq_iff_eq]

theorem passBefore_trans (x y z : AnnRec) (hxy : passBefore x y = true) (hyz : passBefore y z = true) :
    passBefore x z = true := by
  rw [passBefore_iff] at *
  omega

theorem passBefore_total (x y : AnnRec) (h : passBefore x y = false) : passBefore y x = true := by
  rw [← Bool.not_eq_true, passBefore_iff] at h
  rw [passBefore_iff]
  omega

/-! ### The zones that may be taken (R123) -/

theorem zoneFree_iff {s : State} {z : Nat} : zoneFree s z = true ↔ (s.zone z).holder = none := Option.isNone_iff_eq_none

theorem zonePreemptible_iff {s : State} {cls z : Nat} : zonePreemptible s cls z = true ↔
    ∃ h x, (s.zone z).holder = some h ∧ s.ann h = some x ∧ cls < x.ask.cls := by
  have hbind : zonePreemptible s cls z = ((s.zone z).holder.bind s.ann).any fun x => decide (cls < x.ask.cls) := by
    unfold zonePreemptible
    cases (s.zone z).holder.bind s.ann <;> rfl
  simp only [hbind, Option.any_eq_true, Option.bind_eq_some_iff, decide_eq_true_eq]
  grind

theorem takeable_get {s : State} {cls : Nat} {reserved u : ZoneSet} {z : Nat} (hz : z < 32) :
    (takeable s cls reserved u).getLsbD z = true ↔ u.getLsbD z = true ∧ reserved.getLsbD z = false ∧
      ((s.zone z).holder = none ∨ ∃ h x, (s.zone z).holder = some h ∧ s.ann h = some x ∧ cls < x.ask.cls) := by
  rw [takeable, zoneSetOf_get _ _ hz, List.contains_iff_mem, List.mem_filter, mem_zonesOf, Bool.or_eq_true,
    zoneFree_iff, zonePreemptible_iff, BitVec.getLsbD_and, BitVec.getLsbD_not, decide_eq_true hz, Bool.true_and,
    Bool.and_eq_true, Bool.not_eq_true', and_assoc]

/-! ### A record's turn (R122 to R126) -/

section
variable {id : Nat} {reserved : ZoneSet} {s : State} {r : AnnRec}

/-- The zones that a record's selector resolves to and that are available (R122). -/
def usableZones (s : State) (r : AnnRec) : ZoneSet := resolveZones s r.ask &&& availableZones s

/-- A record starts from its source, if it has one, and waits otherwise (R126). -/
def startFrom (r : AnnRec) (u taken : ZoneSet) (s : State) : State :=
  match sourceFor s r with
  | some src => tryStart r src u taken s
  | none => s

theorem takeTurn_waiting (h : s.ann id = some r) (hs : r.state ≠ .ready) : takeTurn id reserved s = (reserved, s) := by
  simp only [takeTurn, h]
  exact if_pos hs

theorem takeTurn_noZones (h : s.ann id = some r) (hs : r.state = .ready) (hu : usableZones s r = 0#32) :
    takeTurn id reserved s = (reserved, noteNoZones r (resolveZones s r.ask) s) := by
  simp only [takeTurn, h]
  exact (if_neg (not_not_intro hs)).trans (if_pos hu)

/-- A READY record with usable zones: its policy decides whether it starts on those that it may take, waits, or reserves
them all (R124, R125). -/
theorem takeTurn_usable (h : s.ann id = some r) (hs : r.state = .ready) (hu : usableZones s r ≠ 0#32) :
    takeTurn id reserved s =
      let taken := takeable s r.ask.cls reserved (usableZones s r)
      if r.ask.policy = .whole then
        if taken = usableZones s r then (reserved, startFrom r (usableZones s r) taken s)
        else (reserved ||| usableZones s r, s)
      else if taken = 0#32 then (reserved, s)
      else (reserved, startFrom r (usableZones s r) taken s) := by
  unfold usableZones at hu ⊢
  simp only [takeTurn, h, hs, ne_eq, not_true_eq_false, if_false, hu, startFrom]
  cases r.ask.policy with
  | whole =>
    simp only [if_true]
    split
    · next htaken =>
      rw [htaken]
      cases sourceFor s r <;> rfl
    · rfl
  | part =>
    simp only [reduceCtorEq, if_false]
    cases sourceFor s r <;> rfl

/-- A record that is not blocked starts on the zones that it may take (R124, R125). -/
theorem takeTurn_starts (h : s.ann id = some r) (hs : r.state = .ready) (hu : usableZones s r ≠ 0#32)
    (hmay : (r.ask.policy = .whole ∧ takeable s r.ask.cls reserved (usableZones s r) = usableZones s r) ∨
      (r.ask.policy = .part ∧ takeable s r.ask.cls reserved (usableZones s r) ≠ 0#32)) :
    takeTurn id reserved s =
      (reserved, startFrom r (usableZones s r) (takeable s r.ask.cls reserved (usableZones s r)) s) := by
  rw [takeTurn_usable h hs hu]
  rcases hmay with ⟨hp, ht⟩ | ⟨hp, ht⟩ <;> simp [hp, ht]

end

/-! ### The source (R126, R127) -/

section
variable {s : State} {r : AnnRec}

theorem sourceFor_stream {n : Nat} (h : r.ask.stream = some n) : sourceFor s r = some .stream := by
  unfold sourceFor
  rw [h]

theorem idleChannel_none (h : ∀ c, c < 6 → (s.channel c).state ≠ .idle) : idleChannel s = none := by
  simpa [idleChannel, List.find?_eq_none] using h

/-- With every channel busy a scripted record has a source only if it is of class 0 (R126, R127). -/
theorem sourceFor_busy (hstream : r.ask.stream = none) (h : ∀ c, c < 6 → (s.channel c).state ≠ .idle) :
    sourceFor s r = if r.ask.cls = 0 then stealChoice s else none := by
  unfold sourceFor
  simp only [hstream, idleChannel_none h]

/-- A record that a class-0 record may take its channel from (R127). -/
def StealCandidate (s : State) (v : AnnRec) (c : Nat) : Prop :=
  v ∈ s.apl.records ∧ v.state = .playing ∧ 1 ≤ v.ask.cls ∧ v.channel = some c

theorem mem_stealCandidates {p : Nat × Nat × Nat} : p ∈ stealCandidates s ↔
    ∃ v c, StealCandidate s v c ∧ p = (v.ask.cls, c, v.annId) := by
  simp only [stealCandidates, StealCandidate, List.mem_filterMap, Option.ite_none_right_eq_some, Option.map_eq_some_iff]
  grind

theorem stealChoice_none (h : ∀ v c, ¬StealCandidate s v c) : stealChoice s = none := by
  have hnil : stealCandidates s = [] := List.eq_nil_iff_forall_not_mem.2 fun p hp => by
    obtain ⟨v, c, hv, -⟩ := mem_stealCandidates.1 hp
    exact h v c hv
  unfold stealChoice
  rw [hnil]

/-- The first of two candidates is chosen before the second: it is of a less urgent class, or of the same class and was
given its channel more recently (R127, log 17). -/
def ChosenBefore (s : State) (p q : Nat × Nat × Nat) : Prop :=
  q.1 < p.1 ∨ (q.1 = p.1 ∧ grantAge s p.2.1 < grantAge s q.2.1)

theorem betterVictim_left {p q : Nat × Nat × Nat} (h : ChosenBefore s p q) : betterVictim s p q = p := by
  refine if_neg fun hn => ?_
  unfold ChosenBefore at h
  omega

theorem betterVictim_right {p q : Nat × Nat × Nat} (h : ChosenBefore s p q) : betterVictim s q p = p := if_pos h

/-- The candidate that is chosen before every other is the one that remains, wherever it stands. -/
theorem foldl_betterVictim_eq {p x : Nat × Nat × Nat} {l : List (Nat × Nat × Nat)} (hp : p ∈ x :: l)
    (hbest : ∀ q ∈ x :: l, q = p ∨ ChosenBefore s p q) : l.foldl (betterVictim s) x = p := by
  induction l generalizing x with
  | nil => exact (List.mem_singleton.1 hp).symm
  | cons y rest ih =>
    obtain ⟨hx, hy, hrest⟩ : (x = p ∨ ChosenBefore s p x) ∧ (y = p ∨ ChosenBefore s p y) ∧
        ∀ q ∈ rest, q = p ∨ ChosenBefore s p q := by simpa using hbest
    -- p is the better of the first two, or stands behind them
    have hfirst : betterVictim s x y = p ∨
        (p ∈ rest ∧ ChosenBefore s p (betterVictim s x y)) := by
      by_cases hxp : x = p
      · subst hxp
        rcases hy with rfl | hy
        · exact .inl (ite_self _)
        · exact .inl (betterVictim_left hy)
      · have hx := hx.resolve_left hxp
        by_cases hyp : y = p
        · subst hyp
          exact .inl (betterVictim_right hx)
        · refine .inr ⟨by simpa [Ne.symm hxp, Ne.symm hyp] using hp, ?_⟩
          unfold betterVictim
          split
          · exact hy.resolve_left hyp
          · exact hx
    refine ih ?_ fun q hq => ?_
    · exact List.mem_cons.2 (hfirst.imp Eq.symm And.left)
    · rcases List.mem_cons.1 hq with rfl | hq
      · exact hfirst.imp_right And.right
      · exact hrest q hq

/-- A candidate that is chosen before every other is the victim (R127). -/
theorem stealChoice_eq {v : AnnRec} {c : Nat} (hv : StealCandidate s v c)
    (hbest : ∀ x d, StealCandidate s x d → x ≠ v → ChosenBefore s (v.ask.cls, c, v.annId) (x.ask.cls, d, x.annId)) :
    stealChoice s = some (.steal c v.annId) := by
  have hp : (v.ask.cls, c, v.annId) ∈ stealCandidates s := mem_stealCandidates.2 ⟨v, c, hv, rfl⟩
  have hall : ∀ q ∈ stealCandidates s, q = (v.ask.cls, c, v.annId) ∨ ChosenBefore s (v.ask.cls, c, v.annId) q := by
    intro q hq
    obtain ⟨x, d, hx, rfl⟩ := mem_stealCandidates.1 hq
    by_cases hxv : x = v
    · subst hxv
      have hcd : d = c := Option.some.inj (hx.2.2.2.symm.trans hv.2.2.2)
      exact .inl (by rw [hcd])
    · exact .inr (hbest x d hx hxv)
  unfold stealChoice
  cases hl : stealCandidates s with
  | nil =>
    rw [hl] at hp
    cases hp
  | cons x rest =>
    rw [hl] at hp hall
    simp only [foldl_betterVictim_eq hp hall]

end

end Sys2Proof.Machine
end

section
/-! The order of a pass, the turns it is made of, and the sources (R121 to R127). -/

open Sys2Proof Sys2Proof.Machine

/-- Settles O50: the records sorted, a turn by its record's state, usable zones and policy, and a source by the channels
that are IDLE and the candidates for a steal. -/
theorem passesTakeTurnsInOrder : Obligations.PassesTakeTurnsInOrder := by
  unfold Obligations.PassesTakeTurnsInOrder
  refine ⟨fun s => ⟨_, rfl, sortBy_perm .., (sortBy_pairwise passBefore_trans passBefore_total _).imp passBefore_iff.1⟩,
    ⟨fun s cls reserved u z hz => takeable_get hz, fun id reserved s r hr =>
      ⟨takeTurn_waiting hr, fun hready => ?_⟩⟩, fun s r => ?_⟩
  · intro resolved u taken
    refine ⟨fun hu => ?_, fun hu hp ht => ?_, fun hu hp ht => ?_, fun hu hmay => ?_⟩
    · rw [takeTurn_noZones hr hready hu, noteNoZones, (mem_of_ann hr).2]
    · rw [takeTurn_usable hr hready hu]
      exact (if_pos hp).trans (if_neg ht)
    · rw [takeTurn_usable hr hready hu]
      exact (if_neg (by rw [hp]; decide)).trans (if_pos ht)
    · have hturn : takeTurn id reserved s = (reserved, startFrom r u taken s) := takeTurn_starts hr hready hu hmay
      refine ⟨fun hnone => ?_, fun src hsrc => ?_⟩
      · rw [hturn, startFrom, hnone]
      · rw [hturn, startFrom, hsrc]
  · intro candidate
    refine ⟨fun n hn => sourceFor_stream hn, fun hn => ⟨fun c hc hidle hfirst => sourceFor_idle hn hc hidle hfirst,
      fun hbusy => ⟨fun h => ?_, fun v c hcls hv hbest => ?_⟩⟩⟩
    · rw [sourceFor_busy hn hbusy]
      split
      · next hcls => exact stealChoice_none (h.resolve_left (not_not_intro hcls))
      · rfl
    · rw [sourceFor_busy hn hbusy, if_pos hcls]
      exact stealChoice_eq hv hbest
end

section
/-! SUPPORT. LOAD_ZONES, the bytes of its entries, and the zones that it judges again (R111 to R113, R155). -/

namespace Sys2Proof.Machine

/-! ### The answer (R112, R182) -/

/-- The count of a load whose body carries a one-byte count is a 16-bit value. -/
theorem loadAnswer_byteCount (lo hi : Nat) (size : List Byte → Nat) (b : List Byte)
    (take : Nat → List Byte → State → Status × State) (s : State) :
    (loadAnswer (byteAt b 0) (byteAt b 1) lo hi (byteEntries size b) take s).2.1 < 65536 := by
  have hcount := loadAnswer_count (byteAt b 0) (byteAt b 1) lo hi (byteEntries size b) take s
  have hentries : (byteEntries size b).length ≤ byteAt b 1 := getD_splitEntries_length size (byteAt b 1) (b.drop 2)
  have hbyte := byteAt_lt b 1
  omega

/-- A load that has taken an entry causes a pass, and one that has taken none does not. -/
theorem passAfterLoad_loaded (st : Status) {n : Nat} (hn : n < 65536) (t : State) :
    passAfterLoad ⟨st, w16 n, t⟩ = ⟨st, w16 n, if n = 0 then t else causePass t⟩ := by
  unfold passAfterLoad
  rw [be16_w16 hn]
  split <;> rfl

/-! ### The bytes of an entry (R111, R112, 11.9) -/

theorem feedOf_eq (n : Nat) :
    feedOf n = if n = 0 ∨ n = 1 ∨ n = 255 then some (if n = 255 then none else some n) else none := by
  unfold feedOf
  split
  · rfl
  · rfl
  · rfl
  · next h0 h1 h255 => exact (if_neg fun h => h.elim h0 fun h => h.elim h1 h255).symm

/-- The values that the bytes of a zone entry may have, but for its background feed's (R111). -/
def ZoneBytesFit (b : List Byte) : Prop :=
  byteAt b 2 ≤ 120 ∧ byteAt b 3 ≤ 120 ∧ byteAt b 4 ≤ 120 ∧ byteAt b 5 ≤ 254 ∧ byteAt b 6 ≤ 8 ∧ byteAt b 7 ≤ 24 ∧
    byteAt b 9 ≤ 121 ∧ byteAt b 10 ≤ 121 ∧ 1 ≤ be16 b 12 ∧ be16 b 12 ≤ 640 ∧ 1 ≤ be16 b 14 ∧ be16 b 14 ≤ 640

/-- A zone's entry with its configuration replaced by the bytes of a load, E_l raised to Gmin (R112). -/
def configured (old : ZoneEntry) (b : List Byte) : ZoneEntry :=
  { enabled := flagAt b 0 0, code := b.getD 1 0, level := byteAt b 2, gMin := byteAt b 3
    emergencyLevel := max (byteAt b 3) (byteAt b 4), aRef := byteAt b 5, slope := byteAt b 6, bMax := byteAt b 7
    feed := if byteAt b 8 = 255 then none else some (byteAt b 8), backLevel := byteAt b 9, duck := byteAt b 10
    attack := be16 b 12, release := be16 b 14, holder := old.holder, available := old.available }

theorem parseZone_eq_none {old : ZoneEntry} {b : List Byte}
    (h : ¬((byteAt b 8 = 0 ∨ byteAt b 8 = 1 ∨ byteAt b 8 = 255) ∧ ZoneBytesFit b)) : parseZone old b = none := by
  unfold parseZone
  rw [feedOf_eq]
  split
  · next hfeed =>
    split at hfeed
    · next hf => exact if_neg fun hfit => h ⟨hf, hfit⟩
    · cases hfeed
  · rfl

theorem parseZone_eq_some {b : List Byte} (hfeed : byteAt b 8 = 0 ∨ byteAt b 8 = 1 ∨ byteAt b 8 = 255)
    (hfit : ZoneBytesFit b) (old : ZoneEntry) : parseZone old b = some (configured old b) := by
  have hcode : BitVec.ofNat 8 (byteAt b 1) = b.getD 1 0 := by simp [byteAt]
  unfold parseZone
  rw [feedOf_eq, if_pos hfeed]
  refine (if_pos hfit).trans ?_
  rw [hcode, max_comm, configured]

/-- An entry that is taken replaces the configuration, and so keeps the holder and the available flag and raises E_l to
Gmin (R112). -/
theorem eq_configured {old e : ZoneEntry} {b : List Byte} (h : parseZone old b = some e) : e = configured old b := by
  by_cases hfit : (byteAt b 8 = 0 ∨ byteAt b 8 = 1 ∨ byteAt b 8 = 255) ∧ ZoneBytesFit b
  · rw [parseZone_eq_some hfit.1 hfit.2] at h
    exact (Option.some.inj h).symm
  · rw [parseZone_eq_none hfit] at h
    cases h

theorem takeZoneEntry_refused {z : Nat} {b : List Byte} {s : State} (h : parseZone (s.zone z) b = none) :
    takeZoneEntry z b s = (.badValue, s) := by
  unfold takeZoneEntry
  rw [h]

theorem takeZoneEntry_taken {z : Nat} {b : List Byte} {s : State} {e : ZoneEntry}
    (h : parseZone (s.zone z) b = some e) : takeZoneEntry z b s =
      (.ok, (s.updZone z fun _ => e).updLevel z fun l => { l with ambient := e.aRef }) := by
  unfold takeZoneEntry
  rw [h]

/-! ### The zones judged again (R113) -/

/-- The zones are judged in turn, each with the cause that its flag gave before the first of them: no judgement changes
a flag. -/
theorem judgeEnabled_foldl (s : State) (zones : List Nat) (u : State)
    (hu : ∀ x, (u.zone x).enabled = (s.zone x).enabled) : judgeEnabled zones u = zones.foldl (fun u z =>
      judgeAvailability z (if (s.zone z).enabled then .enabled else .disabled) u) u := by
  induction zones generalizing u with
  | nil => rfl
  | cons z rest ih =>
    rw [judgeEnabled, List.foldl_cons, hu z]
    exact ih _ fun x => (judgeAvailability_enabled ..).trans (hu x)

end Sys2Proof.Machine
end

section
/-! LOAD_ZONES (R111 to R113, R155). -/

open Sys2Proof Sys2Proof.Machine

/-- Settles O48: the load's answer, its entries' bytes, the zones judged again, and what an entry taken writes. -/
theorem zoneLoadsAreJudged : Obligations.ZoneLoadsAreJudged := by
  unfold Obligations.ZoneLoadsAreJudged
  refine ⟨fun s m h => ?_, fun old b => ?_, fun zones s => judgeEnabled_foldl s zones s fun _ => rfl,
    fun z b s => ⟨takeZoneEntry_refused, fun e he => ⟨_, takeZoneEntry_taken he, ?_⟩⟩⟩
  · split
    · next hfits =>
      intro r changed judged
      refine answers_atHead rfl ⟨h, rfl⟩ rfl hfits ?_
      rw [loadCommand_eq]
      exact passAfterLoad_loaded r.1 (loadAnswer_byteCount 0 31 (fun _ => 16) m.body takeZoneEntry s) judged
    · next hfits => exact answers_badLength rfl h rfl (Bool.eq_false_iff.2 hfits) rfl
  · intro feed fits
    have hsplit : fits ↔ (byteAt b 8 = 0 ∨ byteAt b 8 = 1 ∨ byteAt b 8 = 255) ∧ ZoneBytesFit b :=
      ⟨fun ⟨h2, h3, h4, h5, h6, h7, hfeed, hrest⟩ => ⟨hfeed, h2, h3, h4, h5, h6, h7, hrest⟩,
        fun ⟨hfeed, h2, h3, h4, h5, h6, h7, hrest⟩ => ⟨h2, h3, h4, h5, h6, h7, hfeed, hrest⟩⟩
    exact ⟨fun h => parseZone_eq_none (mt hsplit.2 h), fun h =>
      parseZone_eq_some (hsplit.1 h).1 (hsplit.1 h).2 old⟩
  · have hconf := eq_configured he
    refine ⟨by rw [hconf]; rfl, by rw [hconf]; rfl, by rw [hconf]; exact Nat.le_max_left .., fun hz => ?_,
      fun hl => ?_, fun other ho => ⟨?_, ?_⟩, rfl⟩
    · obtain ⟨x, hx⟩ := Option.isSome_iff_exists.1 hz
      exact (updZone_zone ..).trans (by rw [if_pos rfl, hx]; rfl)
    · exact (updLevel_level_listed (s := s.updZone z fun _ => e) hl z _).trans (if_pos rfl)
    · exact (updZone_zone ..).trans (if_neg ho)
    · exact (updLevel_level ..).trans (if_neg ho)
end

section
/-! SUPPORT. The Phrase Memory Controller kept: the shared operations, the commands and the rows that leave the port, the
pending write and phrase memory as they were. -/

namespace Sys2Proof.Machine

/-! ### Shared operations -/

section Operations
variable (s : State)

@[simp] theorem count_pmc (c : Counter) : (count c s).pmc = s.pmc := rfl
@[simp] theorem countBy_pmc (c : Counter) (n : Nat) : (countBy c n s).pmc = s.pmc := rfl
@[simp] theorem raise_pmc (n : Notice) : (raise n s).pmc = s.pmc := (Inner.raise n s).pmc
@[simp] theorem updChannel_pmc (c : Nat) (f : Channel → Channel) : (s.updChannel c f).pmc = s.pmc := rfl
@[simp] theorem updStream_pmc (n : Nat) (f : StreamBuffer → StreamBuffer) : (s.updStream n f).pmc = s.pmc := rfl
@[simp] theorem updLink_pmc (z : Nat) (f : ZoneLink → ZoneLink) : (s.updLink z f).pmc = s.pmc := rfl
@[simp] theorem removeCall_pmc (slot : Nat) : (removeCall slot s).pmc = s.pmc := (Inner.removeCall slot s).pmc
@[simp] theorem judgeAvailability_pmc (z : Nat) (cause : ZoneCause) : (judgeAvailability z cause s).pmc = s.pmc :=
  (Inner.judgeAvailability z cause s).pmc
@[simp] theorem judgeEnabled_pmc (l : List Nat) : (judgeEnabled l s).pmc = s.pmc := (Inner.judgeEnabled l s).pmc
@[simp] theorem enterReady_pmc (t id : Nat) : (enterReady t id s).pmc = s.pmc := (Inner.enterReady t id s).pmc
@[simp] theorem endRecord_pmc (id : Nat) (o : AnnOutcome) (why : Reason) (ended : Bool) :
    (endRecord id o why ended s).pmc = s.pmc := (Inner.endRecord id o why ended s).pmc
@[simp] theorem endRecords_pmc (o : AnnOutcome) (why : Reason) (ids : List Nat) :
    (endRecords o why ids s).pmc = s.pmc := (Inner.endRecords o why ids s).pmc
@[simp] theorem endAnn_pmc (id : Nat) (o : AnnOutcome) (why : Reason) (ended : Bool) :
    (endAnn id o why ended s).pmc = s.pmc := (Inner.endAnn id o why ended s).pmc
@[simp] theorem endEmergencies_pmc (ids : List Nat) : (endEmergencies ids s).pmc = s.pmc :=
  (Inner.endEmergencies ids s).pmc
@[simp] theorem completeRecord_pmc (id : Nat) (why : Reason) (first : Bool) :
    (completeRecord id why first s).pmc = s.pmc := (Inner.completeRecord id why first s).pmc
@[simp] theorem endChannel_pmc (c : Nat) (first : Bool) : (endChannel c first s).pmc = s.pmc :=
  (Inner.endChannel c first s).pmc

@[simp] theorem putDueChecked_pmc (slot : Nat) (c : CallRec) (e : TriggerEvent) :
    (putDueChecked slot c e s).pmc = s.pmc := by
  rw [putDueChecked_eq]
  split <;> rfl

@[simp] theorem finish_pmc (m : Message) (st : Status) (body : List Byte) : (finish m st body s).pmc = s.pmc := by
  unfold finish leaveQueue answer
  simp only
  split <;> split <;> rfl

@[simp] theorem finishHead_pmc (st : Status) : (finishHead st s).pmc = s.pmc := by
  unfold finishHead
  split <;> simp

@[simp] theorem closeDay_pmc : (closeDay s).pmc = s.pmc := (closeDay_inner s).pmc

@[simp] theorem openDay_pmc (day hour t : Nat) : (openDay day hour t s).pmc = s.pmc := by
  rw [openDay_eq, noteChange]
  split <;> rfl

@[simp] theorem applyMark_pmc (day m : Nat) : (applyMark day m s).pmc = s.pmc := by
  obtain ⟨_, _, _, h⟩ := applyMark_shape day m s
  rw [h, noteChange]
  split <;> rfl

@[simp] theorem elapseSecond_pmc : (elapseSecond s).pmc = s.pmc := by
  obtain ⟨_, _, _, h⟩ := elapseSecond_shape s
  rw [h]
  rfl

@[simp] theorem enterFreewheel_pmc : (enterFreewheel s).pmc = s.pmc := by
  obtain ⟨_, _, _, h⟩ := enterFreewheel_shape s
  rw [h]

end Operations

theorem createRecord_pmc {a : Ask} {s t : State} {id : Nat} (h : createRecord a s = some (id, t)) : t.pmc = s.pmc :=
  (Inner.createRecord h).pmc

/-! ### Commands (R182) -/

/-- A command whose owning rule keeps the controller keeps it. -/
theorem runCommand_pmc {row : Row} {act : List Byte → State → Reply} (h : ∀ b s, (act b s).state.pmc = s.pmc)
    (s : State) : (runCommand row act s).pmc = s.pmc := by
  rcases runCommand_cases row act s with ⟨_, e⟩ | ⟨m, _, ⟨_, _, e⟩ | ⟨_, _, e⟩ | ⟨_, _, e⟩⟩ <;> rw [e]
  · exact finish_pmc ..
  · exact finish_pmc ..
  · exact (finish_pmc ..).trans (h ..)

/-- A LOAD command that writes its parsed entries into a table keeps the controller. -/
theorem loadTable_pmc {α : Type} {parse : List Byte → Option α} {put : Nat → α → State → State}
    (h : ∀ i v s, (put i v s).pmc = s.pmc) (first count lo hi : Nat) (entries : List (List Byte)) (s : State) :
    (loadCommand first count lo hi entries (takeParsed parse put) s).state.pmc = s.pmc :=
  loadCommand_keeps State.pmc (takeParsed_keeps State.pmc h) ..

@[simp] theorem readRange_pmc (first count hi : Nat) (body : List Byte) (s : State) :
    (readRange first count hi body s).state.pmc = s.pmc := by rw [readRange_state]

@[simp] theorem passAfterLoad_pmc (r : Reply) : (passAfterLoad r).state.pmc = r.state.pmc := by
  unfold passAfterLoad
  split <;> rfl

@[simp] theorem createFor_pmc (a : Ask) (s : State) : (createFor a s).state.pmc = s.pmc := by
  unfold createFor
  split
  · next h => exact createRecord_pmc h
  · rfl

/-- UPDATE_CALL keeps what its update keeps. -/
theorem updateCall_pmc {act : Nat → CallRec → List Byte → State → Status × State}
    (h : ∀ slot c b s, (act slot c b s).2.pmc = s.pmc) (b : List Byte) (s : State) :
    (updateCall act b s).state.pmc = s.pmc := by
  unfold updateCall
  split
  · rfl
  · split
    · rfl
    · split
      · rfl
      · exact h ..

theorem answerHeld_pmc {act : Nat → State → State} (h : ∀ id s, (act id s).pmc = s.pmc) (b : List Byte) (s : State) :
    (answerHeld act b s).state.pmc = s.pmc := by
  unfold answerHeld
  split
  · rfl
  · split
    · exact h ..
    · rfl
    · rfl

/-! ### The Call Register's updates (R21 to R31) -/

theorem takeCallEntry_pmc (slot : Nat) (b : List Byte) (s : State) : (takeCallEntry slot b s).2.pmc = s.pmc := by
  unfold takeCallEntry
  split
  · rfl
  · split
    · rfl
    · split <;> simp

theorem arrive_pmc (slot : Nat) (c : CallRec) (b : List Byte) (s : State) : (arrive slot c b s).2.pmc = s.pmc := by
  rw [arrive_eq]
  repeat' split
  all_goals rfl

theorem depart_pmc (slot : Nat) (c : CallRec) (b : List Byte) (s : State) : (depart slot c b s).2.pmc = s.pmc := by
  rw [depart_eq]
  repeat' split
  all_goals rfl

theorem gone_pmc (slot : Nat) (c : CallRec) (b : List Byte) (s : State) : (gone slot c b s).2.pmc = s.pmc := by
  rw [gone_eq]
  repeat' split
  all_goals rfl

theorem cancel_pmc (slot : Nat) (c : CallRec) (b : List Byte) (s : State) : (cancel slot c b s).2.pmc = s.pmc := by
  rw [cancel_eq]
  repeat' split
  all_goals rfl

theorem changeDelay_pmc (slot : Nat) (c : CallRec) (b : List Byte) (s : State) :
    (changeDelay slot c b s).2.pmc = s.pmc := by
  rw [changeDelay_eq]
  split
  · rfl
  · split <;> simp

theorem changePlatform_pmc (slot : Nat) (c : CallRec) (b : List Byte) (s : State) :
    (changePlatform slot c b s).2.pmc = s.pmc := by
  rw [changePlatform_eq]
  split
  · rfl
  · split
    · rw [putPlatformOf_eq]
      rfl
    · rfl

end Sys2Proof.Machine
end

section
/-! SUPPORT. The rows of the table that leave the Phrase Memory Controller as it was. -/

namespace Sys2Proof.Machine

/-! ### The trunk -/

theorem sendUpstream_pmc (s : State) : (sendUpstream s).pmc = s.pmc := by
  unfold sendUpstream sendResponse
  simp only
  repeat' split
  all_goals rfl

@[simp] theorem appendCell_pmc (n seq : Nat) (samples : List Sample) (s : State) :
    (appendCell n seq samples s).pmc = s.pmc := by
  unfold appendCell
  split <;> rfl

theorem takeAudio_pmc (n seq : Nat) (samples : List Sample) (s : State) : (takeAudio n seq samples s).pmc = s.pmc := by
  unfold takeAudio fillMissing
  simp only
  repeat' split
  all_goals simp

@[simp] theorem discardPartial_pmc (s : State) : (discardPartial s).pmc = s.pmc := by
  unfold discardPartial
  split <;> rfl

@[simp] theorem completeMessage_pmc (broadcast : Bool) (data : List Byte) (s : State) :
    (completeMessage broadcast data s).pmc = s.pmc := by
  unfold completeMessage offerMessage
  simp only
  repeat' split
  all_goals simp

theorem takeManagement_pmc (segment seq : Nat) (broadcast : Bool) (payload : List Byte) (s : State) :
    (takeManagement segment seq broadcast payload s).pmc = s.pmc := by
  unfold takeManagement
  repeat' split
  all_goals simp

theorem takeMark_pmc (day m : Nat) (s : State) : (takeMark day m s).pmc = s.pmc := by
  unfold takeMark
  split
  · rfl
  · split <;> simp

theorem takeCell_pmc (cell : List Byte) (s : State) : (takeCell cell s).pmc = s.pmc := by
  unfold takeCell
  split
  · rfl
  · split
    · rfl
    · split
      · rfl
      · simp only
        split
        · split
          · exact takeAudio_pmc ..
          · rfl
        · split
          · exact takeManagement_pmc ..
          · rfl
        · exact takeMark_pmc ..
        · rfl

/-! ### Sample periods and the zone link -/

theorem runSample_pmc (s : State) : (runSample s).pmc = s.pmc := by
  have sent : ∀ outputs u, (sendOutputs outputs u).pmc = u.pmc := fun outputs u => by
    unfold sendOutputs gatherMonitor handMonitor
    simp only
    repeat' split
    all_goals rfl
  have mixed := (Inner.channelOutputs (List.range 6) (deliverStreams s)).trans (Inner.mixZones
    ((List.range 6).map fun n => (s.stream n).out) (channelOutputs (List.range 6) (deliverStreams s)).1
    (List.range 32) _)
  exact (sent ..).trans mixed.pmc

@[simp] theorem setLink_pmc (z : Nat) (st : LinkState) (s : State) : (setLink z st s).pmc = s.pmc := by
  unfold setLink
  simp only
  split <;> simp

@[simp] theorem followSensor_pmc (z : Nat) (a : Ambient) (line : LinkState) (s : State) :
    (followSensor z a line s).pmc = s.pmc := by
  unfold followSensor
  simp only
  split <;> simp

theorem takeReport_pmc (z : Nat) (line : LinkState) (a : Ambient) (first : Bool) (s : State) :
    (takeReport z line a first s).pmc = s.pmc := by
  unfold takeReport
  split <;> simp

theorem applyAmbient_pmc (z : Nat) (a : Ambient) (s : State) : (applyAmbient z a s).pmc = s.pmc := by
  unfold applyAmbient
  split
  · rfl
  · split <;> rfl

/-! ### Events (R34) -/

theorem takeEventOf_pmc (kind : TriggerEvent → Bool) (slot : Nat) (s : State) :
    (takeEventOf kind slot s).pmc = s.pmc := by
  unfold takeEventOf
  split
  · split
    · exact (Inner.takeTriggerEvent ..).pmc
    · rfl
  · rfl

theorem takePoolEvent_pmc {act : CallEvent PoolEvent → State → State} (h : ∀ e s, Inner s (act e s))
    (kind : PoolEvent → Bool) (slot : Nat) (s : State) : (takePoolEvent kind act slot s).pmc = s.pmc := by
  unfold takePoolEvent
  split
  · split
    · exact (h ..).pmc
    · rfl
  · rfl

/-! ### Tables -/

theorem putPattern_pmc (p : Nat) (places : Option (List Nat)) (s : State) : (putPattern p places s).pmc = s.pmc := rfl
theorem putPlan_pmc (p : Nat) (plan : Option Plan) (s : State) : (putPlan p plan s).pmc = s.pmc := rfl
theorem putScript_pmc (id : Nat) (sc : Option Script) (s : State) : (putScript id sc s).pmc = s.pmc := rfl
theorem putNumber_pmc (i : Nat) (n : Option Nat) (s : State) : (putNumber i n s).pmc = s.pmc := rfl
theorem putDir_pmc (id : Nat) (d : DirEntry) (s : State) : (putDir id d s).pmc = s.pmc := rfl
theorem putPlatform_pmc (p : Nat) (zones : ZoneSet) (s : State) : (putPlatform p zones s).pmc = s.pmc := rfl
theorem putGroup_pmc (g : Nat) (e : GroupEntry) (s : State) : (putGroup g e s).pmc = s.pmc := rfl

theorem takeZoneEntry_pmc (z : Nat) (b : List Byte) (s : State) : (takeZoneEntry z b s).2.pmc = s.pmc := by
  unfold takeZoneEntry
  split <;> rfl

/-! ### Every row -/

/-- The rows that can change the Phrase Memory Controller (R145, R146, R150 to R152). -/
def writesPort : Instr → Bool
  | .powerOnReset _ | .resetAfterResponse _ | .writePhrase | .fetchGrant | .burstCompletion | .phraseWriteStart
  | .phraseWriteComplete => true
  | _ => false

/-- Every command but WRITE_PHRASE keeps the controller. -/
theorem exec_pmc_command {i : Instr} {s t : State} (hc : isCommand i = true) (hw : writesPort i = false)
    (h : exec i s = .next t) : t.pmc = s.pmc := by
  cases i with
  | unknownCommandCode =>
    simp only [exec, execUnknownCommandCode] at h
    split at h
    · split at h <;> cases h <;> simp
    · cases h; rfl
  | readStatus => cases h; exact runCommand_pmc (fun _ _ => rfl) s
  | readStats =>
    cases h
    refine runCommand_pmc (fun b s => ?_) s
    simp only [reply]
    split <;> rfl
  | setNoticeMask => cases h; exact runCommand_pmc (fun _ _ => rfl) s
  | resetPartFull => cases h; exact runCommand_pmc (fun _ _ => rfl) s
  | resetPartKeepPhrases => cases h; exact runCommand_pmc (fun _ _ => rfl) s
  | resetPartBadOption => cases h; exact runCommand_pmc (fun _ _ => rfl) s
  | openDay =>
    cases h
    refine runCommand_pmc (fun b s => ?_) s
    split
    · rfl
    · split
      · rfl
      · exact openDay_pmc ..
  | closeDay =>
    cases h
    refine runCommand_pmc (fun b s => ?_) s
    split
    · exact closeDay_pmc s
    · rfl
  | loadCalls =>
    cases h
    refine runCommand_pmc (fun b s => ?_) s
    split
    · rfl
    · exact loadCommand_keeps State.pmc takeCallEntry_pmc ..
  | updateCallArrived => cases h; exact runCommand_pmc (updateCall_pmc arrive_pmc) s
  | updateCallDeparting => cases h; exact runCommand_pmc (updateCall_pmc depart_pmc) s
  | updateCallGone => cases h; exact runCommand_pmc (updateCall_pmc gone_pmc) s
  | updateCallCancel => cases h; exact runCommand_pmc (updateCall_pmc cancel_pmc) s
  | updateCallDelay => cases h; exact runCommand_pmc (updateCall_pmc changeDelay_pmc) s
  | updateCallPlatform => cases h; exact runCommand_pmc (updateCall_pmc changePlatform_pmc) s
  | updateCallBadUpdate => cases h; exact runCommand_pmc (updateCall_pmc fun _ _ _ _ => rfl) s
  | freeCall =>
    cases h
    refine runCommand_pmc (fun b s => ?_) s
    repeat' split
    all_goals simp [reply]
  | readCall =>
    cases h
    refine runCommand_pmc (fun b s => ?_) s
    repeat' split
    all_goals rfl
  | loadPatterns => cases h; exact runCommand_pmc (fun _ _ => loadTable_pmc putPattern_pmc ..) s
  | readPattern => cases h; exact runCommand_pmc (fun _ _ => rfl) s
  | loadPlans => cases h; exact runCommand_pmc (fun _ _ => loadTable_pmc putPlan_pmc ..) s
  | readPlan => cases h; exact runCommand_pmc (fun b s => by split <;> rfl) s
  | loadScripts => cases h; exact runCommand_pmc (fun _ _ => loadTable_pmc putScript_pmc ..) s
  | loadNumbers => cases h; exact runCommand_pmc (fun _ _ => loadTable_pmc putNumber_pmc ..) s
  | loadFragments => cases h; exact runCommand_pmc (fun _ _ => loadTable_pmc putDir_pmc ..) s
  | readScript => cases h; exact runCommand_pmc (fun _ _ => rfl) s
  | readNumbers => cases h; exact runCommand_pmc (fun _ _ => readRange_pmc ..) s
  | readFragments => cases h; exact runCommand_pmc (fun _ _ => readRange_pmc ..) s
  | announce =>
    cases h
    refine runCommand_pmc (fun b s => ?_) s
    repeat' split
    all_goals simp [reply]
  | livePageBegin =>
    cases h
    refine runCommand_pmc (fun b s => ?_) s
    split
    · rfl
    · split
      · rfl
      · split
        · rfl
        · simp only
          split
          · next hc => exact (updStream_pmc ..).trans ((createRecord_pmc hc).trans (drawFree_pmc s))
          · rfl
  | livePageEnd =>
    cases h
    refine runCommand_pmc (fun b s => ?_) s
    simp only [reply]
    repeat' split
    all_goals simp
  | emergencyBegin =>
    cases h
    refine runCommand_pmc (fun b s => ?_) s
    split
    · rfl
    · split
      · rfl
      · simp only
        split
        · next hc => exact (createRecord_pmc hc).trans ((drawFree_pmc _).trans (Inner.makeRoom s).pmc)
        · rfl
  | emergencyEnd =>
    cases h
    refine runCommand_pmc (fun b s => ?_) s
    repeat' split
    all_goals simp [reply]
  | confirm => cases h; exact runCommand_pmc (answerHeld_pmc fun _ _ => enterReady_pmc ..) s
  | reject => cases h; exact runCommand_pmc (answerHeld_pmc fun _ _ => endRecord_pmc ..) s
  | withdraw =>
    cases h
    refine runCommand_pmc (fun b s => ?_) s
    split
    · rfl
    · exact endAnn_pmc ..
  | clearAnnouncements => cases h; exact runCommand_pmc (fun _ _ => endRecords_pmc ..) s
  | readAnnouncement => cases h; exact runCommand_pmc (fun b s => by split <;> rfl) s
  | readPool => cases h; exact runCommand_pmc (fun _ _ => rfl) s
  | loadZones =>
    cases h
    refine runCommand_pmc (fun b s => (passAfterLoad_pmc _).trans ?_) s
    exact (judgeEnabled_pmc ..).trans (loadCommand_keeps State.pmc takeZoneEntry_pmc ..)
  | loadPlatformMap =>
    cases h
    exact runCommand_pmc (fun _ _ => (passAfterLoad_pmc _).trans (loadTable_pmc putPlatform_pmc ..)) s
  | loadGroups =>
    cases h
    exact runCommand_pmc (fun _ _ => (passAfterLoad_pmc _).trans (loadTable_pmc putGroup_pmc ..)) s
  | readZones => cases h; exact runCommand_pmc (fun _ _ => readRange_pmc ..) s
  | readMaps => cases h; exact runCommand_pmc (fun _ _ => rfl) s
  | readChannel => cases h; exact runCommand_pmc (fun b s => by split <;> rfl) s
  | monitor =>
    cases h
    refine runCommand_pmc (fun b s => ?_) s
    repeat' split
    all_goals rfl
  | readLevels => cases h; exact runCommand_pmc (fun _ _ => readRange_pmc ..) s
  | readLink => cases h; exact runCommand_pmc (fun _ _ => readRange_pmc ..) s
  | writePhrase => cases hw
  | _ => cases hc

/-- Every row that is no command keeps the controller, but for the resets and the rows of the port. -/
theorem exec_pmc_event {i : Instr} {s t : State} (hc : isCommand i = false) (hw : writesPort i = false)
    (h : exec i s = .next t) : t.pmc = s.pmc := by
  cases i with
  | selfCheckEnd r =>
    simp only [exec, execSelfCheckEnd] at h
    split at h
    · cases h; exact (raise_pmc ..).trans rfl
    · cases h; rfl
  | secondElapses =>
    simp only [exec, execSecondElapses] at h
    split at h <;> cases h <;> simp
  | freewheelEntered =>
    simp only [exec, execFreewheelEntered] at h
    split at h <;> cases h <;> simp
  | samplePeriod =>
    simp only [exec, execSamplePeriod] at h
    split at h
    · rw [← Host.Outcome.next.inj h]
      exact onZli_pmc ..
    · rw [← Host.Outcome.next.inj h]
      exact runSample_pmc s
  | downstreamCell => cases h; exact takeCell_pmc ..
  | reassemblyTimeout =>
    simp only [exec, execReassemblyTimeout] at h
    repeat' split at h
    all_goals cases h; simp
  | upstreamSend => cases h; exact sendUpstream_pmc s
  | callRegisterTimeChange =>
    simp only [exec, execCallRegisterTimeChange] at h
    split at h
    · cases h; exact (Inner.dueChecks ..).pmc
    · cases h; rfl
  | retention =>
    simp only [exec, execRetention] at h
    repeat' split at h
    all_goals cases h; simp
  | triggerEvaluation =>
    simp only [exec, execTriggerEvaluation] at h
    split at h
    · cases h; exact ((Inner.cleanRetry ..).trans (Inner.evaluateAll ..)).pmc
    · cases h; rfl
  | loaded => cases h; exact takeEventOf_pmc ..
  | stateEntry => cases h; exact takeEventOf_pmc ..
  | delayChange => cases h; exact takeEventOf_pmc ..
  | platformSet => cases h; exact takeEventOf_pmc ..
  | platformChange => cases h; exact takeEventOf_pmc ..
  | platformCleared => cases h; exact takeEventOf_pmc ..
  | completed =>
    simp only [exec, execCompleted] at h
    split at h
    · cases h; exact (Inner.takeCompletion ..).pmc
    · cases h; rfl
  | poolJudgement =>
    simp only [exec, execPoolJudgement] at h
    split at h
    · cases h; exact (Inner.leaveQueuedAll ..).pmc
    · cases h; rfl
  | platformMoved => cases h; exact takePoolEvent_pmc (fun _ _ => Inner.movePlatform ..) ..
  | cancelled => cases h; exact takePoolEvent_pmc (fun _ _ => Inner.endAnns ..) ..
  | provisionalCleared => cases h; exact takePoolEvent_pmc (fun _ _ => Inner.enterReadyAll ..) ..
  | callRemoved => cases h; exact takePoolEvent_pmc (fun _ _ => Inner.endAnns ..) ..
  | holdTimeout =>
    simp only [exec, execHoldTimeout] at h
    split at h
    · cases h; exact (Inner.timeOutHold ..).pmc
    · cases h; rfl
  | expiry =>
    simp only [exec, execExpiry] at h
    split at h
    · cases h; exact (Inner.expireAnn ..).pmc
    · cases h; rfl
  | arbitrationPass => cases h; exact (Inner.passChain ..).pmc
  | channelEnd =>
    simp only [exec, execChannelEnd] at h
    repeat' split at h
    all_goals cases h; simp
  | gapEnd =>
    simp only [exec, execGapEnd] at h
    split at h <;> cases h <;> rfl
  | underrunAbort =>
    simp only [exec, execUnderrunAbort] at h
    repeat' split at h
    all_goals cases h; simp
  | block =>
    simp only [exec, execBlock] at h
    split at h <;> cases h <;> rfl
  | streamLost =>
    simp only [exec, execStreamLost] at h
    repeat' split at h
    all_goals cases h; simp
  | zoneReport =>
    simp only [exec, execZoneReport] at h
    repeat' split at h
    all_goals cases h
    · rfl
    · exact takeReport_pmc ..
    · rfl
    · rfl
  | ambientReading =>
    simp only [exec, execAmbientReading] at h
    split at h
    · cases h; exact applyAmbient_pmc ..
    · cases h; rfl
  | linkLost =>
    simp only [exec, execLinkLost] at h
    split at h <;> cases h <;> simp
  | powerOnReset => cases hw
  | resetAfterResponse => cases hw
  | fetchGrant => cases hw
  | burstCompletion => cases hw
  | phraseWriteStart => cases hw
  | phraseWriteComplete => cases hw
  | _ => cases hc

/-- Every row that does not write the port keeps it, the pending write and phrase memory. -/
theorem exec_pmc {i : Instr} {s t : State} (hw : writesPort i = false) (h : exec i s = .next t) : t.pmc = s.pmc := by
  cases hc : isCommand i with
  | true => exact exec_pmc_command hc hw h
  | false => exact exec_pmc_event hc hw h

end Sys2Proof.Machine
end

section
/-! Phrase memory kept sound (R150 to R152). -/

namespace Sys2Proof.Machine

/-! ### The write that a body carries (R150) -/

theorem be16s_length (b : List Byte) (i n : Nat) : (be16s b i n).length = n := by
  induction n generalizing i with
  | zero => rfl
  | succ n ih => exact congrArg (· + 1) (ih _)

theorem parseWrite_address (b : List Byte) : (parseWrite b).address = be32 b 0 := rfl

theorem parseWrite_length (b : List Byte) : (parseWrite b).samples.length = be16 b 4 := by
  simp [parseWrite, be16s_length]

/-! ### Soundness kept (R150, R151) -/

section Keeps
variable {s t : State}

/-- Soundness is a matter of the controller alone. -/
theorem PhraseSound.of (h : PhraseSound s) (e : t.pmc = s.pmc) : PhraseSound t := by
  unfold PhraseSound
  rw [e]
  exact h

/-- Phrase memory with no pending write. -/
theorem PhraseSound.ofIdle (hm : phraseWf t.pmc.memory = true) (hp : t.pmc.pendingWrite = none) : PhraseSound t :=
  ⟨hm, fun w hw => by rw [hp] at hw; cases hw⟩

/-- A transfer or a pointer of the arbiter is no matter of soundness. -/
theorem PhraseSound.ofPort (h : PhraseSound s) (hm : t.pmc.memory = s.pmc.memory)
    (hp : t.pmc.pendingWrite = s.pmc.pendingWrite) : PhraseSound t := by
  unfold PhraseSound
  rw [hm, hp]
  exact h

theorem PhraseSound.finish (h : PhraseSound s) (m : Message) (st : Status) (body : List Byte) :
    PhraseSound (finish m st body s) := h.of (finish_pmc ..)

theorem PhraseSound.finishHead (h : PhraseSound s) (st : Status) : PhraseSound (finishHead st s) :=
  h.of (finishHead_pmc ..)

/-- A reset makes the content undefined or keeps it, and leaves no pending write (R152). -/
theorem PhraseSound.resetBlocks (h : PhraseSound s) (straps : Byte) (cause : ResetCause) (keep : Bool) :
    PhraseSound (resetBlocks straps cause keep s) := by
  cases keep with
  | true => exact .ofIdle h.1 rfl
  | false => exact .ofIdle rfl rfl

/-- A write that waits has passed the check of its range (R150). -/
theorem PhraseSound.beginWrite (h : PhraseSound s) (m : Message) : PhraseSound (beginWrite m s) := by
  unfold Machine.beginWrite
  simp only
  split
  · exact h.finish ..
  · split
    · exact h.finish ..
    · next hrange =>
      split
      · exact h.finish ..
      · refine ⟨h.1, fun w hw => ?_⟩
        cases hw
        rw [parseWrite_length]
        omega

theorem PhraseSound.execWritePhrase (h : PhraseSound s) (hx : execWritePhrase s = .next t) : PhraseSound t := by
  unfold Machine.execWritePhrase at hx
  split at hx
  · cases hx; exact h
  · split at hx
    · cases hx; exact h.finish ..
    · split at hx
      · cases hx; exact h.finish ..
      · cases hx; exact h.beginWrite _

theorem PhraseSound.execPhraseWriteStart (h : PhraseSound s) (hx : execPhraseWriteStart s = .next t) :
    PhraseSound t := by
  unfold Machine.execPhraseWriteStart at hx
  split at hx
  · split at hx
    · split at hx
      · cases hx; exact (PhraseSound.ofIdle (by exact h.1) rfl).finishHead _
      · cases hx; exact h.ofPort rfl rfl
    · cases hx; exact h
  · cases hx; exact h

/-- The write is made within the range that was judged when it began to wait (R151). -/
theorem PhraseSound.execPhraseWriteComplete (h : PhraseSound s) (hx : execPhraseWriteComplete s = .next t) :
    PhraseSound t := by
  unfold Machine.execPhraseWriteComplete at hx
  split at hx
  · next w hw =>
    split at hx
    · cases hx; exact (PhraseSound.ofIdle (by exact writePhrases_wf h.1 (h.2 w hw)) rfl).finishHead _
    · cases hx; exact h
  · cases hx; exact h

theorem PhraseSound.execFetchGrant (h : PhraseSound s) (hx : execFetchGrant s = .next t) : PhraseSound t := by
  unfold Machine.execFetchGrant grantFetch at hx
  split at hx
  · cases hx
    split
    · exact h.ofPort rfl rfl
    · split
      · exact h.ofPort rfl rfl
      · exact h
  · cases hx; exact h

theorem PhraseSound.execBurstCompletion (h : PhraseSound s) (hx : execBurstCompletion s = .next t) :
    PhraseSound t := by
  unfold Machine.execBurstCompletion at hx
  split at hx
  · cases hx; exact h.ofPort rfl rfl
  · cases hx; exact h

theorem PhraseSound.execResetAfterResponse (h : PhraseSound s) {straps : Byte}
    (hx : execResetAfterResponse straps s = .next t) : PhraseSound t := by
  unfold Machine.execResetAfterResponse at hx
  split at hx
  · next option _ =>
    split at hx
    · cases hx
      obtain ⟨cause, keep, e⟩ := partReset_eq straps option s
      rw [e]
      exact h.resetBlocks ..
    · cases hx; exact h
  · cases hx; exact h

/-- Every row of the table keeps phrase memory sound. -/
theorem exec_phraseSound {i : Instr} (h : PhraseSound s) (hx : exec i s = .next t) : PhraseSound t := by
  cases hw : writesPort i with
  | false => exact h.of (exec_pmc hw hx)
  | true =>
    cases i with
    | powerOnReset straps => cases hx; exact h.resetBlocks ..
    | resetAfterResponse straps => exact h.execResetAfterResponse hx
    | writePhrase => exact h.execWritePhrase hx
    | fetchGrant => exact h.execFetchGrant hx
    | burstCompletion => exact h.execBurstCompletion hx
    | phraseWriteStart => exact h.execPhraseWriteStart hx
    | phraseWriteComplete => exact h.execPhraseWriteComplete hx
    | _ => cases hw

end Keeps

end Sys2Proof.Machine

open Sys2Proof Sys2Proof.Machine

/-- Settles O5: only the resets and the rows of the port change the controller, and each of those keeps it sound. -/
theorem stepKeepsPhraseMemory : Obligations.StepKeepsPhraseMemory := by
  unfold Obligations.StepKeepsPhraseMemory
  intro s t hs h
  unfold step at h
  split at h
  · cases h; exact hs
  · next rest _ => exact exec_phraseSound (s := s.withPending rest) hs h
end

section
/-! Writing phrase memory: the checks, the wait, the write (R145, R150, R151). -/

namespace Sys2Proof.Machine

/-! ### WRITE_PHRASE (R150) -/

theorem writeRow_fits {b : List Byte} : writeRow.fits b = true ↔ b.length = 6 + 2 * be16 b 4 := by
  simp only [writeRow, Bool.and_eq_true, decide_eq_true_eq, beq_iff_eq]
  omega

section Checks
variable {s : State} {m : Message}

theorem exec_writePhrase_badLength (h : Ready s m 0x70)
    (hl : m.body.length ≠ 6 + 2 * be16 m.body 4 ∨ m.body.length < 6) : Answers .writePhrase s m .badLength [] s := by
  obtain ⟨hhead, hready, hfailed, hcode⟩ := h
  have hfits : writeRow.fits m.body = false := Bool.eq_false_iff.2 (mt writeRow_fits.1 (by omega))
  simp only [Answers, exec, execWritePhrase, headFor_some (row := writeRow) hhead hready hcode rfl, if_neg hfailed, hfits,
    if_true]

theorem exec_writePhrase (h : Ready s m 0x70) (hl : m.body.length = 6 + 2 * be16 m.body 4) :
    exec .writePhrase s = .next (beginWrite m s) := by
  obtain ⟨hhead, hready, hfailed, hcode⟩ := h
  simp only [exec, execWritePhrase, headFor_some (row := writeRow) hhead hready hcode rfl, if_neg hfailed,
    writeRow_fits.2 hl, Bool.true_eq_false, if_false]

theorem beginWrite_refused (s : State) (hbad : be16 m.body 4 = 0 ∨ 496 < be16 m.body 4 ∨ 33554432 ≤ be32 m.body 0 ∨
    33554432 < be32 m.body 0 + be16 m.body 4) : beginWrite m s = finish m .badValue [] s := by
  unfold beginWrite
  simp only [parseWrite_address, Config.phraseSize]
  split
  · rfl
  · exact if_pos (by omega)

theorem beginWrite_inRange (s : State) (h1 : 1 ≤ be16 m.body 4) (h496 : be16 m.body 4 ≤ 496)
    (hend : be32 m.body 0 + be16 m.body 4 ≤ 33554432) : beginWrite m s =
      if writeOverlaps s (parseWrite m.body) then finish m .inUse [] s
      else { s with pmc := { s.pmc with pendingWrite := some (parseWrite m.body) } } := by
  have hcount : ¬(be16 m.body 4 = 0 ∨ 496 < be16 m.body 4) := by omega
  have hrange : ¬(33554432 ≤ be32 m.body 0 ∨ 33554432 < be32 m.body 0 + be16 m.body 4) := by omega
  exact (if_neg hcount).trans (if_neg hrange)

end Checks

/-! ### The port's part in a write (R145, R151) -/

section Port
variable {s : State} {w : PhraseWrite} {m : Message}

theorem finishHead_eq (h : s.mgi.commands.head? = some m) (st : Status) : finishHead st s = finish m st [] s := by
  unfold finishHead
  split
  · next hq => rw [hq] at h; cases h; rfl
  · next hq => rw [hq] at h; cases h

theorem exec_phraseWriteStart_waits (hw : s.pmc.pendingWrite = some w)
    (h : s.pmc.transfer ≠ none ∨ s.noRequest = false) : exec .phraseWriteStart s = .next s := by
  simp only [exec, execPhraseWriteStart, hw]
  refine if_neg fun ⟨hfree, hnone⟩ => ?_
  rcases h with hbusy | hasked
  · exact hbusy hfree
  · exact Bool.false_ne_true (hasked.symm.trans hnone)

/-- The pending write is judged again when its turn has come. -/
theorem exec_phraseWriteStart_judged (hw : s.pmc.pendingWrite = some w) (hm : s.mgi.commands.head? = some m)
    (hfree : s.pmc.transfer = none) (hnone : s.noRequest = true) : exec .phraseWriteStart s =
      if writeOverlaps s w then .next (finish m .inUse [] { s with pmc := { s.pmc with pendingWrite := none } })
      else .next { s with pmc := { s.pmc with transfer := some .write } } := by
  conv_lhs => simp only [exec, execPhraseWriteStart, hw, hfree, hnone, and_self, if_true]
  rw [finishHead_eq (m := m) (by exact hm)]
  rfl

theorem exec_phraseWriteComplete (hw : s.pmc.pendingWrite = some w) (hm : s.mgi.commands.head? = some m) :
    exec .phraseWriteComplete s =
      if s.pmc.transfer = some .write then
        .next (finish m .ok [] { s with pmc := { s.pmc with
          transfer := none, pendingWrite := none, memory := writePhrases s.pmc.memory w.address w.samples } })
      else .next s := by
  conv_lhs => simp only [exec, execPhraseWriteComplete, hw]
  rw [finishHead_eq (m := m) (by exact hm)]
  rfl

end Port

/-! ### Reading back (R151) -/

theorem readPhrase_writePhrases (p : PhraseController) (a b : Nat) (samples : List Sample) :
    readPhrase { p with memory := writePhrases p.memory a samples } b =
      if a ≤ b ∧ b < a + samples.length then samples.getD (b - a) 0 else readPhrase p b := by
  unfold readPhrase
  split
  · next hin =>
    have hk : b - a < samples.length := by omega
    have hb : b = a + (b - a) := by omega
    rw [hb, writePhrases_same hk, ← hb, List.getElem?_eq_getElem hk, Option.getD_some, List.getD_eq_getElem _ _ hk]
  · rw [writePhrases_other (by omega)]

end Sys2Proof.Machine

open Sys2Proof Sys2Proof.Machine

/-- Settles O53: the checks in turn, the two rows of the port, and what the memory reads as after a write. -/
theorem phraseWritesWaitForThePort : Obligations.PhraseWritesWaitForThePort := by
  unfold Obligations.PhraseWritesWaitForThePort
  refine ⟨fun s m h => ?_, fun s => ⟨fun hw => ?_, fun w m hw hm => ?_⟩, readPhrase_writePhrases⟩
  · intro b n w
    refine ⟨exec_writePhrase_badLength h, fun hl => ?_⟩
    have taken : exec .writePhrase s = .next (beginWrite m s) := exec_writePhrase h hl
    refine ⟨fun hbad => taken.trans (congrArg _ (beginWrite_refused s hbad)), fun h1 h496 ha hend => ?_⟩
    have judged := beginWrite_inRange s h1 h496 hend
    exact ⟨rfl, parseWrite_length b, fun ho => taken.trans (congrArg _ (judged.trans (if_pos ho))),
      fun ho => taken.trans (congrArg _ (judged.trans (if_neg (Bool.eq_false_iff.1 ho))))⟩
  · simp only [exec, execPhraseWriteStart, execPhraseWriteComplete, hw, and_self]
  · refine ⟨exec_phraseWriteStart_waits hw, fun hfree hnone => ?_, ?_⟩
    · rw [Answers, exec_phraseWriteStart_judged hw hm hfree hnone]
      exact ⟨fun ho => if_pos ho, fun ho => if_neg (Bool.eq_false_iff.1 ho)⟩
    · rw [Answers, exec_phraseWriteComplete hw hm]
      exact ⟨fun h => if_neg h, fun h => if_pos h⟩
end

section
/-! The block: ramps, ages and tails (R144, R156, R159, R161, R164, R174, R178). -/

namespace Sys2Proof.Machine

/-! ### Every entry of a table changed -/

theorem tabGet_tabMap {α : Type} (f : Nat → α → α) (t : Tab α) (i : Nat) :
    tabGet (tabMap f t) i = (tabGet t i).map (f i) := by
  induction t with
  | nil => rfl
  | cons p rest ih =>
    obtain ⟨j, v⟩ := p
    by_cases h : i = j
    · subst h; simp [tabMap, tabGet]
    · simpa [tabMap, tabGet, h] using ih

theorem tabGetD_tabMap {α : Type} {f : Nat → α → α} {t : Tab α} {i : Nat} {v : α} (h : tabGet t i = some v) (d : α) :
    tabGetD (tabMap f t) i d = f i v := by simp [tabGetD, tabGet_tabMap, h]

/-! ### The ramp of a background (R159) -/

/-- The attenuation that a zone's background moves toward (R159). -/
def backTarget (e : ZoneEntry) : Nat :=
  16 * (if e.holder.isSome then min (e.backLevel + e.duck) 121 else e.backLevel)

theorem rampBack_eq (e : ZoneEntry) (back : Nat) : rampBack e back =
    if back < backTarget e then min (backTarget e) (back + e.attack) else max (backTarget e) (back - e.release) := by
  unfold rampBack backTarget
  generalize (if e.holder.isSome then min (e.backLevel + e.duck) 121 else e.backLevel) = target
  dsimp only
  split
  · rfl
  · split
    · rfl
    · omega

/-- A ramp never passes its target (R159). -/
theorem rampBack_between (e : ZoneEntry) (back : Nat) :
    (back ≤ backTarget e → rampBack e back ≤ backTarget e) ∧ (backTarget e ≤ back → backTarget e ≤ rampBack e back) := by
  rw [rampBack_eq]
  split <;> omega

/-! ### The blocks after one -/

section Block
variable (s : State)

theorem runBlock_level {z : Nat} {l : ZoneLevel} (h : tabGet s.lmu.levels z = some l) :
    (runBlock s).level z = blockLevel (s.zone z) l := tabGetD_tabMap (f := fun z => blockLevel (s.zone z)) h _

theorem runBlock_stream {n : Nat} {b : StreamBuffer} (h : tabGet s.tki.streams n = some b) :
    (runBlock s).stream n = { b with age := min (b.age + 1) 5000 } :=
  tabGetD_tabMap (f := fun _ (b : StreamBuffer) => { b with age := min (b.age + 1) 5000 }) h _

theorem runBlock_link {z : Nat} {k : ZoneLink} (h : tabGet s.zli.links z = some k) :
    (runBlock s).link z = { k with age := min (k.age + 1) 1000 } :=
  tabGetD_tabMap (f := fun _ (k : ZoneLink) => { k with age := min (k.age + 1) 1000 }) h _

theorem runBlock_channel {c : Nat} {ch : Channel} (h : tabGet s.pbc c = some ch) :
    (runBlock s).channel c = ch.countGap := tabGetD_tabMap (f := fun _ => Channel.countGap) h _

end Block

end Sys2Proof.Machine

open Sys2Proof Sys2Proof.Machine

/-- Settles O57: what each block's entry is after a block, and the ramp between a level and its target. -/
theorem blocksRampAndAge : Obligations.BlocksRampAndAge := by
  unfold Obligations.BlocksRampAndAge
  intro s
  refine ⟨fun hself => if_pos hself, fun hself => ⟨runBlock s, if_neg hself, fun z l hl => ?_,
    fun n b => runBlock_stream s, rfl, rfl, rfl, fun z k => runBlock_link s, fun c ch => runBlock_channel s, rfl⟩⟩
  rw [runBlock_level s hl]
  refine ⟨rampBack_eq (s.zone z) l.back, rampBack_between (s.zone z) l.back, rfl, rfl, rfl, fun hnone => ?_,
    fun x hx => ?_⟩
  · simp only [blockLevel, hnone, Option.bind_none]
  · simp only [blockLevel, hx, Option.bind_some]
    rfl
end

section
/-! SUPPORT. The fetch of a channel: its position, the silence fill and its end, the request, and what of a channel the
tests leave as it was (R138 to R142). -/

namespace Sys2Proof.Machine

/-! ### The fetch position (R139) -/

section Position
variable {c : Channel}

theorem enter_fragment {i id loops address length : Nat} {trim : Int}
    (h : c.list[i]? = some (.fragment id loops address length trim)) : c.enter i = { c with
      fetchElem := i, baseAddr := address, curAddr := address, baseCount := length, curCount := length
      loopsLeft := loops } := by
  unfold Channel.enter
  rw [h]

theorem enter_silence {i ms : Nat} (h : c.list[i]? = some (.silence ms)) :
    c.enter i = { c with fetchElem := i, baseCount := 16 * ms, curCount := 16 * ms, loopsLeft := 1 } := by
  unfold Channel.enter
  rw [h]

theorem passEnd_loop (h : 1 < c.loopsLeft) : c.passEnd = { c with
    curAddr := c.baseAddr, curCount := c.baseCount, loopsLeft := c.loopsLeft - 1 } := if_pos h

theorem passEnd_next (h : c.loopsLeft ≤ 1) (hn : c.fetchElem + 1 < c.list.length) :
    c.passEnd = c.enter (c.fetchElem + 1) := (if_neg (by omega)).trans (if_pos hn)

theorem passEnd_finished (h : c.loopsLeft ≤ 1) (hn : c.list.length ≤ c.fetchElem + 1) :
    c.passEnd = { c with fetchFinished := true } := (if_neg (by omega)).trans (if_neg (by omega))

theorem issue_within {n : Nat} (h : n < c.curCount) :
    c.issue n = { c with curAddr := c.curAddr + n, curCount := c.curCount - n } := if_neg (by dsimp only; omega)

theorem issue_all {n : Nat} (h : c.curCount ≤ n) :
    c.issue n = Channel.passEnd { c with curAddr := c.curAddr + n, curCount := 0 } := by
  have hzero : c.curCount - n = 0 := by omega
  unfold Channel.issue
  simp only [hzero, if_true]

/-- An element begins while no sample of its first loop has been issued (R139). -/
theorem begins_eq_some {j : Nat} : c.begins = some j ↔ j = c.fetchElem ∧ c.curCount = c.baseCount ∧
    ((∃ id address length trim, c.list[j]? = some (.fragment id c.loopsLeft address length trim)) ∨
      (c.loopsLeft = 1 ∧ ∃ ms, c.list[j]? = some (.silence ms))) := by
  have element : ∀ e, c.loopsLeft = Element.loops e ↔
      (∃ id address length trim, e = .fragment id c.loopsLeft address length trim) ∨
        (c.loopsLeft = 1 ∧ ∃ ms, e = .silence ms) := fun e => by
    cases e with
    | fragment id loops address length trim => simp [Element.loops, eq_comm]
    | silence ms => simp [Element.loops]
  unfold Channel.begins
  split
  · next e he =>
    rw [Option.ite_none_right_eq_some, element]
    constructor
    · rintro ⟨⟨hcount, hkind⟩, hj⟩
      cases hj
      simpa [he, hcount] using hkind
    · rintro ⟨rfl, hcount, hkind⟩
      exact ⟨⟨hcount, by simpa [he] using hkind⟩, rfl⟩
  · next he =>
    refine ⟨nofun, fun ⟨hj, _, hkind⟩ => ?_⟩
    simp [hj, he] at hkind

end Position

/-! ### Samples as they enter the FIFO (R137) -/

theorem marked_length (mark : Option Nat) (l : List Sample) : (marked mark l).length = l.length := by
  cases l <;> simp [marked]

theorem sample_of_mem_marked {mark : Option Nat} {l : List Sample} {x : FifoSample} (h : x ∈ marked mark l) :
    x.sample ∈ l := by
  cases l with
  | nil => cases h
  | cons y rest =>
    rcases List.mem_cons.1 h with rfl | h
    · exact List.mem_cons_self ..
    · obtain ⟨z, hz, rfl⟩ := List.mem_map.1 h
      exact List.mem_cons_of_mem _ hz

/-! ### The tests of the element and of the burst -/

theorem inSilence_iff {c : Channel} : c.inSilence = true ↔ ∃ ms, c.list[c.fetchElem]? = some (.silence ms) := by
  unfold Channel.inSilence
  split
  · next h => simp [h]
  · next h => simpa using h

theorem inFragment_iff {c : Channel} : c.inFragment = true ↔
    ∃ id loops address length trim, c.list[c.fetchElem]? = some (.fragment id loops address length trim) := by
  unfold Channel.inFragment
  split
  · next h => simp [h]
  · next h => simpa using h

theorem not_inFlight_iff {c : Channel} {grant : Nat} :
    c.bursting grant = false ↔ ¬∃ b, c.burst = some b ∧ b.grant = grant := by
  rw [bursting_eq_false]
  exact ⟨fun h ⟨b, hb, hg⟩ => h b hb hg, fun h b hb hg => h ⟨b, hb, hg⟩⟩

/-! ### The silence fill (R140) -/

/-- Whether a fill of zeros is due (R140). -/
def Channel.Filling (grant : Nat) (c : Channel) : Prop :=
  c.state ≠ .idle ∧ c.inSilence = true ∧ c.fetchFinished = false ∧ c.fifo.length ≤ 256 ∧ c.bursting grant = false

theorem filling_iff {c : Channel} {grant : Nat} : c.Filling grant ↔ c.state ≠ .idle ∧
    (∃ ms, c.list[c.fetchElem]? = some (.silence ms)) ∧ c.fetchFinished = false ∧ c.fifo.length ≤ 256 ∧
      ¬∃ b, c.burst = some b ∧ b.grant = grant := by
  rw [Channel.Filling, inSilence_iff, not_inFlight_iff]

section Fill
variable {grant : Nat} {c : Channel}

theorem silenceFill_rest (h : ¬c.Filling grant) (k : Nat) : c.silenceFill grant k = c := by
  cases k with
  | zero => rfl
  | succ k => exact if_neg h

theorem silenceFill_fill (h : c.Filling grant) (k : Nat) :
    c.silenceFill grant (k + 1) = c.fillOnce.silenceFill grant k := if_pos h

theorem fillOnce_list (c : Channel) : c.fillOnce.list = c.list := by
  rw [fillOnce_frame]
  rfl

theorem fillOnce_fifo (c : Channel) :
    c.fillOnce.fifo = c.fifo ++ marked c.begins (List.replicate (min 128 c.curCount) 0) := by
  rw [fillOnce_frame]
  rfl

/-- What a fill leaves of the FIFO: the samples it held, and zeros behind them. -/
theorem silenceFill_fifo (grant k : Nat) (c : Channel) :
    ∃ zeros, (c.silenceFill grant k).fifo = c.fifo ++ zeros ∧ ∀ x ∈ zeros, x.sample = 0 := by
  induction k generalizing c with
  | zero => exact ⟨[], (List.append_nil _).symm, nofun⟩
  | succ k ih =>
    by_cases h : c.Filling grant
    · obtain ⟨zeros, hfifo, hzeros⟩ := ih c.fillOnce
      rw [silenceFill_fill h, hfifo, fillOnce_fifo, List.append_assoc]
      refine ⟨_, rfl, fun x hx => ?_⟩
      rcases List.mem_append.1 hx with hx | hx
      · exact List.eq_of_mem_replicate (sample_of_mem_marked hx)
      · exact hzeros x hx
    · rw [silenceFill_rest h]
      exact ⟨[], (List.append_nil _).symm, nofun⟩

/-! ### A fill comes to its end (R140) -/

/-- No SILENCE element of the list is empty. -/
def Channel.SoundSilences (c : Channel) : Prop := ∀ ms, .silence ms ∈ c.list → 0 < ms

/-- A SILENCE element at the fetch position has samples left in this pass, and in each pass. -/
def Channel.HasZeros (c : Channel) : Prop :=
  c.inSilence = true → c.fetchFinished = false → 0 < c.curCount ∧ 0 < c.baseCount

theorem hasZeros_enter (hs : c.SoundSilences) {i : Nat} (hi : i < c.list.length) : (c.enter i).HasZeros := by
  intro hin _
  obtain ⟨e, he⟩ : ∃ e, c.list[i]? = some e := ⟨_, List.getElem?_eq_getElem hi⟩
  cases e with
  | fragment id loops address length trim =>
    rw [enter_fragment he, inSilence_iff] at hin
    obtain ⟨ms, hms⟩ := hin
    cases he.symm.trans hms
  | silence ms =>
    have hms : 0 < ms := hs ms (List.mem_of_getElem? he)
    rw [enter_silence he]
    exact ⟨by dsimp only; omega, by dsimp only; omega⟩

theorem hasZeros_passEnd (hs : c.SoundSilences) (hb : 0 < c.baseCount) : c.passEnd.HasZeros := by
  by_cases hloop : 1 < c.loopsLeft
  · rw [passEnd_loop hloop]
    exact fun _ _ => ⟨hb, hb⟩
  · by_cases hn : c.fetchElem + 1 < c.list.length
    · rw [passEnd_next (by omega) hn]
      exact hasZeros_enter hs hn
    · rw [passEnd_finished (by omega) (by omega)]
      exact fun _ hfin => by cases hfin

theorem hasZeros_issue (hs : c.SoundSilences) (hb : 0 < c.baseCount) (n : Nat) : (c.issue n).HasZeros := by
  by_cases hn : n < c.curCount
  · rw [issue_within hn]
    exact fun _ _ => ⟨Nat.sub_pos_of_lt hn, hb⟩
  · rw [issue_all (by omega)]
    exact hasZeros_passEnd hs hb

/-- Each fill adds a sample, so a channel still to be filled after k fills holds k samples more. -/
theorem silenceFill_grows {k : Nat} (hs : c.SoundSilences) (hz : c.HasZeros)
    (h : (c.silenceFill grant k).Filling grant) : c.fifo.length + k ≤ (c.silenceFill grant k).fifo.length := by
  induction k generalizing c with
  | zero => exact Nat.le_refl _
  | succ k ih =>
    by_cases hf : c.Filling grant
    · obtain ⟨_, hin, hfin, _, _⟩ := id hf
      obtain ⟨hcur, hbase⟩ := hz hin hfin
      have hs' : c.fillOnce.SoundSilences := fun ms hms => hs ms (fillOnce_list c ▸ hms)
      have hz' : c.fillOnce.HasZeros :=
        hasZeros_issue (c := { c with fifo := c.fifo ++ marked c.begins (List.replicate (min 128 c.curCount) 0) })
          hs hbase _
      have hlen : c.fillOnce.fifo.length = c.fifo.length + min 128 c.curCount := by
        rw [fillOnce_fifo, List.length_append, marked_length, List.length_replicate]
      rw [silenceFill_fill hf] at h ⊢
      have := ih hs' hz' h
      omega
    · rw [silenceFill_rest hf] at h
      exact absurd h hf

/-- After 257 fills none is due. -/
theorem silenceFill_done (hs : c.SoundSilences) (hz : c.HasZeros) : ¬(c.silenceFill grant 257).Filling grant := by
  intro h
  have hgrown := silenceFill_grows hs hz h
  obtain ⟨_, _, _, hfifo, _⟩ := h
  omega

end Fill

/-! ### The request and the state (R141, R142) -/

section Tests
variable {grant : Nat} {c : Channel}

/-- Whether a fetch request is due (R141). -/
def Channel.Asking (grant : Nat) (c : Channel) : Prop :=
  c.state ≠ .idle ∧ c.inFragment = true ∧ c.fetchFinished = false ∧ c.bursting grant = false ∧ c.fifo.length ≤ 256

theorem asking_iff : c.Asking grant ↔ c.state ≠ .idle ∧ (∃ id loops address length trim,
    c.list[c.fetchElem]? = some (.fragment id loops address length trim)) ∧ c.fetchFinished = false ∧
      (¬∃ b, c.burst = some b ∧ b.grant = grant) ∧ c.fifo.length ≤ 256 := by
  rw [Channel.Asking, inFragment_iff, not_inFlight_iff]

theorem judgeRequest_asking (h : c.Asking grant) : c.judgeRequest grant = { c with fetchReq := true } := if_pos h

theorem judgeRequest_quiet (h : ¬c.Asking grant) : c.judgeRequest grant = c := if_neg h

/-- Whether the list has been fetched and its last burst taken (R142). -/
def Channel.Fetched (grant : Nat) (c : Channel) : Prop := c.fetchFinished = true ∧ c.bursting grant = false

theorem fetched_iff : c.Fetched grant ↔ c.fetchFinished = true ∧ ¬∃ b, c.burst = some b ∧ b.grant = grant := by
  rw [Channel.Fetched, not_inFlight_iff]

theorem judgeState_fetched (hs : c.state = .prefill ∨ c.state = .playing) (h : c.Fetched grant) :
    c.judgeState grant = { c with state := .draining } := by
  unfold Channel.judgeState
  rcases hs with hs | hs
  · rw [hs]; exact if_pos h
  · rw [hs]; exact if_pos h

theorem judgeState_prefill (hs : c.state = .prefill) (h : ¬c.Fetched grant) :
    c.judgeState grant = if 256 ≤ c.fifo.length then { c with state := .playing } else c := by
  unfold Channel.judgeState
  rw [hs]
  exact if_neg h

theorem judgeState_plays (hs : c.state = .playing) (h : ¬c.Fetched grant) : c.judgeState grant = c :=
  (judgeState_playing hs).trans (if_neg h)

theorem judgeState_other (h1 : c.state ≠ .prefill) (h2 : c.state ≠ .playing) : c.judgeState grant = c := by
  unfold Channel.judgeState
  split
  · next h => exact absurd h h1
  · next h => exact absurd h h2
  · rfl

theorem judgeRequest_fifo (grant : Nat) (c : Channel) : (c.judgeRequest grant).fifo = c.fifo := by
  unfold Channel.judgeRequest
  split <;> rfl

theorem judgeState_fifo (grant : Nat) (c : Channel) : (c.judgeState grant).fifo = c.fifo := by
  unfold Channel.judgeState
  repeat' split
  all_goals rfl

theorem settle_fifo (grant : Nat) (c : Channel) :
    ∃ zeros : List FifoSample, (c.settle grant).fifo = c.fifo ++ zeros ∧ ∀ x ∈ zeros, x.sample = 0 := by
  rw [Channel.settle, judgeState_fifo, judgeRequest_fifo]
  exact silenceFill_fifo ..

end Tests

/-! ### What the tests leave as it was -/

/-- The second channel is the first but for its state, its fetch position, its FIFO and its request. -/
def Channel.KeptIn (c d : Channel) : Prop :=
  { d with
    state := c.state, fetchElem := c.fetchElem, curAddr := c.curAddr, curCount := c.curCount
    loopsLeft := c.loopsLeft, fetchFinished := c.fetchFinished, baseAddr := c.baseAddr, baseCount := c.baseCount
    fifo := c.fifo, fetchReq := c.fetchReq } = c

theorem Channel.KeptIn.refl (c : Channel) : c.KeptIn c := rfl

theorem Channel.KeptIn.trans {c d e : Channel} (h : c.KeptIn d) (h' : d.KeptIn e) : c.KeptIn e := by
  unfold KeptIn at h h'
  rw [← h'] at h
  exact h

theorem keptIn_fillOnce (c : Channel) : c.KeptIn c.fillOnce := by
  unfold Channel.KeptIn
  rw [fillOnce_frame]
  rfl

theorem keptIn_silenceFill (grant k : Nat) (c : Channel) : c.KeptIn (c.silenceFill grant k) := by
  induction k generalizing c with
  | zero => exact .refl c
  | succ k ih =>
    by_cases h : c.Filling grant
    · rw [silenceFill_fill h]
      exact (keptIn_fillOnce c).trans (ih _)
    · rw [silenceFill_rest h]
      exact .refl c

theorem keptIn_judgeRequest (grant : Nat) (c : Channel) : c.KeptIn (c.judgeRequest grant) := by
  unfold Channel.judgeRequest
  split <;> rfl

theorem keptIn_judgeState (grant : Nat) (c : Channel) : c.KeptIn (c.judgeState grant) := by
  unfold Channel.judgeState
  repeat' split
  all_goals rfl

theorem keptIn_settle (grant : Nat) (c : Channel) : c.KeptIn (c.settle grant) :=
  ((keptIn_silenceFill ..).trans (keptIn_judgeRequest ..)).trans (keptIn_judgeState ..)

end Sys2Proof.Machine
end

section
/-! How a channel fetches, and how the port serves the channels (R138 to R142, R145, R146). -/

namespace Sys2Proof.Machine

/-! ### The arbiter's choice (R145) -/

/-- The channel that stands k places behind the one after a pointer. -/
theorem place_after {ptr c : Nat} (hp : ptr ≤ 5) (hc : c < 6) : (ptr + 1 + (c + 5 - ptr) % 6) % 6 = c := by omega

theorem nextAfter_eq_none {ptr : Nat} {p : Nat → Bool} (hp : ptr ≤ 5) :
    nextAfter ptr p = none ↔ ∀ c, c < 6 → p c = false := by
  unfold nextAfter
  rw [List.find?_eq_none]
  refine ⟨fun h c hc => ?_, fun h c hm => ?_⟩
  · exact Bool.eq_false_iff.2 (h c (List.mem_map.2 ⟨_, List.mem_range.2 (Nat.mod_lt _ (by omega)), place_after hp hc⟩))
  · obtain ⟨k, _, rfl⟩ := List.mem_map.1 hm
    exact Bool.eq_false_iff.1 (h _ (Nat.mod_lt _ (by omega)))

/-- The channel chosen asks, and no asking channel stands nearer behind the pointer. -/
theorem nextAfter_eq_some {ptr c : Nat} {p : Nat → Bool} (hp : ptr ≤ 5) (h : nextAfter ptr p = some c) :
    c < 6 ∧ p c = true ∧ ∀ d, d < 6 → p d = true → (c + 5 - ptr) % 6 ≤ (d + 5 - ptr) % 6 := by
  unfold nextAfter at h
  rw [List.find?_map, Option.map_eq_some_iff] at h
  obtain ⟨k, hk, rfl⟩ := h
  rw [List.find?_range_eq_some] at hk
  obtain ⟨hpk, hk6, hfirst⟩ := hk
  have hk6 : k < 6 := List.mem_range.1 hk6
  refine ⟨Nat.mod_lt _ (by omega), hpk, fun d hd hpd => ?_⟩
  have hplace : ((ptr + 1 + k) % 6 + 5 - ptr) % 6 = k := by omega
  rw [hplace]
  by_contra hlt
  have := hfirst _ (Nat.lt_of_not_le hlt)
  simp [Function.comp, place_after hp hd, hpd] at this

/-! ### A grant (R145) -/

section Grant
variable {s : State} {c : Nat}

theorem exec_fetchGrant_busy (h : s.pmc.transfer ≠ none) : exec .fetchGrant s = .next s := if_neg h

theorem exec_fetchGrant_free (h : s.pmc.transfer = none) : exec .fetchGrant s = .next (grantFetch s) := if_pos h

theorem grantFetch_urgent (h : nextAfter s.pmc.urgentPtr (s.requests true) = some c) :
    grantFetch s = issueBurst c (s.onPmc fun p => { p with urgentPtr := c }) := by
  unfold grantFetch
  rw [h]

theorem grantFetch_routine (h : nextAfter s.pmc.urgentPtr (s.requests true) = none)
    (hr : nextAfter s.pmc.routinePtr (s.requests false) = some c) :
    grantFetch s = issueBurst c (s.onPmc fun p => { p with routinePtr := c }) := by
  unfold grantFetch
  rw [h, hr]

theorem grantFetch_none (h : nextAfter s.pmc.urgentPtr (s.requests true) = none)
    (hr : nextAfter s.pmc.routinePtr (s.requests false) = none) : grantFetch s = s := by
  unfold grantFetch
  rw [h, hr]

end Grant

/-! ### A burst comes to its end (R146) -/

theorem readPhrases_eq (p : PhraseController) (a n : Nat) :
    readPhrases p a n = (List.range n).map fun k => readPhrase p (a + k) := by
  induction n generalizing a with
  | zero => rfl
  | succ n ih =>
    rw [readPhrases, ih, List.range_succ_eq_map, List.map_cons, List.map_map]
    refine congrArg _ (List.map_congr_left fun k _ => ?_)
    rw [Function.comp_apply, Nat.succ_eq_add_one, Nat.add_assoc, Nat.add_comm 1 k]

section Completion
variable {s : State} {c grant : Nat} {ch : Channel} {b : Burst}

theorem takeBurst_discarded (hb : ch.burst = some b) (h : ch.state = .idle ∨ b.grant ≠ grant) (p : PhraseController) :
    ch.takeBurst grant p = { ch with burst := none } := by
  have hno : ¬(ch.state ≠ .idle ∧ b.grant = grant) := by tauto
  unfold Channel.takeBurst
  rw [hb]
  exact if_neg hno

theorem takeBurst_taken (hb : ch.burst = some b) (hs : ch.state ≠ .idle) (hg : b.grant = grant) (p : PhraseController) :
    ch.takeBurst grant p = Channel.settle grant { ch with
      burst := none
      fifo := ch.fifo ++ marked b.mark ((List.range b.length).map fun k => readPhrase p (b.address + k)) } := by
  rw [← readPhrases_eq]
  unfold Channel.takeBurst
  rw [hb]
  exact if_pos ⟨hs, hg⟩

theorem exec_burstCompletion_none (h : ∀ c, s.pmc.transfer ≠ some (.burst c)) : exec .burstCompletion s = .next s := by
  change execBurstCompletion s = _
  unfold execBurstCompletion
  split
  · next hc => exact absurd hc (h _)
  · rfl

/-- The port free again (R146). -/
def State.portFreed (s : State) : State := s.onPmc fun p => { p with transfer := none }

theorem exec_burstCompletion (h : s.pmc.transfer = some (.burst c)) : exec .burstCompletion s =
    .next (s.portFreed.updChannel c (Channel.takeBurst (s.grantOf c) s.portFreed.pmc)) := by
  simp only [exec, execBurstCompletion, h]
  rfl

theorem completion_channel (h : tabGet s.pbc c = some ch) (d : Nat) :
    (s.portFreed.updChannel c (Channel.takeBurst (s.grantOf c) s.portFreed.pmc)).channel d =
      if d = c then ch.takeBurst (s.grantOf c) s.portFreed.pmc else s.channel d :=
  updChannel_channel (s := s.portFreed) h _ d

end Completion

end Sys2Proof.Machine

open Sys2Proof Sys2Proof.Machine

/-- Settles O52: the fetch position, the tests of a channel, the arbiter's choice and the end of a burst, in turn. -/
theorem burstsServeUrgentChannelsFirst : Obligations.BurstsServeUrgentChannelsFirst := by
  unfold Obligations.BurstsServeUrgentChannelsFirst
  refine ⟨fun c => ?_, fun c grant => ?_, ⟨fun ptr p hp => ?_, fun s => ?_⟩, fun s => ?_⟩
  · exact ⟨fun _ _ _ _ _ _ => enter_fragment, fun _ _ => enter_silence, passEnd_loop, passEnd_next, passEnd_finished,
      fun _ => issue_within, issue_all (Nat.le_refl _), fun _ => begins_eq_some, fun _ _ _ => ⟨rfl, rfl⟩⟩
  · intro here busy filling asking n filled done settled
    have hfilling : ∀ x, filling x ↔ x.Filling grant := fun _ => filling_iff.symm
    have hasking : asking ↔ c.Asking grant := asking_iff.symm
    have hdone : done ↔ c.Fetched grant := fetched_iff.symm
    rw [hfilling, hasking, hdone, hfilling]
    refine ⟨fun h => silenceFill_rest h, fun h => silenceFill_fill h,
      fun hcur hbase hs => silenceFill_done hs fun _ _ => ⟨hcur, hbase⟩, judgeRequest_asking, judgeRequest_quiet,
      judgeState_fetched, fun hs h hfull => (judgeState_prefill hs h).trans (if_pos hfull),
      fun hs h hshort => (judgeState_prefill hs h).trans (if_neg (Nat.not_le.2 hshort)), judgeState_plays,
      judgeState_other, rfl, settle_fifo grant c, keptIn_settle grant c, fun _ _ _ _ => rfl⟩
  · exact ⟨nextAfter_eq_none hp, fun c => nextAfter_eq_some hp⟩
  · intro issued
    refine ⟨exec_fetchGrant_busy, fun hfree => ⟨fun c hc => ?_, fun hu => ⟨fun c hc => ?_, fun hn => ?_⟩⟩⟩
    · rw [exec_fetchGrant_free hfree, grantFetch_urgent hc]
      rfl
    · rw [exec_fetchGrant_free hfree, grantFetch_routine hu hc]
      rfl
    · rw [exec_fetchGrant_free hfree, grantFetch_none hu hn]
  · refine ⟨exec_burstCompletion_none, fun c ch b ht hch hb => ⟨_, exec_burstCompletion ht, rfl, fun d hd => ?_, rfl,
      fun hthrown => ?_, fun hs hg => ?_⟩⟩
    · exact (completion_channel hch d).trans (if_neg hd)
    · exact (completion_channel hch c).trans ((if_pos rfl).trans (takeBurst_discarded hb hthrown _))
    · exact (completion_channel hch c).trans ((if_pos rfl).trans (takeBurst_taken hb hs hg _))
end

section
/-! An audio cell and its stream's buffer (R164). -/

namespace Sys2Proof.Machine

/-! ### A stream's buffer written -/

theorem countBy_updStream (c : Counter) (k n : Nat) (f : StreamBuffer → StreamBuffer) (s : State) :
    (countBy c k s).updStream n f = countBy c k (s.updStream n f) := rfl

theorem count_updStream (c : Counter) (n : Nat) (f : StreamBuffer → StreamBuffer) (s : State) :
    (count c s).updStream n f = count c (s.updStream n f) := rfl

/-- A change of a buffer just written is one write. -/
theorem updStream_written (n : Nat) (b : StreamBuffer) (f : StreamBuffer → StreamBuffer) (s : State) :
    (s.updStream n fun _ => b).updStream n f = s.updStream n fun _ => f b := by
  simp only [State.updStream, State.onTki, tabUpd_tabUpd]

section Audio
variable {s : State} {n seq : Nat} {b : StreamBuffer}

/-- A change of a listed buffer writes what it makes of it. -/
theorem updStream_listed (hb : tabGet s.tki.streams n = some b) (f : StreamBuffer → StreamBuffer) :
    s.updStream n f = s.updStream n fun _ => f b := by
  have htab : tabUpd s.tki.streams n f = tabUpd s.tki.streams n fun _ => f b := by simp only [tabUpd, hb]
  exact congrArg (fun t => s.onTki fun k => { k with streams := t }) htab

theorem updStream_stream_written (hb : tabGet s.tki.streams n = some b) (x : StreamBuffer) :
    (s.updStream n fun _ => x).stream n = x := by
  simp only [State.stream, State.updStream, onTki_tki, tabGetD, tabGet_tabUpd, hb, if_true, Option.map_some,
    Option.getD_some]

/-! ### The cell appended, the missing ones filled in (R164) -/

theorem appendCell_room {u : State} (h : (u.stream n).cells.length < 8) (samples : List Sample) :
    appendCell n seq samples u = u.updStream n fun b =>
      { b with cells := b.cells ++ [samples], expected := some ((seq + 1) % 256) } := if_pos h

theorem appendCell_full {u : State} (h : 8 ≤ (u.stream n).cells.length) (samples : List Sample) :
    appendCell n seq samples u =
      count (.lost n) (u.updStream n fun b => { b with expected := some ((seq + 1) % 256) }) :=
  if_neg (Nat.not_lt.2 h)

/-- A stream's buffer with k missing cells filled in: as many zero cells as leave one place of the eight. -/
def StreamBuffer.filled (b : StreamBuffer) (k : Nat) : StreamBuffer :=
  { b with cells := b.cells ++ List.replicate (min k (7 - b.cells.length)) (List.replicate 32 0) }

theorem fillMissing_eq (n k : Nat) (u : State) : fillMissing n k u = u.updStream n fun b => b.filled k := rfl

theorem filled_length (b : StreamBuffer) (k : Nat) :
    (b.filled k).cells.length = b.cells.length + min k (7 - b.cells.length) := by
  simp [StreamBuffer.filled]

/-- A full buffer takes no zero cell. -/
theorem filled_full (h : 8 ≤ b.cells.length) (k : Nat) : b.filled k = b := by
  have hnone : min k (7 - b.cells.length) = 0 := by omega
  simp [StreamBuffer.filled, hnone]

/-! ### The cell by its sequence number (R164) -/

/-- The state in which a cell of a stream has been heard: the buffer's age is 0, and the cell is counted. -/
def heard (n : Nat) (b : StreamBuffer) (s : State) : State :=
  count (.cells n) (s.updStream n fun _ => { b with age := 0 })

theorem heard_stream (hb : tabGet s.tki.streams n = some b) : (heard n b s).stream n = { b with age := 0 } :=
  updStream_stream_written hb _

theorem heard_eq (hb : tabGet s.tki.streams n = some b) :
    count (.cells n) (s.updStream n fun b => { b with age := 0 }) = heard n b s :=
  congrArg (count (.cells n)) (updStream_listed hb _)

theorem takeAudio_first (hb : tabGet s.tki.streams n = some b) (he : b.expected = none) (samples : List Sample) :
    takeAudio n seq samples s = appendCell n seq samples (heard n b s) := by
  simp only [takeAudio, heard_eq hb, heard_stream hb, he]

/-- A cell is judged by how far its number lies ahead of the one expected, once it has been heard. -/
theorem takeAudio_expected {e : Nat} (hb : tabGet s.tki.streams n = some b) (he : b.expected = some e)
    (samples : List Sample) : takeAudio n seq samples s =
      if (seq + 256 - e) % 256 = 0 then appendCell n seq samples (heard n b s)
      else if (seq + 256 - e) % 256 ≤ 127 then
        appendCell n seq samples (fillMissing n ((seq + 256 - e) % 256)
          (countBy (.lost n) ((seq + 256 - e) % 256) (count (.outOfSequence n) (heard n b s))))
      else count (.outOfSequence n) (heard n b s) := by
  simp only [takeAudio, heard_eq hb, heard_stream hb, he]

theorem takeAudio_inSequence (hb : tabGet s.tki.streams n = some b) (he : b.expected = none ∨ b.expected = some seq)
    (samples : List Sample) : takeAudio n seq samples s = appendCell n seq samples (heard n b s) := by
  rcases he with he | he
  · exact takeAudio_first hb he samples
  · exact (takeAudio_expected hb he samples).trans (if_pos (by omega))

section Skipped
variable {e k : Nat} (hb : tabGet s.tki.streams n = some b) (he : b.expected = some e)
  (hk : k = (seq + 256 - e) % 256)
include hb he hk

theorem takeAudio_ahead (h1 : 1 ≤ k) (h127 : k ≤ 127) (samples : List Sample) :
    takeAudio n seq samples s = appendCell n seq samples
      (fillMissing n k (countBy (.lost n) k (count (.outOfSequence n) (heard n b s)))) := by
  rw [takeAudio_expected hb he, ← hk, if_neg (by omega), if_pos h127]

theorem takeAudio_late (h128 : 128 ≤ k) (samples : List Sample) :
    takeAudio n seq samples s = count (.outOfSequence n) (heard n b s) := by
  rw [takeAudio_expected hb he, ← hk, if_neg (by omega), if_neg (by omega)]

end Skipped

/-- A cell that skipped ahead meets the buffer as the zero cells have left it. -/
theorem fillMissing_stream (hb : tabGet s.tki.streams n = some b) (k : Nat) :
    (fillMissing n k (countBy (.lost n) k (count (.outOfSequence n) (heard n b s)))).stream n =
      { b.filled k with age := 0 } := by
  rw [fillMissing_eq, countBy_updStream, count_updStream, heard, count_updStream, updStream_written]
  exact updStream_stream_written hb _

end Audio

end Sys2Proof.Machine

open Sys2Proof Sys2Proof.Machine

/-- Settles O21: the cell is in sequence, ahead or late, and meets a buffer with room or a full one. -/
theorem audioCellsJoinTheirStream : Obligations.AudioCellsJoinTheirStream := by
  unfold Obligations.AudioCellsJoinTheirStream
  intro n seq samples s b hb
  refine ⟨fun he hroom _ => ?_, fun he hfull _ => ?_, fun e k he hk h1 h127 hroom => ?_,
    fun e k he hk h1 h127 hfull => ?_, fun e k he hk h128 => takeAudio_late hb he hk h128 samples⟩
  · rw [takeAudio_inSequence hb he, appendCell_room ((heard_stream hb).symm ▸ hroom), heard, count_updStream,
      updStream_written]
  · rw [takeAudio_inSequence hb he, appendCell_full ((heard_stream hb).symm ▸ hfull), heard, count_updStream,
      updStream_written]
  · have hlen : (b.filled k).cells.length < 8 := by rw [filled_length]; omega
    rw [takeAudio_ahead hb he hk h1 h127, appendCell_room ((fillMissing_stream hb k).symm ▸ hlen), fillMissing_eq]
    simp only [heard, countBy_updStream, count_updStream, updStream_written]
    rfl
  · have hlen : 8 ≤ (b.filled k).cells.length := by rwa [filled_full hfull]
    rw [takeAudio_ahead hb he hk h1 h127, appendCell_full ((fillMissing_stream hb k).symm ▸ hlen), fillMissing_eq]
    simp only [heard, countBy_updStream, count_updStream, updStream_written]
    rw [filled_full (b := { b with age := 0 }) hfull]
end

section
/-! The gain table (R162). -/

namespace Sys2Proof.Machine

theorem gain_beyond {a : Nat} (h : 121 ≤ a) : gain a = 0 := List.getD_eq_default _ _ h

/-- R162's table, entry by entry: the exact gain lies from half a unit below the entry to less than half a unit above
it, both compared by their 40th powers. -/
theorem gain_rounded : ∀ a < 121, 1 ≤ a →
    (2 * gain a - 1) ^ 40 * 10 ^ a ≤ 65536 ^ 40 ∧ 65536 ^ 40 < (2 * gain a + 1) ^ 40 * 10 ^ a := by decide

end Sys2Proof.Machine

open Sys2Proof Sys2Proof.Machine

/-- Settles O55: the table's first entry, its end, and each of the entries between. -/
theorem gainsAreRoundedToNearest : Obligations.GainsAreRoundedToNearest := by
  unfold Obligations.GainsAreRoundedToNearest
  exact ⟨rfl, fun _ => gain_beyond, fun a h1 h120 => gain_rounded a (Nat.lt_succ_of_le h120) h1⟩
end

section
/-! Ambient readings, boost and attenuation (R155, R157, R158). -/

namespace Sys2Proof.Machine

/-! ### Division that truncates toward zero -/

theorem tdiv_of_nonpos {x : Int} (h : x ≤ 0) (d : Int) : x.tdiv d = -(-x / d) := by
  rw [← Int.tdiv_eq_ediv_of_nonneg (by omega), Int.neg_tdiv, Int.neg_neg]

/-! ### Ambient readings (R155) -/

section Reading
variable {s : State} {z : Nat} {l : ZoneLevel}

theorem frozen_iff (hl : tabGet s.lmu.levels z = some l) :
    s.frozen z = true ↔ (s.zone z).holder ≠ none ∨ l.tail ≠ none ∨ l.releaseAge < 500 := by
  simp only [State.frozen, level_of_listed hl, Bool.or_eq_true, decide_eq_true_eq, Option.isSome_iff_ne_none, or_assoc]

theorem exec_ambientReading_none (h : takeFirst (fun p => p.1 == z) s.lmu.readings = none) :
    exec (.ambientReading z) s = .next s := by
  change execAmbientReading z s = _
  rw [execAmbientReading, h]

/-- The state in which the readings left are those given. -/
def State.withReadings (rest : List (Nat × Ambient)) (s : State) : State :=
  s.onLmu fun l => { l with readings := rest }

theorem exec_ambientReading {a : Ambient} {rest : List (Nat × Ambient)}
    (h : takeFirst (fun p => p.1 == z) s.lmu.readings = some ((z, a), rest)) :
    exec (.ambientReading z) s = .next (applyAmbient z a (s.withReadings rest)) := by
  change execAmbientReading z s = _
  rw [execAmbientReading, h]
  rfl

theorem applyAmbient_frozen (h : s.frozen z = true) (v : Nat) :
    applyAmbient z (.value v) s = count (.ambientIgnored z) s := if_pos h

theorem applyAmbient_smoothed (h : ¬s.frozen z = true) (v : Nat) : applyAmbient z (.value v) s =
    s.updLevel z fun l => { l with ambient := (l.ambient + ((v : Int) - l.ambient).tdiv 4).toNat } := if_neg h

/-- A quarter of the way from a level toward a reading never leads below zero. -/
theorem smoothed_nonneg (a v : Nat) : 0 ≤ (a : Int) + ((v : Int) - a).tdiv 4 := by
  rcases Int.le_total 0 ((v : Int) - a) with h | h
  · rw [Int.tdiv_eq_ediv_of_nonneg h]
    omega
  · rw [tdiv_of_nonpos h]
    omega

theorem applyAmbient_ambient (hl : tabGet s.lmu.levels z = some l) (h : ¬s.frozen z = true) (v : Nat) :
    (((applyAmbient z (.value v) s).level z).ambient : Int) = l.ambient + ((v : Int) - l.ambient).tdiv 4 := by
  rw [applyAmbient_smoothed h, updLevel_level, if_pos rfl, hl]
  exact Int.toNat_of_nonneg (smoothed_nonneg l.ambient v)

end Reading

/-! ### Boost and attenuation (R157, R158) -/

/-- The boost in integers, where an ambient below A_ref gives a quotient that the lower limit takes to 0 (R157). -/
theorem boost_eq (z : ZoneEntry) (ambient : Nat) :
    (boost z ambient : Int) = max 0 (min ((((ambient : Int) - z.aRef) * z.slope).tdiv 8) z.bMax) := by
  unfold boost
  rcases Nat.le_total z.aRef ambient with h | h
  · have hquotient : (((ambient : Int) - z.aRef) * z.slope).tdiv 8 =
        (((ambient - z.aRef) * z.slope / 8 : Nat) : Int) := by
      rw [← Int.ofNat_sub h]
      exact Int.ofNat_tdiv ((ambient - z.aRef) * z.slope) 8
    rw [hquotient]
    omega
  · have hproduct : ((ambient : Int) - z.aRef) * z.slope ≤ 0 :=
      Int.mul_nonpos_of_nonpos_of_nonneg (by omega) (by omega)
    rw [tdiv_of_nonpos hproduct, Nat.sub_eq_zero_of_le h, Nat.zero_mul]
    omega

theorem clampAtt_eq (lo : Nat) (x : Int) : (clampAtt lo x : Int) = max (lo : Int) (min x 121) := by
  unfold clampAtt
  omega

theorem clampAtt_mem {lo : Nat} (h : lo ≤ 121) (x : Int) : lo ≤ clampAtt lo x ∧ clampAtt lo x ≤ 121 := by
  unfold clampAtt
  omega

section Attenuation
variable (z : ZoneEntry) (ambient : Nat) (trim : Int)

theorem attFor_emergency : attFor z ambient 0 trim = clampAtt z.gMin (z.emergencyLevel - trim) := rfl

theorem attFor_other {cls : Nat} (h : cls ≠ 0) :
    attFor z ambient cls trim = clampAtt z.gMin (z.level - boost z ambient - trim) := if_neg h

theorem attFor_mem (h : z.gMin ≤ 121) (cls : Nat) :
    z.gMin ≤ attFor z ambient cls trim ∧ attFor z ambient cls trim ≤ 121 := by
  unfold attFor
  split <;> exact clampAtt_mem h _

end Attenuation

end Sys2Proof.Machine

open Sys2Proof Sys2Proof.Machine

/-- Settles O58: what the oldest reading does to its zone, and the two levels as the integers of their rules. -/
theorem levelsFollowTheAmbient : Obligations.LevelsFollowTheAmbient := by
  unfold Obligations.LevelsFollowTheAmbient
  refine ⟨fun s z => ⟨exec_ambientReading_none, fun a rest l ht hl => ?_⟩, fun z ambient cls trim hmin => ?_⟩
  · intro taken frozen
    have hfrozen : (s.withReadings rest).frozen z = true ↔ frozen := frozen_iff (s := s) hl
    rw [exec_ambientReading ht]
    refine ⟨fun ha => ?_, fun v ha => ⟨fun hf => ?_, fun hf => ⟨_, rfl, ?_, ?_⟩⟩⟩ <;> subst ha
    · rfl
    · rw [applyAmbient_frozen (hfrozen.2 hf)]
      rfl
    · exact applyAmbient_ambient (s := s.withReadings rest) hl (fun h => hf (hfrozen.1 h)) v
    · rw [applyAmbient_smoothed fun h => hf (hfrozen.1 h)]
      rfl
  · obtain ⟨hlow, hhigh⟩ := attFor_mem z ambient trim hmin cls
    refine ⟨boost_eq z ambient, fun hc => ?_, fun hc => ?_, hlow, hhigh⟩
    · rw [hc, attFor_emergency, clampAtt_eq]
    · rw [attFor_other z ambient trim hc, clampAtt_eq]
end

section
/-! Streams lost, and the monitored zone (R164, R166, R167). -/

namespace Sys2Proof.Machine

section Lost
variable {s : State} {n : Nat}

/-- The state in which a stream expects no number (R164). -/
def State.expectNone (n : Nat) (s : State) : State := s.updStream n fun b => { b with expected := none }

/-- Nothing is lost of a stream heard of late, nor of one that has no number to lose and no page (R164, R166). -/
theorem exec_streamLost_idle
    (h : (s.stream n).age < 5000 ∨ (liveOn s n = none ∧ (s.stream n).expected = none)) :
    exec (.streamLost n) s = .next s := by
  refine if_neg (c := 5000 ≤ (s.stream n).age ∧ ((s.stream n).expected.isSome ∨ (liveOn s n).isSome)) ?_
  rintro ⟨hage, hcause⟩
  rcases h with h | ⟨hpage, hnumber⟩
  · omega
  · simp [hpage, hnumber] at hcause

theorem exec_streamLost_page {r : AnnRec} (hage : 5000 ≤ (s.stream n).age) (hr : liveOn s n = some r) :
    exec (.streamLost n) s = .next (endAnn r.annId .aborted .streamLost false (s.expectNone n)) := by
  change execStreamLost n s = _
  unfold liveOn at hr
  simp only [execStreamLost, hr, hage, Option.isSome_some, or_true, and_self, if_true]
  rfl

theorem exec_streamLost_number (hage : 5000 ≤ (s.stream n).age) (hpage : liveOn s n = none)
    (hnumber : (s.stream n).expected ≠ none) : exec (.streamLost n) s = .next (s.expectNone n) := by
  change execStreamLost n s = _
  unfold liveOn at hpage
  simp only [execStreamLost, hpage, hage, Option.isSome_iff_ne_none.2 hnumber, true_or, and_self, if_true]
  rfl

end Lost

end Sys2Proof.Machine

open Sys2Proof Sys2Proof.Machine

/-- Settles O59: STREAM_LOST by the stream's age, its page and its number; MONITOR by the byte of its body. -/
theorem streamsAreLostAndMonitored : Obligations.StreamsAreLostAndMonitored := by
  unfold Obligations.StreamsAreLostAndMonitored
  refine ⟨fun s n => ?_, fun s m h => ⟨fun hoff => ?_, fun hgt hon => ?_, fun hle => ?_⟩⟩
  · exact ⟨fun hage => exec_streamLost_idle (.inl hage), fun hage => ⟨fun r => exec_streamLost_page hage,
      exec_streamLost_number hage, fun hpage hnumber => exec_streamLost_idle (.inr ⟨hpage, hnumber⟩)⟩⟩
  · exact answers_atHead rfl h rfl (fixed_length h.2) (if_pos hoff)
  · exact answers_atHead rfl h rfl (fixed_length h.2) ((if_neg hon).trans (if_pos hgt))
  · exact answers_atHead rfl h rfl (fixed_length h.2) ((if_neg (by omega)).trans (if_neg (Nat.not_lt.2 hle)))
end

section
/-! SUPPORT. What a judgement of availability leaves alone besides the blocks of Laws/Inner: the calls and the ambient
readings handed on (R113, R130, R155). -/

namespace Sys2Proof.Machine

section
variable (s : State)

@[simp] theorem clearHolders_readings (l : List Nat) : (clearHolders l s).lmu.readings = s.lmu.readings := by
  obtain ⟨_, _, h⟩ := clearHolders_shape l s
  rw [h]

@[simp] theorem clearHolders_crg (l : List Nat) : (clearHolders l s).crg = s.crg := by
  obtain ⟨_, _, h⟩ := clearHolders_shape l s
  rw [h]

@[simp] theorem endRecord_readings (id : Nat) (o : AnnOutcome) (why : Reason) (ended : Bool) :
    (endRecord id o why ended s).lmu.readings = s.lmu.readings := by
  cases h : s.ann id with
  | none => rw [endRecord_none h]
  | some r =>
    obtain ⟨-, -, -, hlmu, -⟩ := closeAnn_blocks id o why (letGo id ended s)
    obtain ⟨_, _, _, _, hshape⟩ := letGo_shape h ended
    rw [endRecord, hlmu, hshape]
    rfl

/-- What a fault takes from a holder is neither a call nor a reading, also where it ends the holder (R130). -/
theorem zoneFault_calls_readings (z : Nat) :
    (zoneFault z s).crg = s.crg ∧ (zoneFault z s).lmu.readings = s.lmu.readings := by
  cases h : (s.zone z).holder with
  | none => rw [zoneFault_free h]; exact ⟨rfl, rfl⟩
  | some id =>
    have hcalls : (zoneLost z id s).crg = s.crg := clearHolders_crg ..
    have hreadings : (zoneLost z id s).lmu.readings = s.lmu.readings := clearHolders_readings ..
    rw [zoneFault_held h]
    split
    · exact ⟨(endRecord_blocks ..).1.trans hcalls, (endRecord_readings ..).trans hreadings⟩
    · exact ⟨hcalls, hreadings⟩

theorem judgeAvailability_calls_readings (z : Nat) (cause : ZoneCause) :
    (judgeAvailability z cause s).crg = s.crg ∧ (judgeAvailability z cause s).lmu.readings = s.lmu.readings := by
  by_cases h : s.judged z = (s.zone z).available
  · rw [judgeAvailability_same h]
    exact ⟨rfl, rfl⟩
  · rw [judgeAvailability_changed h]
    simp only [causePass, onZar_crg, onZar_lmu, raise_crg, raise_lmu]
    split
    · exact ⟨rfl, rfl⟩
    · exact zoneFault_calls_readings ..

end

end Sys2Proof.Machine
end

section
/-! SUPPORT. The link of one zone moved: by a report's line state, by its sensor flag, by its loss (R172 to R175). -/

namespace Sys2Proof.Machine

/-! ### The links changed entry by entry -/

section
variable {s : State} {z : Nat} {k : ZoneLink}

theorem link_of_listed (h : tabGet s.zli.links z = some k) : s.link z = k := by
  simp [State.link, tabGetD, h]

theorem updLink_listed (h : tabGet s.zli.links z = some k) (f : ZoneLink → ZoneLink) :
    tabGet (s.updLink z f).zli.links z = some (f k) := by
  rw [State.updLink, onZli_zli, tabGet_tabUpd, if_pos rfl, h]
  rfl

theorem updLink_link_other {x : Nat} (h : x ≠ z) (f : ZoneLink → ZoneLink) : (s.updLink z f).link x = s.link x := by
  simp only [State.link, State.updLink, onZli_zli, tabGetD, tabGet_tabUpd, if_neg h]

end

/-! ### The frame of a move -/

/-- A move of one zone's link by `f`: every other link, the calls, the clock, the trunk and the readings handed on stay.
The notices, the pool and the zones may change, by the notice of R175 and the judgement of R173. -/
structure LinkMoved (z : Nat) (f : ZoneLink → ZoneLink) (s t : State) : Prop where
  listed : ∀ {k}, tabGet s.zli.links z = some k → tabGet t.zli.links z = some (f k)
  others : ∀ x, x ≠ z → t.link x = s.link x
  readings : t.lmu.readings = s.lmu.readings
  sck : t.sck = s.sck
  crg : t.crg = s.crg
  tki : t.tki = s.tki

theorem LinkMoved.trans {z : Nat} {f g : ZoneLink → ZoneLink} {s t u : State} (a : LinkMoved z f s t)
    (b : LinkMoved z g t u) : LinkMoved z (fun l => g (f l)) s u :=
  ⟨fun h => b.listed (a.listed h), fun x hx => (b.others x hx).trans (a.others x hx), b.readings.trans a.readings,
    b.sck.trans a.sck, b.crg.trans a.crg, b.tki.trans a.tki⟩

theorem LinkMoved.updLink (z : Nat) (f : ZoneLink → ZoneLink) (s : State) : LinkMoved z f s (s.updLink z f) :=
  ⟨fun h => updLink_listed h f, fun _ h => updLink_link_other h f, rfl, rfl, rfl, rfl⟩

/-- A move stands through what comes after it and leaves the links, the readings and the calls. -/
theorem LinkMoved.inner {z : Nat} {f : ZoneLink → ZoneLink} {s t u : State} (a : LinkMoved z f s t) (b : Inner t u)
    (hcalls : u.crg = t.crg) (hreadings : u.lmu.readings = t.lmu.readings) : LinkMoved z f s u :=
  ⟨fun h => b.zli ▸ a.listed h, fun x hx => Eq.trans (by rw [State.link, b.zli]; rfl) (a.others x hx),
    hreadings.trans a.readings, b.sck.trans a.sck, hcalls.trans a.crg, b.tki.trans a.tki⟩

/-! ### The two moves of a report (R172, R173, R175) -/

section
variable {s : State} {z : Nat} {k : ZoneLink} (h : tabGet s.zli.links z = some k)
include h

/-- A new link state is judged when it changes the usable value, which is link state OK (R170, R173). -/
theorem setLink_of_listed (st : LinkState) : setLink z st s =
    let moved := s.updLink z fun l => { l with link := st }
    if (k.link = .ok ↔ st = .ok) then moved else judgeAvailability z (.link st) moved := by
  have hmoved : (s.updLink z fun l => { l with link := st }).link z = { k with link := st } :=
    link_of_listed (updLink_listed h _)
  have hsame : (ZoneLink.usable { k with link := st } = k.usable) = (k.link = .ok ↔ st = .ok) := by
    rw [Bool.eq_iff_iff, iff_comm]
    simp only [ZoneLink.usable, beq_iff_eq]
  simp only [setLink, hmoved, link_of_listed h, hsame]

theorem followSensor_of_listed (a : Ambient) (line : LinkState) : followSensor z a line s =
    let fault := a == .sensorFault
    if k.sensorFault = fault then s
    else raise (.sensorFault z fault line s.sck.time) (s.updLink z fun l => { l with sensorFault := fault }) := by
  simp only [followSensor, link_of_listed h]

end

section
variable (s : State) (z : Nat)

theorem LinkMoved.setLink (st : LinkState) : LinkMoved z (fun l => { l with link := st }) s (setLink z st s) := by
  have hmoved := LinkMoved.updLink z (fun l => { l with link := st }) s
  obtain ⟨hcalls, hreadings⟩ :=
    judgeAvailability_calls_readings (s.updLink z fun l => { l with link := st }) z (.link st)
  unfold Machine.setLink
  simp only
  split
  · exact hmoved
  · exact hmoved.inner (Inner.judgeAvailability ..) hcalls hreadings

theorem LinkMoved.followSensor (a : Ambient) (line : LinkState) :
    LinkMoved z (fun l => { l with sensorFault := a == .sensorFault }) s (followSensor z a line s) := by
  unfold Machine.followSensor
  simp only
  split
  · next hsame =>
    refine ⟨fun {k} h => ?_, fun _ _ => rfl, rfl, rfl, rfl, rfl⟩
    rw [← hsame, link_of_listed h]
    exact h
  · exact (LinkMoved.updLink ..).inner (Inner.raise ..) (raise_crg ..) (congrArg LevelMix.readings (raise_lmu ..))

@[simp] theorem followSensor_zar (a : Ambient) (line : LinkState) : (followSensor z a line s).zar = s.zar := by
  unfold followSensor
  simp only
  split
  · rfl
  · exact raise_zar ..

@[simp] theorem followSensor_apl (a : Ambient) (line : LinkState) : (followSensor z a line s).apl = s.apl := by
  unfold followSensor
  simp only
  split
  · rfl
  · exact raise_apl ..

end

/-! ### A report taken (R172) -/

/-- The state in which a report is counted and its zone's age, line state and reading are those of the report, before
its link state and its sensor flag move (R172). -/
def State.reported (z : Nat) (line : LinkState) (a : Ambient) (s : State) : State :=
  ((count (.reportsReceived z) s).updLink z fun l =>
    { l with age := 0, lastLine := some line, lastAmbient := some a }).onLmu fun l =>
    { l with readings := l.readings ++ [(z, a)] }

section
variable {s : State} {z : Nat} {k : ZoneLink} (line : LinkState) (a : Ambient)

theorem reported_listed (h : tabGet s.zli.links z = some k) : tabGet (s.reported z line a).zli.links z =
    some { k with age := 0, lastLine := some line, lastAmbient := some a } :=
  updLink_listed (s := count (.reportsReceived z) s) h _

theorem reported_link_other {x : Nat} (h : x ≠ z) : (s.reported z line a).link x = s.link x :=
  updLink_link_other (s := count (.reportsReceived z) s) h _

theorem takeReport_link_first : takeReport z line a true s =
    followSensor z a line (setLink z line (s.reported z line a)) := rfl

theorem takeReport_sensor_first : takeReport z line a false s =
    setLink z line (followSensor z a line (s.reported z line a)) := rfl

/-- In either order the two moves leave the same link (R175, log 39). -/
theorem takeReport_moved (first : Bool) : LinkMoved z
    (fun l => { l with link := line, sensorFault := a == .sensorFault }) (s.reported z line a)
    (takeReport z line a first s) := by
  cases first with
  | true => exact (LinkMoved.setLink ..).trans (LinkMoved.followSensor ..)
  | false => exact (LinkMoved.followSensor ..).trans (LinkMoved.setLink ..)

section
variable (h : tabGet s.zli.links z = some k) (husable : k.link = .ok ↔ line = .ok) (first : Bool)
include h husable

/-- A report that keeps the usable value reaches neither the Zone Arbiter nor the pool (R173). -/
theorem takeReport_zones_pool :
    (takeReport z line a first s).zar = s.zar ∧ (takeReport z line a first s).apl = s.apl := by
  have hlisted := reported_listed line a h
  cases first with
  | true =>
    rw [takeReport_link_first, followSensor_zar, followSensor_apl, setLink_of_listed hlisted, if_pos husable]
    exact ⟨rfl, rfl⟩
  | false =>
    rw [takeReport_sensor_first, setLink_of_listed ((LinkMoved.followSensor _ z a line).listed hlisted), if_pos husable]
    exact ⟨followSensor_zar .., followSensor_apl ..⟩

/-- A report that keeps the usable value and the sensor flag is not noticed (R173, R175). -/
theorem takeReport_notices (hsensor : k.sensorFault = (a == .sensorFault)) :
    (takeReport z line a first s).notices = s.notices := by
  have hlisted := reported_listed line a h
  cases first with
  | true =>
    rw [takeReport_link_first, followSensor_of_listed ((LinkMoved.setLink _ z line).listed hlisted), if_pos hsensor,
      setLink_of_listed hlisted, if_pos husable]
    rfl
  | false =>
    rw [takeReport_sensor_first, followSensor_of_listed hlisted, if_pos hsensor, setLink_of_listed hlisted,
      if_pos husable]
    rfl

end

end

/-! ### The rows (R172, R174) -/

theorem lineStateOf_unknown {n : Nat} (h : 4 ≤ n) : lineStateOf n = none := by
  match n, h with
  | _ + 4, _ => rfl

theorem ambientOf_fault (n : Nat) : (ambientOf n == .sensorFault) = decide (n = 255) := by
  unfold ambientOf
  split
  · next h => simp [h]
  · next h => simp [h]

section
variable {s : State} {report : List Byte} {first : Bool}

theorem exec_zoneReport_selfCheck (h : s.mgi.partState = .selfCheck) :
    exec (.zoneReport ⟨report, first⟩) s = .next s := if_pos h

theorem exec_zoneReport_error (hp : s.mgi.partState ≠ .selfCheck)
    (h : 32 ≤ byteAt report 0 ∨ 4 ≤ byteAt report 1) :
    exec (.zoneReport ⟨report, first⟩) s = .next (count .zoneReportErrors s) := by
  change execZoneReport ⟨report, first⟩ s = _
  rw [execZoneReport, if_neg hp]
  split
  · next line hline =>
    refine if_neg (Nat.not_lt.2 (h.resolve_right fun hunknown => ?_))
    rw [lineStateOf_unknown hunknown] at hline
    cases hline
  · rfl

theorem exec_zoneReport {line : LinkState} (hp : s.mgi.partState ≠ .selfCheck) (hz : byteAt report 0 < 32)
    (hline : lineStateOf (byteAt report 1) = some line) : exec (.zoneReport ⟨report, first⟩) s =
      .next (takeReport (byteAt report 0) line (ambientOf (byteAt report 2)) first s) := by
  change execZoneReport ⟨report, first⟩ s = _
  rw [execZoneReport, if_neg hp]
  simp only [hline]
  exact if_pos hz

end

section
variable {s : State} {z : Nat} {k : ZoneLink} (h : tabGet s.zli.links z = some k)
include h

theorem exec_linkLost_kept (hkept : k.age < 1000 ∨ k.link = .linkLost) : exec (.linkLost z) s = .next s := by
  refine if_neg ?_
  rw [link_of_listed h]
  rintro ⟨hage, hlink⟩
  exact hkept.elim (Nat.not_lt.2 hage) hlink

/-- A link that was OK is lost as a usable one, which is judged; any other moves alone (R173, R174). -/
theorem exec_linkLost (hage : 1000 ≤ k.age) (hlink : k.link ≠ .linkLost) :
    exec (.linkLost z) s = .next (
      let lost := s.updLink z fun x => { x with link := .linkLost }
      if k.link = .ok then judgeAvailability z (.link .linkLost) lost else lost) := by
  have hlost : exec (.linkLost z) s = .next (setLink z .linkLost s) := by
    refine if_pos ?_
    rw [link_of_listed h]
    exact ⟨hage, hlink⟩
  rw [hlost, setLink_of_listed h]
  by_cases hok : k.link = .ok <;> simp [hok]

end

end Sys2Proof.Machine
end

section
/-! Zone reports and lost links (R172 to R175). -/

open Sys2Proof Sys2Proof.Machine

/-- Settles O60: a report by the part's state, its codes and the order of its two moves; a loss by the link's age and
state. -/
theorem reportsAndLossesMoveTheLink : Obligations.ReportsAndLossesMoveTheLink := by
  unfold Obligations.ReportsAndLossesMoveTheLink
  refine ⟨fun report first s => ⟨exec_zoneReport_selfCheck, exec_zoneReport_error, ?_⟩,
    fun s z k h => ⟨exec_linkLost_kept h, exec_linkLost h⟩⟩
  rintro z line k hp rfl hz hline h a fault seen sensor linked
  have hfault : (a == .sensorFault) = fault := ambientOf_fault _
  have hseen := reported_listed line a h
  have hmoved := takeReport_moved (s := s) (z := byteAt report 0) line a first
  have hsensor : ∀ {u l}, tabGet u.zli.links (byteAt report 0) = some l → l.sensorFault = k.sensorFault →
      u.sck = s.sck → followSensor (byteAt report 0) a line u = sensor u := by
    intro u l hl hsame hclock
    rw [followSensor_of_listed hl, hfault, hsame, hclock]
  have hlinked : ∀ {u l}, tabGet u.zli.links (byteAt report 0) = some l → l.link = k.link →
      setLink (byteAt report 0) line u = linked u := by
    intro u l hl hsame
    rw [setLink_of_listed hl, hsame]
  refine ⟨_, exec_zoneReport hp hz hline, ?_, ?_, fun other ho => ?_, hmoved.readings, hmoved.sck, hmoved.crg,
    hmoved.tki, fun husable => takeReport_zones_pool line a h husable first,
    fun husable hflag => takeReport_notices line a h husable first (hflag.trans hfault.symm)⟩
  · cases first with
    | true =>
      have hlink := LinkMoved.setLink (s.reported (byteAt report 0) line a) (byteAt report 0) line
      exact (hsensor (hlink.listed hseen) rfl hlink.sck).trans (congrArg sensor (hlinked hseen rfl))
    | false =>
      have hflag := LinkMoved.followSensor (s.reported (byteAt report 0) line a) (byteAt report 0) a line
      exact (hlinked (hflag.listed hseen) rfl).trans (congrArg linked (hsensor hseen rfl rfl))
  · exact hfault ▸ link_of_listed (hmoved.listed hseen)
  · exact (hmoved.others other ho).trans (reported_link_other line a ho)
end

section
/-! SUPPORT. The queues of the trunk and of the interpreter: the shared operations and the commands' owning rules that
leave them as they were, and what the end of a command's execution makes of them. -/

namespace Sys2Proof.Machine

/-! ### The queues left alone -/

/-- The command queue, the response store, the monitor queue, the pending write and the queue of waiting steps. -/
def State.queues (s : State) :
    List Message × List (List Byte) × List MonitorCell × Option PhraseWrite × List Instr :=
  (s.mgi.commands, s.tki.responses, s.tki.monitorQueue, s.pmc.pendingWrite, s.pending)

theorem queues_eq_iff {s : State} {commands : List Message} {responses : List (List Byte)} {cells : List MonitorCell}
    {write : Option PhraseWrite} {waiting : List Instr} :
    s.queues = (commands, responses, cells, write, waiting) ↔ s.mgi.commands = commands ∧ s.tki.responses = responses ∧
      s.tki.monitorQueue = cells ∧ s.pmc.pendingWrite = write ∧ s.pending = waiting := by
  simp only [State.queues, Prod.mk.injEq]

/-- An inner operation leaves the queues alone. -/
theorem Inner.queues {s t : State} (h : Inner s t) : t.queues = s.queues := by
  simp only [State.queues, h.mgi, h.tki, h.pmc, h.pending]

theorem putDueChecked_queues (slot : Nat) (c : CallRec) (e : TriggerEvent) (s : State) :
    (putDueChecked slot c e s).queues = s.queues := by
  rw [putDueChecked_eq]
  split <;> rfl

theorem createFor_queues (a : Ask) (s : State) : (createFor a s).state.queues = s.queues := by
  unfold createFor
  split
  · next h => exact (Inner.createRecord h).queues
  · rfl

theorem passAfterLoad_queues (r : Reply) : (passAfterLoad r).state.queues = r.state.queues := by
  unfold passAfterLoad
  split <;> rfl

/-- A LOAD command that writes its parsed entries into a table leaves the queues alone. -/
theorem loadTable_queues {α : Type} {parse : List Byte → Option α} {put : Nat → α → State → State}
    (h : ∀ i v s, (put i v s).queues = s.queues) (first count lo hi : Nat) (entries : List (List Byte)) (s : State) :
    (loadCommand first count lo hi entries (takeParsed parse put) s).state.queues = s.queues :=
  loadCommand_keeps State.queues (takeParsed_keeps State.queues h) ..

theorem takeZoneEntry_queues (z : Nat) (b : List Byte) (s : State) : (takeZoneEntry z b s).2.queues = s.queues := by
  unfold takeZoneEntry
  split <;> rfl

theorem readRange_queues (first count hi : Nat) (body : List Byte) (s : State) :
    (readRange first count hi body s).state.queues = s.queues := by rw [readRange_state]

theorem answerHeld_queues {act : Nat → State → State} (h : ∀ id s, (act id s).queues = s.queues) (b : List Byte)
    (s : State) : (answerHeld act b s).state.queues = s.queues := by
  unfold answerHeld
  split
  · rfl
  · split
    · exact h ..
    · rfl
    · rfl

/-! ### The Call Register's updates (R18 to R31) -/

theorem takeCallEntry_queues (slot : Nat) (b : List Byte) (s : State) :
    (takeCallEntry slot b s).2.queues = s.queues := by
  unfold takeCallEntry
  split
  · rfl
  · split
    · rfl
    · split
      · rfl
      · exact (putDueChecked_queues ..).trans (Inner.removeCall ..).queues

theorem updateCall_queues {act : Nat → CallRec → List Byte → State → Status × State}
    (h : ∀ slot c b s, (act slot c b s).2.queues = s.queues) (b : List Byte) (s : State) :
    (updateCall act b s).state.queues = s.queues := by
  unfold updateCall
  split
  · rfl
  · split
    · rfl
    · split
      · rfl
      · exact h ..

theorem arrive_queues (slot : Nat) (c : CallRec) (b : List Byte) (s : State) :
    (arrive slot c b s).2.queues = s.queues := by
  rw [arrive_eq]
  split
  · split <;> rfl
  · split <;> rfl

theorem depart_queues (slot : Nat) (c : CallRec) (b : List Byte) (s : State) :
    (depart slot c b s).2.queues = s.queues := by
  rw [depart_eq]
  split
  · rfl
  · split
    · rfl
    · split <;> rfl

theorem gone_queues (slot : Nat) (c : CallRec) (b : List Byte) (s : State) :
    (gone slot c b s).2.queues = s.queues := by
  rw [gone_eq]
  split
  · rfl
  · split <;> rfl

theorem cancel_queues (slot : Nat) (c : CallRec) (b : List Byte) (s : State) :
    (cancel slot c b s).2.queues = s.queues := by
  rw [cancel_eq]
  split
  · rfl
  · split <;> rfl

theorem changeDelay_queues (slot : Nat) (c : CallRec) (b : List Byte) (s : State) :
    (changeDelay slot c b s).2.queues = s.queues := by
  rw [changeDelay_eq]
  split
  · rfl
  · split
    · rfl
    · exact putDueChecked_queues ..

theorem changePlatform_queues (slot : Nat) (c : CallRec) (b : List Byte) (s : State) :
    (changePlatform slot c b s).2.queues = s.queues := by
  rw [changePlatform_eq]
  split
  · rfl
  · split
    · rw [putPlatformOf_eq]
      rfl
    · rfl

/-! ### The day (R5, R9, R10) -/

theorem noteChange_queues (m : Nat) (s : State) : (noteChange m s).queues = s.queues := by
  unfold noteChange
  split <;> rfl

theorem openDay_queues (day hour t : Nat) (s : State) : (openDay day hour t s).queues = s.queues := by
  rw [openDay_eq]
  exact noteChange_queues t s

theorem closeDay_queues (s : State) : (closeDay s).queues = s.queues := (closeDay_inner s).queues

theorem takeMark_queues (day m : Nat) (s : State) : (takeMark day m s).queues = s.queues := by
  unfold takeMark
  split
  · rfl
  · split
    · rfl
    · obtain ⟨_, _, _, h⟩ := applyMark_shape day m s
      rw [h]
      exact noteChange_queues m s

theorem elapseSecond_queues (s : State) : (elapseSecond s).queues = s.queues := by
  obtain ⟨_, _, _, h⟩ := elapseSecond_shape s
  rw [h]
  rfl

theorem enterFreewheel_queues (s : State) : (enterFreewheel s).queues = s.queues := by
  obtain ⟨_, _, _, h⟩ := enterFreewheel_shape s
  rw [h]
  rfl

/-! ### The zone link (R155, R172 to R175) -/

theorem setLink_queues (z : Nat) (st : LinkState) (s : State) : (setLink z st s).queues = s.queues := by
  unfold setLink
  simp only
  split
  · rfl
  · exact (Inner.judgeAvailability ..).queues

theorem followSensor_queues (z : Nat) (a : Ambient) (line : LinkState) (s : State) :
    (followSensor z a line s).queues = s.queues := by
  unfold followSensor
  simp only
  split
  · rfl
  · exact (Inner.raise ..).queues

theorem takeReport_queues (z : Nat) (line : LinkState) (a : Ambient) (first : Bool) (s : State) :
    (takeReport z line a first s).queues = s.queues := by
  unfold takeReport
  simp only
  split
  · exact (followSensor_queues ..).trans (setLink_queues ..)
  · exact (setLink_queues ..).trans (followSensor_queues ..)

theorem applyAmbient_queues (z : Nat) (a : Ambient) (s : State) : (applyAmbient z a s).queues = s.queues := by
  unfold applyAmbient
  split
  · rfl
  · split <;> rfl

/-! ### The trunk (R164, R178) -/

theorem appendCell_queues (n seq : Nat) (samples : List Sample) (s : State) :
    (appendCell n seq samples s).queues = s.queues := by
  unfold appendCell
  split <;> rfl

theorem takeAudio_queues (n seq : Nat) (samples : List Sample) (s : State) :
    (takeAudio n seq samples s).queues = s.queues := by
  unfold takeAudio
  simp only
  split
  · exact appendCell_queues ..
  · split
    · exact appendCell_queues ..
    · split
      · exact appendCell_queues ..
      · rfl

theorem discardPartial_queues (s : State) : (discardPartial s).queues = s.queues := by
  unfold discardPartial
  split <;> rfl

/-! ### Events (R34) -/

theorem takeEventOf_queues (kind : TriggerEvent → Bool) (slot : Nat) (s : State) :
    (takeEventOf kind slot s).queues = s.queues := by
  unfold takeEventOf
  split
  · split
    · exact (Inner.takeTriggerEvent ..).queues
    · rfl
  · rfl

theorem takePoolEvent_queues {act : CallEvent PoolEvent → State → State} (h : ∀ e s, Inner s (act e s))
    (kind : PoolEvent → Bool) (slot : Nat) (s : State) : (takePoolEvent kind act slot s).queues = s.queues := by
  unfold takePoolEvent
  split
  · split
    · exact (h ..).queues
    · rfl
  · rfl

/-! ### What a step makes of the queues -/

/-- A step keeps the queues within their sizes, and leaves the queue of waiting steps alone. -/
structure QueuesKept (s t : State) : Prop where
  sound : QueuesSound s → QueuesSound t
  pending : t.pending = s.pending

theorem QueuesKept.of {s t : State} (h : t.queues = s.queues) : QueuesKept s t := by
  obtain ⟨hcommands, hresponses, hmonitor, hwrite, hpending⟩ := queues_eq_iff.1 h
  refine ⟨fun hs => ?_, hpending⟩
  unfold QueuesSound
  rw [hcommands, hresponses, hmonitor, hwrite]
  exact hs

theorem QueuesKept.refl (s : State) : QueuesKept s s := .of rfl

theorem QueuesKept.trans {s t u : State} (a : QueuesKept s t) (b : QueuesKept t u) : QueuesKept s u :=
  ⟨b.sound ∘ a.sound, b.pending.trans a.pending⟩

/-- What an operation keeps, it keeps where another that leaves the queues alone comes before it. -/
theorem QueuesKept.before {s t u : State} (k : QueuesKept t u) (h : t.queues = s.queues) : QueuesKept s u :=
  (QueuesKept.of h).trans k

/-! ### The end of an execution (R180 to R182) -/

/-- What the end of an execution makes of the queues: the message leaves, and one response joins at most. -/
theorem finish_queues (m : Message) (st : Status) (body : List Byte) (s : State) : ∃ responses,
    responses.length ≤ s.tki.responses.length + 1 ∧ (finish m st body s).queues =
      (s.mgi.commands.tail, responses, s.tki.monitorQueue, s.pmc.pendingWrite, s.pending) := by
  unfold finish leaveQueue answer
  simp only
  split
  · refine ⟨s.tki.responses, Nat.le_succ _, ?_⟩
    split <;> rfl
  · refine ⟨s.tki.responses ++ [responseTo m st body], by simp, ?_⟩
    split <;> rfl

theorem finish_pending (m : Message) (st : Status) (body : List Byte) (s : State) :
    (finish m st body s).pending = s.pending := by
  obtain ⟨_, _, h⟩ := finish_queues m st body s
  obtain ⟨_, _, _, _, hpending⟩ := queues_eq_iff.1 h
  exact hpending

/-- The answer of a command has its place in the response store where no write waits and a place is free (R182). -/
theorem QueuesKept.finish {s : State} (hroom : s.tki.responses.length < Config.responseSize)
    (hidle : s.pmc.pendingWrite = none) (m : Message) (st : Status) (body : List Byte) :
    QueuesKept s (finish m st body s) := by
  obtain ⟨responses, hlen, h⟩ := finish_queues m st body s
  obtain ⟨hcommands, hresponses, hmonitor, hwrite, hpending⟩ := queues_eq_iff.1 h
  refine ⟨fun ⟨hqueue, _, hcells, _⟩ => ?_, hpending⟩
  unfold QueuesSound
  rw [hcommands, hresponses, hmonitor, hwrite, hidle, List.length_tail]
  exact ⟨by omega, by omega, hcells, nofun⟩

/-- A command is executed only with a place free for its answer and no write waiting (R182). -/
theorem canExecute_room {s : State} (h : canExecute s = true) :
    s.pmc.pendingWrite = none ∧ s.tki.responses.length < Config.responseSize := by
  simp only [canExecute, Bool.and_eq_true, Option.isNone_iff_eq_none, decide_eq_true_eq] at h
  obtain ⟨⟨_, hidle⟩, hroom⟩ := h
  exact ⟨hidle, hroom⟩

/-- A command that may be executed, whose owning rule leaves the queues alone, is answered within them. -/
theorem QueuesKept.answered {s t : State} (hc : canExecute s = true) (h : t.queues = s.queues) (m : Message)
    (st : Status) (body : List Byte) : QueuesKept s (Machine.finish m st body t) := by
  obtain ⟨hidle, hroom⟩ := canExecute_room hc
  obtain ⟨_, hresponses, _, hwrite, _⟩ := queues_eq_iff.1 h
  exact .before (.finish (by rwa [hresponses]) (by rwa [hwrite]) m st body) h

end Sys2Proof.Machine
end

section
/-! SUPPORT. Every row of the table completes, and keeps the queues within their sizes. -/

namespace Sys2Proof.Machine

/-! ### A step that completes -/

/-- What a row answers is a next state, in which the queues are within their sizes if they were, and the queue of
waiting steps is as it was. -/
def Completes (s : State) (o : Out) : Prop := ∃ t, o = .next t ∧ QueuesKept s t

theorem Completes.next {s t : State} (h : QueuesKept s t) : Completes s (.next t) := ⟨t, rfl, h⟩

theorem Completes.quiet {s t : State} (h : t.queues = s.queues) : Completes s (.next t) := .next (.of h)

theorem Completes.idle (s : State) : Completes s (.next s) := .next (.refl s)

/-- A command whose owning rule leaves the queues alone completes. -/
theorem Completes.run {row : Row} {act : List Byte → State → Reply} (h : ∀ b s, (act b s).state.queues = s.queues)
    (s : State) : Completes s (.next (runCommand row act s)) := by
  rcases runCommand_cases row act s with ⟨_, e⟩ | ⟨m, hm, ⟨_, _, e⟩ | ⟨_, _, e⟩ | ⟨_, _, e⟩⟩ <;> rw [e]
  · exact .idle s
  all_goals obtain ⟨_, hc, _, _⟩ := headFor_head hm
  · exact .next (.answered hc rfl ..)
  · exact .next (.answered hc rfl ..)
  · exact .next (.answered hc (h ..) ..)

/-! ### Commands -/

theorem Completes.unknownCommandCode (s : State) : Completes s (execUnknownCommandCode s) := by
  unfold execUnknownCommandCode
  split
  · split
    · next h => exact .next (.answered h.1 rfl ..)
    · exact .idle s
  · exact .idle s

theorem Completes.readStats (s : State) : Completes s (execReadStats s) := by
  refine .run (fun b s => ?_) s
  simp only [reply]
  split <;> rfl

theorem Completes.openDay (s : State) : Completes s (execOpenDay s) := by
  refine .run (fun b s => ?_) s
  split
  · rfl
  · split
    · rfl
    · exact openDay_queues ..

theorem Completes.closeDay (s : State) : Completes s (execCloseDay s) := by
  refine .run (fun b s => ?_) s
  split
  · exact closeDay_queues s
  · rfl

theorem Completes.loadCalls (s : State) : Completes s (execLoadCalls s) := by
  refine .run (fun b s => ?_) s
  split
  · rfl
  · exact loadCommand_keeps State.queues takeCallEntry_queues ..

theorem Completes.freeCall (s : State) : Completes s (execFreeCall s) := by
  refine .run (fun b s => ?_) s
  split
  · rfl
  · split
    · rfl
    · split
      · rfl
      · split
        · rfl
        · exact (Inner.removeCall ..).queues

theorem Completes.readCall (s : State) : Completes s (execReadCall s) := by
  refine .run (fun b s => ?_) s
  split
  · split
    · rfl
    · split <;> rfl
  · split
    · rfl
    · split <;> rfl
  · rfl

theorem Completes.announce (s : State) : Completes s (execAnnounce s) := by
  refine .run (fun b s => ?_) s
  split
  · rfl
  · split
    · rfl
    · exact createFor_queues ..
  · split
    · rfl
    · exact createFor_queues ..

theorem Completes.livePageBegin (s : State) : Completes s (execLivePageBegin s) := by
  refine .run (fun b s => ?_) s
  split
  · rfl
  · split
    · rfl
    · split
      · rfl
      · simp only
        split
        · next hc => exact (Inner.createRecord hc).queues
        · rfl

theorem Completes.livePageEnd (s : State) : Completes s (execLivePageEnd s) := by
  refine .run (fun b s => ?_) s
  split
  · rfl
  · split
    · rfl
    · simp only [reply]
      split
      · exact (Inner.completeRecord ..).queues
      · exact (Inner.endRecord ..).queues

theorem Completes.emergencyBegin (s : State) : Completes s (execEmergencyBegin s) := by
  refine .run (fun b s => ?_) s
  split
  · rfl
  · split
    · rfl
    · simp only
      split
      · next hc => exact (Inner.createRecord hc).queues.trans (Inner.makeRoom s).queues
      · rfl

theorem Completes.emergencyEnd (s : State) : Completes s (execEmergencyEnd s) := by
  refine .run (fun b s => ?_) s
  split
  · exact (Inner.endEmergencies ..).queues
  · split
    · rfl
    · split
      · exact (Inner.endEmergencies ..).queues
      · rfl

theorem Completes.withdraw (s : State) : Completes s (execWithdraw s) := by
  refine .run (fun b s => ?_) s
  split
  · rfl
  · exact (Inner.endAnn ..).queues

theorem Completes.loadZones (s : State) : Completes s (execLoadZones s) :=
  .run (fun _ _ => (passAfterLoad_queues _).trans ((Inner.judgeEnabled ..).queues.trans
    (loadCommand_keeps State.queues takeZoneEntry_queues ..))) s

theorem Completes.monitor (s : State) : Completes s (execMonitor s) := by
  refine .run (fun b s => ?_) s
  split
  · rfl
  · split <;> rfl

/-! ### Phrase memory (R145 to R151) -/

/-- A WRITE_PHRASE that is to wait has found a place for its answer, which it keeps (R150, R182). -/
theorem Completes.writePhrase (s : State) : Completes s (execWritePhrase s) := by
  unfold execWritePhrase
  split
  · exact .idle s
  · next m hm =>
    obtain ⟨_, hc, _, _⟩ := headFor_head hm
    have refused : ∀ st, QueuesKept s (finish m st [] s) := fun st => .answered hc rfl ..
    split
    · exact .next (refused _)
    · split
      · exact .next (refused _)
      · refine .next ?_
        unfold beginWrite
        simp only
        split
        · exact refused _
        · split
          · exact refused _
          · split
            · exact refused _
            · exact ⟨fun ⟨hqueue, hstore, hcells, _⟩ => ⟨hqueue, hstore, hcells, fun _ => (canExecute_room hc).2⟩, rfl⟩

/-- The answer of a write that waited takes the place kept for it (R150). -/
theorem QueuesKept.finishHead {s t : State} {w : PhraseWrite} (hw : s.pmc.pendingWrite = some w)
    (ht : t.queues = (s.mgi.commands, s.tki.responses, s.tki.monitorQueue, none, s.pending)) (st : Status) :
    QueuesKept s (finishHead st t) := by
  obtain ⟨hcommands, hresponses, hmonitor, hidle, hpending⟩ := queues_eq_iff.1 ht
  have hroom : QueuesSound s → t.tki.responses.length < Config.responseSize := fun ⟨_, _, _, hplace⟩ => by
    rw [hresponses]
    exact hplace (by rw [hw]; rfl)
  have hsound : QueuesSound s → QueuesSound t := fun ⟨hqueue, hstore, hcells, _⟩ => by
    unfold QueuesSound
    rw [hcommands, hresponses, hmonitor, hidle]
    exact ⟨hqueue, hstore, hcells, nofun⟩
  unfold Machine.finishHead
  split
  · exact ⟨fun hs => (QueuesKept.finish (hroom hs) hidle ..).sound (hsound hs), (finish_pending ..).trans hpending⟩
  · exact ⟨hsound, hpending⟩

theorem Completes.phraseWriteStart (s : State) : Completes s (execPhraseWriteStart s) := by
  unfold execPhraseWriteStart
  split
  · next w hw =>
    split
    · split
      · exact .next (.finishHead hw rfl _)
      · exact .quiet rfl
    · exact .idle s
  · exact .idle s

theorem Completes.phraseWriteComplete (s : State) : Completes s (execPhraseWriteComplete s) := by
  unfold execPhraseWriteComplete
  split
  · next w hw =>
    split
    · exact .next (.finishHead hw rfl _)
    · exact .idle s
  · exact .idle s

theorem Completes.fetchGrant (s : State) : Completes s (execFetchGrant s) := by
  unfold execFetchGrant
  split
  · refine .quiet ?_
    unfold grantFetch
    split
    · rfl
    · split <;> rfl
  · exact .idle s

theorem Completes.burstCompletion (s : State) : Completes s (execBurstCompletion s) := by
  unfold execBurstCompletion
  split
  · exact .quiet rfl
  · exact .idle s

/-! ### Channels (R143, R144, R147) -/

theorem Completes.channelEnd (c : Nat) (first : Bool) (s : State) : Completes s (execChannelEnd c first s) := by
  unfold execChannelEnd
  simp only
  split
  · split
    · exact .quiet rfl
    · exact .quiet (Inner.endChannel ..).queues
  · exact .idle s

theorem Completes.gapEnd (c : Nat) (s : State) : Completes s (execGapEnd c s) := by
  unfold execGapEnd
  simp only
  split
  · exact .quiet rfl
  · exact .idle s

theorem Completes.underrunAbort (c : Nat) (s : State) : Completes s (execUnderrunAbort c s) := by
  unfold execUnderrunAbort
  simp only
  split
  · split
    · exact .quiet (Inner.endAnn ..).queues
    · exact .idle s
  · exact .idle s

/-! ### Resets and self-check (R186 to R188) -/

/-- A reset empties the queues and leaves no write waiting (R152, R180, R183). -/
theorem QueuesKept.resetBlocks (straps : Byte) (cause : ResetCause) (keep : Bool) (s : State) :
    QueuesKept s (resetBlocks straps cause keep s) := by
  have hidle : (Machine.resetBlocks straps cause keep s).pmc.pendingWrite = none := by cases keep <;> rfl
  refine ⟨fun _ => ⟨Nat.zero_le _, Nat.zero_le _, Nat.zero_le _, fun hw => ?_⟩, rfl⟩
  rw [hidle] at hw
  cases hw

theorem Completes.resetAfterResponse (straps : Byte) (s : State) : Completes s (execResetAfterResponse straps s) := by
  unfold execResetAfterResponse
  split
  · next option _ =>
    split
    · obtain ⟨cause, keep, e⟩ := partReset_eq straps option s
      rw [e]
      exact .next (.resetBlocks ..)
    · exact .idle s
  · exact .idle s

theorem Completes.selfCheckEnd (r : SelfCheckResult) (s : State) : Completes s (execSelfCheckEnd r s) := by
  have restored : QueuesKept s (restoreStores s) :=
    ⟨fun _ => ⟨Nat.zero_le _, Nat.zero_le _, Nat.zero_le _, fun _ => Nat.zero_lt_succ _⟩, rfl⟩
  unfold execSelfCheckEnd
  split
  · exact .next (restored.trans (.of (Inner.raise ..).queues))
  · exact .idle s

/-! ### Cells (R177 to R183) -/

/-- A message joins a queue of fewer than 8 (R180). -/
theorem QueuesKept.offerMessage (m : Message) (s : State) : QueuesKept s (offerMessage m s) := by
  unfold Machine.offerMessage
  split
  · next hroom =>
    have joined : QueuesKept s (s.onMgi fun g => { g with commands := g.commands ++ [m] }) := by
      refine ⟨fun ⟨_, hrest⟩ => ⟨?_, hrest⟩, rfl⟩
      rw [onMgi_mgi, List.length_append]
      exact hroom
    simp only
    split
    · exact joined.trans (.of rfl)
    · exact joined
  · exact .of (Inner.raise ..).queues

theorem QueuesKept.completeMessage (broadcast : Bool) (data : List Byte) (s : State) :
    QueuesKept s (completeMessage broadcast data s) := by
  unfold Machine.completeMessage
  simp only
  split
  · split
    · exact .offerMessage ..
    · exact .of rfl
  · exact .of rfl

theorem QueuesKept.takeManagement (segment seq : Nat) (broadcast : Bool) (payload : List Byte) (s : State) :
    QueuesKept s (takeManagement segment seq broadcast payload s) := by
  unfold Machine.takeManagement
  split
  · exact .before (.completeMessage ..) (discardPartial_queues s)
  · exact .of (discardPartial_queues s)
  · split
    · exact .of rfl
    · split
      · split
        · exact .before (.completeMessage ..) rfl
        · exact .of rfl
      · exact .of (discardPartial_queues s)

theorem QueuesKept.takeCell (cell : List Byte) (s : State) : QueuesKept s (takeCell cell s) := by
  unfold Machine.takeCell
  split
  · exact .of rfl
  · split
    · exact .of rfl
    · split
      · exact .refl s
      · simp only
        split
        · split
          · exact .of (takeAudio_queues ..)
          · exact .of rfl
        · split
          · exact .takeManagement ..
          · exact .of rfl
        · exact .of (takeMark_queues ..)
        · exact .of rfl

theorem Completes.reassemblyTimeout (s : State) : Completes s (execReassemblyTimeout s) := by
  unfold execReassemblyTimeout
  split
  · split
    · exact .quiet (discardPartial_queues s)
    · exact .idle s
  · exact .idle s

/-- Cells that leave make the response store and the monitor queue no longer. -/
theorem QueuesKept.shrink {s t : State} (hcommands : t.mgi.commands = s.mgi.commands)
    (hresponses : t.tki.responses.length ≤ s.tki.responses.length)
    (hmonitor : t.tki.monitorQueue.length ≤ s.tki.monitorQueue.length)
    (hwrite : t.pmc.pendingWrite = s.pmc.pendingWrite) (hpending : t.pending = s.pending) : QueuesKept s t := by
  refine ⟨fun ⟨hqueue, hstore, hcells, hplace⟩ => ?_, hpending⟩
  unfold QueuesSound
  rw [hcommands, hwrite]
  exact ⟨hqueue, hresponses.trans hstore, hmonitor.trans hcells, fun hw => hresponses.trans_lt (hplace hw)⟩

theorem QueuesKept.sendUpstream (s : State) : QueuesKept s (sendUpstream s) := by
  unfold Machine.sendUpstream
  split
  · exact .of rfl
  · split
    · next hq => exact .shrink rfl (Nat.le_refl _) (by simp [putOut, hq]) rfl rfl
    · split
      · unfold sendResponse
        simp only
        split
        · exact .of rfl
        · exact .shrink rfl (by simp [sendManagement, putOut]) (Nat.le_refl _) rfl rfl
      · split <;> exact .of rfl

/-! ### Sample periods (R167) -/

/-- A monitor cell that finds two waiting takes the place of the older (R167). -/
theorem QueuesKept.handMonitor (cell : MonitorCell) (s : State) : QueuesKept s (handMonitor cell s) := by
  unfold Machine.handMonitor
  split
  · next hroom =>
    refine ⟨fun ⟨hqueue, hstore, _, hplace⟩ => ⟨hqueue, hstore, ?_, hplace⟩, rfl⟩
    simp only [onTki_tki, List.length_append, List.length_singleton]
    omega
  · refine ⟨fun ⟨hqueue, hstore, hcells, hplace⟩ => ⟨hqueue, hstore, ?_, hplace⟩, rfl⟩
    change (s.tki.monitorQueue.tail ++ [cell]).length ≤ 2
    rw [List.length_append, List.length_tail, List.length_singleton]
    omega

theorem QueuesKept.gatherMonitor (outputs : List Sample) (s : State) : QueuesKept s (gatherMonitor outputs s) := by
  unfold Machine.gatherMonitor
  split
  · exact .refl s
  · simp only
    split
    · exact .of rfl
    · exact .before (.handMonitor ..) rfl

theorem QueuesKept.sendOutputs (outputs : List Sample) (s : State) : QueuesKept s (sendOutputs outputs s) :=
  .before (.gatherMonitor ..) rfl

theorem QueuesKept.runSample (s : State) : QueuesKept s (runSample s) := by
  have mixed := (Inner.channelOutputs (List.range 6) (deliverStreams s)).trans (Inner.mixZones
    ((List.range 6).map fun n => (s.stream n).out) (channelOutputs (List.range 6) (deliverStreams s)).1
    (List.range 32) _)
  exact .before (.sendOutputs ..) mixed.queues

theorem Completes.samplePeriod (s : State) : Completes s (execSamplePeriod s) := by
  unfold execSamplePeriod
  split
  · exact .quiet rfl
  · exact .next (.runSample s)

/-! ### The clock, events and changes of T, the zone link -/

theorem Completes.secondElapses (s : State) : Completes s (execSecondElapses s) := by
  unfold execSecondElapses
  split
  · exact .idle s
  · exact .quiet (elapseSecond_queues s)

theorem Completes.freewheelEntered (s : State) : Completes s (execFreewheelEntered s) := by
  unfold execFreewheelEntered
  split
  · exact .idle s
  · exact .quiet (enterFreewheel_queues s)

theorem Completes.callRegisterTimeChange (s : State) : Completes s (execCallRegisterTimeChange s) := by
  unfold execCallRegisterTimeChange
  split
  · exact .quiet (Inner.dueChecks ..).queues
  · exact .idle s

theorem Completes.retention (slot : Nat) (s : State) : Completes s (execRetention slot s) := by
  unfold execRetention
  split
  · split
    · exact .quiet (Inner.removeCall ..).queues
    · exact .quiet rfl
  · exact .idle s

theorem Completes.triggerEvaluation (s : State) : Completes s (execTriggerEvaluation s) := by
  unfold execTriggerEvaluation
  split
  · exact .quiet ((Inner.cleanRetry ..).trans (Inner.evaluateAll ..)).queues
  · exact .idle s

theorem Completes.completed (s : State) : Completes s (execCompleted s) := by
  unfold execCompleted
  split
  · exact .quiet (Inner.takeCompletion ..).queues
  · exact .idle s

theorem Completes.poolJudgement (s : State) : Completes s (execPoolJudgement s) := by
  unfold execPoolJudgement
  split
  · exact .quiet (Inner.leaveQueuedAll ..).queues
  · exact .idle s

theorem Completes.holdTimeout (id : Nat) (s : State) : Completes s (execHoldTimeout id s) := by
  unfold execHoldTimeout
  split
  · exact .quiet (Inner.timeOutHold ..).queues
  · exact .idle s

theorem Completes.expiry (id : Nat) (s : State) : Completes s (execExpiry id s) := by
  unfold execExpiry
  split
  · exact .quiet (Inner.expireAnn ..).queues
  · exact .idle s

theorem Completes.block (s : State) : Completes s (execBlock s) := by
  unfold execBlock
  split
  · exact .idle s
  · exact .quiet rfl

theorem Completes.streamLost (n : Nat) (s : State) : Completes s (execStreamLost n s) := by
  unfold execStreamLost
  simp only
  split
  · split
    · exact .quiet (Inner.endAnn ..).queues
    · exact .quiet rfl
  · exact .idle s

theorem Completes.zoneReport (report : ZoneReport) (s : State) : Completes s (execZoneReport report s) := by
  unfold execZoneReport
  split
  · exact .idle s
  · split
    · split
      · exact .quiet (takeReport_queues ..)
      · exact .quiet rfl
    · exact .quiet rfl

theorem Completes.ambientReading (z : Nat) (s : State) : Completes s (execAmbientReading z s) := by
  unfold execAmbientReading
  split
  · exact .quiet (applyAmbient_queues ..)
  · exact .idle s

theorem Completes.linkLost (z : Nat) (s : State) : Completes s (execLinkLost z s) := by
  unfold execLinkLost
  split
  · exact .quiet (setLink_queues ..)
  · exact .idle s

/-! ### Every row -/

/-- Every row of the table completes and keeps the queues. -/
theorem exec_completes (i : Instr) (s : State) : Completes s (exec i s) := by
  cases i with
  | powerOnReset => exact .next (.resetBlocks ..)
  | resetAfterResponse => exact .resetAfterResponse ..
  | selfCheckEnd => exact .selfCheckEnd ..
  | secondElapses => exact .secondElapses s
  | freewheelEntered => exact .freewheelEntered s
  | downstreamCell => exact .next (.takeCell ..)
  | reassemblyTimeout => exact .reassemblyTimeout s
  | upstreamSend => exact .next (.sendUpstream s)
  | unknownCommandCode => exact .unknownCommandCode s
  | readStatus => exact .run (fun _ _ => rfl) s
  | readStats => exact .readStats s
  | setNoticeMask => exact .run (fun _ _ => rfl) s
  | resetPartFull => exact .run (fun _ _ => rfl) s
  | resetPartKeepPhrases => exact .run (fun _ _ => rfl) s
  | resetPartBadOption => exact .run (fun _ _ => rfl) s
  | openDay => exact .openDay s
  | closeDay => exact .closeDay s
  | loadCalls => exact .loadCalls s
  | updateCallArrived => exact .run (updateCall_queues arrive_queues) s
  | updateCallDeparting => exact .run (updateCall_queues depart_queues) s
  | updateCallGone => exact .run (updateCall_queues gone_queues) s
  | updateCallCancel => exact .run (updateCall_queues cancel_queues) s
  | updateCallDelay => exact .run (updateCall_queues changeDelay_queues) s
  | updateCallPlatform => exact .run (updateCall_queues changePlatform_queues) s
  | updateCallBadUpdate => exact .run (updateCall_queues fun _ _ _ _ => rfl) s
  | freeCall => exact .freeCall s
  | readCall => exact .readCall s
  | loadPatterns => exact .run (fun _ _ => loadTable_queues (put := putPattern) (fun _ _ _ => rfl) ..) s
  | readPattern => exact .run (fun _ _ => rfl) s
  | loadPlans => exact .run (fun _ _ => loadTable_queues (put := putPlan) (fun _ _ _ => rfl) ..) s
  | readPlan => exact .run (fun b s => by split <;> rfl) s
  | loadScripts => exact .run (fun _ _ => loadTable_queues (put := putScript) (fun _ _ _ => rfl) ..) s
  | loadNumbers => exact .run (fun _ _ => loadTable_queues (put := putNumber) (fun _ _ _ => rfl) ..) s
  | loadFragments => exact .run (fun _ _ => loadTable_queues (put := putDir) (fun _ _ _ => rfl) ..) s
  | readScript => exact .run (fun _ _ => rfl) s
  | readNumbers => exact .run (fun _ _ => readRange_queues ..) s
  | readFragments => exact .run (fun _ _ => readRange_queues ..) s
  | announce => exact .announce s
  | livePageBegin => exact .livePageBegin s
  | livePageEnd => exact .livePageEnd s
  | emergencyBegin => exact .emergencyBegin s
  | emergencyEnd => exact .emergencyEnd s
  | confirm => exact .run (answerHeld_queues fun _ _ => (Inner.enterReady ..).queues) s
  | reject => exact .run (answerHeld_queues fun _ _ => (Inner.endRecord ..).queues) s
  | withdraw => exact .withdraw s
  | clearAnnouncements => exact .run (fun _ _ => (Inner.endRecords ..).queues) s
  | readAnnouncement => exact .run (fun b s => by split <;> rfl) s
  | readPool => exact .run (fun _ _ => rfl) s
  | loadZones => exact .loadZones s
  | loadPlatformMap =>
    refine .run (fun _ _ => (passAfterLoad_queues _).trans ?_) s
    exact loadTable_queues (put := putPlatform) (fun _ _ _ => rfl) ..
  | loadGroups =>
    refine .run (fun _ _ => (passAfterLoad_queues _).trans ?_) s
    exact loadTable_queues (put := putGroup) (fun _ _ _ => rfl) ..
  | readZones => exact .run (fun _ _ => readRange_queues ..) s
  | readMaps => exact .run (fun _ _ => rfl) s
  | writePhrase => exact .writePhrase s
  | readChannel => exact .run (fun b s => by split <;> rfl) s
  | monitor => exact .monitor s
  | readLevels => exact .run (fun _ _ => readRange_queues ..) s
  | readLink => exact .run (fun _ _ => readRange_queues ..) s
  | callRegisterTimeChange => exact .callRegisterTimeChange s
  | retention => exact .retention ..
  | triggerEvaluation => exact .triggerEvaluation s
  | loaded => exact .quiet (takeEventOf_queues ..)
  | stateEntry => exact .quiet (takeEventOf_queues ..)
  | delayChange => exact .quiet (takeEventOf_queues ..)
  | platformSet => exact .quiet (takeEventOf_queues ..)
  | platformChange => exact .quiet (takeEventOf_queues ..)
  | platformCleared => exact .quiet (takeEventOf_queues ..)
  | completed => exact .completed s
  | platformMoved => exact .quiet (takePoolEvent_queues (fun _ _ => Inner.movePlatform ..) ..)
  | cancelled => exact .quiet (takePoolEvent_queues (fun _ _ => Inner.endAnns ..) ..)
  | provisionalCleared => exact .quiet (takePoolEvent_queues (fun _ _ => Inner.enterReadyAll ..) ..)
  | callRemoved => exact .quiet (takePoolEvent_queues (fun _ _ => Inner.endAnns ..) ..)
  | poolJudgement => exact .poolJudgement s
  | holdTimeout => exact .holdTimeout ..
  | expiry => exact .expiry ..
  | arbitrationPass => exact .quiet (Inner.passChain ..).queues
  | fetchGrant => exact .fetchGrant s
  | burstCompletion => exact .burstCompletion s
  | phraseWriteStart => exact .phraseWriteStart s
  | phraseWriteComplete => exact .phraseWriteComplete s
  | channelEnd => exact .channelEnd ..
  | gapEnd => exact .gapEnd ..
  | underrunAbort => exact .underrunAbort ..
  | samplePeriod => exact Completes.samplePeriod s
  | block => exact Completes.block s
  | streamLost => exact .streamLost ..
  | zoneReport => exact .zoneReport ..
  | ambientReading => exact .ambientReading ..
  | linkLost => exact .linkLost ..

end Sys2Proof.Machine
end

section
/-! What every step keeps of the trunk's and the interpreter's queues, the notices and the counters, and of the part
state (R180 to R186). -/

open Sys2Proof Sys2Proof.Machine

/-- Settles O6, from what every row keeps sound. -/
theorem stepKeepsNoticesAndCounters : Obligations.StepKeepsNoticesAndCounters := by
  unfold Obligations.StepKeepsNoticesAndCounters
  have kept : ∀ s t : State, step s = .next t → SoundKept s t := fun s t h => by
    unfold step at h
    split at h
    · cases h; exact .refl s
    · next rest _ =>
      obtain ⟨hfifo, hstats, hpool, hcalls⟩ := exec_soundKept h
      exact ⟨hfifo, hstats, hpool, hcalls⟩
  exact ⟨fun s t hs h => (kept s t h).fifo hs, fun s t hs h => (kept s t h).stats hs⟩

/-- Settles O7, from what every row makes of the queues. -/
theorem stepKeepsQueues : Obligations.StepKeepsQueues := by
  unfold Obligations.StepKeepsQueues
  intro s t hs h
  unfold step at h
  split at h
  · cases h; exact hs
  · next i rest _ =>
    obtain ⟨u, hu, hk⟩ := exec_completes i (s.withPending rest)
    cases hu.symm.trans h
    exact hk.sound hs

/-- Settles O10, by the ways in which a row can change the clock and the part state. -/
theorem partStateTransitions : Obligations.PartStateTransitions := by
  unfold Obligations.PartStateTransitions
  intro i s t h
  cases exec_clockChange h with
  | kept hk => exact .inl hk.partState
  | reset straps hi _ hpart => exact .inr (.inl ⟨⟨straps, hi⟩, hpart⟩)
  | checked r hpart => exact .inr (.inr (.inl ⟨r, rfl, hpart, endSelfCheck_partState r s⟩))
  | second =>
    obtain ⟨_, _, _, hshape⟩ := elapseSecond_shape s
    exact .inl (by rw [hshape]; rfl)
  | freewheel => exact .inl (by rw [enterFreewheel_mgi])
  | sample => exact .inl (by rw [(runSample_sck s).2])
  | mark cell day m _ _ =>
    obtain ⟨_, _, _, hshape⟩ := applyMark_shape day m s
    have hmgi : (applyMark day m s).mgi = s.mgi := by rw [hshape]; exact noteChange_mgi m s
    exact .inl (by rw [hmgi])
  | opened c day hour start hpart _ _ _ =>
    exact .inr (.inr (.inr (.inl ⟨rfl, hpart, by rw [finish_partState, openDay_mgi]⟩)))
  | closed c hpart =>
    have hclosed : (closeDay s).mgi.partState = .standby := by rw [(closeDay_inner s).mgi]; rfl
    exact .inr (.inr (.inr (.inr ⟨rfl, hpart, (finish_partState ..).trans hclosed⟩)))

/-- Settles O2, from what every row answers. -/
theorem everyStepCompletes : Obligations.EveryStepCompletes := by
  unfold Obligations.EveryStepCompletes
  intro i s
  obtain ⟨t, h, hk⟩ := exec_completes i s
  exact ⟨t, h, hk.pending⟩
end

section
/-! SUPPORT. The rows that execute commands: which row a message is executed by, and the row's record of its common
answers (R182). -/

namespace Sys2Proof.Machine

/-! ### The row of a message (R182, log 4) -/

/-- The row that executes a message. -/
def rowFor (m : Message) : Instr :=
  match m.code with
  | 0x01 => .readStatus
  | 0x02 => .readStats
  | 0x03 => .setNoticeMask
  | 0x04 =>
    match byteAt m.body 0 with
    | 1 => .resetPartFull
    | 2 => .resetPartKeepPhrases
    | _ => .resetPartBadOption
  | 0x10 => .openDay
  | 0x11 => .closeDay
  | 0x20 => .loadCalls
  | 0x21 =>
    match byteAt m.body 3 with
    | 0 => .updateCallArrived
    | 1 => .updateCallDeparting
    | 2 => .updateCallGone
    | 3 => .updateCallCancel
    | 4 => .updateCallDelay
    | 5 => .updateCallPlatform
    | _ => .updateCallBadUpdate
  | 0x22 => .freeCall
  | 0x23 => .readCall
  | 0x24 => .loadPatterns
  | 0x25 => .readPattern
  | 0x30 => .loadPlans
  | 0x31 => .readPlan
  | 0x40 => .loadScripts
  | 0x41 => .loadNumbers
  | 0x42 => .loadFragments
  | 0x43 => .readScript
  | 0x44 => .readNumbers
  | 0x45 => .readFragments
  | 0x50 => .announce
  | 0x51 => .livePageBegin
  | 0x52 => .livePageEnd
  | 0x53 => .emergencyBegin
  | 0x54 => .emergencyEnd
  | 0x55 => .confirm
  | 0x56 => .reject
  | 0x57 => .withdraw
  | 0x58 => .clearAnnouncements
  | 0x59 => .readAnnouncement
  | 0x5A => .readPool
  | 0x60 => .loadZones
  | 0x61 => .loadPlatformMap
  | 0x62 => .loadGroups
  | 0x63 => .readZones
  | 0x64 => .readMaps
  | 0x70 => .writePhrase
  | 0x71 => .readChannel
  | 0x80 => .monitor
  | 0x81 => .readLevels
  | 0x90 => .readLink
  | _ => .unknownCommandCode

/-- The row of a message takes it. -/
theorem rowTakes_rowFor (m : Message) : rowTakes (rowFor m) m = true := by
  unfold rowFor
  split
  case h_4 => -- RESET_PART
    split <;> simp_all [rowTakes]
  case h_8 => -- UPDATE_CALL
    split <;> simp_all [rowTakes]
    omega
  case h_42 => -- an unknown code
    simp_all [rowTakes, knownCodes]
  all_goals simp_all [rowTakes, commandCode]

/-- No other row takes it: a row's code is its own, but for the options of RESET_PART and the updates of UPDATE_CALL,
which differ in their byte. -/
theorem rowFor_of_rowTakes {i : Instr} {m : Message} (h : rowTakes i m = true) : i = rowFor m := by
  cases i with
  | unknownCommandCode =>
    unfold rowFor
    split
    case h_42 => rfl
    all_goals simp_all [rowTakes, knownCodes]
  | resetPartFull | resetPartKeepPhrases | updateCallArrived | updateCallDeparting | updateCallGone | updateCallCancel
  | updateCallDelay | updateCallPlatform =>
    simp only [rowTakes, Bool.and_eq_true, beq_iff_eq] at h
    obtain ⟨hcode, hbyte⟩ := h
    rw [rowFor, hcode, hbyte]
    rfl
  | resetPartBadOption =>
    simp only [rowTakes, Bool.and_eq_true, beq_iff_eq, bne_iff_ne] at h
    obtain ⟨⟨hcode, hfull⟩, hkeep⟩ := h
    rw [rowFor, hcode]
    simp only
  | updateCallBadUpdate =>
    simp only [rowTakes, Bool.and_eq_true, beq_iff_eq, decide_eq_true_eq] at h
    obtain ⟨hcode, hbyte⟩ := h
    rw [rowFor, hcode]
    simp only
    split
    case h_7 => rfl
    all_goals omega
  | _ =>
    simp [rowTakes, commandCode] at h <;>
    · rw [rowFor, ← h]
      rfl

/-- Only a command row takes a message. -/
theorem isCommand_of_rowTakes {i : Instr} {m : Message} (h : rowTakes i m = true) : isCommand i = true := by
  rw [rowFor_of_rowTakes h]
  unfold rowFor
  split
  case h_4 => split <;> rfl
  case h_8 => split <;> rfl
  all_goals rfl

/-! ### The record of a command row (R182) -/

/-- A row executes a command as its record says: the messages it takes, the answers common to all commands, and the
lengths and bodies of those answers. -/
structure RunsAs (i : Instr) (row : Row) : Prop where
  takes : ∀ m, rowTakes i m = (m.code == row.code && row.mine m.body)
  idle : ∀ s, headFor row s = none → exec i s = .next s
  failed : ∀ s m, headFor row s = some m → s.mgi.partState = .failed → row.inFailed = false →
    exec i s = .next (finish m .failedPart row.failedBody s)
  short : ∀ s m, headFor row s = some m → (s.mgi.partState = .failed → row.inFailed = true) →
    row.fits m.body = false → exec i s = .next (finish m .badLength row.shortBody s)
  inFailed : row.inFailed = inFailedToo i
  failedBody : row.failedBody = commonBody i
  fixedLength : ∀ n, fixedBody i = some n → row.fits = fixed n ∧ row.shortBody = commonBody i

section Run
variable {i : Instr} {row : Row} {act : List Byte → State → Reply}

/-- A row that runs its command through its record executes it as the record says. -/
theorem RunsAs.of (hexec : ∀ s, exec i s = .next (runCommand row act s))
    (takes : ∀ m, rowTakes i m = (m.code == row.code && row.mine m.body)) (inFailed : row.inFailed = inFailedToo i)
    (failedBody : row.failedBody = commonBody i)
    (fixedLength : ∀ n, fixedBody i = some n → row.fits = fixed n ∧ row.shortBody = commonBody i) : RunsAs i row where
  takes := takes
  idle s h := by rw [hexec, runCommand_idle h]
  failed s m h hf hr := by rw [hexec, runCommand_failed h hf hr]
  short s m h hf hl := by rw [hexec, runCommand_short h hf hl]
  inFailed := inFailed
  failedBody := failedBody
  fixedLength := fixedLength

/-- The same, of a row that takes every message of its code. -/
theorem RunsAs.ofCode (hexec : ∀ s, exec i s = .next (runCommand row act s)) (hcode : commandCode i = some row.code)
    (hmine : row.mine = fun _ => true) (htakes : ∀ m, rowTakes i m = (commandCode i == some m.code))
    (inFailed : row.inFailed = inFailedToo i) (failedBody : row.failedBody = commonBody i)
    (fixedLength : ∀ n, fixedBody i = some n → row.fits = fixed n ∧ row.shortBody = commonBody i) : RunsAs i row := by
  refine .of hexec (fun m => ?_) inFailed failedBody fixedLength
  rw [htakes, hcode, hmine, Bool.and_true, Option.some_beq_some, BEq.comm]

end Run

theorem RunsAs.writePhrase : RunsAs .writePhrase writeRow where
  takes m := by simp [rowTakes, commandCode, writeRow, eq_comm]
  idle s h := by simp only [exec, execWritePhrase, h]
  failed s m h hf _ := by simp only [exec, execWritePhrase, h, hf, if_true]; rfl
  short s m h hf hl := by
    have hpart : s.mgi.partState ≠ .failed := fun hp => Bool.false_ne_true (hf hp)
    simp only [exec, execWritePhrase, h, hpart, if_false, hl, if_true]
    rfl
  inFailed := rfl
  failedBody := rfl
  fixedLength := nofun

/-- Every command row but UNKNOWN_COMMAND_CODE executes its command as a record says. -/
theorem runsAs_of_isCommand {i : Instr} (hc : isCommand i = true) (hu : i ≠ .unknownCommandCode) :
    ∃ row, RunsAs i row := by
  cases i with
  | unknownCommandCode => exact absurd rfl hu
  | writePhrase => exact ⟨_, .writePhrase⟩
  | resetPartBadOption =>
    exact ⟨_, .of (fun _ => rfl) (fun _ => Bool.and_assoc ..) rfl rfl fun _ h => by cases h; exact ⟨rfl, rfl⟩⟩
  | resetPartFull | resetPartKeepPhrases | updateCallArrived | updateCallDeparting | updateCallGone | updateCallCancel
  | updateCallDelay | updateCallPlatform | updateCallBadUpdate =>
    exact ⟨_, .of (fun _ => rfl) (fun _ => rfl) rfl rfl fun _ h => by cases h; exact ⟨rfl, rfl⟩⟩
  | readStatus | readStats | setNoticeMask | openDay | closeDay | loadCalls | freeCall | readCall | loadPatterns
  | readPattern | loadPlans | readPlan | loadScripts | loadNumbers | loadFragments | readScript | readNumbers
  | readFragments | announce | livePageBegin | livePageEnd | emergencyBegin | emergencyEnd | confirm | reject | withdraw
  | clearAnnouncements | readAnnouncement | readPool | loadZones | loadPlatformMap | loadGroups | readZones | readMaps
  | readChannel | monitor | readLevels | readLink =>
    exact ⟨_, .ofCode (fun _ => rfl) rfl rfl (fun _ => rfl) rfl rfl fun _ h => by cases h <;> exact ⟨rfl, rfl⟩⟩
  | _ => cases hc

/-- The head of the queue is no row's when nothing may be executed or the message is another row's. -/
theorem headFor_none {i : Instr} {row : Row} (hr : RunsAs i row) {s : State}
    (h : canExecute s = false ∨ ∀ m, s.mgi.commands.head? = some m → rowTakes i m = false) : headFor row s = none := by
  cases hm : headFor row s with
  | none => rfl
  | some m =>
    obtain ⟨hhead, hready, hcode, hmine⟩ := headFor_head hm
    rcases h with hc | hother
    · rw [hc] at hready
      cases hready
    · have htakes := hother m hhead
      simp [hr.takes, hcode, hmine] at htakes

/-- The head of the queue is a row's when it may be executed and the row takes it. -/
theorem headFor_takes {i : Instr} {row : Row} (hr : RunsAs i row) {s : State} {m : Message}
    (hhead : s.mgi.commands.head? = some m) (hready : canExecute s = true) (ht : rowTakes i m = true) :
    headFor row s = some m := by
  rw [hr.takes, Bool.and_eq_true, beq_iff_eq] at ht
  exact headFor_some hhead hready ht.1 ht.2

/-! ### Unknown codes (R182) -/

theorem exec_unknownCommandCode_idle {s : State}
    (h : canExecute s = false ∨ ∀ m, s.mgi.commands.head? = some m → rowTakes .unknownCommandCode m = false) :
    exec .unknownCommandCode s = .next s := by
  simp only [exec, execUnknownCommandCode]
  split
  · next m rest hq =>
    refine if_neg ?_
    rintro ⟨hready, hcode⟩
    rcases h with hc | hother
    · rw [hc] at hready
      cases hready
    · have htakes := hother m (by rw [hq]; rfl)
      simp only [rowTakes, hcode] at htakes
      cases htakes
  · rfl

theorem exec_unknownCommandCode {s : State} {m : Message} (hhead : s.mgi.commands.head? = some m)
    (hready : canExecute s = true) (ht : rowTakes .unknownCommandCode m = true) :
    Answers .unknownCommandCode s m .badCode [] s := by
  simp only [Answers, exec, execUnknownCommandCode]
  split
  · next x rest hq =>
    rw [hq] at hhead
    cases hhead
    exact if_pos ⟨hready, eq_of_beq ht⟩
  · next hq =>
    rw [hq] at hhead
    cases hhead

/-! ### UPDATE_CALL refused (R18) -/

/-- The rows of UPDATE_CALL run one command with their own update. -/
theorem exec_updateCall {i : Instr} (hc : commandCode i = some 0x21) : ∃ mine act,
    (∀ s, exec i s = .next (runCommand (updateRow mine) (updateCall act) s)) ∧
      ∀ m, rowTakes i m = true → mine (byteAt m.body 3) = true := by
  cases i with
  | updateCallArrived | updateCallDeparting | updateCallGone | updateCallCancel | updateCallDelay | updateCallPlatform
  | updateCallBadUpdate => exact ⟨_, _, fun _ => rfl, fun m h => (Bool.and_eq_true_iff.1 h).2⟩
  | _ => cases hc

end Sys2Proof.Machine

open Sys2Proof Sys2Proof.Machine

/-- Settles O13: the row of a message, and the rows that find nothing of theirs at the head. -/
theorem everyMessageHasOneRow : Obligations.EveryMessageHasOneRow := by
  unfold Obligations.EveryMessageHasOneRow
  refine ⟨fun m => ⟨rowFor m, rowTakes_rowFor m, fun j => rowFor_of_rowTakes⟩, fun i s hc h => ?_⟩
  by_cases hu : i = .unknownCommandCode
  · subst hu
    exact exec_unknownCommandCode_idle h
  · obtain ⟨row, hr⟩ := runsAs_of_isCommand hc hu
    exact hr.idle s (headFor_none hr h)

/-- Settles O14: the common answers by the record of the row that takes the message, and the refusals by the checks of
UPDATE_CALL in turn. -/
theorem commonAnswersComeFirst : Obligations.CommonAnswersComeFirst := by
  unfold Obligations.CommonAnswersComeFirst
  refine ⟨fun i s m hhead hready ht => ?_, fun i s m hc ht hat => ?_⟩
  · by_cases hu : i = .unknownCommandCode
    · subst hu
      exact ⟨fun _ => exec_unknownCommandCode hhead hready ht, fun _ h => (Bool.false_ne_true h.symm).elim, nofun⟩
    · obtain ⟨row, hr⟩ := runsAs_of_isCommand (isCommand_of_rowTakes ht) hu
      have hm := headFor_takes hr hhead hready ht
      refine ⟨fun h => absurd h hu, fun hf hn => ?_, fun n hn hf hl => ?_⟩
      · rw [Answers, ← hr.failedBody]
        exact hr.failed s m hm hf (hr.inFailed.trans hn)
      · obtain ⟨hfits, hshort⟩ := hr.fixedLength n hn
        rw [Answers, ← hshort]
        exact hr.short s m hm (fun h => hr.inFailed.trans (hf h)) (by rw [hfits]; simpa [fixed] using hl)
  · obtain ⟨mine, act, hexec, hmine⟩ := exec_updateCall hc
    have answered : ∀ st body t, updateCall act m.body s = ⟨st, body, t⟩ → Answers i s m st body t :=
      fun st body t => answers_atHead (row := updateRow mine) (hexec s) hat (hmine m ht) (fixed_length hat.2)
    refine ⟨fun hp => answered _ _ _ ?_, fun hp hz => answered _ _ _ ?_, fun hp hz hnone => answered _ _ _ ?_, ?_⟩
    · simp only [updateCall, if_pos hp]
      rfl
    · simp only [updateCall, hp, ne_eq, not_true, if_false, hz, if_true]
      rfl
    · simp only [updateCall, hp, ne_eq, not_true, if_false, hz, hnone]
      rfl
    · rintro slot c rfl hp hz hrise hfind
      have hnames : Names s m (byteAt m.body 3) slot c := ⟨hat, rfl, hp, hz, hfind⟩
      exact answers_unchanged (mine := fun u => decide (5 < u)) rfl hnames (Bool.and_eq_true_iff.1 ht).2 hrise rfl
end

section
/-! The command queue, the notices and the counters (R180 to R185). -/

namespace Sys2Proof.Machine

/-! ### A message offered and a message answered (R180 to R182) -/

/-- A message offered to the queue: with fewer than 8 it joins, and the sixth sends PAUSE; otherwise it is dropped. -/
theorem offerMessage_eq (m : Message) (s : State) : offerMessage m s =
    if s.mgi.commands.length < 8 then
      { s with
        mgi := { s.mgi with commands := s.mgi.commands ++ [m] }
        tki := if s.mgi.commands.length = 5 ∧ s.tki.paused = false then
            { s.tki with paused := true, flowQueue := s.tki.flowQueue ++ [.pause] }
          else s.tki }
    else raise (.cmdDropped (BitVec.ofNat 8 m.code) m.tag m.broadcast) (count .commandsDropped s) := by
  have hsixth : (s.mgi.commands ++ [m]).length = 6 ↔ s.mgi.commands.length = 5 := by
    rw [List.length_append, List.length_singleton]
    omega
  unfold offerMessage
  split
  · simp only [onMgi_mgi, onMgi_tki, hsixth]
    split <;> rfl
  · rfl

/-- The head of the queue answered: its response joins unless it came as a broadcast, it leaves, and a queue that falls
to 2 under PAUSE sends RESUME. -/
theorem finish_eq {m head : Message} {rest : List Message} {s : State} (h : s.mgi.commands = head :: rest) (st : Status)
    (body : List Byte) : finish m st body s =
      { s with
        mgi := { s.mgi with commands := rest }
        tki := { s.tki with
          responses := if m.broadcast then s.tki.responses else s.tki.responses ++ [responseTo m st body]
          paused := s.tki.paused && rest.length != 2
          flowQueue := if rest.length = 2 ∧ s.tki.paused = true then s.tki.flowQueue ++ [.resume]
            else s.tki.flowQueue } } := by
  have answered : answer m st body s = { s with tki := { s.tki with
      responses := if m.broadcast then s.tki.responses else s.tki.responses ++ [responseTo m st body] } } := by
    unfold answer
    split <;> rfl
  unfold finish leaveQueue
  rw [answered]
  simp only [onMgi_mgi, onMgi_tki, h, List.tail_cons]
  split
  · next hresume =>
    obtain ⟨hlen, hpaused⟩ := hresume
    simp [State.onTki, State.onMgi, h, hlen]
  · next hquiet =>
    have hpaused : (s.tki.paused && rest.length != 2) = s.tki.paused := by
      cases hp : s.tki.paused with
      | false => rfl
      | true => simpa [hp] using hquiet
    simp only [State.onMgi, h, List.tail_cons, hpaused]

/-! ### A notice raised (R184) -/

section Raise
variable {n : Notice} {s : State}

theorem raise_disabled (h : noticeEnabled s.notices.mask n = false) : raise n s = s :=
  if_neg (by rw [h]; exact Bool.false_ne_true)

theorem raise_queued (he : noticeEnabled s.notices.mask n = true) (hm : markerOf s.notices.fifo = none)
    (hl : s.notices.fifo.length ≤ 30) :
    raise n s = { s with notices := { s.notices with fifo := s.notices.fifo ++ [n] } } := by
  have hroom : s.notices.fifo.length + 1 < 32 := by omega
  simp only [raise, he, offerNotice, hm, Config.noticeSize, hroom, if_true]
  rfl

/-- The last free place takes the marker. -/
theorem raise_marks (he : noticeEnabled s.notices.mask n = true) (hm : markerOf s.notices.fifo = none)
    (hl : s.notices.fifo.length = 31) : raise n s = count .noticesDropped
      { s with notices := { s.notices with fifo := s.notices.fifo ++ [.overflow 1] } } := by
  have hfull : ¬s.notices.fifo.length + 1 < 32 := by omega
  simp only [raise, he, offerNotice, hm, Config.noticeSize, hfull, if_true, if_false]
  rfl

/-- A FIFO that ends in the marker drops the notice and counts it there. -/
theorem raise_dropped (he : noticeEnabled s.notices.mask n = true) {k : Nat} (hm : markerOf s.notices.fifo = some k) :
    raise n s = count .noticesDropped
      { s with notices := { s.notices with fifo := s.notices.fifo.dropLast ++ [.overflow (k + 1)] } } := by
  simp only [raise, he, offerNotice, hm, if_true]
  rfl

end Raise

theorem exec_setNoticeMask {s : State} {m : Message} (h : AtHead s m 0x03 2) :
    Answers .setNoticeMask s m .ok [] { s with
      notices := { s.notices with mask := BitVec.ofNat 13 (be16 m.body 0) } } :=
  answers_atHead (row := { code := 0x03, fits := fixed 2 }) rfl h rfl (fixed_length h.2) rfl

end Sys2Proof.Machine

open Sys2Proof Sys2Proof.Machine

/-- Settles O15, by the equation of each of the three. -/
theorem messagesJoinAndLeaveTheQueue : Obligations.MessagesJoinAndLeaveTheQueue := by
  unfold Obligations.MessagesJoinAndLeaveTheQueue
  exact ⟨offerMessage_eq, fun m st body s head rest h => finish_eq h st body,
    fun straps cause keep s => ⟨rfl, rfl, rfl⟩⟩

/-- Settles O16: the FIFO's act by its marker and its length, the mask, and the counters by the laws of tables. -/
theorem noticesAndCountersHoldTheirLimits : Obligations.NoticesAndCountersHoldTheirLimits := by
  unfold Obligations.NoticesAndCountersHoldTheirLimits
  refine ⟨⟨fun n s _ => ⟨raise_disabled, fun he => ⟨raise_queued he, raise_marks he, fun k => raise_dropped he⟩⟩,
    fun mask report unit k => ⟨rfl, rfl⟩, fun straps cause keep s => rfl, fun s m => exec_setNoticeMask⟩,
    fun c n s hs => ⟨counter_countBy_same hs c n, fun c' hc => counter_countBy_other hc n s, rfl⟩⟩
end

section
/-! SUPPORT. Resets and the end of self-check, cells and their reassembly, and what the link sends (R177 to R188). -/

namespace Sys2Proof.Machine

/-! ### RESET_PART and the reset that follows (R188) -/

/-- A row of RESET_PART, which is taken in FAILED too, is answered as its option gives. -/
theorem answers_resetPart {i : Instr} {mine : List Byte → Bool} {act : List Byte → State → Reply} {s t : State}
    {m : Message} {st : Status}
    (hexec : exec i s = .next (runCommand { code := 0x04, inFailed := true, mine := mine, fits := fixed 1 } act s))
    (hhead : s.mgi.commands.head? = some m) (hready : canExecute s = true) (hcode : m.code = 0x04)
    (hlen : m.body.length = 1) (hmine : mine m.body = true) (hact : act m.body s = ⟨st, [], t⟩) :
    Answers i s m st [] t := by
  rw [Answers, hexec, runCommand_taken (headFor_some hhead hready hcode hmine) (fun _ => rfl) (fixed_length hlen), hact]

theorem exec_resetAfterResponse_none {s : State} (h : s.mgi.resetWaiting = none) (straps : Byte) :
    exec (.resetAfterResponse straps) s = .next s := by
  simp only [exec, execResetAfterResponse, h]

theorem exec_resetAfterResponse_waits {s : State} (h : s.tki.responses ≠ []) (straps : Byte) :
    exec (.resetAfterResponse straps) s = .next s := by
  simp only [exec, execResetAfterResponse]
  split
  · exact if_neg h
  · rfl

theorem exec_resetAfterResponse {s : State} {option : ResetOption} (hsent : s.tki.responses = [])
    (h : s.mgi.resetWaiting = some option) (straps : Byte) :
    exec (.resetAfterResponse straps) s = .next (partReset straps option s) := by
  simp only [exec, execResetAfterResponse, h]
  exact if_pos hsent

/-! ### The end of self-check (R187) -/

/-- The START_REPORT is the first entry of the empty FIFO, and has no flag in the mask (R184). -/
theorem raise_startReport {s : State} (h : s.notices.fifo = []) (report : StartReport) (unit : Byte) :
    raise (.startReport report unit) s =
      { s with notices := { s.notices with fifo := [.startReport report unit] } } := by
  rw [raise_queued rfl (by rw [h]; rfl) (by rw [h]; exact Nat.zero_le _), h]
  rfl

/-- The part after a self-check of a result, block by block. -/
theorem endSelfCheck_eq (r : SelfCheckResult) (s : State) : endSelfCheck r s =
    { s with
      tki := { s.tki with
        reassembly := none, streams := tabFill 6 StreamBuffer.reset, flowQueue := [], monitorQueue := []
        responses := [], sentCells := none }
      mgi := { s.mgi with
        partState := if r = .pass then .standby else .failed, commands := []
        report := some (reportOf s.mgi.cause r) }
      notices := { s.notices with fifo := [.startReport (reportOf s.mgi.cause r) s.tki.unitAddress] }
      sck := { s.sck with phase := 0 }
      crg := CallRegister.reset
      tru := TriggerUnit.reset
      sxe := { ScriptExpander.reset with
        directory := if s.mgi.cause = .resetKeepPhrases then s.sxe.directory else [] }
      apl := AnnouncementPool.reset
      zar := ZoneArbiter.reset
      pbc := channelsReset } := by
  unfold endSelfCheck
  simp only
  rw [raise_startReport rfl]
  simp only [restoreStores, State.onMgi, State.onSck, reportOf_passed, decide_eq_true_eq, beq_iff_eq]

/-! ### Reassembly (R178, R179) -/

theorem discardPartial_none {s : State} (h : s.tki.reassembly = none) : discardPartial s = s :=
  if_neg (by rw [h]; exact Bool.false_ne_true)

theorem discardPartial_some {s : State} {r : Reassembly} (h : s.tki.reassembly = some r) :
    discardPartial s = count .reassemblyDiscards { s with tki := { s.tki with reassembly := none } } :=
  if_pos (by rw [h]; rfl)

/-- A complete message whose length agrees with its cells is kept, if it came to this unit or may come to all. -/
theorem completeMessage_eq (broadcast : Bool) (data : List Byte) (s : State) : completeMessage broadcast data s =
    if be16 data 0 < 8 ∨ be16 data 0 + 64 ≤ data.length ∨ data.length < be16 data 0 then
      count .reassemblyDiscards s
    else if broadcast = true ∧ byteAt (data.take (be16 data 0)) 2 ∉ [0x53, 0x54, 0x58] then count .broadcastIgnored s
    else offerMessage ⟨data.take (be16 data 0), broadcast⟩ s := by
  unfold completeMessage
  simp only
  have hlength : (8 ≤ be16 data 0 ∧ data.length < be16 data 0 + 64 ∧ be16 data 0 ≤ data.length) ↔
      ¬(be16 data 0 < 8 ∨ be16 data 0 + 64 ≤ data.length ∨ data.length < be16 data 0) := by omega
  have hkept : ∀ code, (broadcast = false ∨ code = 0x53 ∨ code = 0x54 ∨ code = 0x58) ↔
      ¬(broadcast = true ∧ code ∉ [0x53, 0x54, 0x58]) := by
    cases broadcast <;> simp [or_iff_not_imp_left]
  simp only [hlength, Message.code, hkept, ite_not]

/-- The state in which a message has begun with its first cell. -/
def begun (payload : List Byte) (seq : Nat) (broadcast : Bool) (s : State) : State :=
  { s with tki := { s.tki with reassembly := some ⟨payload, (seq + 1) % 256, broadcast, 0⟩ } }

theorem takeManagement_none {seg seq : Nat} {broadcast : Bool} {payload : List Byte} {s : State}
    (h : s.tki.reassembly = none) : takeManagement seg seq broadcast payload s =
      if seg = 0 then completeMessage broadcast payload s
      else if seg = 1 then begun payload seq broadcast s
      else count .reassemblyDiscards s := by
  unfold takeManagement
  rw [discardPartial_none h, h]
  match seg with
  | 0 => rfl
  | 1 => rfl
  | n + 2 => rfl

theorem takeManagement_some {seg seq : Nat} {broadcast : Bool} {payload : List Byte} {s : State} {r : Reassembly}
    (h : s.tki.reassembly = some r) : takeManagement seg seq broadcast payload s =
      if seg = 0 then completeMessage broadcast payload
        (count .reassemblyDiscards { s with tki := { s.tki with reassembly := none } })
      else if seg = 1 then begun payload seq broadcast
        (count .reassemblyDiscards { s with tki := { s.tki with reassembly := none } })
      else if r.nextSeq = seq ∧ r.broadcast = broadcast ∧ r.data.length < 1024 then
        if seg = 3 then
          completeMessage broadcast (r.data ++ payload) { s with tki := { s.tki with reassembly := none } }
        else begun (r.data ++ payload) seq broadcast s
      else count .reassemblyDiscards { s with tki := { s.tki with reassembly := none } } := by
  unfold takeManagement
  rw [discardPartial_some h, h]
  match seg with
  | 0 => rfl
  | 1 => rfl
  | n + 2 => rfl

/-! ### Sending (R183) -/

section Send
variable {s : State}

theorem sendManagement_eq (message : List Byte) (k : Nat) (s : State) : sendManagement message k s =
    { s with tki := { s.tki with
      mgmtSeq := (s.tki.mgmtSeq + 1) % 256
      trunkOut := some (cellBytes s.tki.unitAddress 1 (segmentOf k (cellCount message)) s.tki.mgmtSeq
        (cellPayload message k)) } } := rfl

theorem sendUpstream_flow {f : Flow} {rest : List Flow} (h : s.tki.flowQueue = f :: rest) : sendUpstream s =
    { s with tki := { s.tki with
      flowQueue := rest, flowSeq := (s.tki.flowSeq + 1) % 256
      trunkOut := some (cellBytes s.tki.unitAddress 3 f.code s.tki.flowSeq []) } } := by
  unfold sendUpstream
  rw [h]
  rfl

theorem sendUpstream_monitor {c : MonitorCell} {rest : List MonitorCell} (hf : s.tki.flowQueue = [])
    (h : s.tki.monitorQueue = c :: rest) : sendUpstream s =
    { s with tki := { s.tki with
      monitorQueue := rest
      trunkOut := some (cellBytes s.tki.unitAddress 0 6 c.seq (c.samples.flatMap fun x => w16 x.toNat)) } } := by
  unfold sendUpstream
  rw [hf, h]
  rfl

theorem sendUpstream_response {r : List Byte} {rest : List (List Byte)} (hf : s.tki.flowQueue = [])
    (hm : s.tki.monitorQueue = []) (h : s.tki.responses = r :: rest) : sendUpstream s =
    let k := s.tki.sentCells.getD 0
    { s with tki := { s.tki with
      responses := if k + 1 < cellCount r then r :: rest else rest
      sentCells := if k + 1 < cellCount r then some (k + 1) else none
      mgmtSeq := (s.tki.mgmtSeq + 1) % 256
      trunkOut := some (cellBytes s.tki.unitAddress 1 (segmentOf k (cellCount r)) s.tki.mgmtSeq
        (cellPayload r k)) } } := by
  unfold sendUpstream
  rw [hf, hm, h]
  simp only [sendResponse, sendManagement_eq]
  split
  · simp only [State.onTki, h]
  · simp only [State.onTki, h, List.tail_cons]

theorem sendUpstream_notice {n : Notice} {rest : List Notice} (hf : s.tki.flowQueue = [])
    (hm : s.tki.monitorQueue = []) (hr : s.tki.responses = []) (h : s.notices.fifo = n :: rest) : sendUpstream s =
    { s with
      notices := { s.notices with fifo := rest }
      tki := { s.tki with
        mgmtSeq := (s.tki.mgmtSeq + 1) % 256
        trunkOut := some (cellBytes s.tki.unitAddress 1 (segmentOf 0 (cellCount (noticeBytes n)))
          s.tki.mgmtSeq (cellPayload (noticeBytes n) 0)) } } := by
  unfold sendUpstream
  rw [hf, hm, hr, h]
  rfl

theorem sendUpstream_idle (hf : s.tki.flowQueue = []) (hm : s.tki.monitorQueue = []) (hr : s.tki.responses = [])
    (h : s.notices.fifo = []) : sendUpstream s = s := by
  unfold sendUpstream
  rw [hf, hm, hr, h]

end Send

end Sys2Proof.Machine
end

section
/-! The settled statements about resets, cells, reassembly and sending (R177 to R188). -/

open Sys2Proof Sys2Proof.Machine

/-- Settles O18: the options by the row each has, and the reset by the response store and the option that waits. -/
theorem resetPartIsAnsweredThenResets : Obligations.ResetPartIsAnsweredThenResets := by
  unfold Obligations.ResetPartIsAnsweredThenResets
  refine ⟨fun s m hhead hready hcode hlen => ⟨fun hb => ?_, fun hb => ?_, fun hfull hkeep => ?_⟩, fun straps s =>
    ⟨fun h => exec_resetAfterResponse_none h straps, fun h => exec_resetAfterResponse_waits h straps,
      fun hsent h => ⟨_, rfl, exec_resetAfterResponse hsent h straps⟩,
      fun hsent h => ⟨_, rfl, exec_resetAfterResponse hsent h straps⟩⟩⟩
  · exact answers_resetPart rfl hhead hready hcode hlen (by simp [hb]) rfl
  · exact answers_resetPart rfl hhead hready hcode hlen (by simp [hb]) rfl
  · exact answers_resetPart rfl hhead hready hcode hlen (by simp [hfull, hkeep]) rfl

/-- Settles O19: a result that cannot follow leaves the part alone, and any other ends self-check block by block. -/
theorem selfCheckEndsInStandbyOrFailed : Obligations.SelfCheckEndsInStandbyOrFailed := by
  unfold Obligations.SelfCheckEndsInStandbyOrFailed
  refine fun r s => ⟨fun h => if_neg ?_, fun hp hfits => ?_⟩
  · rintro ⟨hp, hfits⟩
    rcases h with h | h
    · exact h hp
    · exact Bool.false_ne_true (h.symm.trans hfits)
  · have ended : exec (.selfCheckEnd r) s = .next (endSelfCheck r s) := if_pos ⟨hp, hfits⟩
    rw [ended, endSelfCheck_eq]
    cases r <;> rfl

/-- Settles O20: the kind of a cell is one of the four. -/
theorem cellsAreCheckedAndPassedOn : Obligations.CellsAreCheckedAndPassedOn := by
  unfold Obligations.CellsAreCheckedAndPassedOn
  intro cell s
  refine congrArg Host.Outcome.next ?_
  unfold takeCell
  simp only [be16_drop, be32_drop]
  split
  · rfl
  · split
    · rfl
    · split
      · rfl
      · split
        · next hkind => rw [hkind]; rfl
        · next hkind => rw [hkind]; rfl
        · next hkind => rw [hkind]; rfl
        · next h0 h1 h2 => rw [if_neg h0, if_neg h1, if_neg h2]

/-- Settles O23: a cell by its segment position and the message in progress, a message by its length and its
destination, and the timeout by the cell age. -/
theorem messagesAreReassembled : Obligations.MessagesAreReassembled := by
  unfold Obligations.MessagesAreReassembled
  refine ⟨fun seg seq broadcast payload s _ => ⟨takeManagement_none, fun r => takeManagement_some⟩,
    completeMessage_eq, fun s => ⟨fun h => ?_, fun r h => ?_⟩⟩
  · simp only [exec, execReassemblyTimeout, h]
  · simp only [exec, execReassemblyTimeout, h, discardPartial_some h]
    split <;> rfl

/-- Settles O24, by the queues in the order in which the link looks at them. -/
theorem upstreamSendsInOrder : Obligations.UpstreamSendsInOrder := by
  unfold Obligations.UpstreamSendsInOrder
  have sent : ∀ {s t : State}, sendUpstream s = t → exec .upstreamSend s = .next t := congrArg Host.Outcome.next
  exact fun s => ⟨fun f rest h => sent (sendUpstream_flow h), fun hf =>
    ⟨fun c rest h => sent (sendUpstream_monitor hf h), fun hm =>
      ⟨fun r rest h => sent (sendUpstream_response hf hm h), fun hr =>
        ⟨fun n rest h => sent (sendUpstream_notice hf hm hr h), fun h => sent (sendUpstream_idle hf hm hr h)⟩⟩⟩⟩
end

section
/-! SUPPORT. The queue of steps that wait, and what a step does with its front. -/

namespace Sys2Proof.Machine

@[simp] theorem pending_withPending (s : State) (q : List Instr) : (s.withPending q).pending = q := rfl

/-- A queue put in place of another leaves nothing of it. -/
@[simp] theorem withPending_withPending (s : State) (q r : List Instr) :
    (s.withPending q).withPending r = s.withPending r := rfl

theorem step_of_pending_nil {s : State} (h : s.pending = []) : step s = .next s := by
  unfold step
  rw [h]

theorem step_of_pending_cons {s : State} {i : Instr} {rest : List Instr} (h : s.pending = i :: rest) :
    step s = exec i (s.withPending rest) := by
  unfold step
  rw [h]

end Sys2Proof.Machine
end

section
/-! The settled statement about the queue of steps that wait (log 2). -/

open Sys2Proof Sys2Proof.Machine

/-- Settles O1, by the front of the queue: taken and run where there is one, and an idle step on an empty queue. -/
theorem stepRunsFront : Obligations.StepRunsFront := by
  unfold Obligations.StepRunsFront
  refine ⟨fun c rest s => ?_, fun s => step_of_pending_nil⟩
  calc step (s.withPending (c :: rest))
    _ = exec c ((s.withPending (c :: rest)).withPending rest) := step_of_pending_cons (pending_withPending s _)
    _ = exec c (s.withPending rest) := by rw [withPending_withPending]
end
